-- ==== Sys2Proof/Word.lean ====
section
/-! DEFINITION. The units of every message (chapter 11): the byte of the host port and the 16 data bits of a line word. -/

namespace Sys2Proof

/-- The unit of the host port: a byte (chapter 11, introduction). -/
abbrev Byte := BitVec 8

/-- The data bits of a line word, and the width of keys, payload words and echo values (R2, R161). -/
abbrev Word := BitVec 16

end Sys2Proof
end

