-- ==== Sys2Proof/Config.lean ====
section
/-! DEFINITION. The quantities the manual fixes for the part (Tables 0-1 and 0-2, R109, R159). The configurable
quantities are state: they stand in the Host Port's configuration store. The manual leaves no value undefined after a
step that goes on, so there is no free value here. -/

namespace Sys2Proof.Config

/-- Slots of the Record Table (R1). -/
abbrev slotCount : Nat := 1024

/-- Pages of 8 slots (R1, R24). -/
abbrev pageCount : Nat := 128

/-- Slots of one page (R1). -/
abbrev slotsPerPage : Nat := 8

/-- Cycle indices of the hyperperiod, and load counters (R30). -/
abbrev indexCount : Nat := 16

/-- Node addresses 1 to 62 (R127). -/
abbrev nodeCount : Nat := 62

/-- The address of all nodes (R2). -/
abbrev allNodes : Nat := 63

/-- Entries of one batch (R80). -/
abbrev batchLimit : Nat := 32

/-- Notices reported by one TAKE NOTICES (R147). -/
abbrev takeLimit : Nat := 12

/-- Bytes the receive buffer holds (R151). -/
abbrev receiveLimit : Nat := 258

/-- The line budget of a cycle mark, in word times (R109). -/
abbrev markBudget : Nat := 3

/-- The line budget of the longest frame with its reply window, in word times (R109). -/
abbrev frameBudget : Nat := 115

/-- The line budget of the demand window, in word times (R109). -/
abbrev demandBudget : Nat := 18

end Sys2Proof.Config
end

