-- ==== Sys2Proof/Syntax.lean ====
section
/-! DEFINITION. The commands of the part: one constructor for each row of spec/opcode_table.json. -/

namespace Sys2Proof

/-- A line word as it is received or sent, by the bits of it that can differ (R161, Table 11-1). `lead` is the type bit (1
for a lead word). `LineWord.bits` gives its 20 bit times, the start bit first. -/
structure LineWord where
  lead : Bool
  data : Word
  parity : Bool
  stop : Bool
  deriving DecidableEq, Repr

/-- The commands. A host request's arguments come with `requestArrival` and are held by the port (R152, R155), so the
request's own row, its granted access or its direct handling, carries none (log entry 5). -/
inductive Instr where
  /-- POWER_ON (R157). -/
  | powerOn
  /-- RESET_ASSERT (R119). -/
  | resetAssert
  /-- RESET_RELEASE (R157). -/
  | resetRelease
  /-- INITIALIZATION_END (R157). -/
  | initializationEnd
  /-- EMPTY_TRANSACTION (R151). -/
  | emptyTransaction
  /-- FETCH (R154) of `count` whole bytes, the first of them 00h. -/
  | fetch (count : Nat)
  /-- REQUEST_ARRIVAL (R152): the whole bytes of the transaction, the request code first. -/
  | requestArrival (bytes : List Byte)
  /-- IDENTIFY (R159). -/
  | identify
  /-- STATUS (R159). -/
  | status
  /-- READ_CONFIGURATION (R159). -/
  | readConfiguration
  /-- CONFIGURE (R160). -/
  | configure
  /-- CLEAR (R158). -/
  | clear
  /-- CLEAR_INITIALIZATION_END (R158). -/
  | clearInitializationEnd
  /-- START_SCAN (R99). -/
  | startScan
  /-- STOP_SCAN (R100). -/
  | stopScan
  /-- STOP_SCAN_COMPLETION (R100). -/
  | stopScanCompletion
  /-- HOLD_SCAN (R102). -/
  | holdScan
  /-- RESUME_SCAN (R103). -/
  | resumeScan
  /-- INSERT (R50). -/
  | insert
  /-- AMEND (R53). -/
  | amend
  /-- RENEW (R54). -/
  | renew
  /-- RETIRE (R56). -/
  | retire
  /-- LOOKUP (R58). -/
  | lookup
  /-- PAGE_QUERY (R59). -/
  | pageQuery
  /-- LOAD_QUERY (R60). -/
  | loadQuery
  /-- OPEN_BATCH (R81). -/
  | openBatch
  /-- COMMIT_BATCH (R87). -/
  | commitBatch
  /-- ABORT_BATCH (R94). -/
  | abortBatch
  /-- BATCH_QUERY (R96). -/
  | batchQuery
  /-- NODE_QUERY (R132). -/
  | nodeQuery
  /-- NODE_SET (R133). -/
  | nodeSet
  /-- TAKE_NOTICES (R147). -/
  | takeNotices
  /-- BOUNDARY (R38). -/
  | boundary
  /-- LEASE_COUNTDOWN (R67). -/
  | leaseCountdown
  /-- BATCH_APPLICATION (R89). -/
  | batchApplication
  /-- PAGE_TRANSFER (R112). -/
  | pageTransfer
  /-- FRAME_START (R113). -/
  | frameStart
  /-- FRAME_END (R113). -/
  | frameEnd
  /-- REPLY_ARRIVAL (R121): words whose start bits fall within the slot in progress. -/
  | replyArrival (words : List LineWord)
  /-- REPLY_SLOT_EXPIRY (R121). -/
  | replySlotExpiry
  /-- ECHO_WRITE_BACK (R123). -/
  | echoWriteBack
  /-- DEMAND_WINDOW_OPEN (R137). -/
  | demandWindowOpen
  /-- DEMAND_REQUEST_ARRIVAL (R137): words whose start bits fall within the request allowance. -/
  | demandRequestArrival (words : List LineWord)
  /-- REQUEST_ALLOWANCE_END (R137). -/
  | requestAllowanceEnd
  /-- DEMAND_LOOKUP (R139). -/
  | demandLookup
  /-- ANSWER_ALLOWANCE_START (R140). -/
  | answerAllowanceStart
  /-- DEMAND_WINDOW_END (R140). -/
  | demandWindowEnd
  /-- READBACK_MISMATCH (R115). -/
  | readbackMismatch
  /-- STRAY_LINE_WORD (R121): a word received at any other time. -/
  | strayLineWord (word : LineWord)
  /-- STORAGE_UPSET (R15) of one slot. -/
  | storageUpset (slot : Nat)
  /-- ANSWER_SENT (R140). -/
  | answerSent
  /-- CYCLE_MARK_END (R117). -/
  | cycleMarkEnd
  deriving DecidableEq, Repr

end Sys2Proof
end

