-- ==== Sys2Proof/WellFormed.lean ====
section
/-! DEFINITION. Which commands can arise: the range of each operand. -/

namespace Sys2Proof

/-- The operand ranges. A fetch has at least its first byte and a request transaction a first byte other than 00h
(R151). A reply slot of 3 word times takes at most 3 words and a request allowance of 4 word times at most 4 (R108,
R121, R137). A slot index is 0 to 1023 (R1). -/
def Instr.wf : Instr → Bool
  | .fetch count => decide (1 ≤ count)
  | .requestArrival bytes => match bytes with
    | [] => false
    | code :: _ => decide (code ≠ 0)
  | .replyArrival words => decide (1 ≤ words.length ∧ words.length ≤ 3)
  | .demandRequestArrival words => decide (1 ≤ words.length ∧ words.length ≤ 4)
  | .storageUpset slot => decide (slot < Config.slotCount)
  | .powerOn | .resetAssert | .resetRelease | .initializationEnd | .emptyTransaction => true
  | .identify | .status | .readConfiguration | .configure | .clear | .clearInitializationEnd => true
  | .startScan | .stopScan | .stopScanCompletion | .holdScan | .resumeScan => true
  | .insert | .amend | .renew | .retire | .lookup | .pageQuery | .loadQuery => true
  | .openBatch | .commitBatch | .abortBatch | .batchQuery | .nodeQuery | .nodeSet | .takeNotices => true
  | .boundary | .leaseCountdown | .batchApplication | .pageTransfer | .frameStart | .frameEnd => true
  | .replySlotExpiry | .echoWriteBack | .demandWindowOpen | .requestAllowanceEnd | .demandLookup => true
  | .answerAllowanceStart | .demandWindowEnd | .readbackMismatch | .strayLineWord _ | .answerSent => true
  | .cycleMarkEnd => true

end Sys2Proof
end

