-- ==== Sys2Proof/Machine/State.lean ====
section
/-! DEFINITION. The state of the part, block by block (Table 0-3), with the queue of waiting commands, and the state right
after power-on. The numbered tables (slots, page records, node records, Key Directory) are lists in the canonical form of
Machine/Sparse.lean. -/

namespace Sys2Proof.Machine

/-! ### Records and slots (chapter 1) -/

/-- The rate classes (R24). -/
inductive RateClass where
  | p1 | p2 | p4 | p8 | p16
  deriving DecidableEq, Repr

/-- The echo states (R5). -/
inductive EchoState where
  | none | fresh | stale
  deriving DecidableEq, Repr

/-- The echo value and the answered revision, which are present together (R5, R123). -/
structure EchoHeld where
  value : Word
  revision : Byte
  deriving DecidableEq, Repr

/-- The echo of a record (R5). -/
structure Echo where
  state : EchoState
  held : Option EchoHeld
  deriving DecidableEq, Repr

/-- The fields of Table 1-2 that every state but DAMAGED keeps (R2). A lease length is present when the record has a
lease, an echo when reply requested is yes, and the echo changed flag when notify on change is yes. -/
structure Record where
  key : Word
  node : Nat
  channel : Nat
  cls : RateClass
  payload : List Word
  revision : Byte
  replyRequested : Bool
  notify : Bool
  leaseLength : Option Nat
  echo : Option Echo
  echoChanged : Option Bool
  deriving DecidableEq, Repr

/-- Why a record is withdrawn (R9). -/
inductive Cause where
  | retired | expired
  deriving DecidableEq, Repr

/-- A slot in its state, with the fields that state holds (R1, Table 1-2). A DAMAGED slot keeps only its key, which the
Key Directory holds (R11). -/
inductive Slot where
  | free
  | reserved (record : Record)
  | live (record : Record) (remaining : Option Nat) (amendStaged : Bool)
  | withdrawing (record : Record) (cause : Cause) (count : Nat)
  | lapsed (record : Record)
  | damaged (reported : Bool)
  deriving DecidableEq, Repr

/-- A slot with its stored check, of which only the failure is observable (R15): `upset` says that the check will fail
at the next verifying read. Every write renews the check. -/
structure Cell where
  slot : Slot
  upset : Bool
  deriving DecidableEq, Repr

/-- What an unlisted slot reads as: FREE (R6). -/
def Cell.empty : Cell := ⟨.free, false⟩

/-! ### Pages and the Cycle Plan (chapter 2) -/

/-- The page states, read off the slots (R26, Table 2-2). -/
inductive PageState where
  | closed | dormant | opening | open_
  deriving DecidableEq, Repr

/-- Class and phase of a page in OPENING or OPEN (R24). -/
structure Schedule where
  cls : RateClass
  phase : Nat
  deriving DecidableEq, Repr

/-- A page record (Table 2-1) less its state, which follows from the slots. -/
structure PageRecord where
  schedule : Option Schedule
  lastTransfer : Option Word
  deriving DecidableEq, Repr

/-- What an unlisted page reads as (R24). -/
def PageRecord.empty : PageRecord := ⟨none, none⟩

/-- An entry of the due list (R40, R44). -/
structure DueEntry where
  page : Nat
  transferred : Bool
  deriving DecidableEq, Repr

/-- What the table accesses read and change together: the slots, the Key Directory (key to slot index), the page
records, the load counters and the due list (R18). -/
structure Store where
  cells : List (Nat × Cell)
  directory : List (Nat × Nat)
  pages : List (Nat × PageRecord)
  loads : List Nat
  due : List DueEntry
  deriving DecidableEq, Repr

/-- The Cycle Timer (Table 2-8). -/
structure CycleTimer where
  running : Bool
  index : BitVec 4
  count : Word
  deriving DecidableEq, Repr

/-! ### Batches (chapter 5) -/

/-- The batch states (R79). -/
inductive BatchState where
  | none | open_ | sealed_
  deriving DecidableEq, Repr

/-- The operation of a batch entry with what it holds (R80): an INSERT its staged copy, an AMEND its payload and its
lease field. -/
inductive BatchOp where
  | insert (copy : Record)
  | amend (payload : List Word) (lease : Option Nat)
  | retire
  deriving DecidableEq, Repr

/-- A batch entry (R80). -/
structure BatchEntry where
  op : BatchOp
  key : Word
  slot : Nat
  deriving DecidableEq, Repr

/-- The Batch Unit (R79). -/
structure BatchUnit where
  state : BatchState
  entries : List BatchEntry
  deriving DecidableEq, Repr

/-! ### The Scan Engine and the line (chapter 6) -/

/-- The scan states (R97). -/
inductive ScanState where
  | stopped | run | hold | fault
  deriving DecidableEq, Repr

/-- The pending request of the Scan Engine (R98). -/
inductive ScanRequest where
  | none | hold | resume
  deriving DecidableEq, Repr

/-- One entry of a frame or of an answer, as it was copied (R112, R139). A withdrawal entry has `withdraw` set,
`reply` clear and no payload (R162). -/
structure Entry where
  slot : Nat
  key : Word
  node : Nat
  channel : Nat
  revision : Byte
  withdraw : Bool
  reply : Bool
  payload : List Word
  deriving DecidableEq, Repr

/-- The copy of a page in a frame register (R112). -/
structure Frame where
  page : Nat
  entries : List Entry
  deriving DecidableEq, Repr

/-- A frame register (R111). -/
inductive FrameRegister where
  | free
  | filled (frame : Frame)
  | inFlight (frame : Frame)
  deriving DecidableEq, Repr

/-- What the line carries, in the order of R107. `between`: an item has ended and the next one of the cycle begins
now. -/
inductive LineState where
  | idle | mark | frame | replyWindow | between | demandWindow
  deriving DecidableEq, Repr

/-- The abort word that STOP SCAN owes to the line (R100). -/
inductive Abort where
  | none | afterWord | afterSlot | afterAllowance | sent
  deriving DecidableEq, Repr

/-- The Scan Engine (R97, R98, R111). `sent` is the model's observation of the line: the words of the item last begun
(log entry 16). -/
structure ScanEngine where
  state : ScanState
  request : ScanRequest
  regA : FrameRegister
  regB : FrameRegister
  line : LineState
  abort : Abort
  sent : List LineWord
  deriving DecidableEq, Repr

/-! ### Replies, nodes and demand lookups (chapters 7 and 8) -/

/-- The result of a reply slot (R120, Table 7-2). -/
inductive ReplyResult where
  | undecided
  | valid (value : Word)
  | absent
  | invalid
  deriving DecidableEq, Repr

/-- A slot of the reply slot list (R120). -/
structure ReplySlot where
  slot : Nat
  key : Word
  node : Nat
  revision : Byte
  result : ReplyResult
  deriving DecidableEq, Repr

/-- The Reply Unit (R120): the slots not yet handled, in slot order, and the words received in the slot in progress. -/
structure ReplyUnit where
  slots : List ReplySlot
  words : List LineWord
  deriving DecidableEq, Repr

/-- What the part concluded about a node (Table 7-4). -/
inductive Presence where
  | unseen | present | silent
  deriving DecidableEq, Repr

/-- A node record (Table 7-4). Its address is its number in the table. -/
structure NodeRecord where
  presence : Presence
  reported : Presence
  misses : Nat
  errors : Nat
  permitted : Bool
  deriving DecidableEq, Repr

/-- A node record after reset and CLEAR (R127), and what an unlisted node reads as. -/
def NodeRecord.initial : NodeRecord := ⟨.unseen, .unseen, 0, 0, false⟩

/-- The Node Table (R127). -/
structure NodeTable where
  records : List (Nat × NodeRecord)
  pointer : Nat
  deriving DecidableEq, Repr

/-- The states of the Demand Server (Table 8-1). -/
inductive DemandState where
  | closed | listening | looking | answering | silentWindow
  deriving DecidableEq, Repr

/-- The answer that a lookup chose (Table 8-3). -/
inductive Answer where
  | entry (copy : Entry)
  | withdrawal (copy : Entry)
  | notFound (key : Word)
  deriving DecidableEq, Repr

/-- The Demand Server (R137): the invited node of the cycle (0: none), the key requested, the words received in the
request allowance, and the answer from its lookup until it is sent. -/
structure DemandServer where
  state : DemandState
  invited : Nat
  key : Option Word
  words : List LineWord
  answer : Option Answer
  deriving DecidableEq, Repr

/-! ### Notices (chapter 9) -/

/-- The content of a BATCH_APPLIED notice (R144). -/
structure AppliedNotice where
  applied : Nat
  lapsed : Nat
  merged : Bool
  deriving DecidableEq, Repr

/-- The content of a LINE_FAULT notice (R145). -/
structure FaultNotice where
  cycle : Word
  repeated : Bool
  deriving DecidableEq, Repr

/-- The two device notices of the Notice Unit (R143); a clear flag has no content. -/
structure NoticeUnit where
  applied : Option AppliedNotice
  fault : Option FaultNotice
  deriving DecidableEq, Repr

/-! ### The Host Port (chapter 10) -/

/-- The port states (R152). -/
inductive PortState where
  | init | ready | working
  deriving DecidableEq, Repr

/-- Which table initialization the port runs while INIT (R152, R157, R158). -/
inductive InitCause where
  | reset | clear
  deriving DecidableEq, Repr

/-- The line rates (R160). -/
inductive LineRate where
  | mbit10 | mbit5 | mbit2_5
  deriving DecidableEq, Repr

/-- The configuration store (Table 10-6). `steps` is L in steps of 250 microseconds. -/
structure Configuration where
  rate : LineRate
  steps : Nat
  frames : Nat
  withdrawals : Nat
  misses : Nat
  deriving DecidableEq, Repr

/-- The defaults (R157): 10 Mbit/s, L 1000 microseconds, F 4, W 2, M 3. -/
def Configuration.default : Configuration := ⟨.mbit10, 4, 4, 2, 3⟩

/-- The arguments of INSERT once checked (R49). -/
structure InsertArgs where
  key : Word
  node : Nat
  channel : Nat
  cls : RateClass
  replyRequested : Bool
  notify : Bool
  lease : Option Nat
  payload : List Word
  deriving DecidableEq, Repr

/-- A request that has passed its framing and argument checks (R155, Table 11-5). A lease field is absent or a value
(R52, R54). -/
inductive Request where
  | identify
  | status
  | readConfiguration
  | configure (config : Configuration)
  | clear
  | startScan
  | stopScan
  | holdScan
  | resumeScan
  | insert (args : InsertArgs)
  | amend (key : Word) (payload : List Word) (lease : Option Nat)
  | renew (key : Word) (lease : Option Nat)
  | retire (key : Word)
  | lookup (key : Word)
  | pageQuery (page : Nat)
  | loadQuery
  | openBatch
  | commitBatch
  | abortBatch
  | batchQuery
  | nodeQuery (node : Nat)
  | nodeSet (node : Nat) (permitted clearErrors : Bool)
  | takeNotices
  deriving DecidableEq, Repr

/-- The Host Port (R151 to R160). `received` and `receivedCount` are the receive buffer and the count of bytes;
`request` is the request held while WORKING; `stopScanDone` says that the access of a held STOP SCAN is complete (R100);
`miso` is the model's observation of MISO: the bytes returned in the last transaction (log entry 16). -/
structure HostPort where
  state : PortState
  initCause : InitCause
  resetAsserted : Bool
  received : List Byte
  receivedCount : Nat
  request : Option Request
  stopScanDone : Bool
  response : List Byte
  resetSeen : Bool
  requestDiscarded : Bool
  config : Configuration
  miso : List Byte
  deriving DecidableEq, Repr

/-! ### The Table Access Arbiter (1.6) -/

/-- A claim of an accessor, with what it names (R18, Table 1-5): the page of a transfer, the slot result of an echo
write-back, the key of a lookup. -/
inductive Claim where
  | transfer (page : Nat)
  | writeBack (item : ReplySlot)
  | countdown
  | application
  | lookup (key : Word)
  | host
  deriving DecidableEq, Repr

/-- The arbiter (R18): the access in progress and the set of waiting claims, at most one of each accessor. -/
structure Arbiter where
  inProgress : Option Claim
  waiting : List Claim
  deriving DecidableEq, Repr

/-! ### The whole part -/

/-- The state of the part and the queue of waiting commands. -/
structure State where
  port : HostPort
  arbiter : Arbiter
  store : Store
  timer : CycleTimer
  batch : BatchUnit
  scan : ScanEngine
  reply : ReplyUnit
  nodes : NodeTable
  demand : DemandServer
  notices : NoticeUnit
  pending : List Instr
  deriving DecidableEq, Repr

/-- The part has no state in which it stops with a fault: no command raises one. -/
inductive Fault where
  deriving DecidableEq, Repr

/-- Why a step can have no meaning. -/
inductive Refusal where
  /-- Raised only by an arm of `exec` whose command has no meaning yet; there is none. Safe. -/
  | notModelled (mnemonic : String)
  deriving DecidableEq, Repr

/-! ### Reset values -/

/-- The Record Table and Cycle Plan after table initialization (R21, R45). -/
def Store.initial : Store := ⟨[], [], [], List.replicate Config.indexCount 0, []⟩

/-- The Cycle Timer after power-on, RESET# and CLEAR (R36). -/
def CycleTimer.initial : CycleTimer := ⟨false, 0, 0⟩

/-- The Batch Unit after power-on and RESET# (R79). -/
def BatchUnit.initial : BatchUnit := ⟨.none, []⟩

/-- The Scan Engine after power-on and RESET# (R119). -/
def ScanEngine.initial : ScanEngine := ⟨.stopped, .none, .free, .free, .idle, .none, []⟩

/-- The Reply Unit after power-on and RESET# (R120). -/
def ReplyUnit.initial : ReplyUnit := ⟨[], []⟩

/-- The Node Table after power-on, RESET# and CLEAR (R127). -/
def NodeTable.initial : NodeTable := ⟨[], 62⟩

/-- The Demand Server after power-on, RESET# and CLEAR (R137). -/
def DemandServer.initial : DemandServer := ⟨.closed, 0, none, [], none⟩

/-- The Notice Unit after power-on, RESET# and CLEAR (R150). -/
def NoticeUnit.initial : NoticeUnit := ⟨none, none⟩

/-- The arbiter after power-on and RESET# (R18). -/
def Arbiter.initial : Arbiter := ⟨none, []⟩

/-- The Host Port right after power-on: INIT, with table initialization running (R157; log entry 6 for the fields the
manual gives no value). -/
def HostPort.initial : HostPort :=
  { state := .init, initCause := .reset, resetAsserted := false, received := [], receivedCount := 0, request := none,
    stopScanDone := false, response := [], resetSeen := false, requestDiscarded := false,
    config := Configuration.default, miso := [] }

/-- The part right after power-on or the release of RESET#, before its initialization ends (R157; log entry 20). -/
def State.reset : State :=
  { port := HostPort.initial, arbiter := Arbiter.initial, store := Store.initial, timer := CycleTimer.initial,
    batch := BatchUnit.initial, scan := ScanEngine.initial, reply := ReplyUnit.initial, nodes := NodeTable.initial,
    demand := DemandServer.initial, notices := NoticeUnit.initial, pending := [] }

end Sys2Proof.Machine
end

