-- ==== Sys2Proof/Machine/Formats.lean ====
section
/-! DEFINITION. The layouts of chapter 11: line words and items, check words, code values, and the byte order of the host
port. -/

namespace Sys2Proof.Machine

/-! ### Bytes of the host port (R165) -/

/-- A byte whose value is a count or a code. -/
def byteOf (n : Nat) : Byte := BitVec.ofNat 8 n

/-- The two bytes of a 16-bit value, most significant first (R165). -/
def bytesOfWord (w : Word) : List Byte := [w.extractLsb' 8 8, w.extractLsb' 0 8]

/-- The 16-bit value of two bytes, most significant first (R165). -/
def wordOfBytes (hi lo : Byte) : Word := hi ++ lo

/-- The two bytes of a count, most significant first (R165). -/
def bytesOfNat (n : Nat) : List Byte := bytesOfWord (BitVec.ofNat 16 n)

/-- The words of a payload as it stands in a request (R165). -/
def wordsOfBytes : List Byte → List Word
  | hi :: lo :: rest => wordOfBytes hi lo :: wordsOfBytes rest
  | _ => []

/-- A flag as bit `n` of a flags byte. -/
def bitAt (n : Nat) (b : Bool) : Byte := if b then BitVec.ofNat 8 (2 ^ n) else 0

/-! ### CRC-8 of the host port (R164) -/

/-- One bit of the CRC-8 register, generator 07h. -/
def crc8Bit (reg : Byte) : Byte :=
  if reg.msb then (reg <<< 1) ^^^ 0x07#8 else reg <<< 1

/-- `n` bits of the CRC-8 register. -/
def crc8Bits : Nat → Byte → Byte
  | 0, reg => reg
  | n + 1, reg => crc8Bits n (crc8Bit reg)

/-- The CRC-8 of a run of bytes: start 00h, each byte most significant bit first, not inverted (R164). -/
def crc8 (bytes : List Byte) : Byte :=
  bytes.foldl (fun reg b => crc8Bits 8 (reg ^^^ b)) 0

/-! ### CRC-16 of the line (R163) -/

/-- One bit of the CRC-16 register, generator 1021h. -/
def crc16Bit (reg : Word) : Word :=
  if reg.msb then (reg <<< 1) ^^^ 0x1021#16 else reg <<< 1

/-- `n` bits of the CRC-16 register. -/
def crc16Bits : Nat → Word → Word
  | 0, reg => reg
  | n + 1, reg => crc16Bits n (crc16Bit reg)

/-- The CRC-16 of a run of 16-bit values: start FFFFh, each most significant bit first, not inverted (R163). -/
def crc16 (values : List Word) : Word :=
  values.foldl (fun reg v => crc16Bits 16 (reg ^^^ v)) 0xFFFF#16

end Sys2Proof.Machine

namespace Sys2Proof

/-! ### Line words (R161) -/

/-- Whether the number of ones among `n` low bits of a word is odd. -/
def oddOnes : Nat → Word → Bool
  | 0, _ => false
  | n + 1, w => xor (w.getLsbD n) (oddOnes n w)

/-- The parity bit that makes the ones among type, data and parity even (Table 11-1). -/
def parityOf (lead : Bool) (data : Word) : Bool := xor lead (oddOnes 16 data)

/-- A word as the part sends it: parity computed, stop bit set (R161). -/
def LineWord.make (lead : Bool) (data : Word) : LineWord := ⟨lead, data, parityOf lead data, true⟩

/-- A received word with no parity and no stop error (R161). -/
def LineWord.sound (w : LineWord) : Bool := w.parity == parityOf w.lead w.data && w.stop

/-- The 20 bit times of a word on the line: the start bit 0, the type, the data bits most significant first, the parity
bit and the stop bit (Table 11-1). -/
def LineWord.bits (w : LineWord) : List Bool :=
  false :: w.lead :: (List.range 16).map (fun k => w.data.getLsbD (15 - k)) ++ [w.parity, w.stop]

/-- The word that 20 bit times hold, if they begin with the start bit (Table 11-1). -/
def LineWord.ofBits (bits : List Bool) : Option LineWord :=
  if bits.length = 20 ∧ bits.head? = some false then
    some ⟨bits.getD 1 false, BitVec.ofFnLE fun k : Fin 16 => bits.getD (17 - k) false, bits.getD 18 false,
      bits.getD 19 false⟩
  else none

/-- The words on the line from a bit time on, with the level before it and the bits already taken of a word in progress:
a word begins where the line falls from 1 to the start bit, and takes 20 bit times (R105, R161). -/
def hearFrom (level : Bool) (taken : List Bool) : List Bool → List LineWord
  | [] => []
  | b :: rest =>
    if taken = [] then hearFrom b (if level && !b then [b] else []) rest
    else if taken.length = 19 then (LineWord.ofBits (taken ++ [b])).toList ++ hearFrom b [] rest
    else hearFrom b (taken ++ [b]) rest

/-- The level at which the undriven line rests: 1, the level of the stop bit (R161). -/
def idleLevel : Bool := true

/-- The words in a run of bit times of a line that was idle before it (R161): the line words that a node's transmission
brings to REPLY_ARRIVAL, DEMAND_REQUEST_ARRIVAL or STRAY_LINE_WORD. -/
def hear (line : List Bool) : List LineWord := hearFrom idleLevel [] line

/-- The item code in a lead word (Table 11-2). -/
def LineWord.code (w : LineWord) : BitVec 4 := w.data.extractLsb' 12 4

/-- The node address in the first word of a demand request (Table 11-3). -/
def LineWord.requester (w : LineWord) : BitVec 6 := w.data.extractLsb' 6 6

end Sys2Proof

namespace Sys2Proof.Machine

/-- The abort word: a lead word with code Fh and data F000h (R161). -/
def abortWord : LineWord := LineWord.make true 0xF000#16

/-- The bit times of the item last begun on the line: its words back to back (R105, R161). -/
def State.lineBits (s : State) : List Bool := s.scan.sent.flatMap LineWord.bits

/-- The data of a lead word: an item code over 12 bits of fields (Table 11-2). -/
def leadData (code fields : Nat) : Word := BitVec.ofNat 16 (code * 4096 + fields)

/-- The words of an item: the first `leads` give the type bits of its data words, and the CRC-16 over all of them closes
it (Table 11-3). -/
def closeItem (words : List (Bool × Word)) : List LineWord :=
  words.map (fun w => LineWord.make w.1 w.2) ++ [LineWord.make false (crc16 (words.map (·.2)))]

/-- The words of a cycle mark (Table 11-3, R106). -/
def markWords (hold start : Bool) (invited : Nat) (index : BitVec 4) (count : Word) : List LineWord :=
  closeItem
    [(true, leadData 1 (hold.toNat * 2048 + start.toNat * 1024 + invited * 16 + index.toNat)), (false, count)]

/-- The words of one entry (Table 11-3). -/
def entryWords (e : Entry) : List (Bool × Word) :=
  [(true, leadData 3 (e.node * 64 + e.channel * 4 + e.withdraw.toNat * 2 + e.reply.toNat)), (false, e.key),
    (false, BitVec.ofNat 16 (e.payload.length * 256 + e.revision.toNat))] ++ e.payload.map (fun w => (false, w))

/-- The words of a frame (Table 11-3, R113). -/
def frameWords (f : Frame) (count : Word) : List LineWord :=
  closeItem
    ([(true, leadData 2 (f.page * 32 + f.entries.length * 2)), (false, count)] ++ f.entries.flatMap entryWords)

/-- The opening word of an answer (Table 11-3). -/
def answerLead (kind invited : Nat) (index : BitVec 4) : Bool × Word :=
  (true, leadData 5 (kind * 1024 + invited * 16 + index.toNat))

/-- The words of an answer (Table 11-3, R140, R162). -/
def answerWords (a : Answer) (invited : Nat) (index : BitVec 4) : List LineWord :=
  match a with
  | .entry e => closeItem (answerLead 0 invited index :: entryWords e)
  | .withdrawal e => closeItem (answerLead 1 invited index :: entryWords e)
  | .notFound key => closeItem [answerLead 2 invited index, (false, key)]

/-! ### Code values (Tables 11-5 to 11-9) -/

/-- The period of a rate class in minor cycles (R24). -/
def RateClass.period : RateClass → Nat
  | .p1 => 1
  | .p2 => 2
  | .p4 => 4
  | .p8 => 8
  | .p16 => 16

/-- The class codes of R165. -/
def RateClass.code : RateClass → Byte
  | .p1 => 0
  | .p2 => 1
  | .p4 => 2
  | .p8 => 3
  | .p16 => 4

/-- The class of a class code; any other code names none (R165). -/
def RateClass.ofCode (b : Byte) : Option RateClass :=
  if b = 0 then some .p1 else if b = 1 then some .p2 else if b = 2 then some .p4
  else if b = 3 then some .p8 else if b = 4 then some .p16 else none

/-- The rate codes of Table 11-5. -/
def LineRate.code : LineRate → Byte
  | .mbit10 => 0
  | .mbit5 => 1
  | .mbit2_5 => 2

/-- The rate of a rate code; any other code names none (R165). -/
def LineRate.ofCode (b : Byte) : Option LineRate :=
  if b = 0 then some .mbit10 else if b = 1 then some .mbit5 else if b = 2 then some .mbit2_5 else none

/-- The word time in microseconds (R105). -/
def LineRate.wordTime : LineRate → Nat
  | .mbit10 => 2
  | .mbit5 => 4
  | .mbit2_5 => 8

/-- The bit time in nanoseconds: the reciprocal of the line rate, a twentieth of the word time (R105, R161). -/
def LineRate.bitTime : LineRate → Nat
  | .mbit10 => 100
  | .mbit5 => 200
  | .mbit2_5 => 400

/-- The slot state codes of Table 11-9. -/
def Slot.code : Slot → Byte
  | .free => 0
  | .reserved _ => 1
  | .live _ _ _ => 2
  | .withdrawing _ _ _ => 3
  | .lapsed _ => 4
  | .damaged _ => 5

/-- The page state codes of Table 11-9. -/
def PageState.code : PageState → Byte
  | .closed => 0
  | .dormant => 1
  | .opening => 2
  | .open_ => 3

/-- The echo state codes of Table 11-9. -/
def EchoState.code : EchoState → Byte
  | .none => 0
  | .fresh => 1
  | .stale => 2

/-- The presence codes of Table 11-9. -/
def Presence.code : Presence → Byte
  | .unseen => 0
  | .present => 1
  | .silent => 2

/-- The withdrawal cause codes of Table 11-9. -/
def Cause.code : Cause → Byte
  | .retired => 0
  | .expired => 1

/-- The batch state codes of Table 11-9. -/
def BatchState.code : BatchState → Byte
  | .none => 0
  | .open_ => 1
  | .sealed_ => 2

/-- The operation codes of BATCH QUERY (Table 11-8). -/
def BatchOp.code : BatchOp → Byte
  | .insert _ => 1
  | .amend _ _ => 2
  | .retire => 3

/-- The response statuses (Table 10-5). -/
inductive Status where
  | ok | accepted | pending | notReady | resetDone | badCheck
  | badLength | unknown | badArg | badKey | keyExists | noKey
  | notLive | tableFull | noCapacity | conflict | batchFull | noBatch
  | batchOpen | batchSealed | wrongState | loadExceeds | configInvalid
  deriving DecidableEq, Repr

/-- The status codes of Table 11-6. -/
def Status.code : Status → Byte
  | .ok => 0x00
  | .accepted => 0x01
  | .pending => 0x02
  | .notReady => 0x03
  | .resetDone => 0x04
  | .badCheck => 0x10
  | .badLength => 0x11
  | .unknown => 0x12
  | .badArg => 0x13
  | .badKey => 0x14
  | .keyExists => 0x20
  | .noKey => 0x21
  | .notLive => 0x22
  | .tableFull => 0x23
  | .noCapacity => 0x24
  | .conflict => 0x30
  | .batchFull => 0x31
  | .noBatch => 0x32
  | .batchOpen => 0x33
  | .batchSealed => 0x34
  | .wrongState => 0x40
  | .loadExceeds => 0x41
  | .configInvalid => 0x42

/-- The bytes of a response: status, summary, length, data, CRC-8 over all of them (R154, R164). -/
def responseBytes (status : Status) (summary : Byte) (data : List Byte) : List Byte :=
  let body := status.code :: summary :: byteOf data.length :: data
  body ++ [crc8 body]

end Sys2Proof.Machine
end

