-- ==== Sys2Proof/Machine/Sparse.lean ====
section
/-! DEFINITION. Numbered tables held as a list of (number, value) pairs in one canonical form: numbers strictly rising, and
no entry equal to what an unlisted number reads as. The slots, the page records, the node records and the Key Directory
are held so. -/

namespace Sys2Proof.Machine.Sparse

variable {α : Type}

/-- The value listed at a number, if one is. -/
def find? : List (Nat × α) → Nat → Option α
  | [], _ => none
  | e :: rest, i => if e.1 = i then some e.2 else find? rest i

/-- The value at a number, `d` where none is listed. -/
def get (t : List (Nat × α)) (d : α) (i : Nat) : α :=
  match find? t i with
  | some v => v
  | none => d

/-- The list without any entry at a number. -/
def erase (t : List (Nat × α)) (i : Nat) : List (Nat × α) :=
  t.filter fun e => decide (e.1 ≠ i)

/-- An entry placed before the first greater number. -/
def place (i : Nat) (v : α) : List (Nat × α) → List (Nat × α)
  | [] => [(i, v)]
  | e :: rest => if i < e.1 then (i, v) :: e :: rest else e :: place i v rest

/-- The list with the value `v` at number `i`. -/
def insert (t : List (Nat × α)) (i : Nat) (v : α) : List (Nat × α) :=
  place i v (erase t i)

/-- The list with the value `v` at number `i`, where unlisted numbers read as `d`: writing `d` removes the entry. -/
def put [DecidableEq α] (t : List (Nat × α)) (d : α) (i : Nat) (v : α) : List (Nat × α) :=
  if v = d then erase t i else insert t i v

/-- Every listed value changed by `f`; an entry that becomes `d` is removed. -/
def mapValues [DecidableEq α] (t : List (Nat × α)) (d : α) (f : α → α) : List (Nat × α) :=
  (t.map fun e => (e.1, f e.2)).filter fun e => decide (e.2 ≠ d)

/-- Numbers strictly rising. -/
def rising : List (Nat × α) → Bool
  | [] => true
  | [_] => true
  | a :: b :: rest => decide (a.1 < b.1) && rising (b :: rest)

/-- The canonical form: numbers strictly rising, and no entry equal to what an unlisted number reads as. -/
def wf [DecidableEq α] (t : List (Nat × α)) (d : α) : Bool :=
  rising t && t.all fun e => decide (e.2 ≠ d)

end Sys2Proof.Machine.Sparse
end

