-- ==== Sys2Proof/Machine/Ops.lean ====
section
/-! DEFINITION. The named operations over the Record Table, the Key Directory, the page records, the load counters and the
due list (chapters 1 to 5), and over the Node Table (chapters 7 and 8). A function on `Store` touches nothing else of the
part: it is the table work of one access (R18). -/

namespace Sys2Proof.Machine

/-! ### Reading the table -/

/-- The slot indices in ascending order (R1). -/
def slotIndices : List Nat := List.range Config.slotCount

/-- The page numbers in ascending order (R24). -/
def pageIndices : List Nat := List.range Config.pageCount

/-- The cycle indices in ascending order (R30). -/
def cycleIndices : List Nat := List.range Config.indexCount

/-- A slot with its stored check. -/
def Store.cellAt (st : Store) (i : Nat) : Cell := Sparse.get st.cells Cell.empty i

/-- The slot at an index (R1). -/
def Store.slotAt (st : Store) (i : Nat) : Slot := (st.cellAt i).slot

/-- The page record of a page (R24). -/
def Store.pageAt (st : Store) (p : Nat) : PageRecord := Sparse.get st.pages PageRecord.empty p

/-- The Key Directory searched by key (R14). -/
def Store.slotOfKey (st : Store) (key : Word) : Option Nat := Sparse.find? st.directory key.toNat

/-- The Key Directory's reverse view: the key mapped to a slot (R13, 1.4). -/
def Store.keyAt (st : Store) (i : Nat) : Option Word :=
  match st.directory.find? fun e => decide (e.2 = i) with
  | some e => some (BitVec.ofNat 16 e.1)
  | none => none

/-- The index of a slot of a page (R1, Table 1-1). -/
def slotIndex (p k : Nat) : Nat := p * Config.slotsPerPage + k

/-- The 8 slots of a page in slot order (R1). -/
def Store.pageSlots (st : Store) (p : Nat) : List Slot :=
  (List.range Config.slotsPerPage).map fun k => st.slotAt (slotIndex p k)

/-- LIVE or WITHDRAWING: the states whose records are sent (Table 1-3). -/
def Slot.emittable : Slot → Bool
  | .live _ _ _ | .withdrawing _ _ _ => true
  | .free | .reserved _ | .lapsed _ | .damaged _ => false

/-- Whether a slot is RESERVED (R7). -/
def Slot.isReserved : Slot → Bool
  | .reserved _ => true
  | .free | .live _ _ _ | .withdrawing _ _ _ | .lapsed _ | .damaged _ => false

/-- Whether a slot is FREE (R6). -/
def Slot.isFree : Slot → Bool
  | .free => true
  | .reserved _ | .live _ _ _ | .withdrawing _ _ _ | .lapsed _ | .damaged _ => false

/-- The record a slot holds with its fields; a DAMAGED slot keeps only its key (R11). -/
def Slot.record? : Slot → Option Record
  | .reserved r | .live r _ _ | .withdrawing r _ _ | .lapsed r => some r
  | .free | .damaged _ => none

/-- The state of a page, read off its slots (R26, Table 2-2). -/
def Store.pageState (st : Store) (p : Nat) : PageState :=
  let slots := st.pageSlots p
  if slots.any Slot.emittable then .open_
  else if slots.any Slot.isReserved then .opening
  else if slots.all Slot.isFree then .closed
  else .dormant

/-! ### Load counters and the due list (R30, R40 to R44) -/

/-- A load counter (R30). -/
def Store.load (st : Store) (i : Nat) : Nat := st.loads.getD i 0

/-- Whether a page with this schedule is due at a cycle index (R24). -/
def Schedule.dueAt (sc : Schedule) (i : Nat) : Bool := decide (i % sc.cls.period = sc.phase)

/-- Every counter of a schedule's indices raised by 1 (R30). -/
def Store.addLoad (st : Store) (sc : Schedule) : Store :=
  { st with loads := cycleIndices.map fun i => if sc.dueAt i then st.load i + 1 else st.load i }

/-- Every counter of a schedule's indices lowered by 1 (R30). -/
def Store.removeLoad (st : Store) (sc : Schedule) : Store :=
  { st with loads := cycleIndices.map fun i => if sc.dueAt i then st.load i - 1 else st.load i }

/-- The largest load counter (R35). -/
def Store.maxLoad (st : Store) : Nat := st.loads.foldl max 0

/-- A page struck from the due list while it stands there untransferred (R43). -/
def Store.strike (st : Store) (p : Nat) : Store :=
  { st with due := st.due.filter fun e => e.transferred || decide (e.page ≠ p) }

/-- The first untransferred entry of the due list (R44). -/
def Store.nextDue (st : Store) : Option Nat :=
  match st.due.find? fun e => !e.transferred with
  | some e => some e.page
  | none => none

/-- Whether a page stands untransferred on the due list (R43). -/
def Store.isDue (st : Store) (p : Nat) : Bool :=
  st.due.any fun e => !e.transferred && decide (e.page = p)

/-- The entry of a page marked as transferred (R44). -/
def Store.markTransferred (st : Store) (p : Nat) : Store :=
  { st with due := st.due.map fun e => if e.page = p then { e with transferred := true } else e }

/-- Whether a page is carried at a cycle index in frames of one class: OPEN with that class and due (R40). -/
def Store.carriedAt (st : Store) (i : Nat) (k : RateClass) (p : Nat) : Bool :=
  match (st.pageAt p).schedule with
  | some sc => decide (sc.cls = k) && sc.dueAt i && decide (st.pageState p = .open_)
  | none => false

/-- The due list fixed for a cycle index: ascending period, then ascending page number (R40, R41). -/
def Store.fixDue (st : Store) (i : Nat) : Store :=
  { st with
    due := [RateClass.p1, .p2, .p4, .p8, .p16].flatMap fun k =>
      (pageIndices.filter (st.carriedAt i k)).map fun p => ⟨p, false⟩ }

/-! ### Changing slots and pages -/

/-- A slot written; its stored check is renewed (R15). -/
def Store.write (st : Store) (i : Nat) (v : Slot) : Store :=
  { st with cells := Sparse.put st.cells Cell.empty i ⟨v, false⟩ }

/-- The directory entry of a slot removed (R6, R13). -/
def Store.releaseKey (st : Store) (i : Nat) : Store :=
  { st with directory := st.directory.filter fun e => decide (e.2 ≠ i) }

/-- A page that leaves OPENING and OPEN: its load, class and phase are removed and its last transfer is kept (R29). -/
def Store.closePage (st : Store) (p : Nat) : Store :=
  match (st.pageAt p).schedule with
  | none => st
  | some sc =>
    { st.removeLoad sc with
      pages := Sparse.put st.pages PageRecord.empty p { st.pageAt p with schedule := none } }

/-- What a change of slot state does to the slot's page (R26, R28, R29, R43). -/
def Store.replan (st : Store) (p : Nat) : Store :=
  match st.pageState p with
  | .open_ => st
  | .opening => st.strike p
  | .closed | .dormant => (st.closePage p).strike p

/-- A slot changed to a state, reported to the Cycle Plan in the same access (R1). A slot that becomes FREE leaves the
Key Directory (R6). -/
def Store.changeSlot (st : Store) (i : Nat) (v : Slot) : Store :=
  let st := if v.isFree then (st.write i v).releaseKey i else st.write i v
  st.replan (i / Config.slotsPerPage)

/-- A page opened with a class and phase: its last transfer is removed and its load added (R27). -/
def Store.openPage (st : Store) (p : Nat) (sc : Schedule) : Store :=
  { st.addLoad sc with pages := Sparse.put st.pages PageRecord.empty p ⟨some sc, none⟩ }

/-! ### Verification (R16, R17) -/

/-- A verifying read of a LIVE, WITHDRAWING or LAPSED slot: a failing check makes the slot DAMAGED in the access
(R16). -/
def Store.verify (st : Store) (i : Nat) : Store :=
  if (st.cellAt i).upset then
    match st.slotAt i with
    | .live _ _ _ | .withdrawing _ _ _ | .lapsed _ => st.changeSlot i (.damaged false)
    | .free | .reserved _ | .damaged _ => st
  else st

/-- The staged copy of the INSERT entry that reserved a slot (R79); the record itself where no entry holds one, which
does not arise (R80). -/
def stagedCopy (entries : List BatchEntry) (i : Nat) (r : Record) : Record :=
  match entries with
  | [] => r
  | e :: rest =>
    match e.op with
    | .insert copy => if e.slot = i then copy else stagedCopy rest i r
    | .amend _ _ => stagedCopy rest i r
    | .retire => stagedCopy rest i r

/-- A verifying read that also verifies a RESERVED slot (LOOKUP, demand lookup, batch application, ABORT BATCH): a
RESERVED slot that fails is rewritten from its staged copy (R16). -/
def Store.verifyAny (st : Store) (entries : List BatchEntry) (i : Nat) : Store :=
  match st.slotAt i with
  | .reserved r => if (st.cellAt i).upset then st.write i (.reserved (stagedCopy entries i r)) else st
  | .free | .live _ _ _ | .withdrawing _ _ _ | .lapsed _ | .damaged _ => st.verify i

/-- An upset of a slot's storage (R15): its stored check will fail at the next verifying read. The check of a FREE slot
is not kept (R15), and a DAMAGED slot is not verified again (R16). -/
def Store.upset (st : Store) (i : Nat) : Store :=
  match st.slotAt i with
  | .free | .damaged _ => st
  | .reserved _ | .live _ _ _ | .withdrawing _ _ _ | .lapsed _ =>
    { st with cells := Sparse.put st.cells Cell.empty i ⟨st.slotAt i, true⟩ }

/-! ### Allocation and admission (R31 to R34) -/

/-- The lowest FREE slot of a page. -/
def Store.freeSlotOf (st : Store) (p : Nat) : Option Nat :=
  (List.range Config.slotsPerPage).find? fun k => (st.slotAt (slotIndex p k)).isFree

/-- Whether a page is OPENING or OPEN with a class and has a FREE slot (R31). -/
def Store.joinable (st : Store) (k : RateClass) (p : Nat) : Bool :=
  match (st.pageAt p).schedule with
  | some sc =>
    decide (sc.cls = k) && decide (st.pageState p = .opening ∨ st.pageState p = .open_) && (st.freeSlotOf p).isSome
  | none => false

/-- Whether a page is CLOSED or DORMANT and has a FREE slot (R32). -/
def Store.openable (st : Store) (p : Nat) : Bool :=
  decide (st.pageState p = .closed ∨ st.pageState p = .dormant) && (st.freeSlotOf p).isSome

/-- The largest load counter among the indices of a candidate phase (R33). -/
def Store.worstLoad (st : Store) (period phase : Nat) : Nat :=
  (cycleIndices.filter fun i => decide (i % period = phase)).foldl (fun m i => max m (st.load i)) 0

/-- The better of the best phase so far and the next candidate: the smaller worst load, the lower phase on a tie
(R33). -/
def Store.betterPhase (st : Store) (period best phase : Nat) : Nat :=
  if st.worstLoad period phase < st.worstLoad period best then phase else best

/-- The phase that admission chooses for a class (R33). -/
def Store.choosePhase (st : Store) (k : RateClass) : Nat :=
  (List.range k.period).foldl (st.betterPhase k.period) 0

/-- Where a record is placed, with the phase of a page that it opens (R34). -/
structure Allocation where
  page : Nat
  position : Nat
  opened : Option Nat
  deriving DecidableEq, Repr

/-- The slot index of an allocation (R34). -/
def Allocation.slot (a : Allocation) : Nat := slotIndex a.page a.position

/-- Allocation for an INSERT of a class within a frame budget, or its refusal (R31 to R34). -/
def Store.allocate (st : Store) (frames : Nat) (k : RateClass) : Except Status Allocation :=
  match pageIndices.find? (st.joinable k) with
  | some p => .ok ⟨p, (st.freeSlotOf p).getD 0, none⟩
  | none =>
    match pageIndices.find? st.openable with
    | none => .error .tableFull
    | some p =>
      let phase := st.choosePhase k
      if frames ≤ st.worstLoad k.period phase then .error .noCapacity
      else .ok ⟨p, (st.freeSlotOf p).getD 0, some phase⟩

/-- A record entered into its allocated slot: the page opened where the allocation says so, the key placed in the Key
Directory, the slot written (R7, R8, R27). -/
def Store.enter (st : Store) (a : Allocation) (k : RateClass) (key : Word) (v : Slot) : Store :=
  let st := match a.opened with
    | some phase => st.openPage a.page ⟨k, phase⟩
    | none => st
  Store.write { st with directory := Sparse.insert st.directory key.toNat a.slot } a.slot v

/-! ### Records (chapters 1, 3 and 4) -/

/-- The record that an INSERT enters (R2, R5, R50). -/
def InsertArgs.record (a : InsertArgs) : Record :=
  { key := a.key, node := a.node, channel := a.channel, cls := a.cls, payload := a.payload, revision := 0,
    replyRequested := a.replyRequested, notify := a.notify, leaseLength := a.lease,
    echo := if a.replyRequested then some ⟨.none, none⟩ else none,
    echoChanged := if a.notify then some false else none }

/-- A record as it enters LIVE: lease remaining is the lease length, amend staged is no (R3, R8). -/
def Record.asLive (r : Record) : Slot := .live r r.leaseLength false

/-- The lease length after the lease field of an AMEND or RENEW acts on it (Table 3-3); lease remaining is then equal to
it in every case. -/
def leaseAfter (field length : Option Nat) : Option Nat :=
  match field with
  | none => length
  | some 0 => none
  | some (n + 1) => some (n + 1)

/-- A LIVE record amended: payload replaced, revision raised by 1 modulo 256, lease by its field (R53). -/
def Record.amended (r : Record) (payload : List Word) (field : Option Nat) : Record :=
  { r with payload := payload, revision := r.revision + 1, leaseLength := leaseAfter field r.leaseLength }

/-- A LIVE record retired: WITHDRAWING with cause RETIRED and count W while the scan runs, FREE while STOPPED (R56). -/
def Store.retireLive (st : Store) (scan : ScanState) (w i : Nat) (r : Record) : Store :=
  st.changeSlot i (if scan = .stopped then .free else .withdrawing r .retired w)

/-- What a completed withdrawal leaves (R74, R23). -/
def Cause.completed (c : Cause) (r : Record) : Slot :=
  match c with
  | .retired => .free
  | .expired => .lapsed r

/-! ### The lease countdown (R67, R68) -/

/-- The countdown of one slot: verified, then reduced by 1, or expired where remaining was 1. -/
def Store.countdownSlot (w : Nat) (st : Store) (i : Nat) : Store :=
  match st.slotAt i with
  | .live _ (some _) _ =>
    let st := st.verify i
    match st.slotAt i with
    | .live r (some n) staged =>
      if n ≤ 1 then st.changeSlot i (.withdrawing r .expired w) else st.changeSlot i (.live r (some (n - 1)) staged)
    | .free | .reserved _ | .live _ none _ | .withdrawing _ _ _ | .lapsed _ | .damaged _ => st
  | .free | .reserved _ | .live _ none _ | .withdrawing _ _ _ | .lapsed _ | .damaged _ => st

/-- The whole countdown of one boundary, in ascending slot index (R67). -/
def Store.countdown (st : Store) (w : Nat) : Store := slotIndices.foldl (Store.countdownSlot w) st

/-! ### The page transfer (R112) -/

/-- A full entry (R112). -/
def Record.fullEntry (r : Record) (i : Nat) : Entry :=
  ⟨i, r.key, r.node, r.channel, r.revision, false, r.replyRequested, r.payload⟩

/-- A withdrawal entry: length 0, the withdraw flag, the reply-requested flag clear (R112, R162). -/
def Record.withdrawalEntry (r : Record) (i : Nat) : Entry :=
  ⟨i, r.key, r.node, r.channel, r.revision, true, false, []⟩

/-- The transfer's visit to one slot: verified and copied; a withdrawal count reduced, and completed at 0 (R73, R74,
R112). -/
def Store.transferSlot (acc : Store × List Entry) (i : Nat) : Store × List Entry :=
  let st := if (acc.1.slotAt i).emittable then acc.1.verify i else acc.1
  match st.slotAt i with
  | .live r _ _ => (st, acc.2 ++ [r.fullEntry i])
  | .withdrawing r c n =>
    (st.changeSlot i (if n ≤ 1 then c.completed r else .withdrawing r c (n - 1)), acc.2 ++ [r.withdrawalEntry i])
  | .free | .reserved _ | .lapsed _ | .damaged _ => (st, acc.2)

/-- The last transfer field of a page (R25). -/
def Store.setLastTransfer (st : Store) (p : Nat) (count : Word) : Store :=
  { st with pages := Sparse.put st.pages PageRecord.empty p { st.pageAt p with lastTransfer := some count } }

/-- The slot indices of a page in slot order. -/
def pageSlotIndices (p : Nat) : List Nat := (List.range Config.slotsPerPage).map (slotIndex p)

/-- The copy of a page (R112): its entry of the due list marked as transferred (R44), its slots visited in slot order, the
last transfer field written. A page that leaves OPEN inside its own transfer is not struck (R43). -/
def Store.copyPage (st : Store) (p : Nat) (count : Word) : Store × Frame :=
  let copied := (pageSlotIndices p).foldl Store.transferSlot (st.markTransferred p, [])
  (copied.1.setLastTransfer p count, ⟨p, copied.2⟩)

/-! ### Batch application and abort (R89, R94), completion of withdrawals (R23) -/

/-- The table and the applied and lapsed counts while a batch is applied (R90). -/
structure Application where
  store : Store
  applied : Nat
  lapsed : Nat
  deriving DecidableEq, Repr

/-- An entry counted as applied, with the table it leaves. -/
def Application.apply (a : Application) (st : Store) : Application := { a with store := st, applied := a.applied + 1 }

/-- An entry counted as lapsed, with the table it leaves. -/
def Application.lapse (a : Application) (st : Store) : Application := { a with store := st, lapsed := a.lapsed + 1 }

/-- The outcome of one entry at application (Table 5-3): the slot verified, then the change of R12 against the entry's
key and the states its change may be made from. -/
def applyEntry (entries : List BatchEntry) (scan : ScanState) (w : Nat) (a : Application) (e : BatchEntry) :
    Application :=
  let st := a.store.verifyAny entries e.slot
  if st.keyAt e.slot = some e.key then
    match e.op, st.slotAt e.slot with
    | .insert _, .reserved r => a.apply (st.changeSlot e.slot r.asLive)
    | .amend payload field, .live r _ _ => a.apply (st.changeSlot e.slot (r.amended payload field).asLive)
    | .retire, .live r _ _ => a.apply (st.retireLive scan w e.slot r)
    | .retire, .damaged _ => a.apply (st.changeSlot e.slot .free)
    | _, _ => a.lapse st
  else a.lapse st

/-- A batch applied in staging order (R89). -/
def applyEntries (st : Store) (entries : List BatchEntry) (scan : ScanState) (w : Nat) : Application :=
  entries.foldl (applyEntry entries scan w) ⟨st, 0, 0⟩

/-- A RESERVED slot made FREE by ABORT BATCH; its verification can only restore it first (R94). -/
def Store.freeReserved (entries : List BatchEntry) (st : Store) (i : Nat) : Store :=
  if (st.slotAt i).isReserved then (st.verifyAny entries i).changeSlot i .free else st

/-- The amend staged flag of the LIVE record an AMEND entry names cleared by ABORT BATCH (R94). -/
def Store.clearStaged (st : Store) (e : BatchEntry) : Store :=
  match e.op, st.slotAt e.slot with
  | .amend _ _, .live _ _ _ =>
    if st.keyAt e.slot = some e.key then
      let st := st.verify e.slot
      match st.slotAt e.slot with
      | .live r remaining _ => st.changeSlot e.slot (.live r remaining false)
      | .free | .reserved _ | .withdrawing _ _ _ | .lapsed _ | .damaged _ => st
    else st
  | _, _ => st

/-- The table work of ABORT BATCH (R94). -/
def Store.abortBatch (st : Store) (entries : List BatchEntry) : Store :=
  entries.foldl Store.clearStaged (slotIndices.foldl (Store.freeReserved entries) st)

/-- A WITHDRAWING record completed by STOP SCAN (R23). -/
def Store.completeSlot (st : Store) (i : Nat) : Store :=
  match st.slotAt i with
  | .withdrawing _ _ _ =>
    let st := st.verify i
    match st.slotAt i with
    | .withdrawing r c _ => st.changeSlot i (c.completed r)
    | .free | .reserved _ | .live _ _ _ | .lapsed _ | .damaged _ => st
  | .free | .reserved _ | .live _ _ _ | .lapsed _ | .damaged _ => st

/-- Every WITHDRAWING record completed (R23). -/
def Store.completeWithdrawals (st : Store) : Store := slotIndices.foldl Store.completeSlot st

/-! ### Echoes (R123, R125) -/

/-- The echo after a slot result (Table 7-3). -/
def Echo.after (e : Echo) (result : ReplyResult) (revision : Byte) : Echo :=
  match result with
  | .valid v => ⟨.fresh, some ⟨v, revision⟩⟩
  | .absent | .invalid => { e with state := .stale }
  | .undecided => e

/-- Whether a slot result brings a value other than the one held (R125). -/
def Echo.changedBy (e : Echo) (result : ReplyResult) : Bool :=
  match result, e.held with
  | .valid _, none => true
  | .valid v, some h => decide (v ≠ h.value)
  | .absent, _ | .invalid, _ | .undecided, _ => false

/-- A record after an echo write-back: its echo, and its echo changed flag where it has one (R123, R125). -/
def Record.echoed (r : Record) (result : ReplyResult) (revision : Byte) : Record :=
  match r.echo with
  | none => r
  | some e =>
    { r with
      echo := some (e.after result revision)
      echoChanged := if e.changedBy result then r.echoChanged.map fun _ => true else r.echoChanged }

/-- An echo write-back (R123): the slot verified, then written only where it is LIVE with the named key and the record
has reply requested. -/
def Store.writeEcho (st : Store) (item : ReplySlot) : Store :=
  let st := st.verify item.slot
  match st.slotAt item.slot with
  | .live r remaining staged =>
    if st.keyAt item.slot = some item.key ∧ r.replyRequested = true then
      st.changeSlot item.slot (.live (r.echoed item.result item.revision) remaining staged)
    else st
  | .free | .reserved _ | .withdrawing _ _ _ | .lapsed _ | .damaged _ => st

/-! ### The Node Table (R127 to R135) -/

/-- The record of a node. -/
def NodeTable.at (t : NodeTable) (n : Nat) : NodeRecord := Sparse.get t.records NodeRecord.initial n

/-- The record of a node replaced. -/
def NodeTable.set (t : NodeTable) (n : Nat) (r : NodeRecord) : NodeTable :=
  { t with records := Sparse.put t.records NodeRecord.initial n r }

/-- A node record after a miss: the count raised by 1 up to 15, and SILENT where the increase brings it to M (R129). -/
def NodeRecord.missed (r : NodeRecord) (m : Nat) : NodeRecord :=
  if r.misses < 15 then
    { r with misses := r.misses + 1, presence := if r.misses + 1 = m then .silent else r.presence }
  else r

/-- A node record after a check error: the count raised by 1 up to 255 (R129, R130). -/
def NodeRecord.erred (r : NodeRecord) : NodeRecord := { r with errors := min 255 (r.errors + 1) }

/-- A node record after the report of a slot result (R128, R129). -/
def NodeRecord.afterReply (r : NodeRecord) (m : Nat) (result : ReplyResult) : NodeRecord :=
  match result with
  | .valid _ => { r with presence := .present, misses := 0 }
  | .absent => r.missed m
  | .invalid => (r.missed m).erred
  | .undecided => r

/-- A node record after the report of a valid demand request (R130). -/
def NodeRecord.afterDemand (r : NodeRecord) (m : Nat) : NodeRecord :=
  if r.misses < m then { r with presence := .present } else r

/-- The miss count of every node set to 0 (R134). -/
def NodeTable.clearMisses (t : NodeTable) : NodeTable :=
  { t with records := Sparse.mapValues t.records NodeRecord.initial fun r => { r with misses := 0 } }

/-- The node addresses in the order of invitation: from one above the pointer to 62, then from 1 to the pointer
(R135). -/
def NodeTable.order (t : NodeTable) : List Nat :=
  ((List.range Config.nodeCount).map (· + 1)).filter (fun n => decide (t.pointer < n)) ++
    ((List.range Config.nodeCount).map (· + 1)).filter (fun n => decide (n ≤ t.pointer))

/-- The invited node of a cycle (0: none) and the table with its pointer moved (R135). -/
def NodeTable.invite (t : NodeTable) : Nat × NodeTable :=
  match t.order.find? fun n => (t.at n).permitted with
  | some n => (n, { t with pointer := n })
  | none => (0, t)

end Sys2Proof.Machine
end

