-- ==== Sys2Proof/Machine/Operands.lean ====
section
/-! DEFINITION. The bytes of a request: the framing checks and the argument checks of the Host Port, in the order of
Table 10-3, and the request they give (R49, R52, R54, R55, R58, R59, R132, R133, R155, R160, Table 11-5). -/

namespace Sys2Proof.Machine

/-- Check 1 of Table 10-3: at least 3 bytes received, the received count equal to length + 3, and the CRC-8 over code,
length and arguments equal to the last byte. Bytes beyond the receive buffer were counted but not stored (R151). -/
def frameCheck (received : List Byte) (count : Nat) : Bool :=
  match received with
  | _ :: length :: _ =>
    decide (3 ≤ count) && decide (count = length.toNat + 3) &&
      decide (received.getLast? = some (crc8 received.dropLast))
  | _ => false

/-- The argument bytes of a request that passes the frame check (R151). -/
def argumentBytes (received : List Byte) : List Byte := (received.drop 2).dropLast

/-- The lengths that a code allows (Table 11-5): none at all, an exact number, or a number that the arguments state. -/
inductive LengthRule where
  /-- The code is not assigned: it has no length rule (R155). -/
  | unassigned
  /-- Fixed arguments of exactly this length. -/
  | exact (n : Nat)
  /-- `n` bytes of fixed arguments, the options byte at place `options` and the stated payload length at place `payload`:
  plus 2 for a lease that the options mark present, plus 2 for each stated payload word. -/
  | stated (n options payload : Nat)
  deriving DecidableEq, Repr

/-- The length rule of a request code (Table 11-5). -/
def lengthRule (code : Byte) : LengthRule :=
  if code = 0x01 ∨ code = 0x02 ∨ code = 0x03 ∨ code = 0x05 then .exact 0
  else if code = 0x04 then .exact 5
  else if code = 0x10 ∨ code = 0x11 ∨ code = 0x12 ∨ code = 0x13 then .exact 0
  else if code = 0x20 then .stated 7 5 6
  else if code = 0x21 then .stated 4 2 3
  else if code = 0x22 then .exact 5
  else if code = 0x23 ∨ code = 0x24 then .exact 2
  else if code = 0x25 then .exact 1
  else if code = 0x26 then .exact 0
  else if code = 0x30 ∨ code = 0x31 ∨ code = 0x32 ∨ code = 0x33 then .exact 0
  else if code = 0x40 then .exact 1
  else if code = 0x41 then .exact 2
  else if code = 0x50 then .exact 0
  else .unassigned

/-- An argument byte by its place. -/
def argAt (args : List Byte) (n : Nat) : Byte := args.getD n 0

/-- Check 2 of Table 10-3: the length is consistent with the code (R155). -/
def lengthCheck (code : Byte) (args : List Byte) : Bool :=
  match lengthRule code with
  | .unassigned => true
  | .exact n => decide (args.length = n)
  | .stated n options payload =>
    decide (n ≤ args.length) &&
      decide (args.length = n + (if (argAt args options).getLsbD 2 then 2 else 0) + 2 * (argAt args payload).toNat)

/-- The key of a request: its first two argument bytes (Table 11-5). -/
def keyArg (args : List Byte) : Word := wordOfBytes (argAt args 0) (argAt args 1)

/-- A key in 1 to 65534 (R2). -/
def keyInRange (key : Word) : Bool := decide (key ≠ 0 ∧ key ≠ 0xFFFF)

/-- Bits 7 to 3 of an options byte clear (R165). -/
def optionsClear (options : Byte) : Bool := decide (options &&& 0xF8 = 0)

/-- A stated payload length in 1 to 8 words (R49, R52). -/
def payloadInRange (n : Byte) : Bool := decide (1 ≤ n.toNat ∧ n.toNat ≤ 8)

/-- The lease value and the payload bytes that follow the fixed arguments (Table 11-5). -/
def leaseAndPayload (present : Bool) (rest : List Byte) : Option Nat × List Word :=
  if present then (some (wordOfBytes (argAt rest 0) (argAt rest 1)).toNat, wordsOfBytes (rest.drop 2))
  else (none, wordsOfBytes rest)

/-- INSERT's arguments in the order of Table 3-2 (R49). -/
def readInsert (args : List Byte) : Except Status Request :=
  let key := keyArg args
  let node := (argAt args 2).toNat
  let channel := (argAt args 3).toNat
  let options := argAt args 5
  let reply := options.getLsbD 0
  let notify := options.getLsbD 1
  let tail := leaseAndPayload (options.getLsbD 2) (args.drop 7)
  if keyInRange key = false then .error .badKey
  else if node < 1 ∨ 63 < node ∨ 15 < channel then .error .badArg
  else match RateClass.ofCode (argAt args 4) with
    | none => .error .badArg
    | some cls =>
      if payloadInRange (argAt args 6) = false then .error .badArg
      else if optionsClear options = false then .error .badArg
      else if reply = true ∧ node = Config.allNodes then .error .badArg
      else if notify = true ∧ reply = false then .error .badArg
      else if tail.1 = some 0 then .error .badArg
      else .ok (.insert ⟨key, node, channel, cls, reply, notify, tail.1, tail.2⟩)

/-- AMEND's arguments (R52). -/
def readAmend (args : List Byte) : Except Status Request :=
  let options := argAt args 2
  let tail := leaseAndPayload (options.getLsbD 2) (args.drop 4)
  if keyInRange (keyArg args) = false then .error .badKey
  else if payloadInRange (argAt args 3) = false then .error .badArg
  else if optionsClear options = false then .error .badArg
  else .ok (.amend (keyArg args) tail.2 tail.1)

/-- RENEW's arguments (R54). -/
def readRenew (args : List Byte) : Except Status Request :=
  let options := argAt args 2
  if keyInRange (keyArg args) = false then .error .badKey
  else if optionsClear options = false then .error .badArg
  else .ok (.renew (keyArg args)
    (if options.getLsbD 2 then some (wordOfBytes (argAt args 3) (argAt args 4)).toNat else none))

/-- The key of RETIRE or LOOKUP (R55, R58). -/
def readKey (args : List Byte) (request : Word → Request) : Except Status Request :=
  if keyInRange (keyArg args) = false then .error .badKey else .ok (request (keyArg args))

/-- Whether a configuration meets the line budget (R109): F × 115 + 3 + 18 word times fit within L. -/
def Configuration.meetsBudget (c : Configuration) : Bool :=
  decide ((c.frames * Config.frameBudget + Config.markBudget + Config.demandBudget) * c.rate.wordTime ≤ c.steps * 250)

/-- CONFIGURE's arguments: the ranges in the order listed, then the line budget (R160). -/
def readConfigure (args : List Byte) : Except Status Request :=
  match LineRate.ofCode (argAt args 0) with
  | none => .error .badArg
  | some rate =>
    let c : Configuration :=
      ⟨rate, (argAt args 1).toNat, (argAt args 2).toNat, (argAt args 3).toNat, (argAt args 4).toNat⟩
    if c.steps < 1 ∨ 32 < c.steps then .error .badArg
    else if c.frames < 1 ∨ 16 < c.frames then .error .badArg
    else if c.withdrawals < 1 ∨ 3 < c.withdrawals then .error .badArg
    else if c.misses < 1 ∨ 15 < c.misses then .error .badArg
    else if c.meetsBudget = false then .error .configInvalid
    else .ok (.configure c)

/-- A node address in 1 to 62 (R132). -/
def nodeInRange (n : Nat) : Bool := decide (1 ≤ n ∧ n ≤ Config.nodeCount)

/-- NODE SET's arguments (R133). -/
def readNodeSet (args : List Byte) : Except Status Request :=
  let flags := argAt args 1
  if nodeInRange (argAt args 0).toNat = false then .error .badArg
  else if flags &&& 0xFC ≠ 0 then .error .badArg
  else .ok (.nodeSet (argAt args 0).toNat (flags.getLsbD 0) (flags.getLsbD 1))

/-- Checks 3 and 4 of Table 10-3: the code is assigned, and the argument ranges of its request. -/
def readArguments (code : Byte) (args : List Byte) : Except Status Request :=
  if code = 0x01 then .ok .identify
  else if code = 0x02 then .ok .status
  else if code = 0x03 then .ok .readConfiguration
  else if code = 0x04 then readConfigure args
  else if code = 0x05 then .ok .clear
  else if code = 0x10 then .ok .startScan
  else if code = 0x11 then .ok .stopScan
  else if code = 0x12 then .ok .holdScan
  else if code = 0x13 then .ok .resumeScan
  else if code = 0x20 then readInsert args
  else if code = 0x21 then readAmend args
  else if code = 0x22 then readRenew args
  else if code = 0x23 then readKey args .retire
  else if code = 0x24 then readKey args .lookup
  else if code = 0x25 then
    (if (argAt args 0).toNat < Config.pageCount then .ok (.pageQuery (argAt args 0).toNat) else .error .badArg)
  else if code = 0x26 then .ok .loadQuery
  else if code = 0x30 then .ok .openBatch
  else if code = 0x31 then .ok .commitBatch
  else if code = 0x32 then .ok .abortBatch
  else if code = 0x33 then .ok .batchQuery
  else if code = 0x40 then
    (if nodeInRange (argAt args 0).toNat then .ok (.nodeQuery (argAt args 0).toNat) else .error .badArg)
  else if code = 0x41 then readNodeSet args
  else if code = 0x50 then .ok .takeNotices
  else .error .unknown

/-- Checks 1 to 4 of Table 10-3 on the receive buffer: the request, or the status of the first check that fails
(R155). -/
def readRequest (received : List Byte) (count : Nat) : Except Status Request :=
  if frameCheck received count = false then .error .badCheck
  else if lengthCheck (received.headD 0) (argumentBytes received) = false then .error .badLength
  else readArguments (received.headD 0) (argumentBytes received)

/-! ### The bytes of a request -/

/-- The code of a request (Table 11-5). -/
def Request.code : Request → Byte
  | .identify => 0x01
  | .status => 0x02
  | .readConfiguration => 0x03
  | .configure _ => 0x04
  | .clear => 0x05
  | .startScan => 0x10
  | .stopScan => 0x11
  | .holdScan => 0x12
  | .resumeScan => 0x13
  | .insert _ => 0x20
  | .amend _ _ _ => 0x21
  | .renew _ _ => 0x22
  | .retire _ => 0x23
  | .lookup _ => 0x24
  | .pageQuery _ => 0x25
  | .loadQuery => 0x26
  | .openBatch => 0x30
  | .commitBatch => 0x31
  | .abortBatch => 0x32
  | .batchQuery => 0x33
  | .nodeQuery _ => 0x40
  | .nodeSet _ _ _ => 0x41
  | .takeNotices => 0x50

/-- The options byte (Table 11-5): bit 0 reply requested, bit 1 notify on change, bit 2 lease present. -/
def optionsByte (reply notify lease : Bool) : Byte := bitAt 0 reply ||| bitAt 1 notify ||| bitAt 2 lease

/-- The lease value where one is present (Table 11-5). -/
def leaseBytes (lease : Option Nat) : List Byte := (lease.map bytesOfNat).getD []

/-- The argument bytes of a request (Table 11-5). -/
def Request.arguments : Request → List Byte
  | .configure c => [c.rate.code, byteOf c.steps, byteOf c.frames, byteOf c.withdrawals, byteOf c.misses]
  | .insert a =>
    bytesOfWord a.key ++
      [byteOf a.node, byteOf a.channel, a.cls.code, optionsByte a.replyRequested a.notify a.lease.isSome,
        byteOf a.payload.length] ++ leaseBytes a.lease ++ a.payload.flatMap bytesOfWord
  | .amend key payload lease =>
    bytesOfWord key ++ [optionsByte false false lease.isSome, byteOf payload.length] ++ leaseBytes lease ++
      payload.flatMap bytesOfWord
  | .renew key lease =>
    bytesOfWord key ++ [optionsByte false false lease.isSome] ++ bytesOfNat (lease.getD 0)
  | .retire key | .lookup key => bytesOfWord key
  | .pageQuery p => [byteOf p]
  | .nodeQuery n => [byteOf n]
  | .nodeSet n permitted clearErrors => [byteOf n, bitAt 0 permitted ||| bitAt 1 clearErrors]
  | .identify | .status | .readConfiguration | .clear | .startScan | .stopScan | .holdScan | .resumeScan => []
  | .loadQuery | .openBatch | .commitBatch | .abortBatch | .batchQuery | .takeNotices => []

/-- The bytes of a request as the host sends it: code, length, arguments, CRC-8 over all of them (R151, R164). -/
def Request.bytes (r : Request) : List Byte :=
  let body := r.code :: byteOf r.arguments.length :: r.arguments
  body ++ [crc8 body]

/-- Whether a request is carried out by its block at dispatch, without a table access (Table 10-4). -/
def Request.direct : Request → Bool
  | .identify | .status | .readConfiguration | .startScan | .holdScan | .resumeScan | .nodeQuery _ | .nodeSet _ _ _ => true
  | .configure _ | .clear | .stopScan | .insert _ | .amend _ _ _ | .renew _ _ | .retire _ | .lookup _ | .pageQuery _ => false
  | .loadQuery | .openBatch | .commitBatch | .abortBatch | .batchQuery | .takeNotices => false

end Sys2Proof.Machine
end

