-- ==== Sys2Proof/Machine/Flags.lean ====
section
/-! DEFINITION. The flags and lines the host sees: the pending notices and ATTN (R143, R146), RDY and LTXEN, the summary
byte (R156, Table 11-7), and the completion of a request with its response (R152). -/

namespace Sys2Proof.Machine

/-! ### Pending notices (R143) -/

/-- Whether a slot has a record notice pending (Table 9-1): a LIVE or WITHDRAWING slot ECHO_CHANGED, a LAPSED slot
RECORD_LAPSED, a DAMAGED slot RECORD_DAMAGED while damage reported is no. -/
def Slot.noticePending : Slot → Bool
  | .live r _ _ | .withdrawing r _ _ => r.echoChanged == some true
  | .lapsed _ => true
  | .damaged reported => !reported
  | .free | .reserved _ => false

/-- Whether a node has a NODE_PRESENCE notice pending (R131). -/
def NodeRecord.noticePending (r : NodeRecord) : Bool := decide (r.presence ≠ r.reported)

/-- A place where a notice can be pending (R147). -/
inductive NoticeSource where
  | applied
  | fault
  | node (address : Nat)
  | slot (index : Nat)
  deriving DecidableEq, Repr

/-- The pending notices in the order of TAKE NOTICES (R147): the device notices, the nodes in ascending address, the
slots in ascending index. -/
def State.noticeSources (s : State) : List NoticeSource :=
  (if s.notices.applied.isSome then [.applied] else []) ++ (if s.notices.fault.isSome then [.fault] else []) ++
    ((((List.range Config.nodeCount).map (· + 1)).filter fun n => (s.nodes.at n).noticePending).map .node ++
      (slotIndices.filter fun i => (s.store.slotAt i).noticePending).map .slot)

/-- The ATTN line: asserted exactly when at least one notice is pending (R146). -/
def State.attn (s : State) : Bool := !s.noticeSources.isEmpty

/-- The RDY line: high in READY (R152). -/
def State.rdy (s : State) : Bool := decide (s.port.state = .ready)

/-- Whether the part is sending a word that is read back: a mark, a frame or an answer in RUN, a mark in HOLD (R115). -/
def State.comparing (s : State) : Bool :=
  decide (s.scan.state = .run ∨ s.scan.state = .hold) &&
    (match s.scan.line with
      | .mark | .frame => true
      | .demandWindow => decide (s.demand.state = .answering)
      | .idle | .replyWindow | .between => false)

/-- The LTXEN line: active only while the part sends a word (Table 11-12), the word in progress at STOP SCAN
included. -/
def State.ltxen (s : State) : Bool := s.comparing || decide (s.scan.abort = .afterWord)

/-! ### Responses (R152, R156) -/

/-- The code of the scan state with the pending request (Table 11-7). The pairs that the table does not list never arise
(R165); they are coded as the state alone (log entry 13). -/
def scanCode (state : ScanState) (request : ScanRequest) : Nat :=
  match state, request with
  | .stopped, _ => 0
  | .run, .hold => 2
  | .run, _ => 1
  | .hold, .resume => 4
  | .hold, _ => 3
  | .fault, .none => 5
  | .fault, .hold => 6
  | .fault, .resume => 7

/-- The summary byte of the part as it stands (R156, Table 11-7). -/
def State.summary (s : State) : Byte :=
  byteOf (scanCode s.scan.state s.scan.request * 32 + s.batch.state.code.toNat * 8 + s.attn.toNat * 4 +
    s.port.resetSeen.toNat * 2 + s.port.requestDiscarded.toNat)

/-- The completion of a request (R152): the response is built with a fresh summary, reset seen and request discarded are
cleared (R153, R156), the port holds no request and is READY. -/
def State.complete (s : State) (status : Status) (data : List Byte) : State :=
  { s with
    port := { s.port with
      state := .ready, request := none, stopScanDone := false, response := responseBytes status s.summary data,
      resetSeen := false, requestDiscarded := false } }

/-- The end of the initialization after power-on or RESET#: RESET_DONE with reset seen set (R156, R157). -/
def State.completeReset (s : State) : State :=
  let s := { s with port := { s.port with resetSeen := true } }
  { s with
    port := { s.port with
      state := .ready, response := responseBytes .resetDone s.summary [], requestDiscarded := false } }

/-- The response that a fetch returns (R154). -/
def State.fetched (s : State) : List Byte :=
  match s.port.state with
  | .ready => s.port.response
  | .working => responseBytes .pending s.summary []
  | .init => responseBytes .notReady s.summary []

end Sys2Proof.Machine
end

