-- ==== Sys2Proof/Machine/Arbitration.lean ====
section
/-! DEFINITION. The Table Access Arbiter (1.6), what the grant of STOP SCAN does (R100, R118), how line traffic is abandoned,
the transfer claims (R111), and how a host request's access completes (R47, R152). -/

namespace Sys2Proof.Machine

/-- What a step answers. -/
abbrev Result := Host.Outcome State Fault Refusal

/-! ### The abort word and abandoned traffic -/

/-- A register IN FLIGHT made FREE (R113). -/
def FrameRegister.landed : FrameRegister → FrameRegister
  | .inFlight _ => .free
  | .free => .free
  | .filled f => .filled f

/-- A FILLED register discarded (R118). -/
def FrameRegister.discarded : FrameRegister → FrameRegister
  | .filled _ => .free
  | .free => .free
  | .inFlight f => .inFlight f

/-- The register IN FLIGHT made FREE when its reply window or its frame has ended (R111, R113). -/
def ScanEngine.landFrame (e : ScanEngine) : ScanEngine := { e with regA := e.regA.landed, regB := e.regB.landed }

/-- The abort word sent, after which no further word follows; the register whose word or slot was in progress becomes
FREE (R100, R118), and the Demand Server is CLOSED (R142). -/
def State.sendAbort (s : State) : State :=
  { s with
    scan := { s.scan with sent := [abortWord], abort := .sent, line := .idle, regA := .free, regB := .free },
    demand := DemandServer.initial }

/-- Nothing is owed to the line: it stays idle and the registers are FREE (R100, R111). -/
def State.endQuietly (s : State) : State :=
  { s with
    scan := { s.scan with line := .idle, regA := .free, regB := .free }, demand := DemandServer.initial }

/-- When the abort word is due, by what is on the line at the grant of STOP SCAN (R100, R142): nothing on an idle line;
after the word in progress of a mark, a frame or an answer; after the slot in progress; after the request allowance; at
once elsewhere in the demand window. -/
def State.abortDue (s : State) : Abort :=
  match s.scan.line with
  | .idle | .between => .none
  | .mark | .frame => .afterWord
  | .replyWindow => .afterSlot
  | .demandWindow =>
    match s.demand.state with
    | .listening => .afterAllowance
    | .answering => .afterWord
    | .closed | .looking | .silentWindow => .sent

/-- Whether a claim is one of those withdrawn when the scan leaves RUN: a transfer, a write-back or a lookup (R19). -/
def Claim.ofLine : Claim → Bool
  | .transfer _ | .writeBack _ | .lookup _ => true
  | .countdown | .application | .host => false

/-- The waiting claims of the Scan Engine, the Reply Unit and the Demand Server withdrawn (R19). -/
def Arbiter.withdrawLine (a : Arbiter) : Arbiter := { a with waiting := a.waiting.filter fun c => !c.ofLine }

/-- What STOP SCAN does at the grant of its access, taken in RUN, HOLD or FAULT (R100, R118, R142): the scan is STOPPED
with no pending request, the waiting claims of the line are withdrawn, the reply slot list is discarded, a FILLED register
is discarded, and the abort word is sent or becomes due. Taken while STOPPED it does nothing. -/
def State.stopAtGrant (s : State) : State :=
  if s.scan.state = .stopped then s
  else
    let due := s.abortDue
    let s :=
      { s with
        scan := { s.scan with
          state := .stopped, request := .none, regA := s.scan.regA.discarded, regB := s.scan.regB.discarded },
        reply := ReplyUnit.initial, arbiter := s.arbiter.withdrawLine }
    match due with
    | .none => s.endQuietly
    | .sent => s.sendAbort
    | .afterWord | .afterSlot | .afterAllowance => { s with scan := { s.scan with abort := due } }

/-- The traffic in flight abandoned at a line fault (R115, R118): both registers FREE, the reply slot list discarded, the
Demand Server CLOSED, the line undriven, and the waiting claims of the line withdrawn. -/
def State.abandonTraffic (s : State) : State :=
  { s with
    scan := { s.scan with regA := .free, regB := .free, line := .idle },
    reply := ReplyUnit.initial, demand := DemandServer.initial, arbiter := s.arbiter.withdrawLine }

/-! ### The arbiter (R18) -/

/-- The place of a claim in the grant order (R18). -/
def Claim.rank : Claim → Nat
  | .transfer _ => 0
  | .writeBack _ => 1
  | .countdown => 2
  | .application => 3
  | .lookup _ => 4
  | .host => 5

/-- The waiting claim that stands first in the grant order (R18). -/
def Arbiter.first (a : Arbiter) : Option Claim :=
  (List.range 6).findSome? fun r => a.waiting.find? fun c => decide (c.rank = r)

/-- Whether an accessor's claim, waiting or in progress, is outstanding (R18). -/
def Arbiter.outstanding (a : Arbiter) (rank : Nat) : Bool :=
  (match a.inProgress with
    | some c => decide (c.rank = rank)
    | none => false) || a.waiting.any fun c => decide (c.rank = rank)

/-- The table granted to a claim, which then waits no longer (R18). -/
def Arbiter.grantTo (a : Arbiter) (c : Claim) : Arbiter :=
  ⟨some c, a.waiting.filter fun d => decide (d.rank ≠ c.rank)⟩

/-- The arbiter when the access in progress completes: the waiting claim that stands first is granted (R18). -/
def Arbiter.next (a : Arbiter) : Arbiter :=
  match a.first with
  | none => { a with inProgress := none }
  | some c => a.grantTo c

/-- A claim that waits, at most one of each accessor (R18). -/
def Arbiter.enqueue (a : Arbiter) (c : Claim) : Arbiter :=
  if a.waiting.any fun d => decide (d.rank = c.rank) then a else { a with waiting := a.waiting ++ [c] }

/-- What a grant does beside the arbiter: the grant of a STOP SCAN stops the scan at once (R100). -/
def State.afterGrant (s : State) : State :=
  if s.arbiter.inProgress = some .host ∧ s.port.request = some .stopScan then s.stopAtGrant else s

/-- A claim placed: granted at once while the table is idle, else waiting (R18). -/
def State.claim (s : State) (c : Claim) : State :=
  match s.arbiter.inProgress with
  | none => State.afterGrant { s with arbiter := s.arbiter.grantTo c }
  | some _ => { s with arbiter := s.arbiter.enqueue c }

/-- The access in progress completes, and the waiting claim that stands first is granted (R18). -/
def State.release (s : State) : State := State.afterGrant { s with arbiter := s.arbiter.next }

/-- Whether a register is FILLED (R111). -/
def FrameRegister.isFilled : FrameRegister → Bool
  | .filled _ => true
  | .free | .inFlight _ => false

/-- Whether the Scan Engine may copy a page: a register is FREE, and none is FILLED (R111: at most one is). -/
def ScanEngine.canFill (e : ScanEngine) : Bool :=
  decide (e.regA = .free ∨ e.regB = .free) && !e.regA.isFilled && !e.regB.isFilled

/-- The transfer claim for the first untransferred entry of the due list, placed in RUN while a frame register is FREE
(R111). -/
def State.claimTransfer (s : State) : State :=
  if s.scan.state = .run ∧ s.scan.canFill then
    match s.store.nextDue with
    | some p => s.claim (.transfer p)
    | none => s
  else s

/-- The due list fixed at the completion of the boundary's last access, and the first transfer claim placed in that
access (R41, R111). -/
def State.fixDueList (s : State) : State :=
  State.claimTransfer { s with store := s.store.fixDue s.timer.index.toNat }

/-! ### Host requests -/

/-- The request whose host request access is in progress (R47). -/
def State.heldAccess (s : State) : Option Request :=
  if s.port.state = .working ∧ s.arbiter.inProgress = some .host then s.port.request else none

/-- The request held for its block to carry out at dispatch (R155). -/
def State.heldDirect (s : State) : Option Request :=
  if s.port.state = .working then s.port.request else none

/-- A host request's access completes: the response is built, and the table is granted on (R47, R152). -/
def State.finish (s : State) (status : Status) (data : List Byte) : State := (s.complete status data).release

/-- A host request's access that changed the table completes. -/
def State.finishWith (s : State) (st : Store) (status : Status) (data : List Byte) : State :=
  State.finish { s with store := st } status data

/-- A host request refused in its access: no data, no change but the damage that its reads found (R47, R155). -/
def State.refuseWith (s : State) (st : Store) (status : Status) : State := s.finishWith st status []

/-! ### Batch application (R89, R90) -/

/-- The BATCH_APPLIED notice handed to the Notice Unit, merged into one already pending (R144). -/
def NoticeUnit.batchApplied (n : NoticeUnit) (applied lapsed : Nat) : NoticeUnit :=
  match n.applied with
  | none => { n with applied := some ⟨applied, lapsed, false⟩ }
  | some old => { n with applied := some ⟨min 255 (old.applied + applied), min 255 (old.lapsed + lapsed), true⟩ }

/-- The LINE_FAULT notice handed to the Notice Unit (R145). -/
def NoticeUnit.lineFault (n : NoticeUnit) (cycle : Word) : NoticeUnit :=
  match n.fault with
  | none => { n with fault := some ⟨cycle, false⟩ }
  | some old => { n with fault := some { old with repeated := true } }

/-- What applying the batch of the part gives, in the scan state that stands (R89). -/
def State.application (s : State) : Application :=
  applyEntries s.store s.batch.entries s.scan.state s.port.config.withdrawals

/-- The batch applied: the table changed, the batch NONE, and the notice raised in the same access (R89, R90). -/
def State.applyBatch (s : State) : State :=
  let a := s.application
  { s with store := a.store, batch := BatchUnit.initial, notices := s.notices.batchApplied a.applied a.lapsed }

end Sys2Proof.Machine
end

