-- ==== Sys2Proof/Machine/BatchRequests.lean ====
section
/-! DEFINITION. The batch requests of chapter 5: OPEN_BATCH, COMMIT_BATCH, ABORT_BATCH, BATCH_QUERY. -/

namespace Sys2Proof.Machine

/-- OPEN BATCH (R81, Table 5-1). -/
def execOpenBatch (s : State) : Result :=
  match s.heldAccess with
  | some .openBatch =>
    match s.batch.state with
    | .none => .next (State.finish { s with batch := ⟨.open_, []⟩ } .ok [])
    | .open_ => .next (s.finish .batchOpen [])
    | .sealed_ => .next (s.finish .batchSealed [])
  | _ => .next s

/-- COMMIT BATCH (R87): an OPEN batch is applied at once while STOPPED, else SEALED. -/
def execCommitBatch (s : State) : Result :=
  match s.heldAccess with
  | some .commitBatch =>
    match s.batch.state with
    | .none => .next (s.finish .noBatch [])
    | .sealed_ => .next (s.finish .batchSealed [])
    | .open_ =>
      if s.scan.state = .stopped then
        .next (s.applyBatch.finish .ok [byteOf s.application.applied, byteOf s.application.lapsed])
      else
        .next (State.finish { s with batch := { s.batch with state := .sealed_ } } .accepted
          [byteOf s.batch.entries.length])
  | _ => .next s

/-- ABORT BATCH (R94). -/
def execAbortBatch (s : State) : Result :=
  match s.heldAccess with
  | some .abortBatch =>
    match s.batch.state with
    | .none => .next (s.finish .noBatch [])
    | .sealed_ => .next (s.finish .batchSealed [])
    | .open_ =>
      .next (State.finishWith { s with batch := BatchUnit.initial } (s.store.abortBatch s.batch.entries) .ok
        [byteOf s.batch.entries.length])
  | _ => .next s

/-- The data of BATCH QUERY (Table 11-8). -/
def BatchUnit.data (b : BatchUnit) : List Byte :=
  [b.state.code, byteOf b.entries.length] ++ b.entries.flatMap fun e => e.op.code :: bytesOfWord e.key

/-- BATCH QUERY (R96). -/
def execBatchQuery (s : State) : Result :=
  match s.heldAccess with
  | some .batchQuery => .next (s.finish .ok s.batch.data)
  | _ => .next s

end Sys2Proof.Machine
end

