-- ==== Sys2Proof/Machine/LineTraffic.lean ====
section
/-! DEFINITION. The traffic of a cycle from the Scan Engine's side, and what befalls the line and the storage: PAGE_TRANSFER,
FRAME_START, FRAME_END, CYCLE_MARK_END, READBACK_MISMATCH, STRAY_LINE_WORD, STORAGE_UPSET. -/

namespace Sys2Proof.Machine

/-- A copy put into the FREE frame register, register A where both are FREE (R111; log entry 11). -/
def ScanEngine.fill (e : ScanEngine) (f : Frame) : ScanEngine :=
  if e.regA = .free then { e with regA := .filled f }
  else if e.regB = .free then { e with regB := .filled f }
  else e

/-- PAGE_TRANSFER: the Scan Engine's granted access (R112). A page struck from the due list is not copied, and the claim
for the next entry is placed at once (R43, R111). The copy of a transfer that completes after the scan left RUN is
discarded (R19, R118; log entry 9). -/
def execPageTransfer (s : State) : Result :=
  match s.arbiter.inProgress with
  | some (.transfer p) =>
    if s.store.isDue p then
      let copied := s.store.copyPage p s.timer.count
      let s := { s with store := copied.1 }
      .next (State.release (if s.scan.state = .run then { s with scan := s.scan.fill copied.2 } else s))
    else .next s.claimTransfer.release
  | _ => .next s

/-- The frame of a register that is FILLED (R111). -/
def FrameRegister.filled? : FrameRegister → Option Frame
  | .filled f => some f
  | .free | .inFlight _ => none

/-- The frame of a register IN FLIGHT (R111). -/
def FrameRegister.inFlight? : FrameRegister → Option Frame
  | .inFlight f => some f
  | .free | .filled _ => none

/-- The frame that waits to be sent: at most one register is FILLED (R111). -/
def ScanEngine.waitingFrame (e : ScanEngine) : Option Frame := e.regA.filled?.or e.regB.filled?

/-- The frame in flight: at most one register is IN FLIGHT (R111). -/
def ScanEngine.frameInFlight (e : ScanEngine) : Option Frame := e.regA.inFlight?.or e.regB.inFlight?

/-- The FILLED register IN FLIGHT, the register whose reply window has ended FREE (R111). -/
def ScanEngine.launch (e : ScanEngine) : ScanEngine :=
  match e.regA.filled?, e.regB.filled? with
  | some f, _ => { e with regA := .inFlight f, regB := e.regB.landed }
  | none, some f => { e with regA := e.regA.landed, regB := .inFlight f }
  | none, none => e

/-- Whether the line stands where the next item of a cycle in RUN begins: at the end of the mark or of an item
(R107). -/
def State.atItemStart (s : State) : Bool :=
  decide (s.scan.state = .run ∧ (s.scan.line = .mark ∨ s.scan.line = .between))

/-- FRAME_START: the FILLED register's frame begins (R107, R113), and the claim for the next entry is placed (R111). -/
def execFrameStart (s : State) : Result :=
  match s.scan.waitingFrame with
  | some f =>
    if s.atItemStart then
      .next (State.claimTransfer
        { s with scan := { s.scan.launch with line := .frame, sent := frameWords f s.timer.count } })
    else .next s
  | none => .next s

/-- Whether an entry opens a reply slot: no withdrawal, a node from 1 to 62, reply requested (R108). -/
def Entry.opensSlot (e : Entry) : Bool := !e.withdraw && decide (1 ≤ e.node ∧ e.node ≤ Config.nodeCount) && e.reply

/-- The reply slot of an entry (R113, R120). -/
def Entry.replySlot (e : Entry) : ReplySlot := ⟨e.slot, e.key, e.node, e.revision, .undecided⟩

/-- The reply slot list of a frame (R113, R120). -/
def Frame.replySlots (f : Frame) : List ReplySlot := (f.entries.filter Entry.opensSlot).map Entry.replySlot

/-- FRAME_END: the reply slot list is handed to the Reply Unit and the window begins, or the register is FREE and the next
item follows where the frame opens no slot (R107, R113). Results of an earlier list not yet handled, which do not arise
(R122), would stay in front. -/
def execFrameEnd (s : State) : Result :=
  match s.scan.frameInFlight with
  | some f =>
    if s.scan.state = .run ∧ s.scan.line = .frame then
      if f.replySlots = [] then .next { s with scan := { s.scan.landFrame with line := .between } }
      else
        .next { s with
          scan := { s.scan with line := .replyWindow }, reply := ⟨s.reply.slots ++ f.replySlots, []⟩ }
    else .next s
  | none => .next s

/-- CYCLE_MARK_END: in HOLD the line is idle until the next boundary (R117); in RUN the next item begins at the end of
the mark (R107; log entry 14). -/
def execCycleMarkEnd (s : State) : Result :=
  .next
    (if s.scan.line = .mark ∧ s.scan.state = .hold then { s with scan := { s.scan with line := .idle } }
    else if s.scan.line = .mark ∧ s.scan.state = .run then { s with scan := { s.scan with line := .between } }
    else s)

/-- READBACK_MISMATCH: on a word that is read back, the part stops driving, the scan is in FAULT, the LINE_FAULT notice
is raised with the cycle count, and the work in flight is abandoned; the pending request is kept (R115, R118). -/
def execReadbackMismatch (s : State) : Result :=
  .next
    (if s.comparing then
      State.abandonTraffic
        { s with scan := { s.scan with state := .fault }, notices := s.notices.lineFault s.timer.count }
    else s)

/-- Words received on the line (R121, R137): taken by the reply slot in progress, or by the request allowance of the
Demand Server; at any other time no block takes them (log entry 15). -/
def State.receive (s : State) (words : List LineWord) : State :=
  if s.scan.state = .run ∧ s.scan.line = .replyWindow then
    { s with reply := { s.reply with words := s.reply.words ++ words } }
  else if s.scan.state = .run ∧ s.scan.line = .demandWindow ∧ s.demand.state = .listening then
    { s with demand := { s.demand with words := s.demand.words ++ words } }
  else s

/-- STRAY_LINE_WORD (R121). -/
def execStrayLineWord (word : LineWord) (s : State) : Result := .next (s.receive [word])

/-- STORAGE_UPSET (R15). -/
def execStorageUpset (slot : Nat) (s : State) : Result := .next { s with store := s.store.upset slot }

end Sys2Proof.Machine
end

