-- ==== Sys2Proof/Machine/Demand.lean ====
section
/-! DEFINITION. The demand window (chapter 8): DEMAND_WINDOW_OPEN, DEMAND_REQUEST_ARRIVAL, REQUEST_ALLOWANCE_END,
DEMAND_LOOKUP, ANSWER_ALLOWANCE_START, ANSWER_SENT, DEMAND_WINDOW_END. -/

namespace Sys2Proof.Machine

/-- Whether every page of the cycle has been carried or passed over: the due list is fixed and worked through, and no
frame waits (R107, R114). -/
def State.framesDone (s : State) : Bool :=
  !s.arbiter.outstanding 0 && !s.arbiter.outstanding 2 && !s.arbiter.outstanding 3 && s.store.nextDue.isNone &&
    s.scan.waitingFrame.isNone

/-- DEMAND_WINDOW_OPEN: after the last reply window, or after the mark where the cycle carries no frame (R107); the
Demand Server listens, or is in SILENT WINDOW where no node is invited (R137). -/
def execDemandWindowOpen (s : State) : Result :=
  .next
    (if s.atItemStart ∧ s.framesDone then
      { s with
        scan := { s.scan.landFrame with line := .demandWindow },
        demand :=
          { s.demand with
            state := if s.demand.invited = 0 then .silentWindow else .listening, key := none, words := [],
            answer := none } }
    else s)

/-- DEMAND_REQUEST_ARRIVAL: the words are taken as the demand request (R137). -/
def execDemandRequestArrival (words : List LineWord) (s : State) : Result := .next (s.receive words)

/-- The judgement of a demand request (Table 8-2). -/
inductive Judgement where
  | noRequest
  | valid (key : Word)
  | bad
  | foreign
  deriving DecidableEq, Repr

end Sys2Proof.Machine

namespace Sys2Proof

/-- A first word that the Demand Server trusts: no parity or stop error, the type of a demand request, and the address of
the invited node (Table 8-2). -/
def LineWord.fromInvited (w : LineWord) (invited : Nat) : Bool :=
  w.sound && w.lead && decide (w.code = 4) && decide (w.requester.toNat = invited)

end Sys2Proof

namespace Sys2Proof.Machine

/-- The judgement of the words received within the request allowance (Table 8-2). -/
def judgeRequest (invited : Nat) (words : List LineWord) : Judgement :=
  match words with
  | [] => .noRequest
  | first :: rest =>
    if first.fromInvited invited = false then .foreign
    else
      match rest with
      | [key, check] =>
        if key.sound ∧ check.sound ∧ key.lead = false ∧ check.lead = false ∧ check.data = crc16 [first.data, key.data] then
          .valid key.data
        else .bad
      | _ => .bad

/-- The Demand Server with no answer to give for the rest of the window (R137). -/
def State.silenceWindow (s : State) : State :=
  { s with demand := { s.demand with state := .silentWindow, words := [] } }

/-- A VALID request (R138): reported to the Node Table first, then the lookup claim placed for a key that can name a
record. -/
def State.takeDemand (s : State) (key : Word) : State :=
  let n := s.demand.invited
  let s :=
    { s with
      nodes := s.nodes.set n ((s.nodes.at n).afterDemand s.port.config.misses),
      demand := { s.demand with state := .looking, key := some key, words := [] } }
  if keyInRange key then s.claim (.lookup key) else s

/-- A BAD request (R138): reported to the Node Table. -/
def State.chargeDemand (s : State) : State :=
  { s with nodes := s.nodes.set s.demand.invited (s.nodes.at s.demand.invited).erred }

/-- REQUEST_ALLOWANCE_END: the request is judged (R137, R138). After STOP SCAN it is not judged and the abort word
follows (R100, R142). -/
def execRequestAllowanceEnd (s : State) : Result :=
  if s.scan.abort = .afterAllowance then .next s.sendAbort
  else if s.scan.state = .run ∧ s.demand.state = .listening then
    match judgeRequest s.demand.invited s.demand.words with
    | .noRequest | .foreign => .next s.silenceWindow
    | .bad => .next s.chargeDemand.silenceWindow
    | .valid key => .next (s.takeDemand key)
  else .next s

/-- The answer to a lookup of a key, by the state of its slot (Table 8-3). -/
def answerFor (key : Word) (i : Nat) (v : Slot) : Answer :=
  match v with
  | .live r _ _ => .entry (r.fullEntry i)
  | .withdrawing r _ _ => .withdrawal (r.withdrawalEntry i)
  | .free | .reserved _ | .lapsed _ | .damaged _ => .notFound key

/-- A demand lookup in the table: the slot verified, the answer chosen, nothing else changed (R139). -/
def Store.demandLookup (st : Store) (entries : List BatchEntry) (key : Word) : Store × Answer :=
  match st.slotOfKey key with
  | none => (st, .notFound key)
  | some i =>
    let st := st.verifyAny entries i
    (st, answerFor key i (st.slotAt i))

/-- DEMAND_LOOKUP: the Demand Server's granted access (R139). Where the window has ended meanwhile, what the access
recorded stands and its answer is dropped (R19, R142). -/
def execDemandLookup (s : State) : Result :=
  match s.arbiter.inProgress with
  | some (.lookup key) =>
    let found := s.store.demandLookup s.batch.entries key
    let s := { s with store := found.1 }
    .next (State.release
      (if s.demand.state = .looking then { s with demand := { s.demand with answer := some found.2 } } else s))
  | _ => .next s

/-- The answer that the Demand Server has ready: its lookup's, or not-found for a key that names no record (R138). -/
def DemandServer.ready (d : DemandServer) : Option Answer :=
  match d.answer, d.key with
  | some a, _ => some a
  | none, some key => if keyInRange key then none else some (.notFound key)
  | none, none => none

/-- ANSWER_ALLOWANCE_START: the answer words are sent back to back (R140). -/
def execAnswerAllowanceStart (s : State) : Result :=
  match s.demand.ready with
  | some a =>
    if s.scan.state = .run ∧ s.demand.state = .looking then
      .next { s with
        demand := { s.demand with state := .answering, answer := some a },
        scan := { s.scan with sent := answerWords a s.demand.invited s.timer.index } }
    else .next s
  | none => .next s

/-- ANSWER_SENT: SILENT WINDOW for the rest of the window; the part keeps no record of the answer (R140). -/
def execAnswerSent (s : State) : Result :=
  .next
    (if s.scan.state = .run ∧ s.demand.state = .answering then
      { s with demand := { s.demand with state := .silentWindow, answer := none } }
    else s)

/-- DEMAND_WINDOW_END: the Demand Server is CLOSED and the line idle until the boundary (R107, R140). -/
def execDemandWindowEnd (s : State) : Result :=
  .next
    (if s.scan.state = .run ∧ s.scan.line = .demandWindow ∧ s.demand.state = .silentWindow then
      { s with scan := { s.scan with line := .idle }, demand := DemandServer.initial }
    else s)

end Sys2Proof.Machine
end

