-- ==== Sys2Proof/Machine/HostRequests.lean ====
section
/-! DEFINITION. The requests of the Host Port itself: IDENTIFY, STATUS, READ_CONFIGURATION, CONFIGURE, CLEAR and
CLEAR_INITIALIZATION_END. A request's row acts while the port holds that request (log entry 3). -/

namespace Sys2Proof.Machine

/-- The data of IDENTIFY (Table 11-8): vendor code, part code, revision, slots, pages, nodes, batch entries. -/
def identifyData : List Byte :=
  bytesOfWord 0x0A7C ++ bytesOfWord 0x1216 ++ [1] ++ bytesOfNat Config.slotCount ++
    [byteOf Config.pageCount, byteOf Config.nodeCount, byteOf Config.batchLimit]

/-- IDENTIFY (R159). -/
def execIdentify (s : State) : Result :=
  match s.heldDirect with
  | some .identify => .next (s.complete .ok identifyData)
  | _ => .next s

/-- STATUS (R159). -/
def execStatus (s : State) : Result :=
  match s.heldDirect with
  | some .status => .next (s.complete .ok [])
  | _ => .next s

/-- The five values of a configuration, as CONFIGURE arguments (Table 11-8). -/
def Configuration.data (c : Configuration) : List Byte :=
  [c.rate.code, byteOf c.steps, byteOf c.frames, byteOf c.withdrawals, byteOf c.misses]

/-- READ CONFIGURATION (R159). -/
def execReadConfiguration (s : State) : Result :=
  match s.heldDirect with
  | some .readConfiguration => .next (s.complete .ok s.port.config.data)
  | _ => .next s

/-- An accepted CONFIGURE: the five values stored together, every node's miss count 0 (R134, R160). -/
def State.setConfiguration (s : State) (c : Configuration) : State :=
  { s with port := { s.port with config := c }, nodes := s.nodes.clearMisses }

/-- CONFIGURE's checks 3 and 4 and its effect, in its access (R35, R160). -/
def execConfigure (s : State) : Result :=
  match s.heldAccess with
  | some (.configure c) =>
    if s.scan.state ≠ .stopped then .next (s.finish .wrongState [])
    else if c.frames < s.store.maxLoad then .next (s.finish .loadExceeds [])
    else .next ((s.setConfiguration c).finish .ok c.data)
  | _ => .next s

/-- CLEAR accepted: INIT, and table initialization of the Record Table, the Cycle Plan, the Batch Unit, the Node Table,
the Notice Unit and the Demand Server; the configuration and the port's flags are kept, and the access lasts until the
initialization ends (R22, R45, R95, R127, R137, R150, R158). -/
def State.startClear (s : State) : State :=
  { s with
    port := { s.port with state := .init, initCause := .clear },
    arbiter := { s.arbiter with waiting := [] }, store := Store.initial, timer := CycleTimer.initial,
    batch := BatchUnit.initial, reply := ReplyUnit.initial, nodes := NodeTable.initial,
    demand := DemandServer.initial, notices := NoticeUnit.initial }

/-- CLEAR, in its access (R158): refused unless STOPPED. -/
def execClear (s : State) : Result :=
  match s.heldAccess with
  | some .clear => .next (if s.scan.state = .stopped then s.startClear else s.finish .wrongState [])
  | _ => .next s

/-- CLEAR_INITIALIZATION_END: the OK response, and the port is READY (R22, R158). -/
def execClearInitializationEnd (s : State) : Result :=
  .next (if s.port.state = .init ∧ s.port.initCause = .clear then s.finish .ok [] else s)

end Sys2Proof.Machine
end

