-- ==== Sys2Proof/Machine/NodeRequests.lean ====
section
/-! DEFINITION. NODE_QUERY, NODE_SET (7.8) and TAKE_NOTICES (9.4). -/

namespace Sys2Proof.Machine

/-- The data of NODE QUERY and NODE SET (Table 11-8). -/
def nodeData (n : Nat) (r : NodeRecord) : List Byte :=
  [byteOf n, r.presence.code, r.reported.code, byteOf r.misses, byteOf r.errors, bitAt 0 r.permitted]

/-- NODE QUERY (R132). -/
def execNodeQuery (s : State) : Result :=
  match s.heldDirect with
  | some (.nodeQuery n) => .next (s.complete .ok (nodeData n (s.nodes.at n)))
  | _ => .next s

/-- A node record after NODE SET (R133). -/
def NodeRecord.changed (r : NodeRecord) (permitted clearErrors : Bool) : NodeRecord :=
  { r with permitted := permitted, errors := if clearErrors then 0 else r.errors }

/-- NODE SET (R133). -/
def execNodeSet (s : State) : Result :=
  match s.heldDirect with
  | some (.nodeSet n permitted clearErrors) =>
    let r := (s.nodes.at n).changed permitted clearErrors
    .next (State.complete { s with nodes := s.nodes.set n r } .ok (nodeData n r))
  | _ => .next s

/-! ### TAKE NOTICES (R147, R148) -/

/-- A notice record of 6 bytes: kind, flags, 4 content bytes (Table 11-10). -/
def noticeRecord (kind : Nat) (flag : Bool) (content : List Byte) : List Byte :=
  [byteOf kind, bitAt 0 flag] ++ (content ++ List.replicate 4 0).take 4

/-- The BATCH_APPLIED notice taken: its flag and content are cleared (R148). -/
def State.takeApplied (s : State) : State × List Byte :=
  match s.notices.applied with
  | some n =>
    ({ s with notices := { s.notices with applied := none } },
      noticeRecord 1 n.merged [byteOf n.applied, byteOf n.lapsed])
  | none => (s, [])

/-- The LINE_FAULT notice taken: its flag and content are cleared (R148). -/
def State.takeFault (s : State) : State × List Byte :=
  match s.notices.fault with
  | some n => ({ s with notices := { s.notices with fault := none } }, noticeRecord 2 n.repeated (bytesOfWord n.cycle))
  | none => (s, [])

/-- A NODE_PRESENCE notice taken: reported presence becomes the presence (R148). -/
def State.takeNode (s : State) (n : Nat) : State × List Byte :=
  let r := s.nodes.at n
  ({ s with nodes := s.nodes.set n { r with reported := r.presence } },
    noticeRecord 3 false [byteOf n, r.presence.code])

/-- A record notice taken (R147, R148): the slot verified first; LAPSED becomes FREE, echo changed becomes no, damage
reported becomes yes, damage found by the take included. -/
def State.takeSlot (s : State) (i : Nat) : State × List Byte :=
  let key := bytesOfWord ((s.store.keyAt i).getD 0)
  let st := s.store.verify i
  match st.slotAt i with
  | .lapsed r =>
    ({ s with store := st.changeSlot i .free },
      noticeRecord 4 (r.echo.bind Echo.held).isSome
        (key ++ bytesOfWord (((r.echo.bind Echo.held).map EchoHeld.value).getD 0)))
  | .live r remaining staged =>
    ({ s with store := st.changeSlot i (.live { r with echoChanged := some false } remaining staged) },
      noticeRecord 5 false (key ++ bytesOfWord (((r.echo.bind Echo.held).map EchoHeld.value).getD 0)))
  | .withdrawing r cause count =>
    ({ s with store := st.changeSlot i (.withdrawing { r with echoChanged := some false } cause count) },
      noticeRecord 5 false (key ++ bytesOfWord (((r.echo.bind Echo.held).map EchoHeld.value).getD 0)))
  | .damaged _ => ({ s with store := st.changeSlot i (.damaged true) }, noticeRecord 6 false key)
  | .free | .reserved _ => ({ s with store := st }, [])

/-- One notice taken, its record placed after those already reported (R147). -/
def takeOne (acc : State × List Byte) (source : NoticeSource) : State × List Byte :=
  let taken := match source with
    | .applied => acc.1.takeApplied
    | .fault => acc.1.takeFault
    | .node n => acc.1.takeNode n
    | .slot i => acc.1.takeSlot i
  (taken.1, acc.2 ++ taken.2)

/-- The notices that a take reports: the first 12 pending (R147). -/
def State.reportable (s : State) : List NoticeSource := s.noticeSources.take Config.takeLimit

/-- TAKE NOTICES (R147): the number reported, the number that remains pending, and the notice records. -/
def execTakeNotices (s : State) : Result :=
  match s.heldAccess with
  | some .takeNotices =>
    let taken := s.reportable.foldl takeOne (s, [])
    .next (taken.1.finish .ok
      (byteOf s.reportable.length :: bytesOfNat taken.1.noticeSources.length ++ taken.2))
  | _ => .next s

end Sys2Proof.Machine
end

