-- ==== Sys2Proof/Machine/PortEvents.lean ====
section
/-! DEFINITION. Power, reset, initialization and the transactions of the host port: POWER_ON, RESET_ASSERT, RESET_RELEASE,
INITIALIZATION_END, EMPTY_TRANSACTION, FETCH, REQUEST_ARRIVAL. -/

namespace Sys2Proof.Machine

/-- Every block at its reset value, with the Host Port as given (R157); the queue is kept. -/
def State.resetTo (s : State) (port : HostPort) : State := { State.reset with port := port, pending := s.pending }

/-- POWER_ON: the port enters INIT with the defaults, and every block takes its reset state (R157). -/
def execPowerOn (s : State) : Result := .next (s.resetTo HostPort.initial)

/-- RESET_ASSERT: the line is undriven at once without an abort word (R119), the table is initialized and every access,
request and transaction abandoned (R21, R151). The flags and the response buffer are cleared at the release (R153,
R157; log entry 7). -/
def execResetAssert (s : State) : Result :=
  .next (s.resetTo
    { HostPort.initial with
      resetAsserted := true, resetSeen := s.port.resetSeen, requestDiscarded := s.port.requestDiscarded,
      response := s.port.response })

/-- RESET_RELEASE: the port enters INIT, clears its flags, restores the defaults and runs table initialization
(R157). -/
def execResetRelease (s : State) : Result :=
  .next (if s.port.resetAsserted then s.resetTo HostPort.initial else s)

/-- INITIALIZATION_END: RESET_DONE with reset seen set, and the port is READY (R152, R156, R157). -/
def execInitializationEnd (s : State) : Result :=
  .next (if s.port.state = .init ∧ s.port.initCause = .reset ∧ s.port.resetAsserted = false then s.completeReset else s)

/-- EMPTY_TRANSACTION: no effect (R151). -/
def execEmptyTransaction (s : State) : Result := .next s

/-- The bytes returned on MISO in a transaction (model's observation; log entry 16). -/
def State.returning (s : State) (bytes : List Byte) : State := { s with port := { s.port with miso := bytes } }

/-- The filler byte (R165). -/
def filler : Byte := 0xFF

/-- A fetch of `count` whole bytes: filler in the first, then the response of the port state, then filler (R154, R165).
While RESET# is asserted the port takes no transaction and MISO is not driven (R151). -/
def State.fetch (s : State) (count : Nat) : State :=
  if s.port.resetAsserted then s.returning []
  else s.returning ((filler :: s.fetched ++ List.replicate count filler).take count)

/-- FETCH (R154). -/
def execFetch (count : Nat) (s : State) : Result := .next (s.fetch count)

/-- A request taken in READY (R152): the port is WORKING and holds the bytes; a failed check completes it at once, a
request that passes is held for its block, or its host request claim is placed (R155). -/
def State.takeRequest (s : State) (bytes : List Byte) : State :=
  let s :=
    { s with
      port := { s.port with
        state := .working, received := bytes.take Config.receiveLimit, receivedCount := bytes.length,
        stopScanDone := false } }
  match readRequest s.port.received s.port.receivedCount with
  | .error status => s.complete status []
  | .ok request =>
    let s := { s with port := { s.port with request := some request } }
    if request.direct then s else s.claim .host

/-- A request that arrives: taken in READY, else discarded whole with its flag set (R152, R153). -/
def State.arrive (s : State) (bytes : List Byte) : State :=
  match s.port.state with
  | .ready => s.takeRequest bytes
  | .init | .working => { s with port := { s.port with requestDiscarded := true } }

/-- REQUEST_ARRIVAL (R151, R152): the first whole byte decides the kind of the transaction, so no byte is an empty
transaction and 00h a fetch; filler is returned throughout a request transaction. -/
def execRequestArrival (bytes : List Byte) (s : State) : Result :=
  match bytes with
  | [] => .next s
  | code :: _ =>
    .next
      (if s.port.resetAsserted then s.returning []
      else if code = 0 then s.fetch bytes.length
      else (s.returning (List.replicate bytes.length filler)).arrive bytes)

end Sys2Proof.Machine
end

