-- ==== Sys2Proof/Machine/RecordRequests.lean ====
section
/-! DEFINITION. The record requests of chapter 3, immediate and staged (chapter 5): INSERT, AMEND, RENEW, RETIRE, LOOKUP,
PAGE_QUERY, LOAD_QUERY. -/

namespace Sys2Proof.Machine

/-! ### Staging (R82 to R85) -/

/-- The first two state checks of staging (Table 5-2): the key is not named by an entry, and the list is not full. -/
def BatchUnit.stagingRefusal (b : BatchUnit) (key : Word) : Option Status :=
  if b.entries.any fun e => decide (e.key = key) then some .conflict
  else if Config.batchLimit ≤ b.entries.length then some .batchFull
  else none

/-- An entry placed at the end of the list (R80). -/
def BatchUnit.stage (b : BatchUnit) (e : BatchEntry) : BatchUnit := { b with entries := b.entries ++ [e] }

/-- The position that the next entry takes, 1 to 32 (R80). -/
def BatchUnit.nextPosition (b : BatchUnit) : Nat := b.entries.length + 1

/-- A staged request's access completes: the table as it leaves it, the entry at the end of the list (R82). -/
def State.stageWith (s : State) (st : Store) (e : BatchEntry) (data : List Byte) : State :=
  State.finishWith { s with batch := s.batch.stage e } st .ok data

/-! ### INSERT (3.2, R83) -/

/-- The data of INSERT (Table 11-8): page, slot, indication, the phase of an opened page, the position of a staged
entry. -/
def insertData (a : Allocation) (staged : Option Nat) : List Byte :=
  [byteOf a.page, byteOf a.position, bitAt 0 a.opened.isSome + bitAt 1 staged.isSome] ++
    (a.opened.map byteOf).toList ++ (staged.map byteOf).toList

/-- An immediate INSERT in its access: the state checks of Table 3-2, then the record LIVE (R50, R51). -/
def State.insertNow (s : State) (args : InsertArgs) : State :=
  if (s.store.slotOfKey args.key).isSome then s.refuseWith s.store .keyExists
  else
    match s.store.allocate s.port.config.frames args.cls with
    | .error status => s.refuseWith s.store status
    | .ok a => s.finishWith (s.store.enter a args.cls args.key args.record.asLive) .ok (insertData a none)

/-- A staged INSERT in its access: the checks of Table 5-2, then the slot RESERVED and the staged copy kept (R83). -/
def State.insertStaged (s : State) (args : InsertArgs) : State :=
  match s.batch.stagingRefusal args.key with
  | some status => s.refuseWith s.store status
  | none =>
    if (s.store.slotOfKey args.key).isSome then s.refuseWith s.store .keyExists
    else
      match s.store.allocate s.port.config.frames args.cls with
      | .error status => s.refuseWith s.store status
      | .ok a =>
        s.stageWith (s.store.enter a args.cls args.key (.reserved args.record))
          ⟨.insert args.record, args.key, a.slot⟩ (insertData a (some s.batch.nextPosition))

/-- INSERT (R48, R50, R83): at once while the batch is NONE, staged while OPEN, refused while SEALED. -/
def execInsert (s : State) : Result :=
  match s.heldAccess with
  | some (.insert args) =>
    match s.batch.state with
    | .none => .next (s.insertNow args)
    | .open_ => .next (s.insertStaged args)
    | .sealed_ => .next (s.refuseWith s.store .batchSealed)
  | _ => .next s

/-! ### AMEND (3.3, R84) -/

/-- The flags and lease fields of a record with this lease length, lease remaining beside it (Table 11-8). -/
def leaseData (length remaining : Option Nat) : List Byte :=
  match length with
  | some n => [1] ++ bytesOfNat n ++ bytesOfNat (remaining.getD 0)
  | none => [0]

/-- An immediate AMEND in its access (R52, R53). -/
def State.amendNow (s : State) (key : Word) (payload : List Word) (field : Option Nat) : State :=
  match s.store.slotOfKey key with
  | none => s.refuseWith s.store .noKey
  | some i =>
    let st := s.store.verify i
    match st.slotAt i with
    | .live r _ _ =>
      let r := r.amended payload field
      s.finishWith (st.changeSlot i r.asLive) .ok (r.revision :: leaseData r.leaseLength r.leaseLength)
    | .free | .reserved _ | .withdrawing _ _ _ | .lapsed _ | .damaged _ => s.refuseWith st .notLive

/-- A staged AMEND in its access: amend staged is set, and the entry holds the payload and the lease field (R84). -/
def State.amendStaged (s : State) (key : Word) (payload : List Word) (field : Option Nat) : State :=
  match s.batch.stagingRefusal key with
  | some status => s.refuseWith s.store status
  | none =>
    match s.store.slotOfKey key with
    | none => s.refuseWith s.store .noKey
    | some i =>
      let st := s.store.verify i
      match st.slotAt i with
      | .live r remaining _ =>
        s.stageWith (st.changeSlot i (.live r remaining true)) ⟨.amend payload field, key, i⟩
          [byteOf s.batch.nextPosition]
      | .free | .reserved _ | .withdrawing _ _ _ | .lapsed _ | .damaged _ => s.refuseWith st .notLive

/-- AMEND (R48, R53, R84). -/
def execAmend (s : State) : Result :=
  match s.heldAccess with
  | some (.amend key payload field) =>
    match s.batch.state with
    | .none => .next (s.amendNow key payload field)
    | .open_ => .next (s.amendStaged key payload field)
    | .sealed_ => .next (s.refuseWith s.store .batchSealed)
  | _ => .next s

/-! ### RENEW (3.4) -/

/-- RENEW in its access (R54, Table 3-3). -/
def State.renewNow (s : State) (key : Word) (field : Option Nat) : State :=
  match s.store.slotOfKey key with
  | none => s.refuseWith s.store .noKey
  | some i =>
    let st := s.store.verify i
    match st.slotAt i with
    | .live r _ staged =>
      if field = none ∧ r.leaseLength = none then s.refuseWith st .badArg
      else
        let length := leaseAfter field r.leaseLength
        s.finishWith (st.changeSlot i (.live { r with leaseLength := length } length staged)) .ok
          (leaseData length length)
    | .free | .reserved _ | .withdrawing _ _ _ | .lapsed _ | .damaged _ => s.refuseWith st .notLive

/-- RENEW (R54): at once in every batch state. -/
def execRenew (s : State) : Result :=
  match s.heldAccess with
  | some (.renew key field) => .next (s.renewNow key field)
  | _ => .next s

/-! ### RETIRE (3.5, R85) -/

/-- An immediate RETIRE in its access (R55 to R57). -/
def State.retireNow (s : State) (key : Word) : State :=
  match s.store.slotOfKey key with
  | none => s.refuseWith s.store .noKey
  | some i =>
    let st := s.store.verify i
    match st.slotAt i with
    | .live r _ _ =>
      let st := st.retireLive s.scan.state s.port.config.withdrawals i r
      s.finishWith st .ok
        (if s.scan.state = .stopped then [Slot.free.code, 0]
          else [(Slot.withdrawing r .retired 0).code, byteOf s.port.config.withdrawals])
    | .lapsed _ | .damaged _ => s.finishWith (st.changeSlot i .free) .ok [Slot.free.code, 0]
    | .free | .reserved _ | .withdrawing _ _ _ => s.refuseWith st .notLive

/-- A staged RETIRE in its access: the record is unchanged (R85). -/
def State.retireStaged (s : State) (key : Word) : State :=
  match s.batch.stagingRefusal key with
  | some status => s.refuseWith s.store status
  | none =>
    match s.store.slotOfKey key with
    | none => s.refuseWith s.store .noKey
    | some i =>
      let st := s.store.verify i
      match st.slotAt i with
      | .live _ _ _ | .damaged _ => s.stageWith st ⟨.retire, key, i⟩ [byteOf s.batch.nextPosition]
      | .free | .reserved _ | .withdrawing _ _ _ | .lapsed _ => s.refuseWith st .notLive

/-- RETIRE (R48, R56, R57, R85). -/
def execRetire (s : State) : Result :=
  match s.heldAccess with
  | some (.retire key) =>
    match s.batch.state with
    | .none => .next (s.retireNow key)
    | .open_ => .next (s.retireStaged key)
    | .sealed_ => .next (s.refuseWith s.store .batchSealed)
  | _ => .next s

/-! ### LOOKUP, PAGE QUERY, LOAD QUERY (3.6, 3.7) -/

/-- The echo value a record holds (R5). -/
def Record.echoHeld (r : Record) : Option EchoHeld :=
  match r.echo with
  | some e => e.held
  | none => none

/-- The fields of a record in a LOOKUP response, each present as its flags give (Table 11-8). -/
def recordData (r : Record) (remaining : Option Nat) (withdrawal : Option (Cause × Nat)) (staged : Bool)
    (changed : Option Bool) : List Byte :=
  [byteOf r.node, byteOf r.channel, r.cls.code, bitAt 0 r.replyRequested + bitAt 1 r.notify,
    bitAt 0 r.leaseLength.isSome + bitAt 1 remaining.isSome + bitAt 2 r.echo.isSome + bitAt 3 r.echoHeld.isSome +
      bitAt 4 withdrawal.isSome + bitAt 5 staged + bitAt 6 changed.isSome + bitAt 7 (changed == some true),
    r.revision, byteOf r.payload.length] ++ r.payload.flatMap bytesOfWord ++
    (r.leaseLength.map bytesOfNat).getD [] ++ (remaining.map bytesOfNat).getD [] ++
    (match r.echo with
      | some e => e.state.code :: ((e.held.map fun h => bytesOfWord h.value ++ [h.revision]).getD [])
      | none => []) ++
    (match withdrawal with
      | some (cause, count) => [cause.code, byteOf count]
      | none => [])

/-- The data of LOOKUP by the state of the slot (Tables 3-4 and 11-8). -/
def lookupData (key : Word) (i : Nat) (v : Slot) : List Byte :=
  bytesOfWord key ++ [byteOf (i / Config.slotsPerPage), byteOf (i % Config.slotsPerPage), v.code] ++
    match v with
    | .reserved r => recordData r none none false none
    | .live r remaining staged => recordData r remaining none staged r.echoChanged
    | .withdrawing r cause count => recordData r none (some (cause, count)) false r.echoChanged
    | .lapsed r => recordData r none none false r.echoChanged
    | .damaged _ => []
    | .free => []

/-- LOOKUP (R58). -/
def execLookup (s : State) : Result :=
  match s.heldAccess with
  | some (.lookup key) =>
    match s.store.slotOfKey key with
    | none => .next (s.refuseWith s.store .noKey)
    | some i =>
      let st := s.store.verifyAny s.batch.entries i
      .next (s.finishWith st .ok (lookupData key i (st.slotAt i)))
  | _ => .next s

/-- One slot in a PAGE QUERY response: its state, and the key of its directory entry where it is not FREE (R59). -/
def Store.slotData (st : Store) (i : Nat) : List Byte :=
  (st.slotAt i).code :: (if (st.slotAt i).isFree then [] else bytesOfWord ((st.keyAt i).getD 0))

/-- The data of PAGE QUERY (Table 11-8). -/
def Store.pageData (st : Store) (p : Nat) : List Byte :=
  let record := st.pageAt p
  [(st.pageState p).code, bitAt 0 record.schedule.isSome + bitAt 1 record.lastTransfer.isSome] ++
    ((record.schedule.map fun sc => [sc.cls.code, byteOf sc.phase]).getD []) ++
    ((record.lastTransfer.map bytesOfWord).getD []) ++ (pageSlotIndices p).flatMap st.slotData

/-- PAGE QUERY (R59): it does not verify. -/
def execPageQuery (s : State) : Result :=
  match s.heldAccess with
  | some (.pageQuery p) => .next (s.finish .ok (s.store.pageData p))
  | _ => .next s

/-- LOAD QUERY (R60). -/
def execLoadQuery (s : State) : Result :=
  match s.heldAccess with
  | some .loadQuery => .next (s.finish .ok (s.store.loads.map byteOf ++ [byteOf s.port.config.frames]))
  | _ => .next s

end Sys2Proof.Machine
end

