-- ==== Sys2Proof/Machine/Replies.lean ====
section
/-! DEFINITION. The reply window (chapter 7): REPLY_ARRIVAL, REPLY_SLOT_EXPIRY, ECHO_WRITE_BACK. -/

namespace Sys2Proof.Machine

/-- REPLY_ARRIVAL: the words are taken as the reply of the slot in progress (R121). -/
def execReplyArrival (words : List LineWord) (s : State) : Result := .next (s.receive words)

/-- The result of a slot from the words received within it (Table 7-2). -/
def judgeReply (key : Word) (words : List LineWord) : ReplyResult :=
  match words with
  | [] => .absent
  | [value, check] =>
    if value.sound ∧ check.sound ∧ value.lead = false ∧ check.lead = false ∧ check.data = crc16 [key, value.data] then
      .valid value.data
    else .invalid
  | _ => .invalid

/-- The first UNDECIDED slot of a list judged: the slot in progress (R120, R121). -/
def judgeFirst (words : List LineWord) : List ReplySlot → List ReplySlot
  | [] => []
  | x :: rest =>
    if x.result = .undecided then { x with result := judgeReply x.key words } :: rest
    else x :: judgeFirst words rest

/-- The Reply Unit at the expiry of a slot: judged, and no word yet of the next (R121). -/
def ReplyUnit.judge (u : ReplyUnit) : ReplyUnit := ⟨judgeFirst u.words u.slots, []⟩

/-- Whether a slot of the list is still to run. -/
def ReplyUnit.windowOpen (u : ReplyUnit) : Bool := u.slots.any fun x => decide (x.result = .undecided)

/-- The write-back claim for the slot at the front of the list, once it is judged (R122). -/
def State.claimWriteBack (s : State) : State :=
  match s.reply.slots with
  | [] => s
  | x :: _ => if x.result = .undecided then s else s.claim (.writeBack x)

/-- REPLY_SLOT_EXPIRY: the slot in progress is judged, and its handling begins unless an earlier slot is still being
handled (R121, R122); the window ends with its last slot. After STOP SCAN the slot is not judged and the abort word
follows it (R100, R126). -/
def execReplySlotExpiry (s : State) : Result :=
  if s.scan.abort = .afterSlot then .next s.sendAbort
  else if s.scan.state = .run ∧ s.scan.line = .replyWindow then
    let s := { s with reply := s.reply.judge }
    let s := if s.reply.windowOpen then s else { s with scan := { s.scan with line := .between } }
    .next (if s.arbiter.outstanding 1 then s else s.claimWriteBack)
  else .next s

/-- ECHO_WRITE_BACK: the Reply Unit's granted access (R123), then the report to the Node Table (R122, R128, R129), then
the next slot. When the last slot has been handled the frame register is FREE (R113, R122). DESIGN CHOICE (log entry 24): the
write-back claim of a next slot that is already judged is placed before the next grant, ahead of a waiting host request; R18
and R122 leave the order open. -/
def execEchoWriteBack (s : State) : Result :=
  match s.arbiter.inProgress with
  | some (.writeBack item) =>
    let s :=
      { s with
        store := s.store.writeEcho item,
        nodes := s.nodes.set item.node ((s.nodes.at item.node).afterReply s.port.config.misses item.result),
        reply := { s.reply with slots := s.reply.slots.drop 1 } }
    let s := if s.reply.slots = [] ∧ s.scan.line = .between then { s with scan := s.scan.landFrame } else s
    .next s.claimWriteBack.release
  | _ => .next s

end Sys2Proof.Machine
end

