-- ==== Sys2Proof/Machine/Boundary.lean ====
section
/-! DEFINITION. The boundary and its table work: BOUNDARY, LEASE_COUNTDOWN, BATCH_APPLICATION. -/

namespace Sys2Proof.Machine

/-- The Cycle Timer at a boundary: both start at 0 at START SCAN, and each later boundary raises both by 1 (R36,
R37). -/
def CycleTimer.boundary (t : CycleTimer) (first : Bool) : CycleTimer :=
  if first then ⟨true, 0, 0⟩ else { t with index := t.index + 1, count := t.count + 1 }

/-- The scan state after the boundary takes the pending request (R104). -/
def ScanEngine.taken (e : ScanEngine) : ScanState :=
  match e.request with
  | .hold => .hold
  | .resume => .run
  | .none => e.state

/-- The boundary at the Scan Engine (R104): the pending request is taken; in RUN the invited node is chosen (R135) and
the mark sent, in HOLD the mark with the hold flag and no invited node, in FAULT nothing. -/
def State.scanBoundary (s : State) (first : Bool) : State :=
  let state := s.scan.taken
  match state with
  | .run =>
    let choice := s.nodes.invite
    { s with
      scan := { s.scan with
        state := .run, request := .none, line := .mark,
        sent := markWords false first choice.1 s.timer.index s.timer.count },
      nodes := choice.2, demand := { DemandServer.initial with invited := choice.1 } }
  | .hold =>
    { s with
      scan := { s.scan with
        state := .hold, request := .none, line := .mark,
        sent := markWords true first 0 s.timer.index s.timer.count } }
  | .fault => { s with scan := { s.scan with state := .fault, request := .none } }
  | .stopped => s

/-- The boundary delivered (R38): the old due list ends (R39), the countdown claim is placed and then, while the batch is
SEALED, the application claim (R88), and the Scan Engine acts, unless STOP SCAN has stopped it in the access in progress
(R101). Traffic that R110 keeps from lasting so long is abandoned (log entry 10). -/
def State.takeBoundary (s : State) (first : Bool) : State :=
  let s := { s with timer := s.timer.boundary first, store := { s.store with due := [] } }
  let s := if s.scan.state = .stopped then s else s.abandonTraffic
  let s := s.claim .countdown
  let s := if s.batch.state = .sealed_ then s.claim .application else s
  if s.scan.state = .stopped then s else s.scanBoundary first

/-- BOUNDARY: the expiry of the Cycle Timer, while it runs (R36, R37, R38). -/
def execBoundary (s : State) : Result := .next (if s.timer.running then s.takeBoundary false else s)

/-- LEASE_COUNTDOWN: the Lease Unit's granted access (R67); it fixes the due list where no application claim was placed
at this boundary (R41). -/
def execLeaseCountdown (s : State) : Result :=
  match s.arbiter.inProgress with
  | some .countdown =>
    let s := { s with store := s.store.countdown s.port.config.withdrawals }
    .next (if .application ∈ s.arbiter.waiting then s.release else s.fixDueList.release)
  | _ => .next s

/-- BATCH_APPLICATION: the Batch Unit's granted access at a boundary (R89), which fixes the due list (R41). -/
def execBatchApplication (s : State) : Result :=
  match s.arbiter.inProgress with
  | some .application => .next s.applyBatch.fixDueList.release
  | _ => .next s

end Sys2Proof.Machine
end

