-- ==== Sys2Proof/Machine/ScanRequests.lean ====
section
/-! DEFINITION. The scan requests: START_SCAN, STOP_SCAN, STOP_SCAN_COMPLETION, HOLD_SCAN, RESUME_SCAN. -/

namespace Sys2Proof.Machine

/-- START SCAN taken while STOPPED: RUN, index and count 0, the timer started and the first boundary taken at once
(R36, R99). -/
def State.startScan (s : State) : State :=
  State.takeBoundary { s with scan := { s.scan with state := .run } } true

/-- START SCAN (R99): refused unless STOPPED. -/
def execStartScan (s : State) : Result :=
  match s.heldDirect with
  | some .startScan =>
    .next (if s.scan.state = .stopped then s.startScan.complete .ok [] else s.complete .wrongState [])
  | _ => .next s

/-- The table work of STOP SCAN's access (R101): every withdrawal completed (R23), a sealed batch applied as while
STOPPED (R92), the timer stopped and the due list emptied (R46), and the claims of a boundary taken during the access
withdrawn (R78, R92). -/
def State.stopInAccess (s : State) : State :=
  let s := { s with store := s.store.completeWithdrawals }
  let s := if s.batch.state = .sealed_ then s.applyBatch else s
  { s with
    timer := { s.timer with running := false }, store := { s.store with due := [] },
    arbiter := { s.arbiter with
      waiting := s.arbiter.waiting.filter fun c => decide (c ≠ .countdown ∧ c ≠ .application) } }

/-- STOP SCAN's access (R100, R101). Its grant has made the scan state STOPPED; the timer still runs exactly where the
scan was not STOPPED before, and otherwise nothing changes. The response waits for the abort word. -/
def execStopScan (s : State) : Result :=
  match s.heldAccess with
  | some .stopScan =>
    let s := if s.scan.state = .stopped ∧ s.timer.running = true then s.stopInAccess else s
    .next (State.release { s with port := { s.port with stopScanDone := true } })
  | _ => .next s

/-- Whether the abort word still waits for the end of a reply slot or of the request allowance (R100). -/
def Abort.waits : Abort → Bool
  | .afterSlot | .afterAllowance => true
  | .none | .afterWord | .sent => false

/-- STOP_SCAN_COMPLETION: once the access is complete and the abort word, if one is due, has been sent, the response is
OK (R100, R155). -/
def execStopScanCompletion (s : State) : Result :=
  match s.heldDirect with
  | some .stopScan =>
    if s.port.stopScanDone = true ∧ s.scan.abort.waits = false then
      let s := if s.scan.abort = .afterWord then s.sendAbort else s
      .next (State.complete { s with scan := { s.scan with abort := .none } } .ok [])
    else .next s
  | _ => .next s

/-- The pending request after HOLD SCAN (R102, Table 6-2). -/
def ScanEngine.holdRequest (e : ScanEngine) : ScanRequest :=
  match e.state with
  | .run | .fault => .hold
  | .hold => if e.request = .resume then .none else e.request
  | .stopped => e.request

/-- HOLD SCAN (R102): refused while STOPPED. -/
def execHoldScan (s : State) : Result :=
  match s.heldDirect with
  | some .holdScan =>
    if s.scan.state = .stopped then .next (s.complete .wrongState [])
    else .next (State.complete { s with scan := { s.scan with request := s.scan.holdRequest } } .ok [])
  | _ => .next s

/-- The pending request after RESUME SCAN (R103, Table 6-2). -/
def ScanEngine.resumeRequest (e : ScanEngine) : ScanRequest :=
  match e.state with
  | .hold | .fault => .resume
  | .run => if e.request = .hold then .none else e.request
  | .stopped => e.request

/-- RESUME SCAN (R103): refused while STOPPED. -/
def execResumeScan (s : State) : Result :=
  match s.heldDirect with
  | some .resumeScan =>
    if s.scan.state = .stopped then .next (s.complete .wrongState [])
    else .next (State.complete { s with scan := { s.scan with request := s.scan.resumeRequest } } .ok [])
  | _ => .next s

end Sys2Proof.Machine
end

