-- ==== Sys2Proof/Machine/Dispatch.lean ====
section
/-! DEFINITION. The dispatch of commands to their meanings: one arm for each command. -/

namespace Sys2Proof.Machine

def exec (i : Instr) (s : State) : Host.Outcome State Fault Refusal :=
  match i with
  | .powerOn => Sys2Proof.Machine.execPowerOn s
  | .resetAssert => Sys2Proof.Machine.execResetAssert s
  | .resetRelease => Sys2Proof.Machine.execResetRelease s
  | .initializationEnd => Sys2Proof.Machine.execInitializationEnd s
  | .emptyTransaction => Sys2Proof.Machine.execEmptyTransaction s
  | .fetch count => Sys2Proof.Machine.execFetch count s
  | .requestArrival bytes => Sys2Proof.Machine.execRequestArrival bytes s
  | .identify => Sys2Proof.Machine.execIdentify s
  | .status => Sys2Proof.Machine.execStatus s
  | .readConfiguration => Sys2Proof.Machine.execReadConfiguration s
  | .configure => Sys2Proof.Machine.execConfigure s
  | .clear => Sys2Proof.Machine.execClear s
  | .clearInitializationEnd => Sys2Proof.Machine.execClearInitializationEnd s
  | .startScan => Sys2Proof.Machine.execStartScan s
  | .stopScan => Sys2Proof.Machine.execStopScan s
  | .stopScanCompletion => Sys2Proof.Machine.execStopScanCompletion s
  | .holdScan => Sys2Proof.Machine.execHoldScan s
  | .resumeScan => Sys2Proof.Machine.execResumeScan s
  | .insert => Sys2Proof.Machine.execInsert s
  | .amend => Sys2Proof.Machine.execAmend s
  | .renew => Sys2Proof.Machine.execRenew s
  | .retire => Sys2Proof.Machine.execRetire s
  | .lookup => Sys2Proof.Machine.execLookup s
  | .pageQuery => Sys2Proof.Machine.execPageQuery s
  | .loadQuery => Sys2Proof.Machine.execLoadQuery s
  | .openBatch => Sys2Proof.Machine.execOpenBatch s
  | .commitBatch => Sys2Proof.Machine.execCommitBatch s
  | .abortBatch => Sys2Proof.Machine.execAbortBatch s
  | .batchQuery => Sys2Proof.Machine.execBatchQuery s
  | .nodeQuery => Sys2Proof.Machine.execNodeQuery s
  | .nodeSet => Sys2Proof.Machine.execNodeSet s
  | .takeNotices => Sys2Proof.Machine.execTakeNotices s
  | .boundary => Sys2Proof.Machine.execBoundary s
  | .leaseCountdown => Sys2Proof.Machine.execLeaseCountdown s
  | .batchApplication => Sys2Proof.Machine.execBatchApplication s
  | .pageTransfer => Sys2Proof.Machine.execPageTransfer s
  | .frameStart => Sys2Proof.Machine.execFrameStart s
  | .frameEnd => Sys2Proof.Machine.execFrameEnd s
  | .replyArrival words => Sys2Proof.Machine.execReplyArrival words s
  | .replySlotExpiry => Sys2Proof.Machine.execReplySlotExpiry s
  | .echoWriteBack => Sys2Proof.Machine.execEchoWriteBack s
  | .demandWindowOpen => Sys2Proof.Machine.execDemandWindowOpen s
  | .demandRequestArrival words => Sys2Proof.Machine.execDemandRequestArrival words s
  | .requestAllowanceEnd => Sys2Proof.Machine.execRequestAllowanceEnd s
  | .demandLookup => Sys2Proof.Machine.execDemandLookup s
  | .answerAllowanceStart => Sys2Proof.Machine.execAnswerAllowanceStart s
  | .demandWindowEnd => Sys2Proof.Machine.execDemandWindowEnd s
  | .readbackMismatch => Sys2Proof.Machine.execReadbackMismatch s
  | .strayLineWord word => Sys2Proof.Machine.execStrayLineWord word s
  | .storageUpset slot => Sys2Proof.Machine.execStorageUpset slot s
  | .answerSent => Sys2Proof.Machine.execAnswerSent s
  | .cycleMarkEnd => Sys2Proof.Machine.execCycleMarkEnd s

end Sys2Proof.Machine
end

