-- ==== Sys2Proof/Safety.lean ====
section
/-! DEFINITION. What the manual promises of every state of the part: the laws that each step keeps, and the words in which
the obligations speak of a table. -/

namespace Sys2Proof.Machine

/-! ### The canonical form of the numbered tables -/

/-- The slots, the Key Directory and the page records stand in their canonical form. -/
def Store.canonical (st : Store) : Prop :=
  Sparse.wf st.cells Cell.empty = true ∧ Sparse.rising st.directory = true ∧
    Sparse.wf st.pages PageRecord.empty = true

/-- Every numbered table of the part stands in its canonical form. -/
def State.canonical (s : State) : Prop :=
  s.store.canonical ∧ Sparse.wf s.nodes.records NodeRecord.initial = true

/-! ### The Key Directory and the slots (R13) -/

/-- A slot is non-FREE exactly when the directory holds an entry for it, no two entries share a key or a slot, and every
slot lies in the table (R1, R13). -/
structure Store.Occupied (st : Store) : Prop where
  rising : Sparse.rising st.directory = true
  distinct : st.directory.Pairwise fun a b => a.2 ≠ b.2
  exact : ∀ i, st.slotAt i ≠ .free ↔ ∃ e ∈ st.directory, e.2 = i
  inTable : ∀ e ∈ st.directory, e.2 < Config.slotCount

/-! ### Pages and load counters (R26, R30) -/

/-- Whether a page is OPENING or OPEN (R26). -/
def Store.scheduled (st : Store) (p : Nat) : Bool :=
  decide (st.pageState p = .opening ∨ st.pageState p = .open_)

/-- Whether a page is OPENING or OPEN and due at a cycle index (R30). -/
def Store.promised (st : Store) (i p : Nat) : Bool :=
  st.scheduled p && (match (st.pageAt p).schedule with
    | some sc => sc.dueAt i
    | none => false)

/-- A page holds a class and a phase exactly while it is OPENING or OPEN, and every load counter is the number of OPENING
or OPEN pages whose phase equals its index modulo their period (R24, R26, R30). -/
structure Store.Planned (st : Store) : Prop where
  counters : st.loads.length = Config.indexCount
  schedules : ∀ p, (st.pageAt p).schedule.isSome = st.scheduled p
  loads : ∀ i, i < Config.indexCount → st.load i = (pageIndices.filter (st.promised i)).length
  inTable : ∀ i, Config.slotCount ≤ i → st.slotAt i = .free

/-- The record of a slot that counts for its page: RESERVED, LIVE or WITHDRAWING (R26). -/
def Slot.scheduled? : Slot → Option Record
  | .reserved r | .live r _ _ | .withdrawing r _ _ => some r
  | .free | .lapsed _ | .damaged _ => none

/-- The class condition: every RESERVED, LIVE or WITHDRAWING slot holds a record of its page's class (R26). -/
def Store.Classed (st : Store) : Prop :=
  ∀ i r, (st.slotAt i).scheduled? = some r → ∃ sc, (st.pageAt (i / 8)).schedule = some sc ∧ sc.cls = r.cls

/-- Every untransferred entry of the due list names an OPEN page: one that leaves OPEN is struck (R40, R43). -/
def Store.Struck (st : Store) : Prop := ∀ e ∈ st.due, e.transferred = false → st.pageState e.page = .open_

/-- What an access that changes slots of one page, and may change its state, does to the Cycle Plan, `u` the table after it
(R26, R28, R29, R30, R43). -/
structure Store.Replanned (st u : Store) (p : Nat) : Prop where
  lastTransfers : ∀ q, (u.pageAt q).lastTransfer = (st.pageAt q).lastTransfer
  others : ∀ q, q ≠ p → u.pageAt q = st.pageAt q
  stays : u.pageState p = .open_ → u.due = st.due
  struck : u.pageState p ≠ .open_ → u.due = st.due.filter fun e => e.transferred || decide (e.page ≠ p)
  keeps : u.pageState p = .open_ ∨ u.pageState p = .opening →
    (u.pageAt p).schedule = (st.pageAt p).schedule ∧ u.loads = st.loads
  closes : u.pageState p = .closed ∨ u.pageState p = .dormant →
    (u.pageAt p).schedule = none ∧ ((st.pageAt p).schedule = none → u.loads = st.loads) ∧
      ∀ sc, (st.pageAt p).schedule = some sc → ∀ i, i < 16 →
        u.load i = st.load i - (if i % sc.cls.period = sc.phase then 1 else 0)

/-! ### The Cycle Timer (R36, R37) -/

/-- The cycle index equals the cycle count mod 16 (R37). -/
def CycleTimer.inStep (t : CycleTimer) : Prop := t.index.toNat = t.count.toNat % Config.indexCount

/-- The timer runs while the scan state is RUN, HOLD or FAULT (R36). -/
def State.timed (s : State) : Prop := s.scan.state ≠ .stopped → s.timer.running = true

/-- No request is pending while the scan is STOPPED (R98). -/
def State.quiet (s : State) : Prop := s.scan.state = .stopped → s.scan.request = .none

/-! ### The frame registers (R111) -/

/-- The number of registers for which a test holds. -/
def ScanEngine.registers (e : ScanEngine) (test : FrameRegister → Bool) : Nat :=
  (test e.regA).toNat + (test e.regB).toNat

/-- Whether a register is IN FLIGHT (R111). -/
def FrameRegister.isInFlight : FrameRegister → Bool
  | .inFlight _ => true
  | .free | .filled _ => false

/-- At most one register is FILLED and at most one is IN FLIGHT; a transfer claim is outstanding only while none is
FILLED, and only once (R18, R111). -/
structure State.Registers (s : State) : Prop where
  filled : s.scan.registers FrameRegister.isFilled ≤ 1
  inFlight : s.scan.registers FrameRegister.isInFlight ≤ 1
  claimed : s.arbiter.outstanding 0 = true → s.scan.registers FrameRegister.isFilled = 0
  once : ∀ p, s.arbiter.inProgress = some (.transfer p) → ∀ q, .transfer q ∉ s.arbiter.waiting

/-! ### The Node Table (R127) -/

/-- A node in PRESENT has a consecutive miss count below M (R127); M, and the M of a CONFIGURE that waits for its access,
is at least 1 (R160). -/
structure State.Presence (s : State) : Prop where
  threshold : 1 ≤ s.port.config.misses
  requested : ∀ c, s.port.request = some (.configure c) → 1 ≤ c.misses
  law : ∀ n, (s.nodes.at n).presence = .present → (s.nodes.at n).misses < s.port.config.misses

/-! ### The batch (R79, R80) -/

/-- Whether a batch entry is an AMEND (R80). -/
def BatchEntry.isAmend (e : BatchEntry) : Bool :=
  match e.op with
  | .amend _ _ => true
  | .insert _ | .retire => false

/-- Whether an AMEND entry names a slot under the key of its directory entry (R94). -/
def BatchEntry.names (e : BatchEntry) (st : Store) (i : Nat) : Prop :=
  e.isAmend = true ∧ e.slot = i ∧ st.keyAt i = some e.key

/-- The batch holds at most 32 entries with distinct keys, and none while it is NONE (R80). -/
structure BatchUnit.Bounded (b : BatchUnit) : Prop where
  few : b.entries.length ≤ Config.batchLimit
  distinct : b.entries.Pairwise fun x y => x.key ≠ y.key
  emptyWhenNone : b.state = .none → b.entries = []

/-! ### Requests (R49, R52, R54, R55, R58, R59, R132, R133, R160) -/

/-- The range of a lease field: absent, or a value of 16 bits (R52, R54). -/
def leaseInRange (lease : Option Nat) : Prop := ∀ n, lease = some n → n < 65536

/-- The argument ranges of a request that has passed its checks (Table 10-3). -/
def Request.inRange : Request → Prop
  | .configure c =>
    1 ≤ c.steps ∧ c.steps ≤ 32 ∧ 1 ≤ c.frames ∧ c.frames ≤ 16 ∧ 1 ≤ c.withdrawals ∧ c.withdrawals ≤ 3 ∧
      1 ≤ c.misses ∧ c.misses ≤ 15 ∧ (c.frames * 115 + 3 + 18) * c.rate.wordTime ≤ c.steps * 250
  | .insert a =>
    a.key ≠ 0 ∧ a.key ≠ 0xFFFF ∧ 1 ≤ a.node ∧ a.node ≤ 63 ∧ a.channel ≤ 15 ∧ 1 ≤ a.payload.length ∧
      a.payload.length ≤ 8 ∧ (a.replyRequested = true → a.node ≠ 63) ∧ (a.notify = true → a.replyRequested = true) ∧
      a.lease ≠ some 0 ∧ leaseInRange a.lease
  | .amend key payload lease =>
    key ≠ 0 ∧ key ≠ 0xFFFF ∧ 1 ≤ payload.length ∧ payload.length ≤ 8 ∧ leaseInRange lease
  | .renew key lease => key ≠ 0 ∧ key ≠ 0xFFFF ∧ leaseInRange lease
  | .retire key => key ≠ 0 ∧ key ≠ 0xFFFF
  | .lookup key => key ≠ 0 ∧ key ≠ 0xFFFF
  | .pageQuery p => p < 128
  | .nodeQuery n => 1 ≤ n ∧ n ≤ 62
  | .nodeSet n _ _ => 1 ≤ n ∧ n ≤ 62
  | .identify | .status | .readConfiguration | .clear | .startScan | .stopScan | .holdScan | .resumeScan => True
  | .loadQuery | .openBatch | .commitBatch | .abortBatch | .batchQuery | .takeNotices => True

/-- A request as the host sends it whole: code, length, arguments, CRC-8 over all of them (R151, R164). -/
def framed (code : Byte) (args : List Byte) : List Byte :=
  code :: byteOf args.length :: args ++ [crc8 (code :: byteOf args.length :: args)]

/-- What checks 1 to 4 answer for a request that was sent and received whole (R155). -/
def readFramed (code : Byte) (args : List Byte) : Except Status Request :=
  readRequest (framed code args) (args.length + 3)

/-! ### Records and the entries of a batch (R2, R5, R13, R66, R79, R80) -/

/-- The echo of a record: no value while NONE, a value while FRESH (R5). -/
def Echo.lawful (e : Echo) : Prop :=
  (e.state = .none → e.held = none) ∧ (e.state = .fresh → e.held ≠ none)

/-- The fields of a record lie in the ranges of Table 1-2, and a conditional field is present exactly while its condition
holds (R2, R5). -/
structure Record.Lawful (r : Record) : Prop where
  key : r.key ≠ 0 ∧ r.key ≠ 0xFFFF
  node : 1 ≤ r.node ∧ r.node ≤ 63
  channel : r.channel ≤ 15
  payload : 1 ≤ r.payload.length ∧ r.payload.length ≤ 8
  reply : r.replyRequested = true → r.node ≠ 63
  notify : r.notify = true → r.replyRequested = true
  lease : ∀ n, r.leaseLength = some n → 1 ≤ n ∧ n < 65536
  echo : r.echo.isSome = r.replyRequested
  held : ∀ e, r.echo = some e → e.lawful
  changed : r.echoChanged.isSome = r.notify

/-- A lease remaining beside its lease length: absent without one, and otherwise between 1 and it (R66). -/
def leaseWithin (remaining length : Option Nat) : Prop :=
  match remaining, length with
  | none, none => True
  | some n, some m => 1 ≤ n ∧ n ≤ m
  | none, some _ | some _, none => False

/-- A slot holds a lawful record under the key of its directory entry (R2, R13), and a LIVE one with a lease a lease
remaining within it (R66). -/
def Slot.lawful (key : Option Word) : Slot → Prop
  | .reserved r | .withdrawing r _ _ | .lapsed r => r.Lawful ∧ key = some r.key
  | .live r remaining _ => r.Lawful ∧ key = some r.key ∧ leaseWithin remaining r.leaseLength
  | .free | .damaged _ => True

/-- Every slot is lawful, every key of the directory lies in 1 to 65534 (R13), and what a record will be made from is in
range: the request that the port holds, and the payload and lease field of an AMEND entry (R80). -/
structure State.Recorded (s : State) : Prop where
  slots : ∀ i, (s.store.slotAt i).lawful (s.store.keyAt i)
  keys : ∀ e ∈ s.store.directory, 1 ≤ e.1 ∧ e.1 ≤ 65534
  request : ∀ r, s.port.request = some r → r.inRange
  amends : ∀ e ∈ s.batch.entries, ∀ payload lease, e.op = .amend payload lease →
    1 ≤ payload.length ∧ payload.length ≤ 8 ∧ leaseInRange lease

/-- Whether a batch entry is an INSERT (R80). -/
def BatchEntry.isInsert (e : BatchEntry) : Bool :=
  match e.op with
  | .insert _ => true
  | .amend _ _ | .retire => false

/-- The number of RESERVED slots. -/
def Store.reservedCount (st : Store) : Nat := (slotIndices.filter fun i => (st.slotAt i).isReserved).length

/-- The RESERVED slots and the INSERT entries of the batch belong together one to one, each slot with the staged copy of
its entry, and so are equal in number (R79, R80). -/
structure State.Staged (s : State) : Prop where
  copies : ∀ e ∈ s.batch.entries, ∀ copy, e.op = .insert copy →
    s.store.slotAt e.slot = .reserved copy ∧ copy.key = e.key
  reserved : ∀ i r, s.store.slotAt i = .reserved r → ∃ e ∈ s.batch.entries, e.op = .insert r ∧ e.slot = i
  count : s.store.reservedCount = (s.batch.entries.filter BatchEntry.isInsert).length

/-! ### The frame budget (R30, R40) -/

/-- No load counter and no due list exceeds F (R30, R40). -/
structure State.Budgeted (s : State) : Prop where
  loads : ∀ i, s.store.load i ≤ s.port.config.frames
  due : s.store.due.length ≤ s.port.config.frames

/-! ### The host's access and the scan at rest (R18, R46, R73, R79, R101) -/

/-- The host request claim: outstanding only for a request that the port holds and whose access is not complete, once, never
waiting while a table is initialized, and not granted while the initialization after power-on or RESET# runs (R18, R21,
R152). -/
structure State.Hosted (s : State) : Prop where
  claim : s.arbiter.outstanding 5 = true →
    s.port.state ≠ .ready ∧ s.port.stopScanDone = false ∧ ∃ r, s.port.request = some r ∧ r.direct = false
  once : s.arbiter.inProgress = some .host → .host ∉ s.arbiter.waiting
  idle : s.port.state = .init → .host ∉ s.arbiter.waiting
  fresh : s.port.state = .init → s.port.initCause = .reset → s.arbiter.inProgress ≠ some .host
  stop : s.port.request = some .stopScan → s.port.state = .working

/-- While the scan is STOPPED the timer runs only within the access of the STOP SCAN that stopped it, and outside that
access no boundary's claim is outstanding, the batch is not SEALED, no slot is WITHDRAWING and the due list is empty (R46,
R73, R78, R79, R92, R101). -/
structure State.AtRest (s : State) : Prop where
  access : s.scan.state = .stopped → s.timer.running = true →
    s.arbiter.inProgress = some .host ∧ s.port.request = some .stopScan
  claims : s.scan.state = .stopped → s.timer.running = false →
    s.arbiter.outstanding 2 = false ∧ s.arbiter.outstanding 3 = false
  batch : s.scan.state = .stopped → s.timer.running = false → s.batch.state ≠ .sealed_
  slots : s.scan.state = .stopped → s.timer.running = false → ∀ i r c n, s.store.slotAt i ≠ .withdrawing r c n
  due : s.scan.state = .stopped → s.timer.running = false → s.store.due = []

/-! ### The withdrawal counts (R73, R160) -/

/-- The withdrawal count of a WITHDRAWING record lies between 1 and W (R73); W, and the W of a CONFIGURE that waits for its
access, is at least 1 (R160). -/
structure State.Counted (s : State) : Prop where
  atLeastOne : 1 ≤ s.port.config.withdrawals
  requested : ∀ c, s.port.request = some (.configure c) → 1 ≤ c.withdrawals
  counts : ∀ i r cause n, s.store.slotAt i = .withdrawing r cause n → 1 ≤ n ∧ n ≤ s.port.config.withdrawals

/-! ### What the grant of STOP SCAN leaves (R19, R98, R100, R118) -/

/-- The state `t` that the grant of a STOP SCAN makes of a state `s` in which the scan is not STOPPED. -/
structure State.Halts (s t : State) : Prop where
  scan : t.scan.state = .stopped ∧ t.scan.request = .none
  reply : t.reply = ⟨[], []⟩
  claims : t.arbiter =
    ⟨some .host, s.arbiter.waiting.filter fun c => decide (c = .countdown ∨ c = .application)⟩
  unfilled : t.scan.regA.isFilled = false ∧ t.scan.regB.isFilled = false
  kept : t.store = s.store ∧ t.timer = s.timer ∧ t.batch = s.batch ∧ t.nodes = s.nodes ∧ t.notices = s.notices
  idle : s.scan.line = .idle ∨ s.scan.line = .between → t.scan.abort = s.scan.abort ∧ t.scan.sent = s.scan.sent ∧
    t.scan.regA = .free ∧ t.scan.regB = .free ∧ t.scan.line = .idle
  sending : s.scan.line = .mark ∨ s.scan.line = .frame → t.scan.abort = .afterWord
  replySlot : s.scan.line = .replyWindow → t.scan.abort = .afterSlot
  allowance : s.scan.line = .demandWindow → s.demand.state = .listening → t.scan.abort = .afterAllowance
  answer : s.scan.line = .demandWindow → s.demand.state = .answering → t.scan.abort = .afterWord
  window : s.scan.line = .demandWindow → s.demand.state ≠ .listening → s.demand.state ≠ .answering →
    t.scan.abort = .sent ∧ t.scan.sent = [abortWord] ∧ t.demand.state = .closed ∧ t.scan.line = .idle

/-! ### Slots as a read finds them (R16) -/

/-- A slot as an access that verifies it finds it: a LIVE, WITHDRAWING or LAPSED slot whose check fails is DAMAGED
(R16). -/
def Cell.found (c : Cell) : Slot :=
  match c.slot with
  | .live _ _ _ | .withdrawing _ _ _ | .lapsed _ => if c.upset then .damaged false else c.slot
  | .free | .reserved _ | .damaged _ => c.slot

/-- A slot of the table as an access that verifies it finds it. -/
def Store.found (st : Store) (i : Nat) : Slot := (st.cellAt i).found

/-- A slot after the lease countdown (R67, R68). -/
def Cell.counted (c : Cell) (w : Nat) : Slot :=
  match c.slot, c.found with
  | .live _ (some _) _, .live r (some n) staged =>
    if n ≤ 1 then .withdrawing r .expired w else .live r (some (n - 1)) staged
  | .live _ (some _) _, v => v
  | v, _ => v

/-- A slot after the transfer of its page (R112). -/
def Cell.transferred (c : Cell) : Slot :=
  match c.slot, c.found with
  | .withdrawing _ _ _, .withdrawing r cause n =>
    if n ≤ 1 then cause.completed r else .withdrawing r cause (n - 1)
  | .live _ _ _, v | .withdrawing _ _ _, v => v
  | v, _ => v

/-- The entry of a slot in the frame of its page, if it has one (R112). -/
def Cell.entry (c : Cell) (i : Nat) : Option Entry :=
  match c.found with
  | .live r _ _ => some (r.fullEntry i)
  | .withdrawing r _ _ => some (r.withdrawalEntry i)
  | .free | .reserved _ | .lapsed _ | .damaged _ => none

/-- A slot after STOP SCAN has completed its withdrawal (R23). -/
def Cell.completed (c : Cell) : Slot :=
  match c.slot, c.found with
  | .withdrawing _ _ _, .withdrawing r cause _ => cause.completed r
  | .withdrawing _ _ _, v => v
  | v, _ => v

/-- A slot after ABORT BATCH has cleared its amend staged flag (R94). -/
def Cell.unstaged (c : Cell) : Slot :=
  match c.slot, c.found with
  | .live _ _ _, .live r remaining _ => .live r remaining false
  | .live _ _ _, v => v
  | v, _ => v

/-- A slot after a TAKE NOTICES that reports its notice (R148). -/
def Cell.taken (c : Cell) : Slot :=
  match c.found with
  | .lapsed _ => .free
  | .live r remaining staged => .live { r with echoChanged := some false } remaining staged
  | .withdrawing r cause n => .withdrawing { r with echoChanged := some false } cause n
  | .damaged _ => .damaged true
  | .free => .free
  | .reserved r => .reserved r

end Sys2Proof.Machine
end

