-- ==== Sys2Proof/Certificates/Slice0/Obligations.lean ====
section
/-! DEFINITION. The statements for the provers, from the numbered rules of the manual. -/

open Sys2Proof Sys2Proof.Machine

/-! ### Steps -/

/-- A step runs the command at the front of the queue on the state with the queue's rest, and idles on an empty queue (the
model's choice, log entry 1). -/
def Obligations.StepRunsTheFrontCommand : Prop :=
  (∀ (c : Instr) (rest : List Instr) (s : State), s.pending = c :: rest → step s = exec c { s with pending := rest }) ∧
    ∀ s : State, s.pending = [] → step s = .next s

/-- No command faults or is refused, in any state, and a command leaves the queue alone. That a command whose cause is
absent answers a next state too, the state unchanged, is the model's choice (log entries 3 and 22). -/
def Obligations.EveryCommandCompletes : Prop :=
  ∀ (c : Instr) (s : State), ∃ t, exec c s = .next t ∧ t.pending = s.pending

/-! ### Power, reset and initialization -/

/-- The part right after power-on or the release of RESET# (R18, R21, R36, R45, R79, R97, R98, R111, R120, R127, R137, R150,
R157). -/
def Obligations.ResetState : Prop :=
  (∀ i, State.reset.store.slotAt i = .free) ∧ State.reset.store.directory = [] ∧
    (∀ p, State.reset.store.pageAt p = ⟨none, none⟩) ∧ (∀ p, State.reset.store.pageState p = .closed) ∧
    State.reset.store.loads = List.replicate 16 0 ∧ State.reset.store.due = [] ∧
    State.reset.timer = ⟨false, 0, 0⟩ ∧ State.reset.batch = ⟨.none, []⟩ ∧
    State.reset.scan.state = .stopped ∧ State.reset.scan.request = .none ∧
    State.reset.scan.regA = .free ∧ State.reset.scan.regB = .free ∧ State.reset.reply.slots = [] ∧
    (∀ n, State.reset.nodes.at n = ⟨.unseen, .unseen, 0, 0, false⟩) ∧ State.reset.nodes.pointer = 62 ∧
    State.reset.demand.state = .closed ∧ State.reset.demand.invited = 0 ∧ State.reset.demand.key = none ∧
    State.reset.notices = ⟨none, none⟩ ∧ State.reset.arbiter = ⟨none, []⟩ ∧
    State.reset.port.state = .init ∧ State.reset.port.request = none ∧ State.reset.port.response = [] ∧
    State.reset.port.resetSeen = false ∧ State.reset.port.requestDiscarded = false ∧
    State.reset.port.config = ⟨.mbit10, 4, 4, 2, 3⟩ ∧ State.reset.rdy = false ∧ State.reset.attn = false ∧
    State.reset.ltxen = false

/-- Power-on and the release of RESET# bring every block to its reset state, whatever went before; the assertion of RESET#
stops the line at once without an abort word and abandons every access, request and frame; the end of the initialization
builds the RESET_DONE response, with reset seen set and request discarded as initialization left it, and enters READY (R21,
R119, R152, R153, R156, R157). What of the port
stands while RESET# is asserted (log entry 7), the empty receive buffer and observations (log entry 6) and the pin after
POWER_ON (log entry 23) are the model's choice. -/
def Obligations.PowerAndResetStartAfresh : Prop :=
  (∀ s : State, exec .powerOn s = .next { State.reset with pending := s.pending }) ∧
    (∀ s : State, s.port.resetAsserted = true → exec .resetRelease s = .next { State.reset with pending := s.pending }) ∧
    (∀ s : State, exec .resetAssert s = .next { State.reset with
      pending := s.pending
      port := { State.reset.port with
        resetAsserted := true, resetSeen := s.port.resetSeen, requestDiscarded := s.port.requestDiscarded,
        response := s.port.response } }) ∧
    (∀ s : State, s.port.state = .init → s.port.initCause = .reset → s.port.resetAsserted = false →
      exec .initializationEnd s = .next { s with
        port := { s.port with
          state := .ready, resetSeen := true, requestDiscarded := false,
          response := responseBytes .resetDone
            (State.summary { s with port := { s.port with resetSeen := true } }) [] } }) ∧
    exec .initializationEnd State.reset = .next { State.reset with
      port := { State.reset.port with state := .ready, resetSeen := true, response := [0x04, 0x02, 0x00, 0x81] } }

/-! ### Transactions of the host port -/

/-- An empty transaction has no effect, and a fetch changes nothing but the bytes on MISO: FFh, then the response of the
port state, then FFh for as long as the host clocks. A transaction is a fetch because its first byte is 00h, whatever bytes
follow. While RESET# is asserted a fetch returns nothing, because MISO is not driven, and changes nothing else (R151, R154,
R165). That it changes nothing else then is read from R151 (log entry 7); the bytes on MISO are the model's observation (log
entry 16). -/
def Obligations.FetchReturnsTheResponse : Prop :=
  (∀ s : State, exec .emptyTransaction s = .next s ∧ exec (.requestArrival []) s = .next s) ∧
    (∀ (rest : List Byte) (s : State), exec (.requestArrival (0 :: rest)) s = exec (.fetch (rest.length + 1)) s) ∧
    (∀ (count : Nat) (s : State), s.port.resetAsserted = true →
      exec (.fetch count) s = .next { s with port := { s.port with miso := [] } }) ∧
    ∀ (count : Nat) (s : State), 1 ≤ count → s.port.resetAsserted = false →
      exec (.fetch count) s = .next { s with
        port := { s.port with
          miso := (0xFF :: (match s.port.state with
              | .ready => s.port.response
              | .working => responseBytes .pending s.summary []
              | .init => responseBytes .notReady s.summary []) ++ List.replicate count 0xFF).take count } }

/-- A request that arrives while the port is INIT or WORKING is discarded whole: its one trace is the request discarded
flag, and filler is returned. While RESET# is asserted the port takes no transaction: the bytes leave no trace at all, in any
port state, and MISO is not driven (R151, R152, R153). That the flag stays clear then is read from R151 (log entry 7); the
bytes on MISO are the model's observation (log entry 16). -/
def Obligations.OverlappingRequestIsDiscarded : Prop :=
  (∀ (code : Byte) (rest : List Byte) (s : State), code ≠ 0 → s.port.resetAsserted = false → s.port.state ≠ .ready →
    exec (.requestArrival (code :: rest)) s = .next { s with
      port := { s.port with
        requestDiscarded := true, miso := List.replicate (rest.length + 1) 0xFF } }) ∧
    ∀ (code : Byte) (rest : List Byte) (s : State), s.port.resetAsserted = true →
      exec (.requestArrival (code :: rest)) s = .next { s with port := { s.port with miso := [] } }

/-- A request that arrives in READY leaves the port WORKING, with at most 258 bytes stored and all of them counted; a check
that fails on those bytes completes it at once, and one that passes is held, with the host's claim placed where it needs the
table. While RESET# is asserted no request is taken, whatever the port state: nothing is stored, checked or claimed, and MISO
is not driven (R151, R152, R155; log entries 7 and 16). -/
def Obligations.RequestIsTaken : Prop :=
  (∀ (code : Byte) (rest : List Byte) (s : State), s.port.resetAsserted = true →
    exec (.requestArrival (code :: rest)) s = .next { s with port := { s.port with miso := [] } }) ∧
    ∀ (code : Byte) (rest : List Byte) (s : State), code ≠ 0 → s.port.resetAsserted = false → s.port.state = .ready →
      ∃ u : State,
        u = { s with
          port := { s.port with
            state := .working, received := (code :: rest).take 258, receivedCount := rest.length + 1,
            stopScanDone := false, miso := List.replicate (rest.length + 1) 0xFF } } ∧
        (∀ status, readRequest u.port.received u.port.receivedCount = .error status →
          exec (.requestArrival (code :: rest)) s = .next (u.complete status [])) ∧
        (∀ r, readRequest u.port.received u.port.receivedCount = .ok r → r.direct = true →
          exec (.requestArrival (code :: rest)) s = .next { u with port := { u.port with request := some r } }) ∧
        (∀ r, readRequest u.port.received u.port.receivedCount = .ok r → r.direct = false →
          exec (.requestArrival (code :: rest)) s =
            .next (State.claim { u with port := { u.port with request := some r } } .host))

/-- Checks 1 to 3 of a request in their order: a short request, a received count other than length + 3, or a CRC-8 that does
not match is BAD_CHECK; then a length that a request without arguments does not allow, one other than that of the fixed
arguments, or for INSERT and AMEND one other than the fixed arguments with the lease marked present and the payload words
stated is BAD_LENGTH, an INSERT or AMEND too short for its fixed arguments among them (log entry 18); then a code that is
not assigned is UNKNOWN (R155, R164). -/
def Obligations.FramingChecksComeFirst : Prop :=
  (∀ (received : List Byte) (count : Nat), count < 3 → readRequest received count = .error .badCheck) ∧
    (∀ (code length crc : Byte) (args : List Byte) (count : Nat), count ≠ length.toNat + 3 →
      readRequest (code :: length :: args ++ [crc]) count = .error .badCheck) ∧
    (∀ (code length crc : Byte) (args : List Byte) (count : Nat), crc ≠ crc8 (code :: length :: args) →
      readRequest (code :: length :: args ++ [crc]) count = .error .badCheck) ∧
    (∀ (code length : Byte) (args : List Byte), args ≠ [] → length.toNat = args.length →
      code ∈ ([0x01, 0x02, 0x03, 0x05, 0x10, 0x11, 0x12, 0x13, 0x26, 0x30, 0x31, 0x32, 0x33, 0x50] : List Byte) →
      readRequest (code :: length :: args ++ [crc8 (code :: length :: args)]) (args.length + 3) =
        .error .badLength) ∧
    (∀ (code length : Byte) (args : List Byte) (n : Nat), length.toNat = args.length → args.length ≠ n →
      (code, n) ∈ ([(0x04, 5), (0x22, 5), (0x23, 2), (0x24, 2), (0x25, 1), (0x40, 1), (0x41, 2)] : List (Byte × Nat)) →
      readRequest (code :: length :: args ++ [crc8 (code :: length :: args)]) (args.length + 3) =
        .error .badLength) ∧
    (∀ (code length : Byte) (args : List Byte), length.toNat = args.length →
      code = 0x20 ∧ args.length < 7 ∨ code = 0x21 ∧ args.length < 4 →
      readRequest (code :: length :: args ++ [crc8 (code :: length :: args)]) (args.length + 3) =
        .error .badLength) ∧
    (∀ (length hi lo node channel cls options n : Byte) (rest args : List Byte),
      args = [hi, lo, node, channel, cls, options, n] ++ rest → length.toNat = args.length →
      rest.length ≠ (if options.getLsbD 2 then 2 else 0) + 2 * n.toNat →
      readRequest (0x20 :: length :: args ++ [crc8 (0x20 :: length :: args)]) (args.length + 3) =
        .error .badLength) ∧
    (∀ (length hi lo options n : Byte) (rest args : List Byte),
      args = [hi, lo, options, n] ++ rest → length.toNat = args.length →
      rest.length ≠ (if options.getLsbD 2 then 2 else 0) + 2 * n.toNat →
      readRequest (0x21 :: length :: args ++ [crc8 (0x21 :: length :: args)]) (args.length + 3) =
        .error .badLength) ∧
    ∀ (code length : Byte) (args : List Byte), length.toNat = args.length →
      code ∉ ([0x01, 0x02, 0x03, 0x04, 0x05, 0x10, 0x11, 0x12, 0x13, 0x20, 0x21, 0x22, 0x23, 0x24, 0x25, 0x26, 0x30,
        0x31, 0x32, 0x33, 0x40, 0x41, 0x50] : List Byte) →
      readRequest (code :: length :: args ++ [crc8 (code :: length :: args)]) (args.length + 3) = .error .unknown

/-- A request that passes checks 1 to 4 has every argument within its range, and of those that pass checks 1 to 3 the
refused ones are these: BAD_KEY for a key of 0 or 65535, ahead of BAD_ARG for any other argument out of its range or for
inconsistent options, and for CONFIGURE BAD_ARG ahead of CONFIG_INVALID for a line budget not met (R49, R52, R54, R55, R58,
R59, R109, R132, R133, R155, R160, R165). -/
def Obligations.AcceptedArgumentsAreInRange : Prop :=
  (∀ (received : List Byte) (count : Nat) (r : Request), readRequest received count = .ok r → r.inRange) ∧
    (∀ (hi lo node channel cls options n : Byte) (rest : List Byte) (key : Word) (answer : Except Status Request),
      key = wordOfBytes hi lo → rest.length = (if options.getLsbD 2 then 2 else 0) + 2 * n.toNat → rest.length < 249 →
      answer = readFramed 0x20 ([hi, lo, node, channel, cls, options, n] ++ rest) →
      (answer = .error .badKey ↔ key = 0 ∨ key = 0xFFFF) ∧
        (answer = .error .badArg ↔ key ≠ 0 ∧ key ≠ 0xFFFF ∧
          (node = 0 ∨ 63 < node.toNat ∨ 15 < channel.toNat ∨ 4 < cls.toNat ∨ n = 0 ∨ 8 < n.toNat ∨ options &&& 0xF8 ≠ 0 ∨
            options.getLsbD 0 = true ∧ node = 63 ∨ options.getLsbD 1 = true ∧ options.getLsbD 0 = false ∨
            options.getLsbD 2 = true ∧ rest.take 2 = [0, 0])) ∧
        ∀ status, answer = .error status → status = .badKey ∨ status = .badArg) ∧
    (∀ (hi lo options n : Byte) (rest : List Byte) (key : Word) (answer : Except Status Request),
      key = wordOfBytes hi lo → rest.length = (if options.getLsbD 2 then 2 else 0) + 2 * n.toNat → rest.length < 252 →
      answer = readFramed 0x21 ([hi, lo, options, n] ++ rest) →
      (answer = .error .badKey ↔ key = 0 ∨ key = 0xFFFF) ∧
        (answer = .error .badArg ↔ key ≠ 0 ∧ key ≠ 0xFFFF ∧ (n = 0 ∨ 8 < n.toNat ∨ options &&& 0xF8 ≠ 0)) ∧
        ∀ status, answer = .error status → status = .badKey ∨ status = .badArg) ∧
    (∀ (hi lo options high low : Byte) (key : Word), key = wordOfBytes hi lo →
      readFramed 0x22 [hi, lo, options, high, low] =
        if key = 0 ∨ key = 0xFFFF then .error .badKey else if options &&& 0xF8 ≠ 0 then .error .badArg
        else .ok (.renew key (if options.getLsbD 2 then some (wordOfBytes high low).toNat else none))) ∧
    (∀ (hi lo : Byte) (key : Word), key = wordOfBytes hi lo →
      readFramed 0x23 [hi, lo] = (if key = 0 ∨ key = 0xFFFF then .error .badKey else .ok (.retire key)) ∧
        readFramed 0x24 [hi, lo] = if key = 0 ∨ key = 0xFFFF then .error .badKey else .ok (.lookup key)) ∧
    (∀ p : Byte, readFramed 0x25 [p] = if 127 < p.toNat then .error .badArg else .ok (.pageQuery p.toNat)) ∧
    (∀ n : Byte, readFramed 0x40 [n] = if n = 0 ∨ 62 < n.toNat then .error .badArg else .ok (.nodeQuery n.toNat)) ∧
    (∀ n flags : Byte, readFramed 0x41 [n, flags] =
      if n = 0 ∨ 62 < n.toNat then .error .badArg else if flags &&& 0xFC ≠ 0 then .error .badArg
      else .ok (.nodeSet n.toNat (flags.getLsbD 0) (flags.getLsbD 1))) ∧
    ∀ (rate steps frames w m : Byte) (answer : Except Status Request),
      answer = readFramed 0x04 [rate, steps, frames, w, m] →
      (answer = .error .badArg ↔ 2 < rate.toNat ∨ steps = 0 ∨ 32 < steps.toNat ∨ frames = 0 ∨ 16 < frames.toNat ∨
          w = 0 ∨ 3 < w.toNat ∨ m = 0 ∨ 15 < m.toNat) ∧
        (answer = .error .configInvalid ↔ answer ≠ .error .badArg ∧
          steps.toNat * 250 < (frames.toNat * 115 + 3 + 18) * 2 ^ (rate.toNat + 1)) ∧
        ∀ status, answer = .error status → status = .badArg ∨ status = .configInvalid

/-- The bytes of every request whose arguments are in range, laid out as Table 11-5 gives, are read as that request: no bit
of any operand is dropped. The CRC-8 that closes them starts at 00h, takes each byte most significant bit first under 07h,
and gives F4h over the nine bytes 31h to 39h (R151, R164, R165). -/
def Obligations.RequestBytesReadBack : Prop :=
  (∀ r : Request, r.inRange → readRequest r.bytes r.bytes.length = .ok r) ∧
    crc8 [] = 0 ∧
    (∀ (bytes : List Byte) (b : Byte), crc8 (bytes ++ [b]) = (List.range 8).foldl
      (fun (reg : Byte) k => if reg.msb != b.getLsbD (7 - k) then (reg <<< 1) ^^^ 0x07#8 else reg <<< 1) (crc8 bytes)) ∧
    crc8 [0x31, 0x32, 0x33, 0x34, 0x35, 0x36, 0x37, 0x38, 0x39] = 0xF4

/-! ### What a completion and a claim do (R18, R152, R153, R156) -/

/-- The completion of a host request's access builds the response, clears reset seen and request discarded, enters READY and
grants the table on; it changes nothing else. A claim placed while the table is idle is granted at once, and otherwise
waits, at most one of each accessor. When an access completes, the waiting claim that stands first in the order of R18 is
granted: page transfer, echo write-back, lease countdown, batch application, demand lookup, host request; the grant of a
host request that is not a STOP SCAN, or of another accessor, does nothing more. -/
def Obligations.CompletionAnswersAndGrantsOn : Prop :=
  (∀ (s : State) (status : Status) (data : List Byte),
    s.finish status data = { s with
      arbiter := s.arbiter.next
      port := { s.port with
        state := .ready, request := none, stopScanDone := false, resetSeen := false, requestDiscarded := false,
        response := (status.code :: s.summary :: byteOf data.length :: data) ++
          [crc8 (status.code :: s.summary :: byteOf data.length :: data)] } }) ∧
    (∀ (s : State) (c : Claim), c ≠ .host ∨ s.port.request ≠ some .stopScan →
      (s.arbiter.inProgress = none →
        s.claim c = { s with
          arbiter := ⟨some c, s.arbiter.waiting.filter fun d => decide (d.rank ≠ c.rank)⟩ }) ∧
      (s.arbiter.inProgress ≠ none → (∀ d ∈ s.arbiter.waiting, d.rank ≠ c.rank) →
        s.claim c = { s with arbiter := { s.arbiter with waiting := s.arbiter.waiting ++ [c] } }) ∧
      (s.arbiter.inProgress ≠ none → (∃ d ∈ s.arbiter.waiting, d.rank = c.rank) → s.claim c = s)) ∧
    (∀ s : State, s.port.request ≠ some .stopScan ∨ Claim.host ∉ s.arbiter.waiting →
      s.release = { s with arbiter := s.arbiter.next }) ∧
    (∀ a : Arbiter, a.waiting = [] → a.next = ⟨none, []⟩) ∧
    (∀ (page : Nat) (item : ReplySlot) (key : Word),
      ([.transfer page, .writeBack item, .countdown, .application, .lookup key, .host] : List Claim).map Claim.rank =
        [0, 1, 2, 3, 4, 5]) ∧
    ∀ a : Arbiter, a.waiting ≠ [] → ∃ c ∈ a.waiting, a.next.inProgress = some c ∧
      (∀ d ∈ a.waiting, c.rank ≤ d.rank) ∧ a.next.waiting = a.waiting.filter fun d => decide (d.rank ≠ c.rank)

/-! ### IDENTIFY, STATUS, READ CONFIGURATION, CONFIGURE, CLEAR (chapter 10) -/

/-- IDENTIFY, STATUS and READ CONFIGURATION complete with status OK and their data in every scan state and batch state, and
change nothing else. The summary byte that they, and every other response, carry holds the scan state with the pending
request in bits 7 to 5, the batch state in bits 4 and 3, notices pending in bit 2, reset seen in bit 1 and request discarded
in bit 0 (R153, R156, R159, R166, Table 11-7). -/
def Obligations.PortRequestsAnswer : Prop :=
  (∀ s : State, s.heldDirect = some .identify →
    exec .identify s = .next (s.complete .ok [0x0A, 0x7C, 0x12, 0x16, 1, 0x04, 0x00, 128, 62, 32])) ∧
    (∀ s : State, s.heldDirect = some .status → exec .status s = .next (s.complete .ok [])) ∧
    (∀ s : State, s.heldDirect = some .readConfiguration →
      exec .readConfiguration s = .next (s.complete .ok
        [match s.port.config.rate with
          | .mbit10 => 0
          | .mbit5 => 1
          | .mbit2_5 => 2,
          byteOf s.port.config.steps, byteOf s.port.config.frames, byteOf s.port.config.withdrawals,
          byteOf s.port.config.misses])) ∧
    ∀ s : State,
      (s.scan.state = .stopped → s.scan.request = .none → s.summary.extractLsb' 5 3 = 0) ∧
        (s.scan.state = .run → s.scan.request = .none → s.summary.extractLsb' 5 3 = 1) ∧
        (s.scan.state = .run → s.scan.request = .hold → s.summary.extractLsb' 5 3 = 2) ∧
        (s.scan.state = .hold → s.scan.request = .none → s.summary.extractLsb' 5 3 = 3) ∧
        (s.scan.state = .hold → s.scan.request = .resume → s.summary.extractLsb' 5 3 = 4) ∧
        (s.scan.state = .fault → s.scan.request = .none → s.summary.extractLsb' 5 3 = 5) ∧
        (s.scan.state = .fault → s.scan.request = .hold → s.summary.extractLsb' 5 3 = 6) ∧
        (s.scan.state = .fault → s.scan.request = .resume → s.summary.extractLsb' 5 3 = 7) ∧
        (s.batch.state = .none → s.summary.extractLsb' 3 2 = 0) ∧
        (s.batch.state = .open_ → s.summary.extractLsb' 3 2 = 1) ∧
        (s.batch.state = .sealed_ → s.summary.extractLsb' 3 2 = 2) ∧
        s.summary.getLsbD 2 = s.attn ∧ s.summary.getLsbD 1 = s.port.resetSeen ∧
        s.summary.getLsbD 0 = s.port.requestDiscarded

/-- CONFIGURE in its access: WRONG_STATE unless STOPPED, LOAD_EXCEEDS where F is below the largest load counter, and
otherwise the five values stored together and every miss count 0 (R35, R134, R160). -/
def Obligations.ConfigureStoresTheFiveValues : Prop :=
  ∀ (c : Configuration) (s : State), s.canonical → s.heldAccess = some (.configure c) →
    (s.scan.state ≠ .stopped → exec .configure s = .next (s.finish .wrongState [])) ∧
      (s.scan.state = .stopped → (∃ n ∈ s.store.loads, c.frames < n) →
        exec .configure s = .next (s.finish .loadExceeds [])) ∧
      (s.scan.state = .stopped → (∀ n ∈ s.store.loads, n ≤ c.frames) →
        ∃ u : State, exec .configure s = .next (u.finish .ok c.data) ∧
          u = { s with port := { s.port with config := c }, nodes := u.nodes } ∧
          u.nodes.pointer = s.nodes.pointer ∧ ∀ n, u.nodes.at n = { s.nodes.at n with misses := 0 })

/-- CLEAR in its access: WRONG_STATE unless STOPPED; otherwise INIT, every slot FREE, the directory, pages, counters, timer,
batch, nodes and notices at their reset values, and the configuration and the port's flags kept; at the end of its
initialization the response is OK and the port READY (R22, R45, R95, R127, R137, R150, R153, R158). -/
def Obligations.ClearStartsAfresh : Prop :=
  (∀ s : State, s.heldAccess = some .clear → s.scan.state ≠ .stopped →
    exec .clear s = .next (s.finish .wrongState [])) ∧
    (∀ s : State, s.heldAccess = some .clear → s.scan.state = .stopped →
      exec .clear s = .next { s with
        port := { s.port with state := .init, initCause := .clear }
        arbiter := { s.arbiter with waiting := [] }
        store := State.reset.store, timer := State.reset.timer, batch := State.reset.batch, reply := State.reset.reply,
        nodes := State.reset.nodes, demand := State.reset.demand, notices := State.reset.notices }) ∧
    ∀ s : State, s.port.state = .init → s.port.initCause = .clear →
      exec .clearInitializationEnd s = .next (s.finish .ok [])

/-! ### Scan requests (6.2) -/

/-- START SCAN: refused unless STOPPED; otherwise RUN, index and count 0, the timer running and the first boundary taken at
once, with its countdown claim and its mark with the start flag (R36, R99, R104, R106). -/
def Obligations.StartScanTakesTheFirstBoundary : Prop :=
  (∀ s : State, s.heldDirect = some .startScan → s.scan.state ≠ .stopped →
    exec .startScan s = .next (s.complete .wrongState [])) ∧
    ∀ s : State, s.heldDirect = some .startScan → s.scan.state = .stopped → s.scan.request = .none →
      ∃ u : State, exec .startScan s = .next (u.complete .ok []) ∧
        u.scan.state = .run ∧ u.scan.request = .none ∧ u.timer = ⟨true, 0, 0⟩ ∧ u.scan.line = .mark ∧
        u.scan.sent = markWords false true s.nodes.invite.1 0 0 ∧ u.nodes = s.nodes.invite.2 ∧
        u.demand.state = .closed ∧ u.demand.invited = s.nodes.invite.1 ∧ u.arbiter.outstanding 2 = true ∧
        u.store = { s.store with due := [] } ∧ u.batch = s.batch ∧ u.notices = s.notices ∧ u.port = s.port

/-- The grant of a STOP SCAN while the scan is not STOPPED, at its arrival on an idle table and where it waited and is the
one claim left when another access completes: the scan is STOPPED with no request pending, the waiting claims of the line
are withdrawn, the reply slot list is discarded, no register is FILLED, and the abort word is due after the word, slot or
allowance in progress, is sent at once, or is not due. A write-back granted before it has completed, with its report to the
Node Table, and a lookup granted before it has completed, with the damage it found, its answer not sent (R19, R97, R98,
R100, R118, R126, R142). That a line between two items owes no abort word is the model's choice (log entry 14); that the
effects fall in the granting step, and when a register in flight is freed, are its readings (log entries 4 and 12). Where
the next slot is already judged when a write-back completes, its claim goes first by the model's choice (log entry 24), and
this statement says nothing. -/
def Obligations.StopScanGrantStopsTheScan : Prop :=
  (∀ (s : State), s.port.state = .ready → s.port.resetAsserted = false → s.arbiter.inProgress = none →
    s.scan.state ≠ .stopped →
    ∃ t : State, exec (.requestArrival Request.stopScan.bytes) s = .next t ∧ s.Halts t ∧
      t.port.state = .working ∧ t.port.request = some .stopScan) ∧
    (∀ s : State, s.port.request = some .stopScan → .host ∈ s.arbiter.waiting → (∀ c ∈ s.arbiter.waiting, c = .host) →
      s.scan.state ≠ .stopped → s.Halts s.release ∧ s.release.port = s.port) ∧
    (∀ (item : ReplySlot) (s : State), s.arbiter.inProgress = some (.writeBack item) → s.port.request = some .stopScan →
      .host ∈ s.arbiter.waiting → (∀ c ∈ s.arbiter.waiting, c = .host) → s.scan.state ≠ .stopped →
      (∀ x, (s.reply.slots.drop 1).head? = some x → x.result = .undecided) →
      ∃ (u t : State), exec .echoWriteBack s = .next t ∧ u.Halts t ∧ t.port = s.port ∧
        u.store = s.store.writeEcho item ∧
        u.nodes.at item.node = (s.nodes.at item.node).afterReply s.port.config.misses item.result ∧
        (∀ n, n ≠ item.node → u.nodes.at n = s.nodes.at n) ∧ u.nodes.pointer = s.nodes.pointer ∧
        u.timer = s.timer ∧ u.batch = s.batch ∧ u.notices = s.notices ∧ u.demand = s.demand ∧
        u.scan.line = s.scan.line ∧ u.scan.abort = s.scan.abort ∧ u.scan.sent = s.scan.sent) ∧
    ∀ (key : Word) (s : State), s.arbiter.inProgress = some (.lookup key) → s.port.request = some .stopScan →
      .host ∈ s.arbiter.waiting → (∀ c ∈ s.arbiter.waiting, c = .host) → s.scan.state ≠ .stopped →
      s.scan.line = .demandWindow → s.demand.state = .looking →
      ∃ t : State, exec .demandLookup s = .next t ∧
        State.Halts { s with store := (s.store.demandLookup s.batch.entries key).1 } t ∧ t.port = s.port ∧
        t.demand = ⟨.closed, 0, none, [], none⟩ ∧ t.scan.sent = [abortWord] ∧ t.scan.abort = .sent

/-- The access of a STOP SCAN that stopped the scan: every withdrawal is completed, a sealed batch is applied after that as
while STOPPED, with its notice and its two counts, the timer is stopped with index and count kept, the due list is emptied,
and the claims of a boundary taken during the access are withdrawn; no slot of the table is left WITHDRAWING. A WITHDRAWING
slot that verifies becomes FREE with cause RETIRED, its key released, and LAPSED with cause EXPIRED; one that fails becomes
DAMAGED; no other slot, no other key and no last transfer field changes. Taken while STOPPED the access changes none of
these (R23, R29, R46, R78, R92, R101). That the table work hangs on the timer, which still runs exactly where the scan was
not STOPPED before, is the model's reading (log entry 22). -/
def Obligations.StopScanAccessEndsTheWork : Prop :=
  (∀ s : State, s.heldAccess = some .stopScan → s.scan.state = .stopped → s.timer.running = true →
    ∃ u : State, exec .stopScan s = .next { u with arbiter := u.arbiter.next } ∧
      (s.batch.state ≠ .sealed_ → u = { s with
        store := { s.store.completeWithdrawals with due := [] }
        timer := { s.timer with running := false }
        port := { s.port with stopScanDone := true }
        arbiter := { s.arbiter with
          waiting := s.arbiter.waiting.filter fun c => decide (c ≠ .countdown ∧ c ≠ .application) } }) ∧
      (s.batch.state = .sealed_ → ∀ a : Application,
        a = applyEntries s.store.completeWithdrawals s.batch.entries .stopped s.port.config.withdrawals →
        u = { s with
          store := { a.store with due := [] }
          batch := ⟨.none, []⟩
          notices := s.notices.batchApplied a.applied a.lapsed
          timer := { s.timer with running := false }
          port := { s.port with stopScanDone := true }
          arbiter := { s.arbiter with
            waiting := s.arbiter.waiting.filter fun c => decide (c ≠ .countdown ∧ c ≠ .application) } }) ∧
      ∀ i, i < 1024 → ∀ r c n, u.store.slotAt i ≠ .withdrawing r c n) ∧
    (∀ s : State, s.heldAccess = some .stopScan → s.scan.state = .stopped → s.timer.running = false →
      exec .stopScan s = .next { s with
        port := { s.port with stopScanDone := true }, arbiter := s.arbiter.next }) ∧
    ∀ st : Store,
      (∀ p, (st.completeWithdrawals.pageAt p).lastTransfer = (st.pageAt p).lastTransfer) ∧
      (∀ i, i < 1024 →
        (∀ r n, st.found i = .withdrawing r .retired n → st.completeWithdrawals.slotAt i = .free) ∧
          (∀ r n, st.found i = .withdrawing r .expired n → st.completeWithdrawals.slotAt i = .lapsed r) ∧
          (∀ r c n, st.slotAt i = .withdrawing r c n → st.found i = .damaged false →
            st.completeWithdrawals.slotAt i = .damaged false) ∧
          ((∀ r c n, st.slotAt i ≠ .withdrawing r c n) → st.completeWithdrawals.slotAt i = st.slotAt i)) ∧
        ∀ e, e ∈ st.completeWithdrawals.directory ↔
          e ∈ st.directory ∧ ¬ (e.2 < 1024 ∧ ∃ r n, st.found e.2 = .withdrawing r .retired n)

/-- The abort word owed after a reply slot or a request allowance is sent at its end, the slot is not judged and the request
not answered (R100, R126, R142); STOP SCAN completes with OK once its access is complete and the abort word, if one is due,
has been sent (R100, R155). -/
def Obligations.StopScanCompletesAfterTheAbortWord : Prop :=
  (∀ s : State, s.scan.abort = .afterSlot → exec .replySlotExpiry s = .next { s with
    scan := { s.scan with sent := [abortWord], abort := .sent, line := .idle, regA := .free, regB := .free }
    demand := ⟨.closed, 0, none, [], none⟩ }) ∧
    (∀ s : State, s.scan.abort = .afterAllowance → exec .requestAllowanceEnd s = .next { s with
      scan := { s.scan with sent := [abortWord], abort := .sent, line := .idle, regA := .free, regB := .free }
      demand := ⟨.closed, 0, none, [], none⟩ }) ∧
    (∀ s : State, s.heldDirect = some .stopScan → s.port.stopScanDone = true → s.scan.abort = .afterWord →
      exec .stopScanCompletion s = .next (State.complete { s with
        scan := { s.scan with sent := [abortWord], abort := .none, line := .idle, regA := .free, regB := .free }
        demand := ⟨.closed, 0, none, [], none⟩ } .ok [])) ∧
    ∀ s : State, s.heldDirect = some .stopScan → s.port.stopScanDone = true →
      s.scan.abort = .none ∨ s.scan.abort = .sent →
      exec .stopScanCompletion s = .next (State.complete { s with scan := { s.scan with abort := .none } } .ok [])

/-- HOLD SCAN, which carries no arguments: in RUN and FAULT the pending request becomes HOLD, in HOLD a pending RESUME
becomes NONE and nothing else changes, while STOPPED it is refused with WRONG_STATE; it changes nothing of the cycle in
progress, and the hold begins, or stays, at the next boundary (R102). -/
def Obligations.HoldScanSetsThePendingRequest : Prop :=
  Request.holdScan.arguments = [] ∧
    (∀ s : State, s.heldDirect = some .holdScan →
      (s.scan.state = .run ∨ s.scan.state = .fault →
        exec .holdScan s = .next (State.complete { s with scan := { s.scan with request := .hold } } .ok [])) ∧
        (s.scan.state = .hold → s.scan.request = .resume →
          exec .holdScan s = .next (State.complete { s with scan := { s.scan with request := .none } } .ok [])) ∧
        (s.scan.state = .hold → s.scan.request ≠ .resume → exec .holdScan s = .next (s.complete .ok [])) ∧
        (s.scan.state = .stopped → exec .holdScan s = .next (s.complete .wrongState []))) ∧
    ∀ s : State, s.timer.running = true →
      s.scan.state ≠ .stopped ∧ s.scan.request = .hold ∨ s.scan.state = .hold ∧ s.scan.request = .none →
      ∃ t : State, exec .boundary s = .next t ∧ t.scan.state = .hold ∧ t.scan.request = .none

/-- RESUME SCAN, which carries no arguments: in HOLD and FAULT the pending request becomes RESUME, in RUN a pending HOLD
becomes NONE and nothing else changes, while STOPPED it is refused with WRONG_STATE; the line stays as it is, and the scan
runs, or goes on running, at the next boundary (R103). -/
def Obligations.ResumeScanSetsThePendingRequest : Prop :=
  Request.resumeScan.arguments = [] ∧
    (∀ s : State, s.heldDirect = some .resumeScan →
      (s.scan.state = .hold ∨ s.scan.state = .fault →
        exec .resumeScan s = .next (State.complete { s with scan := { s.scan with request := .resume } } .ok [])) ∧
        (s.scan.state = .run → s.scan.request = .hold →
          exec .resumeScan s = .next (State.complete { s with scan := { s.scan with request := .none } } .ok [])) ∧
        (s.scan.state = .run → s.scan.request ≠ .hold → exec .resumeScan s = .next (s.complete .ok [])) ∧
        (s.scan.state = .stopped → exec .resumeScan s = .next (s.complete .wrongState []))) ∧
    (∀ s : State, s.timer.running = true →
      s.scan.state ≠ .stopped ∧ s.scan.request = .resume ∨ s.scan.state = .run ∧ s.scan.request = .none →
      ∃ t : State, exec .boundary s = .next t ∧ t.scan.state = .run ∧ t.scan.request = .none) ∧
    ∀ s : State, s.scan.state = .hold ∨ s.scan.state = .fault →
      exec .frameStart s = .next s ∧ exec .demandWindowOpen s = .next s

/-! ### INSERT (chapters 2, 3 and 5) -/

/-- An INSERT while the batch is NONE: KEY_EXISTS, then the refusal of allocation, with nothing changed; otherwise the record
is LIVE in the slot allocated, its key in the directory, its page OPEN, and nothing else of the table changed but the
schedule and load of a page that it opens (R7, R8, R13, R27, R34, R50, R51). -/
def Obligations.InsertMakesALiveRecord : Prop :=
  ∀ (a : InsertArgs) (s : State), s.heldAccess = some (.insert a) → s.batch.state = .none →
    ((∃ i, s.store.slotOfKey a.key = some i) → exec .insert s = .next (s.finish .keyExists [])) ∧
      (∀ status, s.store.slotOfKey a.key = none →
        s.store.allocate s.port.config.frames a.cls = .error status → exec .insert s = .next (s.finish status [])) ∧
      ∀ place, s.store.slotOfKey a.key = none → s.store.allocate s.port.config.frames a.cls = .ok place →
        ∃ u : State,
          exec .insert s = .next (u.finish .ok
            ([byteOf place.page, byteOf place.position, bitAt 0 place.opened.isSome] ++
              (match place.opened with
                | some phase => [byteOf phase]
                | none => []))) ∧
          u = { s with store := u.store } ∧
          u.store.slotAt place.slot = .live
            { key := a.key, node := a.node, channel := a.channel, cls := a.cls, payload := a.payload, revision := 0,
              replyRequested := a.replyRequested, notify := a.notify, leaseLength := a.lease,
              echo := if a.replyRequested then some ⟨.none, none⟩ else none,
              echoChanged := if a.notify then some false else none } a.lease false ∧
          (∀ j, j ≠ place.slot → u.store.slotAt j = s.store.slotAt j) ∧
          u.store.slotOfKey a.key = some place.slot ∧
          (∀ key, key ≠ a.key → u.store.slotOfKey key = s.store.slotOfKey key) ∧
          u.store.pageState place.page = .open_ ∧ u.store.due = s.store.due ∧
          (∀ p, p ≠ place.page → u.store.pageAt p = s.store.pageAt p) ∧
          (place.opened = none → u.store.pages = s.store.pages ∧ u.store.loads = s.store.loads) ∧
          ∀ phase, place.opened = some phase → u.store.pageAt place.page = ⟨some ⟨a.cls, phase⟩, none⟩ ∧
            ∀ i, i < 16 → u.store.load i = s.store.load i + (if i % a.cls.period = phase then 1 else 0)

/-- Allocation for an INSERT of a class takes the lowest-numbered OPENING or OPEN page of the class with a FREE slot; else
the lowest-numbered CLOSED or DORMANT page with a FREE slot, or TABLE_FULL; in the page it takes the lowest-numbered FREE
slot. The first two clauses say which pages the model calls joinable and openable (R31, R32, R34). -/
def Obligations.AllocationTakesTheLowestPage : Prop :=
  ∀ (st : Store) (frames : Nat) (k : RateClass),
    (∀ p, st.joinable k p = true ↔
      (st.pageState p = .opening ∨ st.pageState p = .open_) ∧
        (∃ sc, (st.pageAt p).schedule = some sc ∧ sc.cls = k) ∧ ∃ n, n < 8 ∧ st.slotAt (p * 8 + n) = .free) ∧
      (∀ p, st.openable p = true ↔
        (st.pageState p = .closed ∨ st.pageState p = .dormant) ∧ ∃ n, n < 8 ∧ st.slotAt (p * 8 + n) = .free) ∧
      (∀ place, st.allocate frames k = .ok place →
        place.page < 128 ∧ place.position < 8 ∧ place.slot = place.page * 8 + place.position ∧
          st.slotAt place.slot = .free ∧
          (∀ n, n < place.position → st.slotAt (place.page * 8 + n) ≠ .free) ∧
          (place.opened = none → st.joinable k place.page = true ∧
            ∀ p, p < place.page → st.joinable k p = false) ∧
          (place.opened ≠ none → (∀ p, p < 128 → st.joinable k p = false) ∧ st.openable place.page = true ∧
            ∀ p, p < place.page → st.openable p = false)) ∧
      (st.allocate frames k = .error .tableFull ↔
        ∀ p, p < 128 → st.joinable k p = false ∧ st.openable p = false) ∧
      ∀ status, st.allocate frames k = .error status → status = .tableFull ∨ status = .noCapacity

/-- Admission chooses, among the phases of the class, one whose largest load counter is smallest, and the lowest of those;
an INSERT is refused with NO_CAPACITY exactly where a CLOSED or DORMANT page has a FREE slot, no OPENING or OPEN page of the
class has one, and for every phase that largest counter is not below F (R31, R32, R33). -/
def Obligations.AdmissionChoosesThePhase : Prop :=
  ∀ (st : Store) (frames : Nat) (k : RateClass),
    (∀ place phase, st.allocate frames k = .ok place → place.opened = some phase →
      phase < k.period ∧ (∀ i, i < 16 → i % k.period = phase → st.load i < frames) ∧
        ∀ other, other < k.period → st.worstLoad k.period phase ≤ st.worstLoad k.period other ∧
          (other < phase → st.worstLoad k.period phase < st.worstLoad k.period other)) ∧
      (st.allocate frames k = .error .noCapacity ↔
        (∃ p, p < 128 ∧ (st.pageState p = .closed ∨ st.pageState p = .dormant) ∧
          ∃ n, n < 8 ∧ st.slotAt (p * 8 + n) = .free) ∧
          (∀ p, p < 128 → (st.pageState p = .opening ∨ st.pageState p = .open_) →
            (∃ sc, (st.pageAt p).schedule = some sc ∧ sc.cls = k) → ∀ n, n < 8 → st.slotAt (p * 8 + n) ≠ .free) ∧
          ∀ phase, phase < k.period → frames ≤ st.worstLoad k.period phase) ∧
      ∀ period phase, 0 < period →
        (∀ i, i < 16 → i % period = phase → st.load i ≤ st.worstLoad period phase) ∧
          (0 < st.worstLoad period phase → ∃ i, i < 16 ∧ i % period = phase ∧ st.load i = st.worstLoad period phase)

/-- An INSERT staged in an OPEN batch: the slot allocated is RESERVED with the staged record, its key in the directory, its
page OPENING or OPEN, and the entry with its staged copy stands last in the list. A page that it opens takes the record's
class and the phase chosen, shows no last transfer and adds its load to the counters at once; a page that it joins, and
every other page, is as it was (R7, R25, R27, R30, R80, R82, R83). -/
def Obligations.StagedInsertReservesASlot : Prop :=
  ∀ (a : InsertArgs) (s : State), s.heldAccess = some (.insert a) → s.batch.state = .open_ →
    (∀ e ∈ s.batch.entries, e.key ≠ a.key) → s.batch.entries.length < 32 →
    ((∃ i, s.store.slotOfKey a.key = some i) → exec .insert s = .next (s.finish .keyExists [])) ∧
      (∀ status, s.store.slotOfKey a.key = none →
        s.store.allocate s.port.config.frames a.cls = .error status → exec .insert s = .next (s.finish status [])) ∧
      ∀ place, s.store.slotOfKey a.key = none → s.store.allocate s.port.config.frames a.cls = .ok place →
        ∃ u : State,
          exec .insert s = .next (u.finish .ok
            ([byteOf place.page, byteOf place.position, bitAt 0 place.opened.isSome + 2] ++
              (match place.opened with
                | some phase => [byteOf phase]
                | none => []) ++ [byteOf (s.batch.entries.length + 1)])) ∧
          u = { s with
            store := u.store
            batch := ⟨.open_, s.batch.entries ++ [⟨.insert a.record, a.key, place.slot⟩]⟩ } ∧
          u.store.slotAt place.slot = .reserved a.record ∧ a.record.revision = 0 ∧
          (∀ j, j ≠ place.slot → u.store.slotAt j = s.store.slotAt j) ∧
          u.store.slotOfKey a.key = some place.slot ∧
          (∀ key, key ≠ a.key → u.store.slotOfKey key = s.store.slotOfKey key) ∧
          (u.store.pageState place.page = .opening ∨ u.store.pageState place.page = .open_) ∧
          (place.opened ≠ none → u.store.pageState place.page = .opening) ∧
          (s.store.pageState place.page = .open_ → u.store.pageState place.page = .open_) ∧
          u.store.due = s.store.due ∧ (∀ p, p ≠ place.page → u.store.pageAt p = s.store.pageAt p) ∧
          (place.opened = none → u.store.pages = s.store.pages ∧ u.store.loads = s.store.loads) ∧
          ∀ phase, place.opened = some phase → u.store.pageAt place.page = ⟨some ⟨a.cls, phase⟩, none⟩ ∧
            ∀ i, i < 16 → u.store.load i = s.store.load i + (if i % a.cls.period = phase then 1 else 0)

/-- INSERT, AMEND and RETIRE are refused with BATCH_SEALED while the batch is SEALED, ahead of every other state check, and
while it is OPEN with CONFLICT for a key that an entry names and then with BATCH_FULL at 32 entries; a refusal changes
nothing (R48, R80, R82). -/
def Obligations.StagingRefusalsComeFirst : Prop :=
  ∀ (s : State) (key : Word),
    ((∃ a : InsertArgs, a.key = key ∧ s.heldAccess = some (.insert a)) →
      (s.batch.state = .sealed_ → exec .insert s = .next (s.finish .batchSealed [])) ∧
        (s.batch.state = .open_ → (∃ e ∈ s.batch.entries, e.key = key) →
          exec .insert s = .next (s.finish .conflict [])) ∧
        (s.batch.state = .open_ → (∀ e ∈ s.batch.entries, e.key ≠ key) → 32 ≤ s.batch.entries.length →
          exec .insert s = .next (s.finish .batchFull []))) ∧
      ((∃ payload lease, s.heldAccess = some (.amend key payload lease)) →
        (s.batch.state = .sealed_ → exec .amend s = .next (s.finish .batchSealed [])) ∧
          (s.batch.state = .open_ → (∃ e ∈ s.batch.entries, e.key = key) →
            exec .amend s = .next (s.finish .conflict [])) ∧
          (s.batch.state = .open_ → (∀ e ∈ s.batch.entries, e.key ≠ key) → 32 ≤ s.batch.entries.length →
            exec .amend s = .next (s.finish .batchFull []))) ∧
      (s.heldAccess = some (.retire key) →
        (s.batch.state = .sealed_ → exec .retire s = .next (s.finish .batchSealed [])) ∧
          (s.batch.state = .open_ → (∃ e ∈ s.batch.entries, e.key = key) →
            exec .retire s = .next (s.finish .conflict [])) ∧
          (s.batch.state = .open_ → (∀ e ∈ s.batch.entries, e.key ≠ key) → 32 ≤ s.batch.entries.length →
            exec .retire s = .next (s.finish .batchFull [])))

/-! ### AMEND, RENEW, RETIRE (chapters 3 and 5) -/

/-- An AMEND while the batch is NONE: NO_KEY, then NOT_LIVE with any damage found recorded; otherwise the payload is
replaced, the revision raised by 1 modulo 256, the lease changed by its field, amend staged is no, every other field kept,
and no other slot, key, page or counter changed (R4, R17, R52, R53, Table 3-3). -/
def Obligations.AmendReplacesThePayload : Prop :=
  ∀ (key : Word) (payload : List Word) (field : Option Nat) (s : State),
    s.heldAccess = some (.amend key payload field) → s.batch.state = .none →
    (s.store.slotOfKey key = none → exec .amend s = .next (s.finish .noKey [])) ∧
      (∀ i, s.store.slotOfKey key = some i → (∀ r m g, s.store.found i ≠ .live r m g) →
        exec .amend s = .next (State.finish { s with store := s.store.verify i } .notLive [])) ∧
      ∀ i r m g, s.store.slotOfKey key = some i → s.store.found i = .live r m g →
        ∃ (u : State) (length : Option Nat),
          (field = none → length = r.leaseLength) ∧ (field = some 0 → length = none) ∧
          (∀ n, field = some (n + 1) → length = some (n + 1)) ∧
          exec .amend s = .next (u.finish .ok ((r.revision + 1) :: leaseData length length)) ∧
          u = { s with store := u.store } ∧
          u.store.slotAt i =
            .live { r with payload := payload, revision := r.revision + 1, leaseLength := length } length false ∧
          (∀ j, j ≠ i → u.store.slotAt j = s.store.slotAt j) ∧ u.store.directory = s.store.directory ∧
          u.store.pages = s.store.pages ∧ u.store.loads = s.store.loads ∧ u.store.due = s.store.due

/-- An AMEND or a RETIRE staged in an OPEN batch: an AMEND needs a LIVE record and sets its amend staged flag, a RETIRE needs
a LIVE or DAMAGED record and changes nothing in it; the entry stands last in the list, and its position is the answer
(R80, R82, R84, R85). -/
def Obligations.StagedAmendAndRetireWait : Prop :=
  ∀ (s : State) (key : Word), s.batch.state = .open_ → (∀ e ∈ s.batch.entries, e.key ≠ key) →
    s.batch.entries.length < 32 →
    (∀ payload field, s.heldAccess = some (.amend key payload field) →
      (s.store.slotOfKey key = none → exec .amend s = .next (s.finish .noKey [])) ∧
        (∀ i, s.store.slotOfKey key = some i → (∀ r m g, s.store.found i ≠ .live r m g) →
          exec .amend s = .next (State.finish { s with store := s.store.verify i } .notLive [])) ∧
        ∀ i r m g, s.store.slotOfKey key = some i → s.store.found i = .live r m g →
          ∃ u : State, exec .amend s = .next (u.finish .ok [byteOf (s.batch.entries.length + 1)]) ∧
            u = { s with
              store := u.store, batch := ⟨.open_, s.batch.entries ++ [⟨.amend payload field, key, i⟩]⟩ } ∧
            u.store.slotAt i = .live r m true ∧ (∀ j, j ≠ i → u.store.slotAt j = s.store.slotAt j) ∧
            u.store.directory = s.store.directory ∧ u.store.pages = s.store.pages ∧
            u.store.loads = s.store.loads ∧ u.store.due = s.store.due) ∧
      (s.heldAccess = some (.retire key) →
        (s.store.slotOfKey key = none → exec .retire s = .next (s.finish .noKey [])) ∧
          (∀ i, s.store.slotOfKey key = some i → (∀ r m g, s.store.found i ≠ .live r m g) →
            (∀ b, s.store.found i ≠ .damaged b) →
            exec .retire s = .next (State.finish { s with store := s.store.verify i } .notLive [])) ∧
          ∀ i, s.store.slotOfKey key = some i →
            ((∃ r m g, s.store.found i = .live r m g) ∨ ∃ b, s.store.found i = .damaged b) →
            exec .retire s = .next (State.finish { s with
              store := s.store.verify i
              batch := ⟨.open_, s.batch.entries ++ [⟨.retire, key, i⟩]⟩ } .ok [byteOf (s.batch.entries.length + 1)]))

/-- RENEW in every batch state: NO_KEY, NOT_LIVE, then BAD_ARG for an absent lease field on a standing record; otherwise the
lease is changed by its field, and every other field, amend staged among them, is kept (R48, R54, Table 3-3). -/
def Obligations.RenewRestartsTheLease : Prop :=
  ∀ (key : Word) (field : Option Nat) (s : State), s.heldAccess = some (.renew key field) →
    (s.store.slotOfKey key = none → exec .renew s = .next (s.finish .noKey [])) ∧
      (∀ i, s.store.slotOfKey key = some i → (∀ r m g, s.store.found i ≠ .live r m g) →
        exec .renew s = .next (State.finish { s with store := s.store.verify i } .notLive [])) ∧
      (∀ i r m g, s.store.slotOfKey key = some i → s.store.found i = .live r m g → field = none →
        r.leaseLength = none → exec .renew s = .next (s.finish .badArg [])) ∧
      ∀ i r m g, s.store.slotOfKey key = some i → s.store.found i = .live r m g →
        (field ≠ none ∨ r.leaseLength ≠ none) →
        ∃ (u : State) (length : Option Nat),
          (field = none → length = r.leaseLength) ∧ (field = some 0 → length = none) ∧
          (∀ n, field = some (n + 1) → length = some (n + 1)) ∧
          exec .renew s = .next (u.finish .ok (leaseData length length)) ∧ u = { s with store := u.store } ∧
          u.store.slotAt i = .live { r with leaseLength := length } length g ∧
          (∀ j, j ≠ i → u.store.slotAt j = s.store.slotAt j) ∧ u.store.directory = s.store.directory ∧
          u.store.pages = s.store.pages ∧ u.store.loads = s.store.loads ∧ u.store.due = s.store.due

/-- A RETIRE while the batch is NONE: NO_KEY, then NOT_LIVE for a record that is neither LIVE nor LAPSED nor DAMAGED; a LIVE
record becomes WITHDRAWING with cause RETIRED and count W while the scan runs, and FREE while STOPPED; a LAPSED or DAMAGED
one becomes FREE; a slot made FREE releases its key, and where its page is no longer OPEN the page's untransferred entry is
struck from the due list, and a page that closes loses class, phase and load and keeps its last transfer; no other slot
changes (R6, R9, R29, R30, R43, R55, R56, R57). -/
def Obligations.RetireWithdrawsOrFrees : Prop :=
  ∀ (key : Word) (s : State), s.canonical → s.heldAccess = some (.retire key) → s.batch.state = .none →
    (s.store.slotOfKey key = none → exec .retire s = .next (s.finish .noKey [])) ∧
      (∀ i, s.store.slotOfKey key = some i →
        (s.store.found i = .free ∨ (∃ r, s.store.found i = .reserved r) ∨
          ∃ r c n, s.store.found i = .withdrawing r c n) →
        exec .retire s = .next (State.finish { s with store := s.store.verify i } .notLive [])) ∧
      (∀ i r m g, s.store.slotOfKey key = some i → s.store.found i = .live r m g → s.scan.state ≠ .stopped →
        ∃ u : State, exec .retire s = .next (u.finish .ok [3, byteOf s.port.config.withdrawals]) ∧
          u = { s with store := u.store } ∧
          u.store.slotAt i = .withdrawing r .retired s.port.config.withdrawals ∧
          (∀ j, j ≠ i → u.store.slotAt j = s.store.slotAt j) ∧ u.store.directory = s.store.directory ∧
          u.store.pages = s.store.pages ∧ u.store.loads = s.store.loads ∧ u.store.due = s.store.due) ∧
      ∀ i, s.store.slotOfKey key = some i →
        ((∃ r m g, s.store.found i = .live r m g) ∧ s.scan.state = .stopped ∨
          (∃ r, s.store.found i = .lapsed r) ∨ ∃ b, s.store.found i = .damaged b) →
        ∃ u : State, exec .retire s = .next (u.finish .ok [0, 0]) ∧ u = { s with store := u.store } ∧
          u.store.slotAt i = .free ∧ (∀ j, j ≠ i → u.store.slotAt j = s.store.slotAt j) ∧
          u.store.slotOfKey key = none ∧
          u.store.directory = s.store.directory.filter (fun e => decide (e.2 ≠ i)) ∧
          s.store.Replanned u.store (i / 8)

/-! ### LOOKUP, PAGE QUERY, LOAD QUERY (3.6, 3.7) -/

/-- LOOKUP answers NO_KEY, or OK with the record as the verifying read finds it, a RESERVED one restored from its staged
copy, and changes nothing but the damage found; PAGE QUERY and LOAD QUERY answer OK in every state and change nothing. The
data are laid out as Table 11-8 gives: a LOOKUP carries the key, the place, the state, and except for DAMAGED the fields of
the record, the conditional ones as its flags byte says; a PAGE QUERY the page state, class and phase and last transfer as
its flags byte says, and each slot's state with its key where it is not FREE; with the codes of Table 11-9. That a RESERVED
record shows no echo changed flag is the model's reading (log entry 17) (R14, R16, R58, R59, R60, R166). -/
def Obligations.QueriesReportTheTable : Prop :=
  (∀ (key : Word) (s : State), s.heldAccess = some (.lookup key) →
    (s.store.slotOfKey key = none → exec .lookup s = .next (s.finish .noKey [])) ∧
      ∀ i, s.store.slotOfKey key = some i →
        exec .lookup s = .next (State.finish { s with store := s.store.verifyAny s.batch.entries i } .ok
          (lookupData key i ((s.store.verifyAny s.batch.entries i).slotAt i)))) ∧
    (∀ (key : Word) (i : Nat) (place : List Byte), place = bytesOfWord key ++ [byteOf (i / 8), byteOf (i % 8)] →
      (∀ b, lookupData key i (.damaged b) = place ++ [5]) ∧
        (∀ r, r.echo = none → r.echoChanged = none → r.leaseLength = none →
          lookupData key i (.live r none false) = place ++
            [2, byteOf r.node, byteOf r.channel, r.cls.code, bitAt 0 r.replyRequested + bitAt 1 r.notify, 0, r.revision,
              byteOf r.payload.length] ++ r.payload.flatMap bytesOfWord) ∧
        (∀ r, lookupData key i (.reserved r) = place ++ [1] ++ recordData r none none false none) ∧
        (∀ r m g, lookupData key i (.live r m g) = place ++ [2] ++ recordData r m none g r.echoChanged) ∧
        (∀ r c n, lookupData key i (.withdrawing r c n) =
          place ++ [3] ++ recordData r none (some (c, n)) false r.echoChanged) ∧
        ∀ r, lookupData key i (.lapsed r) = place ++ [4] ++ recordData r none none false r.echoChanged) ∧
    (∀ (r : Record) (remaining : Option Nat) (withdrawal : Option (Cause × Nat)) (staged : Bool) (changed : Option Bool)
      (flags : Byte),
      flags.getLsbD 0 = r.leaseLength.isSome → flags.getLsbD 1 = remaining.isSome → flags.getLsbD 2 = r.echo.isSome →
      flags.getLsbD 3 = r.echoHeld.isSome → flags.getLsbD 4 = withdrawal.isSome → flags.getLsbD 5 = staged →
      flags.getLsbD 6 = changed.isSome → flags.getLsbD 7 = changed.getD false →
      recordData r remaining withdrawal staged changed =
        [byteOf r.node, byteOf r.channel, r.cls.code, bitAt 0 r.replyRequested + bitAt 1 r.notify, flags, r.revision,
          byteOf r.payload.length] ++ r.payload.flatMap bytesOfWord ++
          (match r.leaseLength with
            | some n => bytesOfNat n
            | none => []) ++
          (match remaining with
            | some n => bytesOfNat n
            | none => []) ++
          (match r.echo with
            | some ⟨state, some held⟩ => [state.code] ++ bytesOfWord held.value ++ [held.revision]
            | some ⟨state, none⟩ => [state.code]
            | none => []) ++
          (match withdrawal with
            | some (cause, count) => [cause.code, byteOf count]
            | none => [])) ∧
    (∀ (p : Nat) (s : State), s.heldAccess = some (.pageQuery p) →
      exec .pageQuery s = .next (s.finish .ok (s.store.pageData p)) ∧
        (s.store.pageAt p = ⟨none, none⟩ → (∀ k, k < 8 → s.store.slotAt (p * 8 + k) = .free) →
          s.store.pageData p = [0, 0, 0, 0, 0, 0, 0, 0, 0, 0])) ∧
    (∀ (st : Store) (p : Nat),
      st.pageData p =
        [(st.pageState p).code,
          bitAt 0 (st.pageAt p).schedule.isSome + bitAt 1 (st.pageAt p).lastTransfer.isSome] ++
          (match (st.pageAt p).schedule with
            | some sc => [sc.cls.code, byteOf sc.phase]
            | none => []) ++
          (match (st.pageAt p).lastTransfer with
            | some count => bytesOfWord count
            | none => []) ++
          (List.range 8).flatMap fun k =>
            if st.slotAt (p * 8 + k) = .free then [0]
            else (st.slotAt (p * 8 + k)).code :: bytesOfWord ((st.keyAt (p * 8 + k)).getD 0)) ∧
    ([PageState.closed, .dormant, .opening, .open_].map PageState.code = [0, 1, 2, 3] ∧
      [RateClass.p1, .p2, .p4, .p8, .p16].map RateClass.code = [0, 1, 2, 3, 4] ∧
      [EchoState.none, .fresh, .stale].map EchoState.code = [0, 1, 2] ∧
      [Cause.retired, .expired].map Cause.code = [0, 1] ∧
      ∀ r m g c n b, [Slot.free, .reserved r, .live r m g, .withdrawing r c n, .lapsed r, .damaged b].map Slot.code =
        [0, 1, 2, 3, 4, 5]) ∧
    ∀ s : State, s.heldAccess = some .loadQuery →
      exec .loadQuery s = .next (s.finish .ok (s.store.loads.map byteOf ++ [byteOf s.port.config.frames]))

/-! ### Batches (chapter 5) -/

/-- OPEN BATCH and BATCH QUERY: OPEN BATCH makes a batch that is NONE OPEN with no entries and is otherwise refused; BATCH
QUERY reports the state and, for each entry in staging order, its operation and its key, and changes nothing (R81, R96). -/
def Obligations.OpenBatchAndBatchQuery : Prop :=
  (∀ s : State, s.heldAccess = some .openBatch →
    (s.batch.state = .none → exec .openBatch s = .next (State.finish { s with batch := ⟨.open_, []⟩ } .ok [])) ∧
      (s.batch.state = .open_ → exec .openBatch s = .next (s.finish .batchOpen [])) ∧
      (s.batch.state = .sealed_ → exec .openBatch s = .next (s.finish .batchSealed []))) ∧
    ∀ s : State, s.heldAccess = some .batchQuery →
      exec .batchQuery s = .next (s.finish .ok
        ([(match s.batch.state with
            | .none => 0
            | .open_ => 1
            | .sealed_ => 2), byteOf s.batch.entries.length] ++
          s.batch.entries.flatMap fun e =>
            (match e.op with
              | .insert _ => (1 : Byte)
              | .amend _ _ => 2
              | .retire => 3) :: bytesOfWord e.key))

/-- COMMIT BATCH: NO_BATCH while NONE, BATCH_SEALED while SEALED; an OPEN batch is SEALED with ACCEPTED and the number of its
entries while the scan runs, and while STOPPED applied at once, the batch NONE, the notice raised, and the two counts in
the response (R87, R90, R144). -/
def Obligations.CommitBatchSealsOrApplies : Prop :=
  ∀ s : State, s.heldAccess = some .commitBatch →
    (s.batch.state = .none → exec .commitBatch s = .next (s.finish .noBatch [])) ∧
      (s.batch.state = .sealed_ → exec .commitBatch s = .next (s.finish .batchSealed [])) ∧
      (s.batch.state = .open_ → s.scan.state ≠ .stopped →
        exec .commitBatch s = .next (State.finish { s with batch := ⟨.sealed_, s.batch.entries⟩ } .accepted
          [byteOf s.batch.entries.length])) ∧
      (s.batch.state = .open_ → s.scan.state = .stopped →
        ∃ a : Application, a = applyEntries s.store s.batch.entries .stopped s.port.config.withdrawals ∧
          exec .commitBatch s = .next (State.finish { s with
            store := a.store, batch := ⟨.none, []⟩, notices := s.notices.batchApplied a.applied a.lapsed } .ok
            [byteOf a.applied, byteOf a.lapsed]))

/-- ABORT BATCH: NO_BATCH while NONE, BATCH_SEALED while SEALED; an OPEN batch is discarded in the access: the batch is NONE
and the number of entries discarded is the answer. Every RESERVED slot becomes FREE and its key, and no other, leaves the
directory. A LIVE record that an AMEND entry names is kept with amend staged no, or found DAMAGED; every other slot, those
that RETIRE entries name among them, and every last transfer field is left as it stands (R6, R12, R17, R29, R94). That the
abort verifies the records that AMEND entries name is the model's reading (log entry 19). -/
def Obligations.AbortBatchDiscardsTheBatch : Prop :=
  (∀ s : State, s.heldAccess = some .abortBatch →
    (s.batch.state = .none → exec .abortBatch s = .next (s.finish .noBatch [])) ∧
      (s.batch.state = .sealed_ → exec .abortBatch s = .next (s.finish .batchSealed [])) ∧
      (s.batch.state = .open_ → exec .abortBatch s = .next (State.finish { s with
        store := s.store.abortBatch s.batch.entries, batch := ⟨.none, []⟩ } .ok [byteOf s.batch.entries.length]))) ∧
    ∀ (st : Store) (entries : List BatchEntry),
      (∀ p, ((st.abortBatch entries).pageAt p).lastTransfer = (st.pageAt p).lastTransfer) ∧
      (∀ i, i < 1024 →
        (∀ r, st.slotAt i = .reserved r → (st.abortBatch entries).slotAt i = .free) ∧
          ((∃ e ∈ entries, e.isAmend = true ∧ e.slot = i ∧ st.keyAt i = some e.key) →
            (∀ r m g, st.found i = .live r m g → (st.abortBatch entries).slotAt i = .live r m false) ∧
              ∀ r m g, st.slotAt i = .live r m g → st.found i = .damaged false →
                (st.abortBatch entries).slotAt i = .damaged false) ∧
          ((∀ e ∈ entries, e.isAmend = true → e.slot = i → st.keyAt i ≠ some e.key) →
            (∀ r, st.slotAt i ≠ .reserved r) → (st.abortBatch entries).slotAt i = st.slotAt i) ∧
          ((∀ r m g, st.slotAt i ≠ .live r m g) → (∀ r, st.slotAt i ≠ .reserved r) →
            (st.abortBatch entries).slotAt i = st.slotAt i)) ∧
        ∀ e, e ∈ (st.abortBatch entries).directory ↔
          e ∈ st.directory ∧ ¬ (e.2 < 1024 ∧ ∃ r, st.slotAt e.2 = .reserved r)

/-- The application of a sealed batch at a boundary: the entries are applied in staging order in the access, each to the
table that the one before it leaves, the batch is NONE, BATCH_APPLIED is raised in the same access with counts that sum to
the number of entries, and at its end the due list is fixed for the cycle index and the first transfer claim placed (R41,
R89, R90, R111, R144). -/
def Obligations.BatchApplicationAppliesTheEntries : Prop :=
  (∀ s : State, s.arbiter.inProgress = some .application →
    ∃ a : Application, a = applyEntries s.store s.batch.entries s.scan.state s.port.config.withdrawals ∧
      exec .batchApplication s = .next (State.release (State.claimTransfer { s with
        store := a.store.fixDue s.timer.index.toNat, batch := ⟨.none, []⟩
        notices := s.notices.batchApplied a.applied a.lapsed }))) ∧
    (∀ (st : Store) (entries : List BatchEntry) (scan : ScanState) (w : Nat),
      applyEntries st entries scan w = entries.foldl (applyEntry entries scan w) ⟨st, 0, 0⟩ ∧
      (applyEntries st entries scan w).applied + (applyEntries st entries scan w).lapsed = entries.length) ∧
    ∀ (n : NoticeUnit) (applied lapsed : Nat),
      (n.applied = none → n.batchApplied applied lapsed = { n with applied := some ⟨applied, lapsed, false⟩ }) ∧
        ∀ old, n.applied = some old → n.batchApplied applied lapsed =
          { n with applied := some ⟨min 255 (old.applied + applied), min 255 (old.lapsed + lapsed), true⟩ }

/-- The outcome of each entry at application (Table 5-3): an entry whose slot does not hold its key changes nothing but the
damage found, which is looked for whatever key it holds (log entry 19), and is lapsed; otherwise it is applied to the state
that the verifying read finds, and counted as applied (R12, R17, R89, R90). -/
def Obligations.EntryOutcomesAtApplication : Prop :=
  ∀ (all : List BatchEntry) (scan : ScanState) (w : Nat) (a : Application) (e : BatchEntry) (st : Store),
    st = a.store.verifyAny all e.slot →
    (∀ x : Store, a.apply x = ⟨x, a.applied + 1, a.lapsed⟩ ∧ a.lapse x = ⟨x, a.applied, a.lapsed + 1⟩) ∧
    (st.keyAt e.slot ≠ some e.key → applyEntry all scan w a e = a.lapse st) ∧
      (st.keyAt e.slot = some e.key →
        (∀ copy r, e.op = .insert copy → st.slotAt e.slot = .reserved r →
          applyEntry all scan w a e = a.apply (st.changeSlot e.slot (.live r r.leaseLength false))) ∧
          (∀ payload field r m g, e.op = .amend payload field → st.slotAt e.slot = .live r m g →
            applyEntry all scan w a e = a.apply (st.changeSlot e.slot (.live
              { r with payload := payload, revision := r.revision + 1, leaseLength := leaseAfter field r.leaseLength }
              (leaseAfter field r.leaseLength) false))) ∧
          (∀ payload field, e.op = .amend payload field → (∀ r m g, st.slotAt e.slot ≠ .live r m g) →
            applyEntry all scan w a e = a.lapse st) ∧
          (∀ r m g, e.op = .retire → st.slotAt e.slot = .live r m g → scan ≠ .stopped →
            applyEntry all scan w a e = a.apply (st.changeSlot e.slot (.withdrawing r .retired w))) ∧
          (∀ r m g, e.op = .retire → st.slotAt e.slot = .live r m g → scan = .stopped →
            applyEntry all scan w a e = a.apply (st.changeSlot e.slot .free)) ∧
          (∀ b, e.op = .retire → st.slotAt e.slot = .damaged b →
            applyEntry all scan w a e = a.apply (st.changeSlot e.slot .free)) ∧
          (e.op = .retire → (∀ r m g, st.slotAt e.slot ≠ .live r m g) → (∀ b, st.slotAt e.slot ≠ .damaged b) →
            applyEntry all scan w a e = a.lapse st))

/-! ### Nodes and notices (chapters 7 and 9) -/

/-- NODE QUERY reports every field of the node record and changes nothing; NODE SET sets demand permitted and, with its
option, clears the check errors, keeps presence, reported presence and misses, and answers with the record after the change
(R132, R133, R166). -/
def Obligations.NodeRequestsReadAndSet : Prop :=
  (∀ (n : Nat) (s : State), s.heldDirect = some (.nodeQuery n) →
    exec .nodeQuery s = .next (s.complete .ok
      [byteOf n, (s.nodes.at n).presence.code, (s.nodes.at n).reported.code, byteOf (s.nodes.at n).misses,
        byteOf (s.nodes.at n).errors, if (s.nodes.at n).permitted then 1 else 0])) ∧
    ∀ (n : Nat) (permitted clearErrors : Bool) (s : State), s.heldDirect = some (.nodeSet n permitted clearErrors) →
      ∃ u : State, exec .nodeSet s = .next (u.complete .ok
          [byteOf n, (u.nodes.at n).presence.code, (u.nodes.at n).reported.code, byteOf (u.nodes.at n).misses,
            byteOf (u.nodes.at n).errors, if permitted then 1 else 0]) ∧
        u = { s with nodes := u.nodes } ∧ u.nodes.pointer = s.nodes.pointer ∧
        u.nodes.at n = { s.nodes.at n with
          permitted := permitted, errors := if clearErrors then 0 else (s.nodes.at n).errors } ∧
        ∀ m, m ≠ n → u.nodes.at m = s.nodes.at m

/-- TAKE NOTICES reports the first 12 pending notices, or all of them if fewer are pending, each as the 6 bytes of its kind
and content, in their order, with the number that remains pending when the access completes; a slot is reported as the
verifying read finds it, with its key. Each notice reported is ended with the side effect of its kind: the device flags are
cleared, a node's reported presence becomes its presence, a LAPSED slot becomes FREE and its key leaves the directory,
echo changed becomes no, damage reported yes; nothing else of the nodes and slots changes (R147, R148, R166, Table
11-10). -/
def Obligations.TakeNoticesReportsTwelve : Prop :=
  ∀ s : State, s.heldAccess = some .takeNotices →
    ∃ (u : State) (record : NoticeSource → List Byte),
      exec .takeNotices s = .next (u.finish .ok
        (byteOf (min 12 s.noticeSources.length) :: bytesOfNat u.noticeSources.length ++
          (s.noticeSources.take 12).flatMap record)) ∧
      (∀ n, s.notices.applied = some n →
        record .applied = [1, if n.merged then 1 else 0, byteOf n.applied, byteOf n.lapsed, 0, 0]) ∧
      (∀ n, s.notices.fault = some n →
        record .fault = [2, if n.repeated then 1 else 0] ++ bytesOfWord n.cycle ++ [0, 0]) ∧
      (∀ n, record (.node n) = [3, 0, byteOf n, (s.nodes.at n).presence.code, 0, 0]) ∧
      (∀ i, ∃ key, key = bytesOfWord ((s.store.keyAt i).getD 0) ∧
        (∀ r h, s.store.found i = .lapsed r → r.echoHeld = some h →
          record (.slot i) = [4, 1] ++ key ++ bytesOfWord h.value) ∧
        (∀ r, s.store.found i = .lapsed r → r.echoHeld = none → record (.slot i) = [4, 0] ++ key ++ [0, 0]) ∧
        (∀ r h, (∃ m g, s.store.found i = .live r m g) ∨ (∃ c n, s.store.found i = .withdrawing r c n) →
          r.echoHeld = some h → record (.slot i) = [5, 0] ++ key ++ bytesOfWord h.value) ∧
        ∀ b, s.store.found i = .damaged b → record (.slot i) = [6, 0] ++ key ++ [0, 0]) ∧
      u = ((s.noticeSources.take 12).foldl takeOne (s, [])).1 ∧
      u = { s with store := u.store, nodes := u.nodes, notices := ⟨none, none⟩ } ∧
      u.nodes.pointer = s.nodes.pointer ∧
      (∀ n, u.nodes.at n =
        if .node n ∈ s.noticeSources.take 12 then { s.nodes.at n with reported := (s.nodes.at n).presence }
        else s.nodes.at n) ∧
      (∀ i, u.store.slotAt i =
        if .slot i ∈ s.noticeSources.take 12 then (s.store.cellAt i).taken else s.store.slotAt i) ∧
      ∀ e, e ∈ u.store.directory ↔
        e ∈ s.store.directory ∧ ¬ (.slot e.2 ∈ s.noticeSources.take 12 ∧ ∃ r, s.store.found e.2 = .lapsed r)

/-- ATTN is asserted exactly when at least one notice is pending: a device flag, a node whose presence differs from its
reported presence, or a slot in the condition of its kind. RDY is high exactly in READY. LTXEN is active exactly while the
part sends a word: in RUN or HOLD within a mark, a frame or a demand answer, and after the grant of STOP SCAN while the word
in progress runs to its end, before the abort word that it owes (R100, R143, R146, R152, Table 11-12). RDY is so while
RESET# is asserted too (log entry 7); the abort word itself is sent in one step of the model, so no state lies within it
(log entry 16). -/
def Obligations.AttnFollowsTheNotices : Prop :=
  (∀ s : State, s.rdy = true ↔ s.port.state = .ready) ∧
    (∀ s : State, s.ltxen = true ↔
      ((s.scan.state = .run ∨ s.scan.state = .hold) ∧
        (s.scan.line = .mark ∨ s.scan.line = .frame ∨ s.scan.line = .demandWindow ∧ s.demand.state = .answering)) ∨
        s.scan.abort = .afterWord) ∧
    ∀ s : State, s.attn = true ↔
      s.notices.applied.isSome = true ∨ s.notices.fault.isSome = true ∨
        (∃ n, 1 ≤ n ∧ n ≤ 62 ∧ (s.nodes.at n).presence ≠ (s.nodes.at n).reported) ∨
        ∃ i, i < 1024 ∧
          ((∃ r m g, s.store.slotAt i = .live r m g ∧ r.echoChanged = some true) ∨
            (∃ r c n, s.store.slotAt i = .withdrawing r c n ∧ r.echoChanged = some true) ∨
            (∃ r, s.store.slotAt i = .lapsed r) ∨ s.store.slotAt i = .damaged false)

/-! ### The boundary and its accesses (chapters 2, 4 and 6) -/

/-- A boundary while the scan is not STOPPED: index and count are raised by 1, the old due list ends, the countdown claim is
placed and, while the batch is SEALED, the application claim; a pending request is taken; in RUN the invited node is chosen
and the mark sent, in HOLD the mark with the hold flag and invited node 0, in FAULT nothing. A boundary taken while
the grant of STOP SCAN has made the scan STOPPED and the timer still runs places its claims in the same way, and sends no
mark, asks for no invitation and changes nothing else (R37, R38, R39, R78, R88, R92, R98, R101, R104, R106). -/
def Obligations.BoundaryBeginsACycle : Prop :=
  (∀ s : State, s.timer.running = true → s.scan.state ≠ .stopped →
    ∃ t : State, exec .boundary s = .next t ∧
      t.timer = { s.timer with index := s.timer.index + 1, count := s.timer.count + 1 } ∧
      t.store = { s.store with due := [] } ∧ t.batch = s.batch ∧ t.notices = s.notices ∧
      t.port = s.port ∧ t.scan.request = .none ∧
      t.arbiter.outstanding 2 = true ∧ (s.batch.state = .sealed_ → t.arbiter.outstanding 3 = true) ∧
      (s.batch.state ≠ .sealed_ → t.arbiter.outstanding 3 = s.arbiter.outstanding 3) ∧
      (s.scan.request = .hold → t.scan.state = .hold) ∧ (s.scan.request = .resume → t.scan.state = .run) ∧
      (s.scan.request = .none → t.scan.state = s.scan.state) ∧
      (t.scan.state = .run → t.nodes = s.nodes.invite.2 ∧ t.demand.invited = s.nodes.invite.1 ∧
        t.demand.state = .closed ∧ t.scan.line = .mark ∧
        t.scan.sent = markWords false false s.nodes.invite.1 (s.timer.index + 1) (s.timer.count + 1)) ∧
      (t.scan.state = .hold → t.nodes = s.nodes ∧ t.demand.state = .closed ∧ t.scan.line = .mark ∧
        t.scan.sent = markWords true false 0 (s.timer.index + 1) (s.timer.count + 1)) ∧
      (t.scan.state = .fault → t.nodes = s.nodes ∧ t.demand.state = .closed ∧ t.scan.line = .idle ∧
        t.scan.sent = s.scan.sent)) ∧
    ∀ s : State, s.timer.running = true → s.scan.state = .stopped →
      ∃ t : State, exec .boundary s = .next t ∧
        t = { s with
          timer := { s.timer with index := s.timer.index + 1, count := s.timer.count + 1 }
          store := { s.store with due := [] }
          arbiter := t.arbiter } ∧
        (∀ c, s.arbiter.inProgress = some c → t.arbiter.inProgress = some c) ∧
        t.arbiter.outstanding 2 = true ∧ (s.batch.state = .sealed_ → t.arbiter.outstanding 3 = true) ∧
        ∀ k, k ≠ 2 → (k ≠ 3 ∨ s.batch.state ≠ .sealed_) → t.arbiter.outstanding k = s.arbiter.outstanding k

/-- The invited node is the first permitted address above the round-robin pointer, then from 1 up to the pointer, and the
pointer moves to it; with no node permitted it is 0 and the pointer stays. A boundary at which the scan state becomes or
stays RUN makes the choice, carries it in the cycle mark and hands it to the Demand Server. At a boundary that makes or
keeps the scan state HOLD or FAULT the table is not asked, and the pointer does not move; the grant and the access of STOP
SCAN leave it, and START SCAN goes on from it (R135). -/
def Obligations.InvitationGoesRound : Prop :=
  (∀ t : NodeTable,
    ((∀ n, 1 ≤ n → n ≤ 62 → (t.at n).permitted = false) → t.invite = (0, t)) ∧
      ∀ n, 1 ≤ n → n ≤ 62 → (t.at n).permitted = true →
        (t.pointer < n → (∀ m, t.pointer < m → m < n → (t.at m).permitted = false) →
          t.invite = (n, { t with pointer := n })) ∧
        (n ≤ t.pointer → (∀ m, t.pointer < m → m ≤ 62 → (t.at m).permitted = false) →
          (∀ m, 1 ≤ m → m < n → (t.at m).permitted = false) → t.invite = (n, { t with pointer := n }))) ∧
    (∀ s : State, s.timer.running = true →
      s.scan.state ≠ .stopped ∧ s.scan.request = .resume ∨ s.scan.state = .run ∧ s.scan.request = .none →
      ∃ t : State, exec .boundary s = .next t ∧ t.scan.state = .run ∧ t.nodes = s.nodes.invite.2 ∧
        t.scan.sent = markWords false false s.nodes.invite.1 (s.timer.index + 1) (s.timer.count + 1) ∧
        t.demand.invited = s.nodes.invite.1) ∧
    (∀ s : State, s.timer.running = true → s.scan.state ≠ .stopped →
      s.scan.request = .hold ∨ s.scan.request = .none ∧ s.scan.state ≠ .run →
      ∃ t : State, exec .boundary s = .next t ∧ t.nodes = s.nodes ∧ t.demand.invited = 0) ∧
    (∀ s : State, s.stopAtGrant.nodes = s.nodes) ∧
    (∀ s : State, s.heldAccess = some .stopScan → s.scan.state = .stopped →
      ∃ t : State, exec .stopScan s = .next t ∧ t.nodes = s.nodes) ∧
    ∀ s : State, s.heldDirect = some .startScan → s.scan.state = .stopped → s.scan.request = .none →
      ∃ t : State, exec .startScan s = .next t ∧ t.nodes = s.nodes.invite.2 ∧ t.demand.invited = s.nodes.invite.1

/-- The lease countdown, in one access: every LIVE slot with a lease is verified and its lease remaining reduced by 1, or
the record expires to WITHDRAWING with cause EXPIRED and count W where it was 1, or the slot is DAMAGED; no other slot
changes, no key leaves the directory and no last transfer field changes; where no application claim waits the due list is
fixed in it for the cycle index and the first transfer claim placed (R17, R29, R41, R67, R68, R111). -/
def Obligations.CountdownReducesEveryLease : Prop :=
  ∀ s : State, s.arbiter.inProgress = some .countdown →
    ∃ u : State,
      exec .leaseCountdown s =
        .next (if .application ∈ s.arbiter.waiting then u.release
          else State.release (State.claimTransfer { u with store := u.store.fixDue u.timer.index.toNat })) ∧
      u = { s with store := u.store } ∧ u.store.directory = s.store.directory ∧
      (∀ p, (u.store.pageAt p).lastTransfer = (s.store.pageAt p).lastTransfer) ∧
      (∀ i, i < 1024 → u.store.slotAt i = (s.store.cellAt i).counted s.port.config.withdrawals) ∧
      ∀ i, 1024 ≤ i → u.store.slotAt i = s.store.slotAt i

/-- The due list fixed for a cycle index holds every OPEN page whose phase equals the index modulo its period, and no
other, each once and untransferred, by ascending period and then by ascending page number; fixing it changes nothing else
of the table (R40, R41). -/
def Obligations.DueListHoldsTheOpenDuePages : Prop :=
  ∀ (st : Store) (i : Nat),
    (∀ p, (∃ e ∈ (st.fixDue i).due, e.page = p) ↔
      p < 128 ∧ st.pageState p = .open_ ∧ ∃ sc, (st.pageAt p).schedule = some sc ∧ i % sc.cls.period = sc.phase) ∧
      (∀ e ∈ (st.fixDue i).due, e.transferred = false) ∧ st.fixDue i = { st with due := (st.fixDue i).due } ∧
      (st.fixDue i).due.Pairwise fun x y => ∀ a b, (st.pageAt x.page).schedule = some a →
        (st.pageAt y.page).schedule = some b →
        a.cls.period < b.cls.period ∨ (a.cls.period = b.cls.period ∧ x.page < y.page)

/-! ### The page transfer and the frames (chapter 6) -/

/-- A page transfer of a page struck from the due list copies nothing. Otherwise its frame holds the LIVE and WITHDRAWING
slots of the page that verify, in slot order; the withdrawal counts are reduced, or completed at 0, the key of a RETIRED
record that completes leaving the directory; slots that fail are DAMAGED; no slot of another page changes; an OPEN page that
is no longer OPENING or OPEN loses class and phase and its load, and keeps them otherwise; the last transfer field is the
cycle count and the entry is marked as transferred. In RUN the FREE register becomes FILLED with the copy, register A first
(log entry 11; a copy that finds no FREE register, which the rules keep from arising, is dropped: log entry 22), and outside
RUN the copy is discarded (log entry 9) (R6, R17, R19, R25, R29, R30, R43, R44, R73, R74, R111, R112). -/
def Obligations.TransferCopiesThePage : Prop :=
  (∀ (p : Nat) (s : State), s.arbiter.inProgress = some (.transfer p) →
    (s.store.isDue p = false → exec .pageTransfer s = .next s.claimTransfer.release) ∧
      (s.store.isDue p = true →
        ∃ (st : Store) (f : Frame),
          exec .pageTransfer s = .next (State.release { s with
            store := st, scan := if s.scan.state = .run then s.scan.fill f else s.scan }) ∧
          f.page = p ∧
          f.entries = (pageSlotIndices p).filterMap (fun i => (s.store.cellAt i).entry i) ∧
          (∀ k, k < 8 → st.slotAt (p * 8 + k) = (s.store.cellAt (p * 8 + k)).transferred) ∧
          (∀ j, j / 8 ≠ p → st.slotAt j = s.store.slotAt j) ∧
          (∀ e, e ∈ st.directory ↔ e ∈ s.store.directory ∧
            ¬ (e.2 / 8 = p ∧ ∃ r n, s.store.found e.2 = .withdrawing r .retired n ∧ n ≤ 1)) ∧
          (st.pageAt p).lastTransfer = some s.timer.count ∧ (∀ q, q ≠ p → st.pageAt q = s.store.pageAt q) ∧
          (s.store.pageState p = .open_ →
            (st.pageState p = .open_ ∨ st.pageState p = .opening →
              (st.pageAt p).schedule = (s.store.pageAt p).schedule ∧ st.loads = s.store.loads) ∧
            (st.pageState p = .closed ∨ st.pageState p = .dormant →
              (st.pageAt p).schedule = none ∧
                ∀ sc, (s.store.pageAt p).schedule = some sc → ∀ i, i < 16 →
                  st.load i = s.store.load i - (if i % sc.cls.period = sc.phase then 1 else 0))) ∧
          st.due = s.store.due.map (fun e => if e.page = p then { e with transferred := true } else e))) ∧
    ∀ (e : ScanEngine) (f : Frame),
      (e.regA = .free → e.fill f = { e with regA := .filled f }) ∧
        (e.regA ≠ .free → e.regB = .free → e.fill f = { e with regB := .filled f }) ∧
        (e.regA ≠ .free → e.regB ≠ .free → e.fill f = e)

/-- The frame of a cycle: FRAME_START puts the FILLED register IN FLIGHT, frees the other, sends the frame and places the
claim for the next entry, which is placed in RUN while a register is FREE and none is FILLED; FRAME_END hands over one reply
slot for each entry that is no withdrawal, is addressed to a node from 1 to 62 and has reply requested, or frees the
register where there is none; CYCLE_MARK_END leaves the line idle in HOLD, and in RUN to the next item (log entry 14). That
FRAME_START frees a register still in flight, and that no claim is placed while a register is FILLED, is the model's reading
(log entry 11). The words of a mark, an entry and a frame carry the fields of Table 11-3, and every item closes with the
CRC-16 over its earlier words, which starts at FFFFh and takes each value most significant bit first under 1021h, each word
with even parity and its stop bit set. On the line a word is 20 bit times at the line rate: the start bit 0, the type, the
data bits most significant first, the parity bit and the stop bit. The words of an item are sent back to back, and a word
begins where the line, at 1 while undriven, falls to the start bit (R105, R106, R107, R108, R111, R113, R117, R161, R162,
R163). -/
def Obligations.FrameTraffic : Prop :=
  (∀ (f : Frame) (s : State), s.scan.state = .run → s.scan.line = .mark ∨ s.scan.line = .between →
    (s.scan.regA = .filled f → exec .frameStart s = .next (State.claimTransfer { s with
      scan := { s.scan with
        line := .frame, sent := frameWords f s.timer.count, regA := .inFlight f, regB := s.scan.regB.landed } })) ∧
      (s.scan.regA.isFilled = false → s.scan.regB = .filled f → exec .frameStart s = .next (State.claimTransfer { s with
        scan := { s.scan with
          line := .frame, sent := frameWords f s.timer.count, regA := s.scan.regA.landed, regB := .inFlight f } }))) ∧
    (∀ (f : Frame) (slots : List ReplySlot) (s : State), s.scan.state = .run → s.scan.line = .frame →
      s.scan.frameInFlight = some f →
      slots = (f.entries.filter fun e => !e.withdraw && decide (1 ≤ e.node ∧ e.node ≤ 62) && e.reply).map
        (fun e => ⟨e.slot, e.key, e.node, e.revision, .undecided⟩) →
      (slots = [] → exec .frameEnd s = .next { s with
        scan := { s.scan with line := .between, regA := s.scan.regA.landed, regB := s.scan.regB.landed } }) ∧
        (slots ≠ [] → exec .frameEnd s = .next { s with
          scan := { s.scan with line := .replyWindow }, reply := ⟨s.reply.slots ++ slots, []⟩ })) ∧
    (∀ s : State,
      (s.scan.state = .run → s.scan.regA = .free ∧ s.scan.regB.isFilled = false ∨
          s.scan.regB = .free ∧ s.scan.regA.isFilled = false →
        ∀ p, s.store.nextDue = some p → s.claimTransfer = s.claim (.transfer p)) ∧
      (s.scan.state ≠ .run ∨ s.scan.regA.isFilled = true ∨ s.scan.regB.isFilled = true ∨
          s.scan.regA ≠ .free ∧ s.scan.regB ≠ .free ∨ s.store.nextDue = none →
        s.claimTransfer = s)) ∧
    (∀ s : State, s.scan.line = .mark →
      (s.scan.state = .hold → exec .cycleMarkEnd s = .next { s with scan := { s.scan with line := .idle } }) ∧
        (s.scan.state = .run → exec .cycleMarkEnd s = .next { s with scan := { s.scan with line := .between } })) ∧
    (∀ (hold start : Bool) (invited : Nat) (index : BitVec 4) (count : Word), invited ≤ 62 →
      markWords hold start invited index count = closeItem
        [(true, 1#4 ++ BitVec.ofBool hold ++ BitVec.ofBool start ++ BitVec.ofNat 6 invited ++ index), (false, count)]) ∧
    (∀ e : Entry, e.node ≤ 63 → e.channel ≤ 15 → e.payload.length ≤ 8 →
      entryWords e =
        [(true, 3#4 ++ BitVec.ofNat 6 e.node ++ BitVec.ofNat 4 e.channel ++ BitVec.ofBool e.withdraw ++
            BitVec.ofBool e.reply),
          (false, e.key), (false, 0#4 ++ BitVec.ofNat 4 e.payload.length ++ e.revision)] ++
          e.payload.map fun w => (false, w)) ∧
    (∀ (f : Frame) (count : Word), f.page < 128 → f.entries.length ≤ 8 →
      frameWords f count = closeItem
        ([(true, 2#4 ++ BitVec.ofNat 7 f.page ++ BitVec.ofNat 4 f.entries.length ++ 0#1), (false, count)] ++
          f.entries.flatMap entryWords)) ∧
    (∀ w : LineWord,
      w.bits.length = 20 ∧ w.bits[0]? = some false ∧ w.bits[1]? = some w.lead ∧
        (∀ k, k < 16 → w.bits[2 + k]? = some (w.data.getLsbD (15 - k))) ∧ w.bits[18]? = some w.parity ∧
        w.bits[19]? = some w.stop ∧ (∀ bits, LineWord.ofBits bits = some w ↔ bits = w.bits) ∧
        (w.sound = true ↔ ((w.bits.drop 1).take 18).count true % 2 = 0 ∧ w.stop = true)) ∧
    (∀ s : State, s.lineBits = s.scan.sent.flatMap LineWord.bits) ∧
    (∀ (items : List (Nat × LineWord)) (tail : Nat),
      (∀ x ∈ items, x.2.stop = true) ∨ (∀ x ∈ items, 1 ≤ x.1) →
      hear (items.flatMap (fun x => List.replicate x.1 true ++ x.2.bits) ++ List.replicate tail true) =
        items.map Prod.snd) ∧
    (∀ rate : LineRate, 20 * rate.bitTime = 1000 * rate.wordTime) ∧
    [LineRate.mbit10, .mbit5, .mbit2_5].map LineRate.wordTime = [2, 4, 8] ∧
    (∀ words : List (Bool × Word),
      ((closeItem words).map fun w => (w.lead, w.data)) = words ++ [(false, crc16 (words.map Prod.snd))] ∧
        ∀ w ∈ closeItem words, w.stop = true ∧
          (w.lead.toNat + w.parity.toNat + (List.range 16).countP fun k => w.data.getLsbD k) % 2 = 0) ∧
    crc16 [] = 0xFFFF ∧
    ∀ (values : List Word) (v : Word), crc16 (values ++ [v]) = (List.range 16).foldl
      (fun (reg : Word) k => if reg.msb != v.getLsbD (15 - k) then (reg <<< 1) ^^^ 0x1021#16 else reg <<< 1) (crc16 values)

/-! ### Replies (chapter 7) -/

/-- Words received in a reply slot are taken by the Reply Unit, words received in the request allowance by the Demand
Server, and words received at any other time by no block; which command brings them makes no difference (log entry 15)
(R121, R137). -/
def Obligations.WordsAreTakenByTheOpenWindow : Prop :=
  ∀ (c : Instr) (words : List LineWord) (s : State),
    c = .replyArrival words ∨ c = .demandRequestArrival words ∨ (∃ w, words = [w] ∧ c = .strayLineWord w) →
    (s.scan.state = .run → s.scan.line = .replyWindow →
      exec c s = .next { s with reply := { s.reply with words := s.reply.words ++ words } }) ∧
      (s.scan.state = .run → s.scan.line = .demandWindow → s.demand.state = .listening →
        exec c s = .next { s with demand := { s.demand with words := s.demand.words ++ words } }) ∧
      (¬ (s.scan.state = .run ∧ s.scan.line = .replyWindow) →
        ¬ (s.scan.state = .run ∧ s.scan.line = .demandWindow ∧ s.demand.state = .listening) → exec c s = .next s)

/-- The expiry of the slot in progress judges it by Table 7-2: ABSENT for no word, VALID for exactly two sound continuation
words whose second is the CRC-16 over the slot's key and the first, INVALID otherwise; the window ends with its last slot;
the handling of the first slot of the list begins with its write-back claim, unless it is being handled (R121, R122). That
a handled slot has left the list is the model's choice (log entry 21). -/
def Obligations.SlotExpiryJudgesTheReply : Prop :=
  ∀ (handled rest : List ReplySlot) (x : ReplySlot) (s : State),
    s.scan.abort ≠ .afterSlot → s.scan.state = .run → s.scan.line = .replyWindow →
    s.reply.slots = handled ++ x :: rest → (∀ y ∈ handled, y.result ≠ .undecided) → x.result = .undecided →
    ∃ (result : ReplyResult) (front : ReplySlot) (u : State),
      (s.reply.words = [] → result = .absent) ∧
      (∀ value check, s.reply.words = [value, check] → value.sound = true → check.sound = true → value.lead = false →
        check.lead = false → check.data = crc16 [x.key, value.data] → result = .valid value.data) ∧
      (s.reply.words ≠ [] → (∀ value check, s.reply.words = [value, check] →
        ¬ (value.sound = true ∧ check.sound = true ∧ value.lead = false ∧ check.lead = false ∧
          check.data = crc16 [x.key, value.data])) → result = .invalid) ∧
      u = { s with
        reply := ⟨handled ++ { x with result := result } :: rest, []⟩
        scan := { s.scan with
          line := if rest.any (fun y => decide (y.result = .undecided)) then .replyWindow else .between } } ∧
      u.reply.slots.head? = some front ∧
      exec .replySlotExpiry s = .next (if u.arbiter.outstanding 1 then u else u.claim (.writeBack front))

/-- An echo write-back stores the result in the echo of the LIVE record that holds the named key and has reply requested, by
Table 7-3, and drops it for a LIVE record of another key or without reply requested, which has no echo, and for any other
slot; damage found is recorded, whatever key the slot holds (log entry 19); no other slot changes (R5, R12, R17, R123, R124,
R125). -/
def Obligations.EchoIsWrittenToTheNamedLiveRecord : Prop :=
  ∀ (item : ReplySlot) (st : Store),
    (∀ j, j ≠ item.slot → (st.writeEcho item).slotAt j = st.slotAt j) ∧
      (st.writeEcho item).directory = st.directory ∧
      ((∀ r m g, st.found item.slot ≠ .live r m g) → (st.writeEcho item).slotAt item.slot = st.found item.slot) ∧
      (∀ r m g, st.found item.slot = .live r m g →
        st.keyAt item.slot ≠ some item.key ∨ r.replyRequested = false → st.writeEcho item = st) ∧
      ∀ r m g e, st.found item.slot = .live r m g → r.echo = some e →
        ((st.keyAt item.slot ≠ some item.key ∨ r.replyRequested = false) → st.writeEcho item = st) ∧
        (st.keyAt item.slot = some item.key → r.replyRequested = true →
          (∀ v, item.result = .valid v → (st.writeEcho item).slotAt item.slot = .live { r with
            echo := some ⟨.fresh, some ⟨v, item.revision⟩⟩
            echoChanged :=
              if e.held.map EchoHeld.value = some v then r.echoChanged else r.echoChanged.map fun _ => true } m g) ∧
          (item.result = .absent ∨ item.result = .invalid →
            (st.writeEcho item).slotAt item.slot = .live { r with echo := some { e with state := .stale } } m g))

/-- The handling of a slot result: the write-back access, then the report to the Node Table by Table 7-5, then the next
slot, whose write-back claim is placed once the slot is judged and not before; when the last slot of an ended window has
been handled, the register IN FLIGHT is FREE (R113, R122, R128, R129). That a handled slot leaves the list (log entry 21)
and that the claim of a next slot already judged is placed before the table is granted on (log entry 24) are the model's
choices. -/
def Obligations.WriteBackReportsTheNode : Prop :=
  (∀ (item : ReplySlot) (s : State), s.arbiter.inProgress = some (.writeBack item) →
    ∃ u : State, exec .echoWriteBack s = .next u.claimWriteBack.release ∧
      u.store = s.store.writeEcho item ∧ u.reply.slots = s.reply.slots.drop 1 ∧
      u.nodes.at item.node = (s.nodes.at item.node).afterReply s.port.config.misses item.result ∧
      (∀ n, n ≠ item.node → u.nodes.at n = s.nodes.at n) ∧ u.nodes.pointer = s.nodes.pointer ∧
      (u.reply.slots = [] → s.scan.line = .between → u.scan = s.scan.landFrame) ∧
      (u.reply.slots ≠ [] ∨ s.scan.line ≠ .between → u.scan = s.scan) ∧ u.demand = s.demand ∧
      u.arbiter = s.arbiter ∧ u.port = s.port ∧ u.timer = s.timer ∧ u.batch = s.batch ∧ u.notices = s.notices) ∧
    (∀ s : State,
      (∀ x rest, s.reply.slots = x :: rest → x.result ≠ .undecided → s.claimWriteBack = s.claim (.writeBack x)) ∧
        (∀ x rest, s.reply.slots = x :: rest → x.result = .undecided → s.claimWriteBack = s) ∧
        (s.reply.slots = [] → s.claimWriteBack = s)) ∧
    ∀ (r : NodeRecord) (m : Nat),
      (∀ v, r.afterReply m (.valid v) = { r with presence := .present, misses := 0 }) ∧
        (r.misses < 15 → r.misses + 1 = m →
          r.afterReply m .absent = { r with presence := .silent, misses := r.misses + 1 }) ∧
        (r.misses < 15 → r.misses + 1 ≠ m → r.afterReply m .absent = { r with misses := r.misses + 1 }) ∧
        (15 ≤ r.misses → r.afterReply m .absent = r) ∧
        r.afterReply m .invalid =
          { r.afterReply m .absent with errors := if r.errors < 255 then r.errors + 1 else 255 }

/-! ### The demand window (chapter 8) -/

/-- The demand window opens when the pages of the cycle have been carried, LISTENING with an invited node and in SILENT
WINDOW without one. The answer is sent at the start of the answer allowance, at once as not-found for a key that can name
no record, and after its last word the window is silent. The window ends from SILENT WINDOW with the Demand Server CLOSED
and the line idle. That the opening lands a register still in flight (log entry 11) and follows from the place between two
items (log entry 14) is the model's reading. An entry answer, a withdrawal answer and a not-found answer carry the words of
Table 11-3, closed by their CRC-16; those of the worked answer are as Table 11-11 gives (R107, R137, R138, R139, R140,
R162, R163). -/
def Obligations.DemandWindowOpensAnswersAndEnds : Prop :=
  (∀ s : State, s.scan.state = .run → s.scan.line = .mark ∨ s.scan.line = .between →
    s.arbiter.outstanding 0 = false → s.arbiter.outstanding 2 = false → s.arbiter.outstanding 3 = false →
    (∀ e ∈ s.store.due, e.transferred = true) → s.scan.regA.isFilled = false → s.scan.regB.isFilled = false →
    exec .demandWindowOpen s = .next { s with
      scan := { s.scan with line := .demandWindow, regA := s.scan.regA.landed, regB := s.scan.regB.landed }
      demand := ⟨if s.demand.invited = 0 then .silentWindow else .listening, s.demand.invited, none, [], none⟩ }) ∧
    (∀ (a : Answer) (s : State), s.scan.state = .run → s.demand.state = .looking → s.demand.answer = some a →
      exec .answerAllowanceStart s = .next { s with
        demand := { s.demand with state := .answering }
        scan := { s.scan with sent := answerWords a s.demand.invited s.timer.index } }) ∧
    (∀ (key : Word) (s : State), s.scan.state = .run → s.demand.state = .looking → s.demand.answer = none →
      s.demand.key = some key → key = 0 ∨ key = 0xFFFF →
      exec .answerAllowanceStart s = .next { s with
        demand := { s.demand with state := .answering, answer := some (.notFound key) }
        scan := { s.scan with sent := answerWords (.notFound key) s.demand.invited s.timer.index } }) ∧
    (∀ s : State, s.scan.state = .run → s.demand.state = .answering →
      exec .answerSent s = .next { s with demand := { s.demand with state := .silentWindow, answer := none } }) ∧
    (∀ s : State, s.scan.state = .run → s.scan.line = .demandWindow → s.demand.state = .silentWindow →
      exec .demandWindowEnd s = .next { s with
        scan := { s.scan with line := .idle }, demand := ⟨.closed, 0, none, [], none⟩ }) ∧
    (∀ (invited : Nat) (index : BitVec 4) (kind : BitVec 2 → Word), invited ≤ 62 →
      kind = (fun k => 5#4 ++ k ++ BitVec.ofNat 6 invited ++ index) →
      (∀ e, answerWords (.entry e) invited index = closeItem ((true, kind 0) :: entryWords e)) ∧
        (∀ e, answerWords (.withdrawal e) invited index = closeItem ((true, kind 1) :: entryWords e)) ∧
        ∀ key, answerWords (.notFound key) invited index = closeItem [(true, kind 2), (false, key)]) ∧
    ((answerWords (.entry ⟨16, 300, 9, 3, 4, false, true, [0x0010, 0x0220]⟩) 20 1).take 6).map
        (fun w => (w.lead, w.data)) =
      [(true, 0x5141), (true, 0x324D), (false, 0x012C), (false, 0x0204), (false, 0x0010), (false, 0x0220)]

/-- At the end of the request allowance the words are judged by Table 8-2: VALID is reported and, for a key from 1 to 65534,
places the lookup claim; BAD raises the check errors of the invited node; NO REQUEST and FOREIGN change no node; none moves
the round-robin pointer; after all but VALID the window is silent (R130, R135, R137, R138). -/
def Obligations.AllowanceEndJudgesTheRequest : Prop :=
  ∀ s : State, s.scan.abort ≠ .afterAllowance → s.scan.state = .run → s.demand.state = .listening →
    (s.demand.words = [] → exec .requestAllowanceEnd s =
      .next { s with demand := { s.demand with state := .silentWindow, words := [] } }) ∧
      ∀ first rest, s.demand.words = first :: rest →
        (¬ (first.sound = true ∧ first.lead = true ∧ first.code = 4 ∧ first.requester.toNat = s.demand.invited) →
          exec .requestAllowanceEnd s =
            .next { s with demand := { s.demand with state := .silentWindow, words := [] } }) ∧
        (first.sound = true → first.lead = true → first.code = 4 → first.requester.toNat = s.demand.invited →
          (∀ key check, rest = [key, check] → key.sound = true → check.sound = true → key.lead = false →
            check.lead = false → check.data = crc16 [first.data, key.data] →
            ∃ u : State,
              u = { s with
                nodes := u.nodes
                demand := { s.demand with state := .looking, key := some key.data, words := [] } } ∧
              u.nodes.at s.demand.invited =
                (if (s.nodes.at s.demand.invited).misses < s.port.config.misses then
                  { s.nodes.at s.demand.invited with presence := .present }
                else s.nodes.at s.demand.invited) ∧
              (∀ n, n ≠ s.demand.invited → u.nodes.at n = s.nodes.at n) ∧ u.nodes.pointer = s.nodes.pointer ∧
              exec .requestAllowanceEnd s =
                .next (if key.data ≠ 0 ∧ key.data ≠ 0xFFFF then u.claim (.lookup key.data) else u)) ∧
          ((∀ key check, rest = [key, check] → ¬ (key.sound = true ∧ check.sound = true ∧ key.lead = false ∧
            check.lead = false ∧ check.data = crc16 [first.data, key.data])) →
            ∃ u : State, exec .requestAllowanceEnd s = .next u ∧
              u = { s with
                nodes := u.nodes, demand := { s.demand with state := .silentWindow, words := [] } } ∧
              u.nodes.at s.demand.invited = { s.nodes.at s.demand.invited with
                errors := if (s.nodes.at s.demand.invited).errors < 255
                  then (s.nodes.at s.demand.invited).errors + 1 else 255 } ∧
              u.nodes.pointer = s.nodes.pointer ∧ ∀ n, n ≠ s.demand.invited → u.nodes.at n = s.nodes.at n))

/-- A demand lookup answers from the table as it stands: an entry answer for a LIVE record, a withdrawal answer for a
WITHDRAWING one, not-found otherwise; it changes nothing but the damage found and a RESERVED slot restored; once the window
has ended, its answer is dropped and what it recorded stands (R16, R19, R139, R142). -/
def Obligations.LookupChoosesTheAnswer : Prop :=
  (∀ (key : Word) (s : State), s.arbiter.inProgress = some (.lookup key) → s.demand.state = .looking →
    (s.store.slotOfKey key = none → exec .demandLookup s = .next (State.release { s with
      demand := { s.demand with answer := some (.notFound key) } })) ∧
      ∀ i, s.store.slotOfKey key = some i →
        ∃ (st : Store) (a : Answer), st = s.store.verifyAny s.batch.entries i ∧
          exec .demandLookup s = .next (State.release { s with
            store := st, demand := { s.demand with answer := some a } }) ∧
          (∀ r m g, st.slotAt i = .live r m g →
            a = .entry ⟨i, r.key, r.node, r.channel, r.revision, false, r.replyRequested, r.payload⟩) ∧
          (∀ r c n, st.slotAt i = .withdrawing r c n →
            a = .withdrawal ⟨i, r.key, r.node, r.channel, r.revision, true, false, []⟩) ∧
          ((∀ r m g, st.slotAt i ≠ .live r m g) → (∀ r c n, st.slotAt i ≠ .withdrawing r c n) →
            a = .notFound key)) ∧
    ∀ (key : Word) (s : State), s.arbiter.inProgress = some (.lookup key) → s.demand.state ≠ .looking →
      (s.store.slotOfKey key = none → exec .demandLookup s = .next s.release) ∧
        ∀ i, s.store.slotOfKey key = some i →
          exec .demandLookup s = .next (State.release { s with store := s.store.verifyAny s.batch.entries i })

/-! ### Line faults and upsets -/

/-- A mismatch on a word that is read back: FAULT, the pending request kept, both registers FREE, the line undriven without
an abort word, the reply slot list discarded, the Demand Server CLOSED, the waiting claims of the line withdrawn, and the
LINE_FAULT flag set with the cycle count, or its repeated mark; nothing else changes (R19, R98, R115, R118, R145). -/
def Obligations.MismatchStopsTheLine : Prop :=
  ∀ s : State,
    ((s.scan.state = .run ∨ s.scan.state = .hold) ∧
      (s.scan.line = .mark ∨ s.scan.line = .frame ∨ (s.scan.line = .demandWindow ∧ s.demand.state = .answering)) →
      exec .readbackMismatch s = .next { s with
        scan := { s.scan with state := .fault, regA := .free, regB := .free, line := .idle }
        reply := ⟨[], []⟩, demand := ⟨.closed, 0, none, [], none⟩
        arbiter := { s.arbiter with waiting := s.arbiter.waiting.filter fun c => !c.ofLine }
        notices := { s.notices with
          fault := match s.notices.fault with
            | none => some ⟨s.timer.count, false⟩
            | some old => some ⟨old.cycle, true⟩ } }) ∧
      (s.scan.state = .stopped ∨ s.scan.state = .fault → exec .readbackMismatch s = .next s)

/-- A storage upset changes no recorded state, and the next verifying read of a LIVE, WITHDRAWING or LAPSED slot finds it
and makes the slot DAMAGED, with its key kept and every other slot as it was, while a RESERVED slot is restored from its
staged copy. Damage found, like every change of a slot's state, reaches the slot's page in the same access: where the page
is not OPEN after it, the page's untransferred entry is struck from the due list, and a page that closes loses class, phase
and load and keeps its last transfer (R1, R6, R11, R15, R16, R26, R28, R29, R30, R43; that an upset always fails the check
and leaves the recorded state is the model's choice, log entry 8). -/
def Obligations.UpsetIsFoundAtTheNextRead : Prop :=
  (∀ (i : Nat) (s : State), ∃ st : Store, exec (.storageUpset i) s = .next { s with store := st } ∧
    (∀ j, st.slotAt j = s.store.slotAt j) ∧ (∀ j, j ≠ i → st.cellAt j = s.store.cellAt j) ∧
    st.directory = s.store.directory ∧ st.pages = s.store.pages ∧ st.loads = s.store.loads ∧ st.due = s.store.due ∧
    ((s.store.slotAt i).record?.isSome = true → (st.cellAt i).upset = true)) ∧
    (∀ (st : Store) (i : Nat) (v : Slot),
      (∀ j, (st.changeSlot i v).slotAt j = if j = i then v else st.slotAt j) ∧
        (v = .free → (st.changeSlot i v).directory = st.directory.filter fun e => decide (e.2 ≠ i)) ∧
        (v ≠ .free → (st.changeSlot i v).directory = st.directory) ∧ st.Replanned (st.changeSlot i v) (i / 8)) ∧
    ∀ (st : Store) (i : Nat) (entries : List BatchEntry),
      (∀ j, j ≠ i → (st.verifyAny entries i).slotAt j = st.slotAt j) ∧
        (st.verifyAny entries i).directory = st.directory ∧
        ((st.cellAt i).upset = true →
          (∀ r m g, st.slotAt i = .live r m g → (st.verifyAny entries i).slotAt i = .damaged false) ∧
          (∀ r c n, st.slotAt i = .withdrawing r c n → (st.verifyAny entries i).slotAt i = .damaged false) ∧
          (∀ r, st.slotAt i = .lapsed r → (st.verifyAny entries i).slotAt i = .damaged false) ∧
          ∀ r, st.slotAt i = .reserved r →
            (st.verifyAny entries i).slotAt i = .reserved (stagedCopy entries i r) ∧
              (st.verifyAny entries i).pages = st.pages ∧ (st.verifyAny entries i).loads = st.loads ∧
              (st.verifyAny entries i).due = st.due) ∧
        (st.found i ≠ st.slotAt i → st.Replanned (st.verifyAny entries i) (i / 8)) ∧
        ((st.cellAt i).upset = false → st.verifyAny entries i = st) ∧
        ((∀ r, st.slotAt i ≠ .reserved r) → st.verify i = st.verifyAny entries i) ∧
        ∀ r, st.slotAt i = .reserved r → st.verify i = st

/-! ### Laws that every step keeps -/

/-- Every step keeps the numbered tables in their canonical form. -/
def Obligations.TablesStayCanonical : Prop :=
  ∀ s t : State, s.canonical → step s = .next t → t.canonical

/-- Every step keeps the Key Directory exact: one entry for each non-FREE slot and no other, no two slots with one key
(R13). Every step keeps the records lawful under it: the key of a record is that of its directory entry and lies in 1 to
65534 (R13), every field is in the range of Table 1-2, an echo is present exactly with reply requested and an echo changed
flag with notify on change (R2, R5), and the lease remaining of a LIVE record lies between 1 and its lease length (R66).
Every step keeps the withdrawal count of a WITHDRAWING record between 1 and W, and W, also that of a CONFIGURE that waits,
at least 1 (R73, R160). -/
def Obligations.DirectoryStaysExact : Prop :=
  (∀ s t : State, s.store.Occupied → step s = .next t → t.store.Occupied) ∧
    (∀ s t : State, s.store.Occupied → s.batch.Bounded → s.Recorded → s.Staged → step s = .next t → t.Recorded) ∧
    ∀ s t : State, s.AtRest → s.Counted → step s = .next t → t.Counted

/-- Every step keeps class and phase with the OPENING and OPEN pages, and every load counter equal to the number of OPENING
or OPEN pages whose phase equals its index modulo their period (R24, R26, R30). Every step keeps every load counter, and the
number of entries of the due list, at or below F (R30, R33, R35, R40). Every step keeps the class condition, that every
RESERVED, LIVE or WITHDRAWING slot of a page holds a record of the page's class (R26), and every untransferred entry of the
due list at a page that is OPEN (R40, R43). -/
def Obligations.LoadCountersStayExact : Prop :=
  (∀ s t : State, s.store.Planned → step s = .next t → t.store.Planned) ∧
    (∀ s t : State, (∀ i, s.store.load i ≤ s.port.config.frames) → step s = .next t →
      ∀ i, t.store.load i ≤ t.port.config.frames) ∧
    (∀ s t : State, s.store.Planned → s.AtRest → s.Budgeted → step s = .next t → t.Budgeted) ∧
    (∀ s t : State, s.Staged → s.store.Classed → step s = .next t → t.store.Classed) ∧
    ∀ s t : State, s.store.Struck → step s = .next t → t.store.Struck

/-- Every step keeps a node in PRESENT below M consecutive misses (R127). -/
def Obligations.PresentNodesStayBelowTheThreshold : Prop :=
  ∀ s t : State, s.Presence → step s = .next t → t.Presence

/-- Every step keeps the cycle index equal to the cycle count mod 16, the timer running in RUN, HOLD and FAULT, and no
request pending while STOPPED (R36, R37, R98). -/
def Obligations.TimerAndRequestStayInStep : Prop :=
  ∀ s t : State, s.timer.inStep → s.timed → s.quiet → step s = .next t → t.timer.inStep ∧ t.timed ∧ t.quiet

/-- Every step keeps at most one frame register FILLED and at most one IN FLIGHT, and the batch within 32 entries of distinct
keys, empty while NONE (R80, R111); the RESERVED slots equal in number to the INSERT entries of the batch, each holding the
staged copy of its entry (R79, R80); and outside the access of STOP SCAN, while the scan is STOPPED, no SEALED batch (R79),
no WITHDRAWING record (R73), no claim of a boundary and an empty due list (R46, R78, R92). How the host's claim stands with
the port meanwhile is the model's reading (log entries 4 and 5). -/
def Obligations.RegistersAndBatchStayBounded : Prop :=
  (∀ s t : State, s.Registers → s.batch.Bounded → step s = .next t → t.Registers ∧ t.batch.Bounded) ∧
    (∀ s t : State, s.store.Occupied → s.batch.Bounded → s.Recorded → s.Staged → step s = .next t → t.Staged) ∧
    ∀ s t : State, s.store.Occupied → s.timed → s.Hosted → s.AtRest → step s = .next t →
      t.Hosted ∧ t.AtRest

/-- The laws hold right after power-on. -/
def Obligations.LawsHoldAtReset : Prop :=
  State.reset.canonical ∧ State.reset.store.Occupied ∧ State.reset.store.Planned ∧ State.reset.Presence ∧
    State.reset.timer.inStep ∧ State.reset.timed ∧ State.reset.quiet ∧ State.reset.Registers ∧
    State.reset.batch.Bounded ∧ State.reset.Recorded ∧ State.reset.Staged ∧ State.reset.Budgeted ∧ State.reset.Hosted ∧
    State.reset.AtRest ∧ State.reset.Counted ∧ State.reset.store.Classed ∧ State.reset.store.Struck
end

