-- ==== Sys2Proof/Laws/State.lean ====
section
/-! SUPPORT. One lemma for each field that an update of the state leaves unchanged. -/

namespace Sys2Proof.Machine

@[simp] theorem State.complete_arbiter (s : State) (status : Status) (data : List Byte) :
    (s.complete status data).arbiter = s.arbiter := rfl

@[simp] theorem State.complete_store (s : State) (status : Status) (data : List Byte) :
    (s.complete status data).store = s.store := rfl

@[simp] theorem State.complete_timer (s : State) (status : Status) (data : List Byte) :
    (s.complete status data).timer = s.timer := rfl

@[simp] theorem State.complete_batch (s : State) (status : Status) (data : List Byte) :
    (s.complete status data).batch = s.batch := rfl

@[simp] theorem State.complete_scan (s : State) (status : Status) (data : List Byte) :
    (s.complete status data).scan = s.scan := rfl

@[simp] theorem State.complete_reply (s : State) (status : Status) (data : List Byte) :
    (s.complete status data).reply = s.reply := rfl

@[simp] theorem State.complete_nodes (s : State) (status : Status) (data : List Byte) :
    (s.complete status data).nodes = s.nodes := rfl

@[simp] theorem State.complete_demand (s : State) (status : Status) (data : List Byte) :
    (s.complete status data).demand = s.demand := rfl

@[simp] theorem State.complete_notices (s : State) (status : Status) (data : List Byte) :
    (s.complete status data).notices = s.notices := rfl

@[simp] theorem State.complete_pending (s : State) (status : Status) (data : List Byte) :
    (s.complete status data).pending = s.pending := rfl

@[simp] theorem State.completeReset_arbiter (s : State) :
    (s.completeReset).arbiter = s.arbiter := rfl

@[simp] theorem State.completeReset_store (s : State) :
    (s.completeReset).store = s.store := rfl

@[simp] theorem State.completeReset_timer (s : State) :
    (s.completeReset).timer = s.timer := rfl

@[simp] theorem State.completeReset_batch (s : State) :
    (s.completeReset).batch = s.batch := rfl

@[simp] theorem State.completeReset_scan (s : State) :
    (s.completeReset).scan = s.scan := rfl

@[simp] theorem State.completeReset_reply (s : State) :
    (s.completeReset).reply = s.reply := rfl

@[simp] theorem State.completeReset_nodes (s : State) :
    (s.completeReset).nodes = s.nodes := rfl

@[simp] theorem State.completeReset_demand (s : State) :
    (s.completeReset).demand = s.demand := rfl

@[simp] theorem State.completeReset_notices (s : State) :
    (s.completeReset).notices = s.notices := rfl

@[simp] theorem State.completeReset_pending (s : State) :
    (s.completeReset).pending = s.pending := rfl

@[simp] theorem State.returning_arbiter (s : State) (bytes : List Byte) :
    (s.returning bytes).arbiter = s.arbiter := rfl

@[simp] theorem State.returning_store (s : State) (bytes : List Byte) :
    (s.returning bytes).store = s.store := rfl

@[simp] theorem State.returning_timer (s : State) (bytes : List Byte) :
    (s.returning bytes).timer = s.timer := rfl

@[simp] theorem State.returning_batch (s : State) (bytes : List Byte) :
    (s.returning bytes).batch = s.batch := rfl

@[simp] theorem State.returning_scan (s : State) (bytes : List Byte) :
    (s.returning bytes).scan = s.scan := rfl

@[simp] theorem State.returning_reply (s : State) (bytes : List Byte) :
    (s.returning bytes).reply = s.reply := rfl

@[simp] theorem State.returning_nodes (s : State) (bytes : List Byte) :
    (s.returning bytes).nodes = s.nodes := rfl

@[simp] theorem State.returning_demand (s : State) (bytes : List Byte) :
    (s.returning bytes).demand = s.demand := rfl

@[simp] theorem State.returning_notices (s : State) (bytes : List Byte) :
    (s.returning bytes).notices = s.notices := rfl

@[simp] theorem State.returning_pending (s : State) (bytes : List Byte) :
    (s.returning bytes).pending = s.pending := rfl

@[simp] theorem State.resetTo_pending (s : State) (port : HostPort) :
    (s.resetTo port).pending = s.pending := rfl

@[simp] theorem State.sendAbort_port (s : State) :
    (s.sendAbort).port = s.port := rfl

@[simp] theorem State.sendAbort_arbiter (s : State) :
    (s.sendAbort).arbiter = s.arbiter := rfl

@[simp] theorem State.sendAbort_store (s : State) :
    (s.sendAbort).store = s.store := rfl

@[simp] theorem State.sendAbort_timer (s : State) :
    (s.sendAbort).timer = s.timer := rfl

@[simp] theorem State.sendAbort_batch (s : State) :
    (s.sendAbort).batch = s.batch := rfl

@[simp] theorem State.sendAbort_reply (s : State) :
    (s.sendAbort).reply = s.reply := rfl

@[simp] theorem State.sendAbort_nodes (s : State) :
    (s.sendAbort).nodes = s.nodes := rfl

@[simp] theorem State.sendAbort_notices (s : State) :
    (s.sendAbort).notices = s.notices := rfl

@[simp] theorem State.sendAbort_pending (s : State) :
    (s.sendAbort).pending = s.pending := rfl

@[simp] theorem State.endQuietly_port (s : State) :
    (s.endQuietly).port = s.port := rfl

@[simp] theorem State.endQuietly_arbiter (s : State) :
    (s.endQuietly).arbiter = s.arbiter := rfl

@[simp] theorem State.endQuietly_store (s : State) :
    (s.endQuietly).store = s.store := rfl

@[simp] theorem State.endQuietly_timer (s : State) :
    (s.endQuietly).timer = s.timer := rfl

@[simp] theorem State.endQuietly_batch (s : State) :
    (s.endQuietly).batch = s.batch := rfl

@[simp] theorem State.endQuietly_reply (s : State) :
    (s.endQuietly).reply = s.reply := rfl

@[simp] theorem State.endQuietly_nodes (s : State) :
    (s.endQuietly).nodes = s.nodes := rfl

@[simp] theorem State.endQuietly_notices (s : State) :
    (s.endQuietly).notices = s.notices := rfl

@[simp] theorem State.endQuietly_pending (s : State) :
    (s.endQuietly).pending = s.pending := rfl

@[simp] theorem State.abandonTraffic_port (s : State) :
    (s.abandonTraffic).port = s.port := rfl

@[simp] theorem State.abandonTraffic_store (s : State) :
    (s.abandonTraffic).store = s.store := rfl

@[simp] theorem State.abandonTraffic_timer (s : State) :
    (s.abandonTraffic).timer = s.timer := rfl

@[simp] theorem State.abandonTraffic_batch (s : State) :
    (s.abandonTraffic).batch = s.batch := rfl

@[simp] theorem State.abandonTraffic_nodes (s : State) :
    (s.abandonTraffic).nodes = s.nodes := rfl

@[simp] theorem State.abandonTraffic_notices (s : State) :
    (s.abandonTraffic).notices = s.notices := rfl

@[simp] theorem State.abandonTraffic_pending (s : State) :
    (s.abandonTraffic).pending = s.pending := rfl

@[simp] theorem State.setConfiguration_arbiter (s : State) (c : Configuration) :
    (s.setConfiguration c).arbiter = s.arbiter := rfl

@[simp] theorem State.setConfiguration_store (s : State) (c : Configuration) :
    (s.setConfiguration c).store = s.store := rfl

@[simp] theorem State.setConfiguration_timer (s : State) (c : Configuration) :
    (s.setConfiguration c).timer = s.timer := rfl

@[simp] theorem State.setConfiguration_batch (s : State) (c : Configuration) :
    (s.setConfiguration c).batch = s.batch := rfl

@[simp] theorem State.setConfiguration_scan (s : State) (c : Configuration) :
    (s.setConfiguration c).scan = s.scan := rfl

@[simp] theorem State.setConfiguration_reply (s : State) (c : Configuration) :
    (s.setConfiguration c).reply = s.reply := rfl

@[simp] theorem State.setConfiguration_demand (s : State) (c : Configuration) :
    (s.setConfiguration c).demand = s.demand := rfl

@[simp] theorem State.setConfiguration_notices (s : State) (c : Configuration) :
    (s.setConfiguration c).notices = s.notices := rfl

@[simp] theorem State.setConfiguration_pending (s : State) (c : Configuration) :
    (s.setConfiguration c).pending = s.pending := rfl

@[simp] theorem State.startClear_scan (s : State) :
    (s.startClear).scan = s.scan := rfl

@[simp] theorem State.startClear_pending (s : State) :
    (s.startClear).pending = s.pending := rfl

@[simp] theorem State.applyBatch_port (s : State) :
    (s.applyBatch).port = s.port := rfl

@[simp] theorem State.applyBatch_arbiter (s : State) :
    (s.applyBatch).arbiter = s.arbiter := rfl

@[simp] theorem State.applyBatch_timer (s : State) :
    (s.applyBatch).timer = s.timer := rfl

@[simp] theorem State.applyBatch_scan (s : State) :
    (s.applyBatch).scan = s.scan := rfl

@[simp] theorem State.applyBatch_reply (s : State) :
    (s.applyBatch).reply = s.reply := rfl

@[simp] theorem State.applyBatch_nodes (s : State) :
    (s.applyBatch).nodes = s.nodes := rfl

@[simp] theorem State.applyBatch_demand (s : State) :
    (s.applyBatch).demand = s.demand := rfl

@[simp] theorem State.applyBatch_pending (s : State) :
    (s.applyBatch).pending = s.pending := rfl

@[simp] theorem State.silenceWindow_port (s : State) :
    (s.silenceWindow).port = s.port := rfl

@[simp] theorem State.silenceWindow_arbiter (s : State) :
    (s.silenceWindow).arbiter = s.arbiter := rfl

@[simp] theorem State.silenceWindow_store (s : State) :
    (s.silenceWindow).store = s.store := rfl

@[simp] theorem State.silenceWindow_timer (s : State) :
    (s.silenceWindow).timer = s.timer := rfl

@[simp] theorem State.silenceWindow_batch (s : State) :
    (s.silenceWindow).batch = s.batch := rfl

@[simp] theorem State.silenceWindow_scan (s : State) :
    (s.silenceWindow).scan = s.scan := rfl

@[simp] theorem State.silenceWindow_reply (s : State) :
    (s.silenceWindow).reply = s.reply := rfl

@[simp] theorem State.silenceWindow_nodes (s : State) :
    (s.silenceWindow).nodes = s.nodes := rfl

@[simp] theorem State.silenceWindow_notices (s : State) :
    (s.silenceWindow).notices = s.notices := rfl

@[simp] theorem State.silenceWindow_pending (s : State) :
    (s.silenceWindow).pending = s.pending := rfl

@[simp] theorem State.chargeDemand_port (s : State) :
    (s.chargeDemand).port = s.port := rfl

@[simp] theorem State.chargeDemand_arbiter (s : State) :
    (s.chargeDemand).arbiter = s.arbiter := rfl

@[simp] theorem State.chargeDemand_store (s : State) :
    (s.chargeDemand).store = s.store := rfl

@[simp] theorem State.chargeDemand_timer (s : State) :
    (s.chargeDemand).timer = s.timer := rfl

@[simp] theorem State.chargeDemand_batch (s : State) :
    (s.chargeDemand).batch = s.batch := rfl

@[simp] theorem State.chargeDemand_scan (s : State) :
    (s.chargeDemand).scan = s.scan := rfl

@[simp] theorem State.chargeDemand_reply (s : State) :
    (s.chargeDemand).reply = s.reply := rfl

@[simp] theorem State.chargeDemand_demand (s : State) :
    (s.chargeDemand).demand = s.demand := rfl

@[simp] theorem State.chargeDemand_notices (s : State) :
    (s.chargeDemand).notices = s.notices := rfl

@[simp] theorem State.chargeDemand_pending (s : State) :
    (s.chargeDemand).pending = s.pending := rfl

@[simp] theorem State.stopAtGrant_port (s : State) :
    (s.stopAtGrant).port = s.port := by
  unfold State.stopAtGrant
  split <;> try rfl
  cases s.abortDue <;> rfl

@[simp] theorem State.stopAtGrant_store (s : State) :
    (s.stopAtGrant).store = s.store := by
  unfold State.stopAtGrant
  split <;> try rfl
  cases s.abortDue <;> rfl

@[simp] theorem State.stopAtGrant_timer (s : State) :
    (s.stopAtGrant).timer = s.timer := by
  unfold State.stopAtGrant
  split <;> try rfl
  cases s.abortDue <;> rfl

@[simp] theorem State.stopAtGrant_batch (s : State) :
    (s.stopAtGrant).batch = s.batch := by
  unfold State.stopAtGrant
  split <;> try rfl
  cases s.abortDue <;> rfl

@[simp] theorem State.stopAtGrant_nodes (s : State) :
    (s.stopAtGrant).nodes = s.nodes := by
  unfold State.stopAtGrant
  split <;> try rfl
  cases s.abortDue <;> rfl

@[simp] theorem State.stopAtGrant_notices (s : State) :
    (s.stopAtGrant).notices = s.notices := by
  unfold State.stopAtGrant
  split <;> try rfl
  cases s.abortDue <;> rfl

@[simp] theorem State.stopAtGrant_pending (s : State) :
    (s.stopAtGrant).pending = s.pending := by
  unfold State.stopAtGrant
  split <;> try rfl
  cases s.abortDue <;> rfl

@[simp] theorem State.afterGrant_port (s : State) :
    (s.afterGrant).port = s.port := by
  unfold State.afterGrant
  split <;> simp

@[simp] theorem State.afterGrant_store (s : State) :
    (s.afterGrant).store = s.store := by
  unfold State.afterGrant
  split <;> simp

@[simp] theorem State.afterGrant_timer (s : State) :
    (s.afterGrant).timer = s.timer := by
  unfold State.afterGrant
  split <;> simp

@[simp] theorem State.afterGrant_batch (s : State) :
    (s.afterGrant).batch = s.batch := by
  unfold State.afterGrant
  split <;> simp

@[simp] theorem State.afterGrant_nodes (s : State) :
    (s.afterGrant).nodes = s.nodes := by
  unfold State.afterGrant
  split <;> simp

@[simp] theorem State.afterGrant_notices (s : State) :
    (s.afterGrant).notices = s.notices := by
  unfold State.afterGrant
  split <;> simp

@[simp] theorem State.afterGrant_pending (s : State) :
    (s.afterGrant).pending = s.pending := by
  unfold State.afterGrant
  split <;> simp

@[simp] theorem State.claim_port (s : State) (c : Claim) :
    (s.claim c).port = s.port := by
  unfold State.claim
  repeat' split
  all_goals simp

@[simp] theorem State.claim_store (s : State) (c : Claim) :
    (s.claim c).store = s.store := by
  unfold State.claim
  repeat' split
  all_goals simp

@[simp] theorem State.claim_timer (s : State) (c : Claim) :
    (s.claim c).timer = s.timer := by
  unfold State.claim
  repeat' split
  all_goals simp

@[simp] theorem State.claim_batch (s : State) (c : Claim) :
    (s.claim c).batch = s.batch := by
  unfold State.claim
  repeat' split
  all_goals simp

@[simp] theorem State.claim_nodes (s : State) (c : Claim) :
    (s.claim c).nodes = s.nodes := by
  unfold State.claim
  repeat' split
  all_goals simp

@[simp] theorem State.claim_notices (s : State) (c : Claim) :
    (s.claim c).notices = s.notices := by
  unfold State.claim
  repeat' split
  all_goals simp

@[simp] theorem State.claim_pending (s : State) (c : Claim) :
    (s.claim c).pending = s.pending := by
  unfold State.claim
  repeat' split
  all_goals simp

@[simp] theorem State.release_port (s : State) :
    (s.release).port = s.port := by simp [State.release]

@[simp] theorem State.release_store (s : State) :
    (s.release).store = s.store := by simp [State.release]

@[simp] theorem State.release_timer (s : State) :
    (s.release).timer = s.timer := by simp [State.release]

@[simp] theorem State.release_batch (s : State) :
    (s.release).batch = s.batch := by simp [State.release]

@[simp] theorem State.release_nodes (s : State) :
    (s.release).nodes = s.nodes := by simp [State.release]

@[simp] theorem State.release_notices (s : State) :
    (s.release).notices = s.notices := by simp [State.release]

@[simp] theorem State.release_pending (s : State) :
    (s.release).pending = s.pending := by simp [State.release]

@[simp] theorem State.claimTransfer_port (s : State) :
    (s.claimTransfer).port = s.port := by
  unfold State.claimTransfer
  repeat' split
  all_goals simp

@[simp] theorem State.claimTransfer_store (s : State) :
    (s.claimTransfer).store = s.store := by
  unfold State.claimTransfer
  repeat' split
  all_goals simp

@[simp] theorem State.claimTransfer_timer (s : State) :
    (s.claimTransfer).timer = s.timer := by
  unfold State.claimTransfer
  repeat' split
  all_goals simp

@[simp] theorem State.claimTransfer_batch (s : State) :
    (s.claimTransfer).batch = s.batch := by
  unfold State.claimTransfer
  repeat' split
  all_goals simp

@[simp] theorem State.claimTransfer_nodes (s : State) :
    (s.claimTransfer).nodes = s.nodes := by
  unfold State.claimTransfer
  repeat' split
  all_goals simp

@[simp] theorem State.claimTransfer_notices (s : State) :
    (s.claimTransfer).notices = s.notices := by
  unfold State.claimTransfer
  repeat' split
  all_goals simp

@[simp] theorem State.claimTransfer_pending (s : State) :
    (s.claimTransfer).pending = s.pending := by
  unfold State.claimTransfer
  repeat' split
  all_goals simp

@[simp] theorem State.fixDueList_port (s : State) :
    (s.fixDueList).port = s.port := by simp [State.fixDueList]

@[simp] theorem State.fixDueList_timer (s : State) :
    (s.fixDueList).timer = s.timer := by simp [State.fixDueList]

@[simp] theorem State.fixDueList_batch (s : State) :
    (s.fixDueList).batch = s.batch := by simp [State.fixDueList]

@[simp] theorem State.fixDueList_nodes (s : State) :
    (s.fixDueList).nodes = s.nodes := by simp [State.fixDueList]

@[simp] theorem State.fixDueList_notices (s : State) :
    (s.fixDueList).notices = s.notices := by simp [State.fixDueList]

@[simp] theorem State.fixDueList_pending (s : State) :
    (s.fixDueList).pending = s.pending := by simp [State.fixDueList]

@[simp] theorem State.finish_store (s : State) (status : Status) (data : List Byte) :
    (s.finish status data).store = s.store := by simp [State.finish]

@[simp] theorem State.finish_timer (s : State) (status : Status) (data : List Byte) :
    (s.finish status data).timer = s.timer := by simp [State.finish]

@[simp] theorem State.finish_batch (s : State) (status : Status) (data : List Byte) :
    (s.finish status data).batch = s.batch := by simp [State.finish]

@[simp] theorem State.finish_nodes (s : State) (status : Status) (data : List Byte) :
    (s.finish status data).nodes = s.nodes := by simp [State.finish]

@[simp] theorem State.finish_notices (s : State) (status : Status) (data : List Byte) :
    (s.finish status data).notices = s.notices := by simp [State.finish]

@[simp] theorem State.finish_pending (s : State) (status : Status) (data : List Byte) :
    (s.finish status data).pending = s.pending := by simp [State.finish]

@[simp] theorem State.finishWith_timer (s : State) (st : Store) (status : Status) (data : List Byte) :
    (s.finishWith st status data).timer = s.timer := by simp [State.finishWith]

@[simp] theorem State.finishWith_batch (s : State) (st : Store) (status : Status) (data : List Byte) :
    (s.finishWith st status data).batch = s.batch := by simp [State.finishWith]

@[simp] theorem State.finishWith_nodes (s : State) (st : Store) (status : Status) (data : List Byte) :
    (s.finishWith st status data).nodes = s.nodes := by simp [State.finishWith]

@[simp] theorem State.finishWith_notices (s : State) (st : Store) (status : Status) (data : List Byte) :
    (s.finishWith st status data).notices = s.notices := by simp [State.finishWith]

@[simp] theorem State.finishWith_pending (s : State) (st : Store) (status : Status) (data : List Byte) :
    (s.finishWith st status data).pending = s.pending := by simp [State.finishWith]

@[simp] theorem State.refuseWith_timer (s : State) (st : Store) (status : Status) :
    (s.refuseWith st status).timer = s.timer := by simp [State.refuseWith]

@[simp] theorem State.refuseWith_batch (s : State) (st : Store) (status : Status) :
    (s.refuseWith st status).batch = s.batch := by simp [State.refuseWith]

@[simp] theorem State.refuseWith_nodes (s : State) (st : Store) (status : Status) :
    (s.refuseWith st status).nodes = s.nodes := by simp [State.refuseWith]

@[simp] theorem State.refuseWith_notices (s : State) (st : Store) (status : Status) :
    (s.refuseWith st status).notices = s.notices := by simp [State.refuseWith]

@[simp] theorem State.refuseWith_pending (s : State) (st : Store) (status : Status) :
    (s.refuseWith st status).pending = s.pending := by simp [State.refuseWith]

@[simp] theorem State.scanBoundary_port (s : State) (first : Bool) :
    (s.scanBoundary first).port = s.port := by
  unfold State.scanBoundary
  dsimp only
  split <;> rfl

@[simp] theorem State.scanBoundary_arbiter (s : State) (first : Bool) :
    (s.scanBoundary first).arbiter = s.arbiter := by
  unfold State.scanBoundary
  dsimp only
  split <;> rfl

@[simp] theorem State.scanBoundary_store (s : State) (first : Bool) :
    (s.scanBoundary first).store = s.store := by
  unfold State.scanBoundary
  dsimp only
  split <;> rfl

@[simp] theorem State.scanBoundary_timer (s : State) (first : Bool) :
    (s.scanBoundary first).timer = s.timer := by
  unfold State.scanBoundary
  dsimp only
  split <;> rfl

@[simp] theorem State.scanBoundary_batch (s : State) (first : Bool) :
    (s.scanBoundary first).batch = s.batch := by
  unfold State.scanBoundary
  dsimp only
  split <;> rfl

@[simp] theorem State.scanBoundary_reply (s : State) (first : Bool) :
    (s.scanBoundary first).reply = s.reply := by
  unfold State.scanBoundary
  dsimp only
  split <;> rfl

@[simp] theorem State.scanBoundary_notices (s : State) (first : Bool) :
    (s.scanBoundary first).notices = s.notices := by
  unfold State.scanBoundary
  dsimp only
  split <;> rfl

@[simp] theorem State.scanBoundary_pending (s : State) (first : Bool) :
    (s.scanBoundary first).pending = s.pending := by
  unfold State.scanBoundary
  dsimp only
  split <;> rfl

@[simp] theorem State.takeBoundary_port (s : State) (first : Bool) :
    (s.takeBoundary first).port = s.port := by
  unfold State.takeBoundary
  dsimp only
  repeat' split
  all_goals simp

@[simp] theorem State.takeBoundary_batch (s : State) (first : Bool) :
    (s.takeBoundary first).batch = s.batch := by
  unfold State.takeBoundary
  dsimp only
  repeat' split
  all_goals simp

@[simp] theorem State.takeBoundary_notices (s : State) (first : Bool) :
    (s.takeBoundary first).notices = s.notices := by
  unfold State.takeBoundary
  dsimp only
  repeat' split
  all_goals simp

@[simp] theorem State.takeBoundary_pending (s : State) (first : Bool) :
    (s.takeBoundary first).pending = s.pending := by
  unfold State.takeBoundary
  dsimp only
  repeat' split
  all_goals simp

@[simp] theorem State.claimWriteBack_port (s : State) :
    (s.claimWriteBack).port = s.port := by
  unfold State.claimWriteBack
  repeat' split
  all_goals simp

@[simp] theorem State.claimWriteBack_store (s : State) :
    (s.claimWriteBack).store = s.store := by
  unfold State.claimWriteBack
  repeat' split
  all_goals simp

@[simp] theorem State.claimWriteBack_timer (s : State) :
    (s.claimWriteBack).timer = s.timer := by
  unfold State.claimWriteBack
  repeat' split
  all_goals simp

@[simp] theorem State.claimWriteBack_batch (s : State) :
    (s.claimWriteBack).batch = s.batch := by
  unfold State.claimWriteBack
  repeat' split
  all_goals simp

@[simp] theorem State.claimWriteBack_nodes (s : State) :
    (s.claimWriteBack).nodes = s.nodes := by
  unfold State.claimWriteBack
  repeat' split
  all_goals simp

@[simp] theorem State.claimWriteBack_notices (s : State) :
    (s.claimWriteBack).notices = s.notices := by
  unfold State.claimWriteBack
  repeat' split
  all_goals simp

@[simp] theorem State.claimWriteBack_pending (s : State) :
    (s.claimWriteBack).pending = s.pending := by
  unfold State.claimWriteBack
  repeat' split
  all_goals simp

@[simp] theorem State.takeDemand_port (s : State) (key : Word) :
    (s.takeDemand key).port = s.port := by
  unfold State.takeDemand
  dsimp only
  split <;> simp

@[simp] theorem State.takeDemand_store (s : State) (key : Word) :
    (s.takeDemand key).store = s.store := by
  unfold State.takeDemand
  dsimp only
  split <;> simp

@[simp] theorem State.takeDemand_timer (s : State) (key : Word) :
    (s.takeDemand key).timer = s.timer := by
  unfold State.takeDemand
  dsimp only
  split <;> simp

@[simp] theorem State.takeDemand_batch (s : State) (key : Word) :
    (s.takeDemand key).batch = s.batch := by
  unfold State.takeDemand
  dsimp only
  split <;> simp

@[simp] theorem State.takeDemand_notices (s : State) (key : Word) :
    (s.takeDemand key).notices = s.notices := by
  unfold State.takeDemand
  dsimp only
  split <;> simp

@[simp] theorem State.takeDemand_pending (s : State) (key : Word) :
    (s.takeDemand key).pending = s.pending := by
  unfold State.takeDemand
  dsimp only
  split <;> simp

@[simp] theorem State.receive_port (s : State) (words : List LineWord) :
    (s.receive words).port = s.port := by
  unfold State.receive
  repeat' split
  all_goals rfl

@[simp] theorem State.receive_arbiter (s : State) (words : List LineWord) :
    (s.receive words).arbiter = s.arbiter := by
  unfold State.receive
  repeat' split
  all_goals rfl

@[simp] theorem State.receive_store (s : State) (words : List LineWord) :
    (s.receive words).store = s.store := by
  unfold State.receive
  repeat' split
  all_goals rfl

@[simp] theorem State.receive_timer (s : State) (words : List LineWord) :
    (s.receive words).timer = s.timer := by
  unfold State.receive
  repeat' split
  all_goals rfl

@[simp] theorem State.receive_batch (s : State) (words : List LineWord) :
    (s.receive words).batch = s.batch := by
  unfold State.receive
  repeat' split
  all_goals rfl

@[simp] theorem State.receive_scan (s : State) (words : List LineWord) :
    (s.receive words).scan = s.scan := by
  unfold State.receive
  repeat' split
  all_goals rfl

@[simp] theorem State.receive_nodes (s : State) (words : List LineWord) :
    (s.receive words).nodes = s.nodes := by
  unfold State.receive
  repeat' split
  all_goals rfl

@[simp] theorem State.receive_notices (s : State) (words : List LineWord) :
    (s.receive words).notices = s.notices := by
  unfold State.receive
  repeat' split
  all_goals rfl

@[simp] theorem State.receive_pending (s : State) (words : List LineWord) :
    (s.receive words).pending = s.pending := by
  unfold State.receive
  repeat' split
  all_goals rfl

@[simp] theorem State.fetch_arbiter (s : State) (count : Nat) :
    (s.fetch count).arbiter = s.arbiter := by
  unfold State.fetch
  split <;> rfl

@[simp] theorem State.fetch_store (s : State) (count : Nat) :
    (s.fetch count).store = s.store := by
  unfold State.fetch
  split <;> rfl

@[simp] theorem State.fetch_timer (s : State) (count : Nat) :
    (s.fetch count).timer = s.timer := by
  unfold State.fetch
  split <;> rfl

@[simp] theorem State.fetch_batch (s : State) (count : Nat) :
    (s.fetch count).batch = s.batch := by
  unfold State.fetch
  split <;> rfl

@[simp] theorem State.fetch_scan (s : State) (count : Nat) :
    (s.fetch count).scan = s.scan := by
  unfold State.fetch
  split <;> rfl

@[simp] theorem State.fetch_reply (s : State) (count : Nat) :
    (s.fetch count).reply = s.reply := by
  unfold State.fetch
  split <;> rfl

@[simp] theorem State.fetch_nodes (s : State) (count : Nat) :
    (s.fetch count).nodes = s.nodes := by
  unfold State.fetch
  split <;> rfl

@[simp] theorem State.fetch_demand (s : State) (count : Nat) :
    (s.fetch count).demand = s.demand := by
  unfold State.fetch
  split <;> rfl

@[simp] theorem State.fetch_notices (s : State) (count : Nat) :
    (s.fetch count).notices = s.notices := by
  unfold State.fetch
  split <;> rfl

@[simp] theorem State.fetch_pending (s : State) (count : Nat) :
    (s.fetch count).pending = s.pending := by
  unfold State.fetch
  split <;> rfl

end Sys2Proof.Machine
end

