-- ==== Sys2Proof/Laws/Arbiter.lean ====
section
/-! SUPPORT. What placing a claim, completing an access and completing a request do to the whole state. -/

namespace Sys2Proof.Machine

/-! ### Grants -/

/-- The grant of anything but a STOP SCAN does nothing beside the arbiter. -/
theorem State.afterGrant_of_request_ne (s : State) (h : s.port.request ≠ some .stopScan) : s.afterGrant = s := by
  simp [State.afterGrant, h]

/-- A grant of another accessor does nothing beside the arbiter. -/
theorem State.afterGrant_of_inProgress_ne (s : State) (h : s.arbiter.inProgress ≠ some .host) : s.afterGrant = s := by
  simp [State.afterGrant, h]

/-- A claim of an accessor other than the host, placed while the table is idle, is granted. -/
theorem State.claim_idle (s : State) (c : Claim) (hi : s.arbiter.inProgress = none)
    (h : c ≠ .host ∨ s.port.request ≠ some .stopScan) : s.claim c = { s with arbiter := s.arbiter.grantTo c } := by
  unfold State.claim
  rw [hi]
  dsimp only
  rcases h with h | h
  · exact State.afterGrant_of_inProgress_ne _ (by simpa [Arbiter.grantTo] using h)
  · exact State.afterGrant_of_request_ne _ h

/-- A claim placed while an access is in progress waits. -/
theorem State.claim_busy (s : State) (c d : Claim) (hi : s.arbiter.inProgress = some d) :
    s.claim c = { s with arbiter := s.arbiter.enqueue c } := by
  unfold State.claim
  rw [hi]

/-- A claim of an accessor other than the host changes the arbiter and nothing else. -/
theorem State.claim_eq (s : State) (c : Claim) (h : c ≠ .host) :
    s.claim c = { s with arbiter := (s.claim c).arbiter } := by
  cases hi : s.arbiter.inProgress with
  | none => rw [State.claim_idle _ _ hi (.inl h)]
  | some d => rw [State.claim_busy _ _ _ hi]

/-- A claim of an accessor other than the host is outstanding once placed. -/
theorem State.outstanding_claim (s : State) (c : Claim) (h : c ≠ .host) :
    (s.claim c).arbiter.outstanding c.rank = true := by
  cases hi : s.arbiter.inProgress with
  | none => rw [State.claim_idle _ _ hi (.inl h)]; simp [Arbiter.outstanding, Arbiter.grantTo]
  | some d =>
    rw [State.claim_busy _ _ _ hi]
    simp only [Arbiter.enqueue]
    split
    next h => simp only [Arbiter.outstanding, Bool.or_eq_true]; right; exact h
    next h => simp [Arbiter.outstanding]

/-- A claim leaves every other accessor's claim as it was. -/
theorem State.outstanding_claim_ne (s : State) (c : Claim) (h : c ≠ .host) (r : Nat) (hr : r ≠ c.rank) :
    (s.claim c).arbiter.outstanding r = s.arbiter.outstanding r := by
  cases hi : s.arbiter.inProgress with
  | none =>
    rw [State.claim_idle _ _ hi (.inl h), Bool.eq_iff_iff]
    simp [Arbiter.outstanding, Arbiter.grantTo, hi, Ne.symm hr]
    constructor
    · rintro ⟨x, hx⟩; exact ⟨x, by tauto⟩
    · rintro ⟨x, a, rfl⟩; exact ⟨x, by tauto⟩
  | some d =>
    rw [State.claim_busy _ _ _ hi]
    simp only [Arbiter.enqueue]
    split
    next h => rfl
    next h => simp [Arbiter.outstanding, hi, Ne.symm hr]

/-- The withdrawal of the line's claims leaves the countdown's, the application's and the host's (R19). -/
theorem Arbiter.outstanding_withdrawLine (a : Arbiter) (r : Nat) (h : r = 2 ∨ r = 3 ∨ r = 5) :
    a.withdrawLine.outstanding r = a.outstanding r := by
  rw [Bool.eq_iff_iff]
  simp only [Arbiter.outstanding, Arbiter.withdrawLine, Bool.or_eq_true, List.any_eq_true, List.mem_filter,
    decide_eq_true_eq]
  refine or_congr Iff.rfl ⟨fun ⟨x, ⟨a, _⟩, b⟩ => ⟨x, a, b⟩, fun ⟨x, a, b⟩ => ⟨x, ⟨a, ?_⟩, b⟩⟩
  rcases h with rfl | rfl | rfl <;> cases x <;> simp [Claim.rank] at b <;> rfl

/-- The claim granted first is one that waits. -/
theorem Arbiter.first_mem (a : Arbiter) (c : Claim) (h : a.first = some c) : c ∈ a.waiting := by
  unfold Arbiter.first at h
  obtain ⟨r, -, hr⟩ := List.exists_of_findSome?_eq_some h
  exact List.mem_of_find?_eq_some hr

/-- Every accessor has its place in the grant order (R18). -/
theorem Claim.rank_lt (c : Claim) : c.rank < 6 := by cases c <;> simp [Claim.rank]

/-- The claim granted first stands before every waiting claim in the grant order. -/
theorem Arbiter.first_le (a : Arbiter) (c : Claim) (h : a.first = some c) : ∀ d ∈ a.waiting, c.rank ≤ d.rank := by
  have step : ∀ l : List Nat, l.Pairwise (· < ·) →
      l.findSome? (fun r => a.waiting.find? fun x => decide (x.rank = r)) = some c →
      ∀ d ∈ a.waiting, d.rank ∈ l → c.rank ≤ d.rank := by
    intro l
    induction l with
    | nil => intro _ h; simp at h
    | cons r l ih =>
      intro hp hf d hd hm
      rw [List.findSome?_cons] at hf
      cases hr : a.waiting.find? (fun x => decide (x.rank = r)) with
      | some x =>
        rw [hr] at hf
        have hc : x = c := by simpa using hf
        have : x.rank = r := by simpa using List.find?_some hr
        subst hc
        rcases List.mem_cons.1 hm with hm | hm
        · omega
        · have := (List.pairwise_cons.1 hp).1 _ hm
          omega
      | none =>
        rw [hr] at hf
        rcases List.mem_cons.1 hm with hm | hm
        · simp only [List.find?_eq_none, decide_eq_true_eq] at hr
          exact absurd hm (hr d hd)
        · exact ih (List.pairwise_cons.1 hp).2 hf d hd hm
  intro d hd
  exact step (List.range 6) List.pairwise_lt_range h d hd (List.mem_range.2 d.rank_lt)

/-- No claim is granted exactly when none waits. -/
theorem Arbiter.first_eq_none (a : Arbiter) : a.first = none ↔ a.waiting = [] := by
  constructor
  · intro h
    unfold Arbiter.first at h
    rw [List.findSome?_eq_none_iff] at h
    cases hw : a.waiting with
    | nil => rfl
    | cons d rest =>
      have := h d.rank (List.mem_range.2 d.rank_lt)
      rw [hw] at this
      simp at this
  · intro h
    simp [Arbiter.first, h]

/-! ### The completion of a request -/

/-- The port after a completion (R152, R153, R156). -/
@[simp] theorem State.complete_port (s : State) (status : Status) (data : List Byte) :
    (s.complete status data).port =
      { s.port with
        state := .ready, request := none, stopScanDone := false, response := responseBytes status s.summary data,
        resetSeen := false, requestDiscarded := false } := rfl

/-- A host request's access that completes changes the port and the arbiter, and nothing else. -/
theorem State.finish_eq (s : State) (status : Status) (data : List Byte) :
    s.finish status data = { s with port := (s.complete status data).port, arbiter := s.arbiter.next } := by
  unfold State.finish State.release
  exact State.afterGrant_of_request_ne _ (by simp)

/-- An access that completes with a table changes the table, the port and the arbiter, and nothing else. -/
theorem State.finishWith_eq (s : State) (st : Store) (status : Status) (data : List Byte) :
    s.finishWith st status data =
      { s with
        store := st, port := (State.complete { s with store := st } status data).port,
        arbiter := s.arbiter.next } := by
  unfold State.finishWith
  exact State.finish_eq _ status data

/-- A refusal changes nothing but the port, the arbiter, and the damage found (R47). -/
theorem State.refuseWith_eq (s : State) (st : Store) (status : Status) :
    s.refuseWith st status =
      { s with
        store := st, port := (State.complete { s with store := st } status []).port,
        arbiter := s.arbiter.next } := State.finishWith_eq s st status []

/-! ### The requests held -/

/-- A request whose access is in progress (R47). -/
theorem State.heldAccess_eq_some (s : State) (r : Request) :
    s.heldAccess = some r ↔
      s.port.state = .working ∧ s.arbiter.inProgress = some .host ∧ s.port.request = some r := by
  unfold State.heldAccess
  split
  next h => simp [h]
  next h =>
    simp only [false_iff, reduceCtorEq, not_and]
    exact fun h1 h2 => absurd ⟨h1, h2⟩ h

/-- A request held for its block (R155). -/
theorem State.heldDirect_eq_some (s : State) (r : Request) :
    s.heldDirect = some r ↔ s.port.state = .working ∧ s.port.request = some r := by
  unfold State.heldDirect
  split
  next h => simp [h]
  next h => simp [h]

/-! ### The grant of STOP SCAN -/

/-- After the grant of a STOP SCAN the scan is STOPPED (R100). -/
@[simp] theorem State.stopAtGrant_scanState (s : State) : s.stopAtGrant.scan.state = .stopped := by
  unfold State.stopAtGrant
  split
  next h => exact h
  · cases s.abortDue <;> rfl

/-- The grant of a STOP SCAN taken while STOPPED changes nothing (R100). -/
theorem State.stopAtGrant_of_stopped (s : State) (h : s.scan.state = .stopped) : s.stopAtGrant = s := by
  simp [State.stopAtGrant, h]

end Sys2Proof.Machine
end

