-- ==== Sys2Proof/Laws/Boundary.lean ====
section
/-! SUPPORT. What a boundary does: the whole of it in one equation. -/

namespace Sys2Proof.Machine

/-- The state in which the Scan Engine acts at a boundary: the timer moved, the due list ended, the traffic that was left
abandoned, and the arbiter with the claims of the boundary. -/
def State.atBoundary (s : State) (first : Bool) (a : Arbiter) : State :=
  { s with
    timer := s.timer.boundary first, store := { s.store with due := [] },
    scan := { s.scan with regA := .free, regB := .free, line := .idle },
    reply := ReplyUnit.initial, demand := DemandServer.initial, arbiter := a }

/-- A boundary while the scan is not STOPPED: the Scan Engine acts in the state `atBoundary`, in which the countdown claim
is outstanding, and the application claim while the batch is SEALED (R38, R39, R67, R88). -/
theorem State.takeBoundary_eq (s : State) (first : Bool) (h : s.scan.state ≠ .stopped) :
    ∃ a : Arbiter, s.takeBoundary first = (s.atBoundary first a).scanBoundary first ∧ a.outstanding 2 = true ∧
      (s.batch.state = .sealed_ → a.outstanding 3 = true) ∧
      (s.batch.state ≠ .sealed_ → a.outstanding 3 = s.arbiter.outstanding 3) := by
  have hs : s.takeBoundary first =
      (let v := (s.atBoundary first s.arbiter.withdrawLine).claim .countdown
       let w := if v.batch.state = .sealed_ then v.claim .application else v
       if w.scan.state = .stopped then w else w.scanBoundary first) := by
    simp only [State.takeBoundary, if_neg h]
    rfl
  have o2 := (s.atBoundary first s.arbiter.withdrawLine).outstanding_claim .countdown (by simp)
  have o3 := (s.atBoundary first s.arbiter.withdrawLine).outstanding_claim_ne .countdown (by simp) 3 (by decide)
  have hv := (s.atBoundary first s.arbiter.withdrawLine).claim_eq .countdown (by simp)
  rw [hs]
  generalize (s.atBoundary first s.arbiter.withdrawLine).claim .countdown = v at *
  have o3' : v.arbiter.outstanding 3 = s.arbiter.outstanding 3 :=
    o3.trans (Arbiter.outstanding_withdrawLine s.arbiter 3 (by simp))
  have hb : v.batch.state = s.batch.state := by rw [hv]; rfl
  dsimp only
  rw [hb]
  by_cases hc : s.batch.state = .sealed_
  · have hw := v.claim_eq .application (by simp)
    have p2 := v.outstanding_claim_ne .application (by simp) 2 (by decide)
    have p3 := v.outstanding_claim .application (by simp)
    rw [if_pos hc]
    generalize v.claim .application = w at *
    have hq : w = s.atBoundary first w.arbiter := by rw [hw, hv]; rfl
    have hn : w.scan.state ≠ .stopped := by rw [hq]; exact h
    exact ⟨w.arbiter, by rw [if_neg hn]; exact congrArg (State.scanBoundary · first) hq, p2.trans o2, fun _ => p3,
      fun hn => absurd hc hn⟩
  · rw [if_neg hc]
    have hq : v = s.atBoundary first v.arbiter := by rw [hv]; rfl
    have hn : v.scan.state ≠ .stopped := by rw [hq]; exact h
    exact ⟨v.arbiter, by rw [if_neg hn]; exact congrArg (State.scanBoundary · first) hq, o2, fun hh => absurd hh hc,
      fun _ => o3'⟩

end Sys2Proof.Machine
end

