-- ==== Sys2Proof/Laws/Sparse.lean ====
section
/-! SUPPORT. What the operations on numbered tables do: reading after a write, and the canonical form kept. -/

namespace Sys2Proof.Machine.Sparse

variable {α : Type}

/-! ### Reading after a write -/

theorem find?_erase (t : List (Nat × α)) (i j : Nat) :
    find? (erase t i) j = if j = i then none else find? t j := by
  induction t with
  | nil => simp [erase, find?]
  | cons e rest ih =>
    unfold erase at ih ⊢
    by_cases h : e.1 = i
    · rw [List.filter_cons_of_neg (by simp [h]), ih]
      by_cases hj : j = i
      · simp [hj]
      · have : ¬ i = j := fun h => hj h.symm
        simp [hj, find?, h, this]
    · rw [List.filter_cons_of_pos (by simp [h])]
      simp only [find?]
      by_cases hj : e.1 = j
      · have : ¬ j = i := fun hi => h (hj.trans hi)
        simp [hj, this]
      · simpa [hj] using ih

theorem find?_place (i : Nat) (v : α) (t : List (Nat × α)) (j : Nat) (h : find? t i = none) :
    find? (place i v t) j = if j = i then some v else find? t j := by
  induction t with
  | nil => simp [place, find?, eq_comm]
  | cons e rest ih =>
    have hne : ¬ e.1 = i := by
      intro he
      simp [find?, he] at h
    have hrest : find? rest i = none := by simpa [find?, hne] using h
    unfold place
    split
    · simp [find?, eq_comm]
    · simp only [find?, ih hrest]
      by_cases hj : e.1 = j
      · have : ¬ j = i := fun hi => hne (hj.trans hi)
        simp [hj, this]
      · simp [hj]

theorem find?_insert (t : List (Nat × α)) (i : Nat) (v : α) (j : Nat) :
    find? (insert t i v) j = if j = i then some v else find? t j := by
  unfold insert
  rw [find?_place _ _ _ _ (by simp [find?_erase]), find?_erase]
  split <;> rfl

@[simp] theorem get_put [DecidableEq α] (t : List (Nat × α)) (d : α) (i : Nat) (v : α) (j : Nat) :
    get (put t d i v) d j = if j = i then v else get t d j := by
  unfold put get
  by_cases hv : v = d
  · by_cases hj : j = i <;> simp [hv, hj, find?_erase]
  · by_cases hj : j = i <;> simp [hv, hj, find?_insert]

theorem get_mapValues [DecidableEq α] (t : List (Nat × α)) (d : α) (f : α → α) (hf : f d = d)
    (ht : rising t = true) (j : Nat) : get (mapValues t d f) d j = f (get t d j) := by
  unfold get mapValues
  induction t with
  | nil => simp [find?, hf]
  | cons e rest ih =>
    have hr : rising rest = true := by
      cases rest with
      | nil => rfl
      | cons b rest => simp [rising] at ht; exact ht.2
    have hlow : ∀ x ∈ rest, e.1 < x.1 := by
      clear ih hr
      induction rest generalizing e with
      | nil => simp
      | cons b rest ihr =>
        simp [rising] at ht
        intro x hx
        rcases List.mem_cons.1 hx with rfl | hx
        · exact ht.1
        · exact Nat.lt_trans ht.1 (ihr b ht.2 x hx)
    have hnone : ∀ l : List (Nat × α), (∀ x ∈ l, e.1 < x.1) → find? l e.1 = none := by
      intro l
      induction l with
      | nil => simp [find?]
      | cons b l ihl =>
        intro h
        have := h b (by simp)
        simp only [find?]
        rw [if_neg (by omega)]
        exact ihl fun x hx => h x (by simp [hx])
    simp only [List.map_cons, find?]
    by_cases he : f e.2 = d
    · rw [List.filter_cons_of_neg (by simp [he])]
      by_cases hj : e.1 = j
      · subst hj
        have h1 := ih hr
        rw [hnone rest hlow] at h1
        rw [if_pos rfl]
        simpa [he, hf] using h1
      · rw [if_neg hj]
        exact ih hr
    · rw [List.filter_cons_of_pos (by simp [he])]
      simp only [find?]
      by_cases hj : e.1 = j
      · simp [hj]
      · rw [if_neg hj, if_neg hj]
        exact ih hr

/-! ### The canonical form -/

theorem rising_of_cons {e : Nat × α} {t : List (Nat × α)} (h : rising (e :: t) = true) : rising t = true := by
  cases t with
  | nil => rfl
  | cons b rest => simp [rising] at h; exact h.2

/-- A rising list is strictly sorted. -/
theorem rising_iff (t : List (Nat × α)) : rising t = true ↔ t.Pairwise (fun a b => a.1 < b.1) := by
  induction t with
  | nil => simp [rising]
  | cons e rest ih =>
    cases rest with
    | nil => simp [rising]
    | cons b rest =>
      have hstep : rising (e :: b :: rest) = true ↔ e.1 < b.1 ∧ rising (b :: rest) = true := by simp [rising]
      rw [hstep, ih]
      constructor
      · rintro ⟨h, hp⟩
        refine List.pairwise_cons.2 ⟨?_, hp⟩
        intro x hx
        rcases List.mem_cons.1 hx with rfl | hx
        · exact h
        · exact Nat.lt_trans h ((List.pairwise_cons.1 hp).1 x hx)
      · intro h
        exact ⟨(List.pairwise_cons.1 h).1 b (by simp), (List.pairwise_cons.1 h).2⟩

theorem rising_filter (t : List (Nat × α)) (p : Nat × α → Bool) (h : rising t = true) :
    rising (t.filter p) = true := (rising_iff _).2 (((rising_iff t).1 h).filter p)

theorem mem_place (i : Nat) (v : α) (t : List (Nat × α)) (x : Nat × α) :
    x ∈ place i v t ↔ x = (i, v) ∨ x ∈ t := by
  induction t with
  | nil => simp [place]
  | cons e rest ih =>
    unfold place
    split
    · simp
    · simp only [List.mem_cons, ih]
      tauto

theorem rising_place (i : Nat) (v : α) (t : List (Nat × α)) (ht : rising t = true) (hi : ∀ x ∈ t, x.1 ≠ i) :
    rising (place i v t) = true := by
  rw [rising_iff] at ht ⊢
  induction t with
  | nil => simp [place]
  | cons e rest ih =>
    have hc := List.pairwise_cons.1 ht
    unfold place
    split
    next hlt =>
      refine List.pairwise_cons.2 ⟨?_, ht⟩
      intro x hx
      rcases List.mem_cons.1 hx with rfl | hx
      · exact hlt
      · exact Nat.lt_trans hlt (hc.1 x hx)
    next hge =>
      refine List.pairwise_cons.2 ⟨?_, ih hc.2 fun x hx => hi x (by simp [hx])⟩
      intro x hx
      rcases (mem_place i v rest x).1 hx with rfl | hx
      · have := hi e (by simp)
        show e.1 < i
        omega
      · exact hc.1 x hx

theorem mem_insert (t : List (Nat × α)) (i : Nat) (v : α) (x : Nat × α) :
    x ∈ insert t i v ↔ x = (i, v) ∨ (x ∈ t ∧ x.1 ≠ i) := by
  simp [insert, mem_place, erase]

theorem rising_insert (t : List (Nat × α)) (i : Nat) (v : α) (h : rising t = true) : rising (insert t i v) = true := by
  refine rising_place i v _ (rising_filter t _ h) ?_
  intro x hx
  simpa using (List.mem_filter.1 hx).2

/-- A write keeps the canonical form. -/
theorem wf_put [DecidableEq α] (t : List (Nat × α)) (d : α) (i : Nat) (v : α) (h : wf t d = true) :
    wf (put t d i v) d = true := by
  simp only [wf, Bool.and_eq_true, List.all_eq_true, decide_eq_true_eq] at h ⊢
  unfold put
  split
  · exact ⟨rising_filter t _ h.1, fun x hx => h.2 x (List.mem_filter.1 hx).1⟩
  next hv =>
    refine ⟨rising_insert t i v h.1, ?_⟩
    intro x hx
    rcases (mem_insert t i v x).1 hx with rfl | hx
    · exact hv
    · exact h.2 x hx.1

/-- A change of every value keeps the canonical form. -/
theorem wf_mapValues [DecidableEq α] (t : List (Nat × α)) (d : α) (f : α → α) (h : wf t d = true) :
    wf (mapValues t d f) d = true := by
  simp only [wf, Bool.and_eq_true, List.all_eq_true, decide_eq_true_eq] at h ⊢
  refine ⟨rising_filter _ _ ?_, fun x hx => by simpa using (List.mem_filter.1 hx).2⟩
  rw [rising_iff] at h ⊢
  exact List.pairwise_map.2 h.1

theorem find?_of_mem (t : List (Nat × α)) (i : Nat) (v : α) (ht : rising t = true) (h : (i, v) ∈ t) :
    find? t i = some v := by
  rw [rising_iff] at ht
  induction t with
  | nil => simp at h
  | cons e rest ih =>
    have hc := List.pairwise_cons.1 ht
    rcases List.mem_cons.1 h with rfl | h
    · simp [find?]
    · have := hc.1 _ h
      simp only [find?]
      rw [if_neg (by simp at this; omega)]
      exact ih hc.2 h

theorem mem_of_find? (t : List (Nat × α)) (i : Nat) (v : α) (h : find? t i = some v) : (i, v) ∈ t := by
  induction t with
  | nil => simp [find?] at h
  | cons e rest ih =>
    simp only [find?] at h
    split at h
    next he =>
      have : e.2 = v := by simpa using h
      simp [← he, ← this]
    next => exact List.mem_cons_of_mem _ (ih h)

/-- Two lists in canonical form that read the same everywhere are equal: equal tables are equal data. -/
theorem eq_of_get_eq [DecidableEq α] (t u : List (Nat × α)) (d : α) (ht : wf t d = true) (hu : wf u d = true)
    (h : ∀ i, get t d i = get u d i) : t = u := by
  have sub : ∀ t u : List (Nat × α), wf t d = true → wf u d = true → (∀ i, get t d i = get u d i) → ∀ x ∈ t, x ∈ u := by
    intro t u ht hu h x hx
    simp only [wf, Bool.and_eq_true, List.all_eq_true, decide_eq_true_eq] at ht hu
    have h1 := find?_of_mem t x.1 x.2 ht.1 hx
    have h2 := h x.1
    unfold get at h2
    rw [h1] at h2
    cases hf : find? u x.1 with
    | none => rw [hf] at h2; exact absurd h2 (ht.2 x hx)
    | some v =>
      rw [hf] at h2
      have : v = x.2 := h2.symm
      subst this
      exact mem_of_find? u x.1 x.2 hf
  have hsub := sub t u ht hu h
  have hsup := sub u t hu ht fun i => (h i).symm
  simp only [wf, Bool.and_eq_true] at ht hu
  have hto : ∀ l : List (Nat × α), l.Pairwise (fun a b => a.1 < b.1) → l.Nodup := by
    intro l hl
    exact hl.imp fun hab he => by subst he; exact Nat.lt_irrefl _ hab
  have h1 := (rising_iff t).1 ht.1
  have h2 := (rising_iff u).1 hu.1
  have hperm : t.Perm u := (List.perm_ext_iff_of_nodup (hto t h1) (hto u h2)).2 fun x => ⟨hsub x, hsup x⟩
  exact hperm.eq_of_pairwise (fun a b _ _ hab hba => absurd (Nat.lt_trans hab hba) (Nat.lt_irrefl _)) h1 h2

end Sys2Proof.Machine.Sparse
end

