-- ==== Sys2Proof/Laws/Table.lean ====
section
/-! SUPPORT. What each operation on the Record Table and the Cycle Plan does to each part of the store, and that it keeps
the canonical form. -/

namespace Sys2Proof.Machine

/-! ### Operations that leave slots and directory alone -/

@[simp] theorem Store.addLoad_cells (st : Store) (sc : Schedule) : (st.addLoad sc).cells = st.cells := rfl
@[simp] theorem Store.addLoad_directory (st : Store) (sc : Schedule) : (st.addLoad sc).directory = st.directory := rfl
@[simp] theorem Store.addLoad_pages (st : Store) (sc : Schedule) : (st.addLoad sc).pages = st.pages := rfl
@[simp] theorem Store.addLoad_due (st : Store) (sc : Schedule) : (st.addLoad sc).due = st.due := rfl
@[simp] theorem Store.removeLoad_cells (st : Store) (sc : Schedule) : (st.removeLoad sc).cells = st.cells := rfl
@[simp] theorem Store.removeLoad_directory (st : Store) (sc : Schedule) :
    (st.removeLoad sc).directory = st.directory := rfl
@[simp] theorem Store.removeLoad_pages (st : Store) (sc : Schedule) : (st.removeLoad sc).pages = st.pages := rfl
@[simp] theorem Store.removeLoad_due (st : Store) (sc : Schedule) : (st.removeLoad sc).due = st.due := rfl
@[simp] theorem Store.strike_cells (st : Store) (p : Nat) : (st.strike p).cells = st.cells := rfl
@[simp] theorem Store.strike_directory (st : Store) (p : Nat) : (st.strike p).directory = st.directory := rfl
@[simp] theorem Store.strike_pages (st : Store) (p : Nat) : (st.strike p).pages = st.pages := rfl
@[simp] theorem Store.strike_loads (st : Store) (p : Nat) : (st.strike p).loads = st.loads := rfl
@[simp] theorem Store.markTransferred_cells (st : Store) (p : Nat) : (st.markTransferred p).cells = st.cells := rfl
@[simp] theorem Store.markTransferred_directory (st : Store) (p : Nat) :
    (st.markTransferred p).directory = st.directory := rfl
@[simp] theorem Store.markTransferred_pages (st : Store) (p : Nat) : (st.markTransferred p).pages = st.pages := rfl
@[simp] theorem Store.markTransferred_loads (st : Store) (p : Nat) : (st.markTransferred p).loads = st.loads := rfl
@[simp] theorem Store.fixDue_cells (st : Store) (i : Nat) : (st.fixDue i).cells = st.cells := rfl
@[simp] theorem Store.fixDue_directory (st : Store) (i : Nat) : (st.fixDue i).directory = st.directory := rfl
@[simp] theorem Store.fixDue_pages (st : Store) (i : Nat) : (st.fixDue i).pages = st.pages := rfl
@[simp] theorem Store.fixDue_loads (st : Store) (i : Nat) : (st.fixDue i).loads = st.loads := rfl
@[simp] theorem Store.setLastTransfer_cells (st : Store) (p : Nat) (n : Word) :
    (st.setLastTransfer p n).cells = st.cells := rfl
@[simp] theorem Store.setLastTransfer_directory (st : Store) (p : Nat) (n : Word) :
    (st.setLastTransfer p n).directory = st.directory := rfl
@[simp] theorem Store.setLastTransfer_loads (st : Store) (p : Nat) (n : Word) :
    (st.setLastTransfer p n).loads = st.loads := rfl
@[simp] theorem Store.setLastTransfer_due (st : Store) (p : Nat) (n : Word) :
    (st.setLastTransfer p n).due = st.due := rfl
@[simp] theorem Store.openPage_cells (st : Store) (p : Nat) (sc : Schedule) : (st.openPage p sc).cells = st.cells := rfl
@[simp] theorem Store.openPage_directory (st : Store) (p : Nat) (sc : Schedule) :
    (st.openPage p sc).directory = st.directory := rfl
@[simp] theorem Store.openPage_due (st : Store) (p : Nat) (sc : Schedule) : (st.openPage p sc).due = st.due := rfl
@[simp] theorem Store.write_directory (st : Store) (i : Nat) (v : Slot) : (st.write i v).directory = st.directory := rfl
@[simp] theorem Store.write_pages (st : Store) (i : Nat) (v : Slot) : (st.write i v).pages = st.pages := rfl
@[simp] theorem Store.write_loads (st : Store) (i : Nat) (v : Slot) : (st.write i v).loads = st.loads := rfl
@[simp] theorem Store.write_due (st : Store) (i : Nat) (v : Slot) : (st.write i v).due = st.due := rfl
@[simp] theorem Store.releaseKey_cells (st : Store) (i : Nat) : (st.releaseKey i).cells = st.cells := rfl
@[simp] theorem Store.releaseKey_pages (st : Store) (i : Nat) : (st.releaseKey i).pages = st.pages := rfl
@[simp] theorem Store.releaseKey_loads (st : Store) (i : Nat) : (st.releaseKey i).loads = st.loads := rfl
@[simp] theorem Store.releaseKey_due (st : Store) (i : Nat) : (st.releaseKey i).due = st.due := rfl

@[simp] theorem Store.closePage_cells (st : Store) (p : Nat) : (st.closePage p).cells = st.cells := by
  unfold Store.closePage; split <;> rfl

@[simp] theorem Store.closePage_directory (st : Store) (p : Nat) : (st.closePage p).directory = st.directory := by
  unfold Store.closePage; split <;> rfl

@[simp] theorem Store.closePage_due (st : Store) (p : Nat) : (st.closePage p).due = st.due := by
  unfold Store.closePage; split <;> rfl

@[simp] theorem Store.replan_cells (st : Store) (p : Nat) : (st.replan p).cells = st.cells := by
  unfold Store.replan; split <;> simp

@[simp] theorem Store.replan_directory (st : Store) (p : Nat) : (st.replan p).directory = st.directory := by
  unfold Store.replan; split <;> simp

/-! ### Slots after a write -/

theorem Store.cellAt_eq {st st' : Store} (h : st'.cells = st.cells) (i : Nat) : st'.cellAt i = st.cellAt i := by
  unfold Store.cellAt; rw [h]

theorem Store.slotAt_eq {st st' : Store} (h : st'.cells = st.cells) (i : Nat) : st'.slotAt i = st.slotAt i := by
  unfold Store.slotAt; rw [Store.cellAt_eq h]

@[simp] theorem Store.cellAt_write (st : Store) (i : Nat) (v : Slot) (j : Nat) :
    (st.write i v).cellAt j = if j = i then ⟨v, false⟩ else st.cellAt j := by
  simp [Store.cellAt, Store.write]

@[simp] theorem Store.slotAt_write (st : Store) (i : Nat) (v : Slot) (j : Nat) :
    (st.write i v).slotAt j = if j = i then v else st.slotAt j := by
  unfold Store.slotAt
  rw [Store.cellAt_write]
  split <;> rfl

theorem Store.changeSlot_cells (st : Store) (i : Nat) (v : Slot) :
    (st.changeSlot i v).cells = (st.write i v).cells := by
  unfold Store.changeSlot
  dsimp only
  split <;> simp

/-- A slot change writes the slot with a renewed check and leaves every other slot as it was. -/
@[simp] theorem Store.cellAt_changeSlot (st : Store) (i : Nat) (v : Slot) (j : Nat) :
    (st.changeSlot i v).cellAt j = if j = i then ⟨v, false⟩ else st.cellAt j := by
  rw [Store.cellAt_eq (st.changeSlot_cells i v), Store.cellAt_write]

@[simp] theorem Store.slotAt_changeSlot (st : Store) (i : Nat) (v : Slot) (j : Nat) :
    (st.changeSlot i v).slotAt j = if j = i then v else st.slotAt j := by
  rw [Store.slotAt_eq (st.changeSlot_cells i v), Store.slotAt_write]

/-- A slot change keeps the directory, but that a slot made FREE leaves it. -/
theorem Store.directory_changeSlot (st : Store) (i : Nat) (v : Slot) :
    (st.changeSlot i v).directory =
      if v.isFree then st.directory.filter fun e => decide (e.2 ≠ i) else st.directory := by
  unfold Store.changeSlot
  dsimp only
  split <;> simp [Store.releaseKey]

@[simp] theorem Store.pageAt_setLastTransfer (st : Store) (p : Nat) (n : Word) (q : Nat) :
    (st.setLastTransfer p n).pageAt q =
      if q = p then { st.pageAt p with lastTransfer := some n } else st.pageAt q := by
  simp [Store.setLastTransfer, Store.pageAt]

@[simp] theorem Store.pageAt_openPage (st : Store) (p : Nat) (sc : Schedule) (q : Nat) :
    (st.openPage p sc).pageAt q = if q = p then ⟨some sc, none⟩ else st.pageAt q := by
  simp [Store.openPage, Store.pageAt]

/-- A page closed loses class and phase and keeps its last transfer (R29). -/
@[simp] theorem Store.pageAt_closePage (st : Store) (p q : Nat) :
    (st.closePage p).pageAt q = if q = p then { st.pageAt p with schedule := none } else st.pageAt q := by
  unfold Store.closePage
  cases h : (st.pageAt p).schedule with
  | none =>
    dsimp only
    by_cases hq : q = p
    · subst hq
      rw [if_pos rfl]
      cases hp : st.pageAt q with
      | mk sc lt => rw [hp] at h; simp at h; simp [h]
    · rw [if_neg hq]
  | some sc => simp [Store.pageAt]

/-- A page with a LIVE or WITHDRAWING slot is OPEN (R26). -/
theorem Store.pageState_of_emittable (st : Store) (i : Nat) (h : (st.slotAt i).emittable = true) :
    st.pageState (i / Config.slotsPerPage) = .open_ := by
  unfold Store.pageState
  dsimp only
  rw [if_pos]
  rw [List.any_eq_true]
  refine ⟨st.slotAt i, ?_, h⟩
  unfold Store.pageSlots
  rw [List.mem_map]
  refine ⟨i % Config.slotsPerPage, List.mem_range.2 (Nat.mod_lt _ (by decide)), ?_⟩
  congr 1
  simp only [slotIndex, Config.slotsPerPage]
  omega

/-- A slot changed to LIVE or WITHDRAWING is written, and its page is left as it is (R26). -/
theorem Store.changeSlot_of_emittable (st : Store) (i : Nat) (v : Slot) (h : v.emittable = true) :
    st.changeSlot i v = st.write i v := by
  have hf : v.isFree = false := by cases v <;> simp_all [Slot.emittable, Slot.isFree]
  unfold Store.changeSlot Store.replan
  rw [hf]
  simp only [Bool.false_eq_true, if_false]
  rw [Store.pageState_of_emittable _ i (by simpa using h)]

/-! ### Verification -/

/-- A verifying read of a slot whose check holds changes nothing. -/
theorem Store.verify_sound (st : Store) (i : Nat) (h : (st.cellAt i).upset = false) : st.verify i = st := by
  simp [Store.verify, h]

/-- A verifying read leaves every other slot as it was. -/
theorem Store.slotAt_verify_ne (st : Store) (i j : Nat) (h : j ≠ i) : (st.verify i).slotAt j = st.slotAt j := by
  unfold Store.verify
  split
  · split <;> simp [h]
  · rfl

/-- A verifying read that fails leaves the slot DAMAGED. -/
theorem Store.slotAt_verify_upset (st : Store) (i : Nat) (h : (st.cellAt i).upset = true) :
    (st.verify i).slotAt i =
      match st.slotAt i with
      | .live _ _ _ | .withdrawing _ _ _ | .lapsed _ => .damaged false
      | .free => .free
      | .reserved r => .reserved r
      | .damaged b => .damaged b := by
  unfold Store.verify
  rw [if_pos h]
  cases hs : st.slotAt i <;> simp [hs]

/-- After a verifying read no LIVE, WITHDRAWING or LAPSED slot has a failing check. -/
theorem Store.verify_cases (st : Store) (i : Nat) :
    (st.verify i = st) ∨ (st.verify i = st.changeSlot i (.damaged false) ∧ (st.slotAt i).isFree = false) := by
  unfold Store.verify
  split
  · cases hs : st.slotAt i <;> simp [Slot.isFree]
  · exact .inl rfl

/-- A verifying read leaves its slot as it finds it, and every other slot as it was. -/
theorem Store.slotAt_verify (st : Store) (i j : Nat) :
    (st.verify i).slotAt j = if j = i then st.found i else st.slotAt j := by
  by_cases hj : j = i
  · subst hj
    rw [if_pos rfl]
    unfold Store.verify Store.found Cell.found Store.slotAt
    cases hu : (st.cellAt j).upset <;> cases hs : (st.cellAt j).slot <;> simp [hs]
  · rw [if_neg hj, st.slotAt_verify_ne i j hj]

/-- A verifying read leaves the cells of every other slot as they were. -/
theorem Store.cellAt_verify_ne (st : Store) (i j : Nat) (h : j ≠ i) : (st.verify i).cellAt j = st.cellAt j := by
  rcases st.verify_cases i with hv | ⟨hv, -⟩ <;> rw [hv]
  simp [h]

/-- A slot that a verifying read finds LIVE, WITHDRAWING or LAPSED is found as it stands, and nothing changes. -/
theorem Store.verify_eq_self (st : Store) (i : Nat) (h : st.found i ≠ .damaged false) : st.verify i = st := by
  unfold Store.verify
  split
  next hu =>
    unfold Store.found Cell.found at h
    rw [hu] at h
    unfold Store.slotAt
    cases hs : (st.cellAt i).slot <;> simp [hs] at h ⊢
  · rfl

/-- What a verifying read finds is the slot as it stands, unless it is found DAMAGED. -/
theorem Store.found_eq_slotAt (st : Store) (i : Nat) (h : st.found i ≠ .damaged false) :
    st.slotAt i = st.found i := by
  rw [← st.verify_eq_self i h, Store.slotAt_verify, if_pos rfl, st.verify_eq_self i h]

/-- A verifying read keeps the Key Directory: a slot found DAMAGED keeps its key (R11). -/
@[simp] theorem Store.directory_verify (st : Store) (i : Nat) : (st.verify i).directory = st.directory := by
  rcases st.verify_cases i with h | ⟨h, -⟩ <;> rw [h]
  simp [Store.directory_changeSlot, Slot.isFree]

/-- A verifying read that may restore a RESERVED slot keeps the Key Directory. -/
@[simp] theorem Store.directory_verifyAny (st : Store) (entries : List BatchEntry) (i : Nat) :
    (st.verifyAny entries i).directory = st.directory := by
  unfold Store.verifyAny
  split
  · split <;> rfl
  all_goals exact st.directory_verify i

/-! ### The visits of one slot -/

/-- The countdown of one slot writes that slot and no other. -/
theorem Store.slotAt_countdownSlot (w : Nat) (st : Store) (i : Nat) :
    (Store.countdownSlot w st i).slotAt i = (st.cellAt i).counted w := by
  have hf : st.found i = (st.cellAt i).found := rfl
  have hs : st.slotAt i = (st.cellAt i).slot := rfl
  have hv := st.slotAt_verify i i
  rw [if_pos rfl, hf] at hv
  unfold Store.countdownSlot Cell.counted
  rw [hs]
  cases hc : (st.cellAt i).slot with
  | live r remaining staged =>
    cases remaining with
    | none => simp only []; rw [hs, hc]
    | some n =>
      dsimp only
      rw [hv]
      unfold Cell.found
      rw [hc]
      dsimp only
      by_cases hu : (st.cellAt i).upset = true
      · simp only [hu, if_true]
        rw [hv]
        simp [Cell.found, hc, hu]
      · simp only [hu, if_false, Bool.false_eq_true]
        split <;> simp [Store.slotAt_changeSlot]
  | _ => simp only []; rw [hs, hc]

theorem Store.cellAt_countdownSlot_ne (w : Nat) (st : Store) (i j : Nat) (h : j ≠ i) :
    (Store.countdownSlot w st i).cellAt j = st.cellAt j := by
  have hv := st.cellAt_verify_ne i j h
  unfold Store.countdownSlot
  split <;> try rfl
  dsimp only
  split <;> try exact hv
  split <;> simp [h, hv]

/-- A visit of every slot of a list, each of which writes its own slot from its own cell, writes exactly the slots of the
list. -/
theorem Store.slotAt_visits (visit : Store → Nat → Store) (after : Nat → Cell → Slot)
    (own : ∀ st i, (visit st i).slotAt i = after i (st.cellAt i))
    (others : ∀ st i j, j ≠ i → (visit st i).cellAt j = st.cellAt j) (l : List Nat) (hl : l.Nodup) :
    ∀ (st : Store) (j : Nat),
      (l.foldl visit st).slotAt j = if j ∈ l then after j (st.cellAt j) else st.slotAt j := by
  induction l with
  | nil => intro st j; simp
  | cons i l ih =>
    intro st j
    rw [List.foldl_cons, ih (List.nodup_cons.1 hl).2]
    by_cases hj : j = i
    · subst hj
      simp [(List.nodup_cons.1 hl).1, own]
    · have hc := others st i j hj
      have : (visit st i).slotAt j = st.slotAt j := by unfold Store.slotAt; rw [hc]
      simp [hj, hc, this]

/-- Visits that each take at most the directory entries of their own slot out, by its own cell, take exactly those of the
slots of the list out. -/
theorem Store.directory_visits (visit : Store → Nat → Store) (frees : Cell → Prop)
    (own : ∀ st i e, e ∈ (visit st i).directory ↔ e ∈ st.directory ∧ ¬ (e.2 = i ∧ frees (st.cellAt i)))
    (others : ∀ st i j, j ≠ i → (visit st i).cellAt j = st.cellAt j) (l : List Nat) (hl : l.Nodup) :
    ∀ (st : Store) (e : Nat × Nat),
      e ∈ (l.foldl visit st).directory ↔ e ∈ st.directory ∧ ¬ (e.2 ∈ l ∧ frees (st.cellAt e.2)) := by
  induction l with
  | nil => intro st e; simp
  | cons i l ih =>
    intro st e
    rw [List.foldl_cons, ih (List.nodup_cons.1 hl).2, own, List.mem_cons]
    by_cases he : e.2 = i
    · subst he
      simp [(List.nodup_cons.1 hl).1]
    · rw [others st i e.2 he]
      simp [he]

/-- A slot change takes the directory entry of its slot out exactly where the slot becomes FREE (R6, R13). -/
theorem Store.mem_directory_changeSlot (st : Store) (i : Nat) (v : Slot) (e : Nat × Nat) :
    e ∈ (st.changeSlot i v).directory ↔ e ∈ st.directory ∧ ¬ (e.2 = i ∧ v = .free) := by
  rw [Store.directory_changeSlot]
  cases v <;> simp [Slot.isFree]

theorem nodup_slotIndices : slotIndices.Nodup := List.nodup_range

theorem mem_slotIndices (i : Nat) : i ∈ slotIndices ↔ i < Config.slotCount := List.mem_range

/-- The countdown of a boundary: every slot of the table is counted, no other slot changes (R67). -/
theorem Store.slotAt_countdown (st : Store) (w j : Nat) :
    (st.countdown w).slotAt j = if j < Config.slotCount then (st.cellAt j).counted w else st.slotAt j := by
  unfold Store.countdown
  rw [Store.slotAt_visits (Store.countdownSlot w) (fun _ c => c.counted w) (Store.slotAt_countdownSlot w)
    (Store.cellAt_countdownSlot_ne w) slotIndices nodup_slotIndices]
  simp only [mem_slotIndices]

/-- The countdown keeps the Key Directory: a record that expires or is found DAMAGED keeps its key. -/
theorem Store.directory_countdown (st : Store) (w : Nat) : (st.countdown w).directory = st.directory := by
  unfold Store.countdown
  suffices ∀ (l : List Nat) (st : Store), (l.foldl (Store.countdownSlot w) st).directory = st.directory from this _ st
  intro l
  induction l with
  | nil => exact fun _ => rfl
  | cons i l ih =>
    intro st
    rw [List.foldl_cons, ih]
    have hd := st.directory_verify i
    unfold Store.countdownSlot
    split <;> try rfl
    dsimp only
    split <;> try exact hd
    split <;> simp [Store.directory_changeSlot, Slot.isFree]

/-! ### The canonical form -/

theorem Store.canonical_of_eq {st st' : Store} (h : st.canonical) (hc : st'.cells = st.cells)
    (hd : st'.directory = st.directory) (hp : st'.pages = st.pages) : st'.canonical := by
  unfold Store.canonical at *
  rwa [hc, hd, hp]

theorem Store.canonical_initial : Store.initial.canonical := ⟨rfl, rfl, rfl⟩

theorem Store.canonical_write {st : Store} (h : st.canonical) (i : Nat) (v : Slot) : (st.write i v).canonical :=
  ⟨Sparse.wf_put _ _ _ _ h.1, h.2⟩

theorem Store.canonical_releaseKey {st : Store} (h : st.canonical) (i : Nat) : (st.releaseKey i).canonical :=
  ⟨h.1, Sparse.rising_filter _ _ h.2.1, h.2.2⟩

theorem Store.canonical_strike {st : Store} (h : st.canonical) (p : Nat) : (st.strike p).canonical :=
  Store.canonical_of_eq h rfl rfl rfl

theorem Store.canonical_closePage {st : Store} (h : st.canonical) (p : Nat) : (st.closePage p).canonical := by
  unfold Store.closePage
  split
  · exact h
  · exact ⟨h.1, h.2.1, Sparse.wf_put _ _ _ _ h.2.2⟩

theorem Store.canonical_replan {st : Store} (h : st.canonical) (p : Nat) : (st.replan p).canonical := by
  unfold Store.replan
  split
  · exact h
  · exact Store.canonical_strike h p
  all_goals exact Store.canonical_strike (Store.canonical_closePage h p) p

theorem Store.canonical_changeSlot {st : Store} (h : st.canonical) (i : Nat) (v : Slot) :
    (st.changeSlot i v).canonical := by
  unfold Store.changeSlot
  dsimp only
  split
  · exact Store.canonical_replan (Store.canonical_releaseKey (Store.canonical_write h i v) i) _
  · exact Store.canonical_replan (Store.canonical_write h i v) _

theorem Store.canonical_openPage {st : Store} (h : st.canonical) (p : Nat) (sc : Schedule) :
    (st.openPage p sc).canonical := ⟨h.1, h.2.1, Sparse.wf_put st.pages _ p ⟨some sc, none⟩ h.2.2⟩

theorem Store.canonical_setLastTransfer {st : Store} (h : st.canonical) (p : Nat) (n : Word) :
    (st.setLastTransfer p n).canonical := ⟨h.1, h.2.1, Sparse.wf_put _ _ _ _ h.2.2⟩

theorem Store.canonical_verify {st : Store} (h : st.canonical) (i : Nat) : (st.verify i).canonical := by
  rcases st.verify_cases i with hv | ⟨hv, -⟩ <;> rw [hv]
  · exact h
  · exact Store.canonical_changeSlot h i _

theorem Store.canonical_verifyAny {st : Store} (h : st.canonical) (entries : List BatchEntry) (i : Nat) :
    (st.verifyAny entries i).canonical := by
  unfold Store.verifyAny
  split
  · split
    · exact Store.canonical_write h i _
    · exact h
  all_goals exact Store.canonical_verify h i

theorem Store.canonical_upset {st : Store} (h : st.canonical) (i : Nat) : (st.upset i).canonical := by
  unfold Store.upset
  split
  · exact h
  · exact h
  all_goals exact ⟨Sparse.wf_put _ _ _ _ h.1, h.2⟩

theorem Store.canonical_enter {st : Store} (h : st.canonical) (a : Allocation) (k : RateClass) (key : Word) (v : Slot) :
    (st.enter a k key v).canonical := by
  unfold Store.enter
  dsimp only
  split
  next phase _ =>
    refine Store.canonical_write ?_ _ _
    have h' := Store.canonical_openPage h a.page ⟨k, phase⟩
    exact ⟨h'.1, Sparse.rising_insert _ _ _ h'.2.1, h'.2.2⟩
  · refine Store.canonical_write ?_ _ _
    exact ⟨h.1, Sparse.rising_insert _ _ _ h.2.1, h.2.2⟩

/-- A fold keeps the canonical form when each of its steps does. -/
theorem Store.canonical_foldl {β : Type} (f : Store → β → Store) (hf : ∀ st x, st.canonical → (f st x).canonical)
    (l : List β) : ∀ st : Store, st.canonical → (l.foldl f st).canonical := by
  induction l with
  | nil => exact fun _ h => h
  | cons x l ih => exact fun st h => ih _ (hf st x h)

theorem Store.canonical_countdown {st : Store} (h : st.canonical) (w : Nat) : (st.countdown w).canonical := by
  refine Store.canonical_foldl _ ?_ _ _ h
  intro st i h
  unfold Store.countdownSlot
  split <;> try exact h
  dsimp only
  split <;> try exact Store.canonical_verify h i
  split <;> exact Store.canonical_changeSlot (Store.canonical_verify h i) i _

theorem Store.canonical_completeWithdrawals {st : Store} (h : st.canonical) : st.completeWithdrawals.canonical := by
  refine Store.canonical_foldl _ ?_ _ _ h
  intro st i h
  unfold Store.completeSlot
  split <;> try exact h
  dsimp only
  split <;> try exact Store.canonical_verify h i
  exact Store.canonical_changeSlot (Store.canonical_verify h i) i _

theorem Store.canonical_retireLive {st : Store} (h : st.canonical) (scan : ScanState) (w i : Nat) (r : Record) :
    (st.retireLive scan w i r).canonical := Store.canonical_changeSlot h i _

theorem Store.canonical_abortBatch {st : Store} (h : st.canonical) (entries : List BatchEntry) :
    (st.abortBatch entries).canonical := by
  refine Store.canonical_foldl _ ?_ _ _ (Store.canonical_foldl _ ?_ _ _ h)
  · intro st e h
    unfold Store.clearStaged
    split <;> try exact h
    split <;> try exact h
    dsimp only
    split <;> try exact Store.canonical_verify h _
    exact Store.canonical_changeSlot (Store.canonical_verify h _) _ _
  · intro st i h
    unfold Store.freeReserved
    split
    · exact Store.canonical_changeSlot (Store.canonical_verifyAny h entries i) i _
    · exact h

theorem applyEntry_canonical (entries : List BatchEntry) (scan : ScanState) (w : Nat) (a : Application) (e : BatchEntry)
    (h : a.store.canonical) : (applyEntry entries scan w a e).store.canonical := by
  have hv := Store.canonical_verifyAny h entries e.slot
  unfold applyEntry
  dsimp only
  repeat' split
  all_goals first
    | exact hv
    | exact Store.canonical_changeSlot hv _ _

theorem applyEntries_canonical {st : Store} (h : st.canonical) (entries : List BatchEntry) (scan : ScanState) (w : Nat) :
    (applyEntries st entries scan w).store.canonical := by
  unfold applyEntries
  suffices ∀ (l : List BatchEntry) (a : Application), a.store.canonical →
      (l.foldl (applyEntry entries scan w) a).store.canonical from this entries _ h
  intro l
  induction l with
  | nil => exact fun _ h => h
  | cons e l ih => exact fun a h => ih _ (applyEntry_canonical entries scan w a e h)

theorem Store.canonical_transferSlot (acc : Store × List Entry) (i : Nat) (h : acc.1.canonical) :
    (Store.transferSlot acc i).1.canonical := by
  have hv : (if (acc.1.slotAt i).emittable then acc.1.verify i else acc.1).canonical := by
    split
    · exact Store.canonical_verify h i
    · exact h
  unfold Store.transferSlot
  dsimp only
  split <;> try exact hv
  exact Store.canonical_changeSlot hv i _

theorem Store.canonical_copyPage {st : Store} (h : st.canonical) (p : Nat) (n : Word) :
    (st.copyPage p n).1.canonical := by
  unfold Store.copyPage
  refine Store.canonical_setLastTransfer ?_ p n
  suffices ∀ (l : List Nat) (acc : Store × List Entry), acc.1.canonical →
      (l.foldl Store.transferSlot acc).1.canonical from this _ _ (Store.canonical_of_eq h rfl rfl rfl)
  intro l
  induction l with
  | nil => exact fun _ h => h
  | cons i l ih => exact fun acc h => ih _ (Store.canonical_transferSlot acc i h)

theorem Store.canonical_writeEcho {st : Store} (h : st.canonical) (item : ReplySlot) :
    (st.writeEcho item).canonical := by
  have hv := Store.canonical_verify h item.slot
  unfold Store.writeEcho
  dsimp only
  split <;> try exact hv
  split
  · exact Store.canonical_changeSlot hv _ _
  · exact hv

theorem Store.canonical_demandLookup {st : Store} (h : st.canonical) (entries : List BatchEntry) (key : Word) :
    (st.demandLookup entries key).1.canonical := by
  unfold Store.demandLookup
  split
  · exact h
  · exact Store.canonical_verifyAny h _ _

end Sys2Proof.Machine
end

