-- ==== Sys2Proof/Laws/Plan.lean ====
section
/-! SUPPORT. The Key Directory and the load counters under a change of one slot. -/

namespace Sys2Proof.Machine

/-! ### The Key Directory (R13) -/

/-- A non-FREE slot changed, or made FREE, keeps the Key Directory exact. -/
theorem Store.occupied_changeSlot {st : Store} (h : st.Occupied) (i : Nat) (v : Slot) (hi : st.slotAt i ≠ .free) :
    (st.changeSlot i v).Occupied := by
  have hd := st.directory_changeSlot i v
  cases hf : v.isFree
  · have hv : v ≠ .free := by rintro rfl; simp [Slot.isFree] at hf
    rw [hf, if_neg (by simp)] at hd
    refine ⟨hd ▸ h.rising, hd ▸ h.distinct, fun j => ?_, hd ▸ h.inTable⟩
    rw [hd, Store.slotAt_changeSlot, ← h.exact j]
    by_cases hj : j = i
    · subst hj; simp [hv, hi]
    · simp [hj]
  · have hv : v = .free := by cases v <;> simp_all [Slot.isFree]
    rw [hf, if_pos rfl] at hd
    refine ⟨?_, ?_, fun j => ?_, ?_⟩
    · rw [hd]; exact Sparse.rising_filter _ _ h.rising
    · rw [hd]; exact h.distinct.filter _
    · rw [hd, Store.slotAt_changeSlot]
      by_cases hj : j = i
      · subst hj; simp [hv]
      · simp only [hj, if_false, h.exact j, List.mem_filter, decide_eq_true_eq]
        constructor
        · rintro ⟨e, he, e2⟩; exact ⟨e, ⟨he, by rw [e2]; exact hj⟩, e2⟩
        · rintro ⟨e, ⟨he, -⟩, e2⟩; exact ⟨e, he, e2⟩
    · rw [hd]
      intro e he
      exact h.inTable e (List.mem_filter.1 he).1

/-- The Key Directory stays exact where slots that are FREE stay FREE, the others stay non-FREE, and it is unchanged. -/
theorem Store.occupied_of_eq {st st' : Store} (h : st.Occupied) (hd : st'.directory = st.directory)
    (hs : ∀ i, st'.slotAt i = .free ↔ st.slotAt i = .free) : st'.Occupied :=
  ⟨hd ▸ h.rising, hd ▸ h.distinct, fun i => by rw [hd, ← h.exact i, ne_eq, ne_eq, hs i], hd ▸ h.inTable⟩

/-! ### The load counters (R30) -/

/-- Two tests that differ at one element of a list without repetition count it apart. -/
theorem length_filter_update {l : List Nat} (hl : l.Nodup) (p : Nat) (hp : p ∈ l) (f g : Nat → Bool)
    (h : ∀ q, q ≠ p → f q = g q) : (l.filter f).length + (g p).toNat = (l.filter g).length + (f p).toNat := by
  induction l with
  | nil => exact absurd hp List.not_mem_nil
  | cons x l ih =>
    obtain ⟨hx, hl'⟩ := List.nodup_cons.1 hl
    by_cases hxp : x = p
    · subst hxp
      have : l.filter f = l.filter g := List.filter_congr fun q hq => h q fun e => hx (e ▸ hq)
      cases hf : f x <;> cases hg : g x <;> simp [hf, hg, this]
    · have hm : p ∈ l := (List.mem_cons.1 hp).resolve_left fun e => hxp e.symm
      have := ih hl' hm
      have hfg := h x hxp
      cases hg : g x <;> simp [hfg, hg] <;> omega

theorem nodup_pageIndices : pageIndices.Nodup := List.nodup_range

theorem mem_pageIndices (p : Nat) : p ∈ pageIndices ↔ p < Config.pageCount := List.mem_range

/-- Two tables with the same slots in a page give it the same state (R26). -/
theorem Store.pageState_congr {st st' : Store} (p : Nat)
    (h : ∀ k, k < Config.slotsPerPage → st'.slotAt (slotIndex p k) = st.slotAt (slotIndex p k)) :
    st'.pageState p = st.pageState p := by
  have : st'.pageSlots p = st.pageSlots p := by
    unfold Store.pageSlots
    exact List.map_congr_left fun k hk => h k (List.mem_range.1 hk)
  unfold Store.pageState
  rw [this]

/-- A slot lies in the page of its index (R1). -/
theorem slotIndex_div (p k : Nat) (hk : k < Config.slotsPerPage) : slotIndex p k / Config.slotsPerPage = p := by
  simp only [slotIndex, Config.slotsPerPage] at *
  omega

/-- A change of one slot leaves the state of every other page (R26). -/
theorem Store.pageState_write_ne (st : Store) (i : Nat) (v : Slot) (q : Nat) (h : q ≠ i / Config.slotsPerPage) :
    (st.write i v).pageState q = st.pageState q := by
  apply Store.pageState_congr
  intro k hk
  rw [Store.slotAt_write, if_neg]
  rintro rfl
  exact h (slotIndex_div q k hk).symm

/-- A page is OPENING or OPEN exactly while one of its slots is RESERVED, LIVE or WITHDRAWING (R26). -/
theorem Store.scheduled_iff (st : Store) (p : Nat) :
    st.scheduled p = true ↔ ∃ k, k < Config.slotsPerPage ∧
      ((st.slotAt (slotIndex p k)).emittable = true ∨ (st.slotAt (slotIndex p k)).isReserved = true) := by
  unfold Store.scheduled Store.pageState Store.pageSlots
  have he : ((List.range Config.slotsPerPage).map fun k => st.slotAt (slotIndex p k)).any Slot.emittable = true ↔
      ∃ k, k < Config.slotsPerPage ∧ (st.slotAt (slotIndex p k)).emittable = true := by simp
  have hr : ((List.range Config.slotsPerPage).map fun k => st.slotAt (slotIndex p k)).any Slot.isReserved = true ↔
      ∃ k, k < Config.slotsPerPage ∧ (st.slotAt (slotIndex p k)).isReserved = true := by simp
  dsimp only
  by_cases h1 : ((List.range Config.slotsPerPage).map fun k => st.slotAt (slotIndex p k)).any Slot.emittable = true
  · rw [if_pos h1]
    obtain ⟨k, hk, h⟩ := he.1 h1
    simp only [decide_eq_true_eq, or_true, true_iff]
    exact ⟨k, hk, .inl h⟩
  · rw [if_neg h1]
    by_cases h2 : ((List.range Config.slotsPerPage).map fun k => st.slotAt (slotIndex p k)).any Slot.isReserved = true
    · rw [if_pos h2]
      obtain ⟨k, hk, h⟩ := hr.1 h2
      simp only [decide_eq_true_eq, true_or, true_iff]
      exact ⟨k, hk, .inr h⟩
    · rw [if_neg h2]
      have hn : ¬ ∃ k, k < Config.slotsPerPage ∧
          ((st.slotAt (slotIndex p k)).emittable = true ∨ (st.slotAt (slotIndex p k)).isReserved = true) := by
        rintro ⟨k, hk, h | h⟩
        · exact h1 (he.2 ⟨k, hk, h⟩)
        · exact h2 (hr.2 ⟨k, hk, h⟩)
      constructor
      · split <;> simp
      · exact fun h => absurd h hn

/-- What holds of class, phase and load counters before a slot of the page is changed holds after: the slot's page stays
scheduled, or leaves OPENING and OPEN with its load removed (R28, R29, R30). -/
theorem Store.planned_changeSlot {st : Store} (h : st.Planned) (i : Nat) (v : Slot) (hi : st.slotAt i ≠ .free)
    (hv : v.emittable = true ∨ v.isReserved = true →
      (st.slotAt i).emittable = true ∨ (st.slotAt i).isReserved = true) : (st.changeSlot i v).Planned := by
  have hlt : i < Config.slotCount := by
    by_contra hh
    exact hi (h.inTable i (by omega))
  have hp : i / Config.slotsPerPage < Config.pageCount := by
    simp only [Config.slotCount, Config.slotsPerPage, Config.pageCount] at *
    omega
  have hii : i = slotIndex (i / Config.slotsPerPage) (i % Config.slotsPerPage) := by
    simp only [slotIndex, Config.slotsPerPage]
    omega
  have hmod : i % Config.slotsPerPage < Config.slotsPerPage := Nat.mod_lt _ (by decide)
  generalize hP : i / Config.slotsPerPage = p at *
  -- the slots and their pages after the change
  have slots : ∀ j, (st.changeSlot i v).slotAt j = if j = i then v else st.slotAt j := st.slotAt_changeSlot i v
  have schedNe : ∀ q, q ≠ p → (st.changeSlot i v).scheduled q = st.scheduled q := by
    intro q hq
    unfold Store.scheduled
    have : (st.changeSlot i v).pageState q = st.pageState q := by
      apply Store.pageState_congr
      intro k hk
      rw [slots, if_neg]
      intro e
      exact hq (by rw [← slotIndex_div q k hk, e, hP])
    rw [this]
  have sched : (st.changeSlot i v).scheduled p = true → st.scheduled p = true := by
    rw [Store.scheduled_iff, Store.scheduled_iff]
    rintro ⟨k, hk, hkk⟩
    rw [slots] at hkk
    by_cases hki : slotIndex p k = i
    · rw [if_pos hki] at hkk
      exact ⟨k, hk, by rw [hki]; exact hv hkk⟩
    · rw [if_neg hki] at hkk
      exact ⟨k, hk, hkk⟩
  have table : ∀ j, Config.slotCount ≤ j → (st.changeSlot i v).slotAt j = .free := by
    intro j hj
    rw [slots, if_neg (by omega)]
    exact h.inTable j hj
  -- the store before its page is planned again
  have state : ∀ st' : Store, st'.cells = (st.changeSlot i v).cells → st'.pageState p = (st.changeSlot i v).pageState p :=
    fun st' e => Store.pageState_congr p fun k _ => Store.slotAt_eq e _
  have form : ∃ st0 : Store, st.changeSlot i v = st0.replan p ∧ st0.cells = (st.changeSlot i v).cells ∧
      st0.pages = st.pages ∧ st0.loads = st.loads := by
    unfold Store.changeSlot
    rw [hP]
    dsimp only
    split
    · exact ⟨(st.write i v).releaseKey i, rfl, by simp, rfl, rfl⟩
    · exact ⟨st.write i v, rfl, by simp, rfl, rfl⟩
  obtain ⟨st0, e0, ec, ep, el⟩ := form
  have s0 := state st0 ec
  have page0 : ∀ q, st0.pageAt q = st.pageAt q := fun q => by unfold Store.pageAt; rw [ep]
  by_cases hs : (st.changeSlot i v).scheduled p = true
  · -- the page stays OPENING or OPEN: class, phase and counters stay
    have hpg : (st.changeSlot i v).pages = st.pages ∧ (st.changeSlot i v).loads = st.loads := by
      have : st0.pageState p = .opening ∨ st0.pageState p = .open_ := by
        rw [s0]
        simpa [Store.scheduled] using hs
      rw [e0]
      unfold Store.replan
      rcases this with e | e <;> rw [e] <;> exact ⟨ep, el⟩
    have pg : ∀ q, (st.changeSlot i v).pageAt q = st.pageAt q := fun q => by unfold Store.pageAt; rw [hpg.1]
    have sc : ∀ q, (st.changeSlot i v).scheduled q = st.scheduled q := by
      intro q
      by_cases hq : q = p
      · subst hq; rw [hs, sched hs]
      · exact schedNe q hq
    refine ⟨by rw [hpg.2]; exact h.counters, fun q => by rw [pg, sc]; exact h.schedules q, fun n hn => ?_, table⟩
    have : (st.changeSlot i v).promised n = st.promised n := by
      funext q
      unfold Store.promised
      rw [pg, sc]
    rw [this]
    have : (st.changeSlot i v).load n = st.load n := by unfold Store.load; rw [hpg.2]
    rw [this]
    exact h.loads n hn
  · -- the page leaves OPENING and OPEN
    have hs' : (st.changeSlot i v).scheduled p = false := by simpa using hs
    have hst : st0.pageState p = .closed ∨ st0.pageState p = .dormant := by
      rw [s0]
      cases hps : (st.changeSlot i v).pageState p <;> simp [Store.scheduled, hps] at hs <;> simp
    have e1 : st.changeSlot i v = (st0.closePage p).strike p := by
      rw [e0]
      unfold Store.replan
      rcases hst with e | e <;> rw [e]
    have pg : ∀ q, (st.changeSlot i v).pageAt q =
        if q = p then { st.pageAt p with schedule := none } else st.pageAt q := by
      intro q
      have : (st.changeSlot i v).pageAt q = (st0.closePage p).pageAt q := by
        rw [e1]; rfl
      rw [this, Store.pageAt_closePage, page0, page0]
    have ld : (st.changeSlot i v).loads = match (st.pageAt p).schedule with
        | none => st.loads
        | some sc => (st0.removeLoad sc).loads := by
      rw [e1, Store.strike_loads]
      unfold Store.closePage
      rw [page0]
      cases (st.pageAt p).schedule with
      | none => exact el
      | some sc => rfl
    have lold : ∀ n, st0.load n = st.load n := fun n => by unfold Store.load; rw [el]
    refine ⟨?_, fun q => ?_, fun n hn => ?_, table⟩
    · rw [ld]
      cases (st.pageAt p).schedule with
      | none => exact h.counters
      | some sc => simp [Store.removeLoad, cycleIndices]
    · rw [pg]
      by_cases hq : q = p
      · subst hq; rw [if_pos rfl, hs']; rfl
      · rw [if_neg hq, schedNe q hq]; exact h.schedules q
    · have agree : ∀ q, q ≠ p → (st.changeSlot i v).promised n q = st.promised n q := by
        intro q hq
        unfold Store.promised
        rw [schedNe q hq, pg, if_neg hq]
      have gone : (st.changeSlot i v).promised n p = false := by
        unfold Store.promised
        rw [hs']; rfl
      have count := length_filter_update nodup_pageIndices p ((mem_pageIndices p).2 hp) _ _ agree
      rw [gone] at count
      have old := h.loads n hn
      have sp := h.schedules p
      cases hsc : (st.pageAt p).schedule with
      | none =>
        rw [hsc] at ld sp
        have : st.promised n p = false := by
          unfold Store.promised
          rw [← sp]; rfl
        rw [this] at count
        have : (st.changeSlot i v).load n = st.load n := by unfold Store.load; rw [ld]
        simp only [Bool.toNat_false] at count
        omega
      | some sc =>
        rw [hsc] at ld sp
        have hn' : n < 16 := hn
        have : (st.changeSlot i v).load n = if sc.dueAt n then st.load n - 1 else st.load n := by
          unfold Store.load
          rw [ld]
          simp only [Store.removeLoad, cycleIndices, Config.indexCount]
          simp only [lold]
          simp [hn', Store.load]
        have pr : st.promised n p = sc.dueAt n := by
          unfold Store.promised
          rw [← sp, hsc]; rfl
        rw [pr] at count
        simp only [Bool.toNat_false] at count
        rw [this]
        cases hd : sc.dueAt n <;> rw [hd] at count <;> simp at count ⊢ <;> omega

end Sys2Proof.Machine
end

