-- ==== Sys2Proof/Laws/Keeping.lean ====
section
/-! SUPPORT. What the arbiter's operations keep, what a slot change leaves of the keys, and what an allocation and the
entering of a record leave of the table. -/

namespace Sys2Proof.Machine

/-! ### Claims, grants and boundaries keep the table -/

/-- Two states agree in the table, the batch and the host port. -/
def State.Agrees (s t : State) : Prop := t.store = s.store ∧ t.batch = s.batch ∧ t.port = s.port

theorem State.Agrees.trans {s t u : State} (h : s.Agrees t) (h' : t.Agrees u) : s.Agrees u :=
  ⟨h'.1.trans h.1, h'.2.1.trans h.2.1, h'.2.2.trans h.2.2⟩

theorem State.agrees_stopAtGrant (s : State) : s.Agrees s.stopAtGrant := by
  unfold State.stopAtGrant
  dsimp only
  split
  · exact ⟨rfl, rfl, rfl⟩
  · split <;> exact ⟨rfl, rfl, rfl⟩

theorem State.agrees_afterGrant (s : State) : s.Agrees s.afterGrant := by
  unfold State.afterGrant
  split
  · exact s.agrees_stopAtGrant
  · exact ⟨rfl, rfl, rfl⟩

/-- A claim of any accessor keeps the table, the batch and the port. -/
theorem State.agrees_claim (s : State) (c : Claim) : s.Agrees (s.claim c) := by
  unfold State.claim
  split
  · exact State.agrees_afterGrant { s with arbiter := s.arbiter.grantTo c }
  · exact ⟨rfl, rfl, rfl⟩

/-- The end of an access keeps the table, the batch and the port. -/
theorem State.agrees_release (s : State) : s.Agrees s.release :=
  State.agrees_afterGrant { s with arbiter := s.arbiter.next }

theorem State.agrees_claimTransfer (s : State) : s.Agrees s.claimTransfer := by
  unfold State.claimTransfer
  split
  · split
    · exact s.agrees_claim _
    · exact ⟨rfl, rfl, rfl⟩
  · exact ⟨rfl, rfl, rfl⟩

/-- Fixing the due list keeps all of the table but the due list. -/
theorem State.agrees_fixDueList (s : State) :
    State.Agrees { s with store := s.store.fixDue s.timer.index.toNat } s.fixDueList :=
  State.agrees_claimTransfer _

/-- A boundary empties the due list and keeps the rest of the table, the batch and the port. -/
theorem State.agrees_takeBoundary (s : State) (first : Bool) :
    State.Agrees { s with store := { s.store with due := [] } } (s.takeBoundary first) := by
  unfold State.takeBoundary
  dsimp only
  have h1 : ∀ u : State, u.Agrees (if u.scan.state = .stopped then u else u.abandonTraffic) := by
    intro u
    split <;> exact ⟨rfl, rfl, rfl⟩
  have h2 : ∀ u : State, u.Agrees (if u.batch.state = .sealed_ then u.claim .application else u) := by
    intro u
    split
    · exact u.agrees_claim _
    · exact ⟨rfl, rfl, rfl⟩
  have h3 : ∀ u : State, u.Agrees (if u.scan.state = .stopped then u else u.scanBoundary first) := by
    intro u
    split
    · exact ⟨rfl, rfl, rfl⟩
    · unfold State.scanBoundary
      dsimp only
      split <;> exact ⟨rfl, rfl, rfl⟩
  exact (((h1 { s with timer := s.timer.boundary first, store := { s.store with due := [] } }).trans
    (State.agrees_claim _ .countdown)).trans (h2 _)).trans (h3 _)

/-! ### The key of a slot -/

theorem find?_filter_of_imp {α : Type} (l : List α) (p q : α → Bool) (h : ∀ x ∈ l, p x = true → q x = true) :
    (l.filter q).find? p = l.find? p := by
  induction l with
  | nil => rfl
  | cons x l ih =>
    have ih := ih fun y hy => h y (List.mem_cons_of_mem _ hy)
    have hx := h x List.mem_cons_self
    rw [List.filter_cons]
    by_cases hp : p x = true
    · rw [if_pos (hx hp)]
      simp [hp]
    · by_cases hq : q x = true
      · rw [if_pos hq]
        simp [hp, ih]
      · rw [if_neg hq, ih]
        simp [hp]

/-- A slot change keeps the key of every slot, but that a slot made FREE has none. -/
theorem Store.keyAt_changeSlot (st : Store) (i : Nat) (v : Slot) (j : Nat) :
    (st.changeSlot i v).keyAt j = if v.isFree = true ∧ j = i then none else st.keyAt j := by
  unfold Store.keyAt
  rw [st.directory_changeSlot]
  cases hf : v.isFree with
  | false => simp
  | true =>
    simp only [if_true, true_and]
    by_cases hj : j = i
    · rw [if_pos hj]
      have : List.find? (fun e => decide (e.2 = j)) (st.directory.filter fun e => decide (e.2 ≠ i)) = none := by
        rw [List.find?_eq_none]
        intro x hx
        have := (List.mem_filter.1 hx).2
        rw [hj]
        simpa using this
      rw [this]
    · rw [if_neg hj, find?_filter_of_imp]
      intro x _ hx
      simp at hx ⊢
      rw [hx]
      exact hj

/-! ### Allocation and the entering of a record -/

theorem find?_range_some {n : Nat} {f : Nat → Bool} {k : Nat} (h : (List.range n).find? f = some k) :
    k < n ∧ f k = true := by
  rw [List.find?_range_eq_some] at h
  simp at h
  exact ⟨by tauto, by tauto⟩

theorem Slot.isFree_iff (v : Slot) : v.isFree = true ↔ v = .free := by
  cases v <;> simp [Slot.isFree]

/-- A page has a FREE slot to give exactly where one of its eight slots is FREE (R31, R32). -/
theorem Store.isSome_freeSlotOf (st : Store) (p : Nat) :
    (st.freeSlotOf p).isSome = true ↔ ∃ n, n < 8 ∧ st.slotAt (p * 8 + n) = .free := by
  unfold Store.freeSlotOf
  rw [List.find?_isSome]
  simp [Slot.isFree_iff, slotIndex, Config.slotsPerPage]

/-- The pages that an INSERT of a class can join: OPENING or OPEN, of the class, with a FREE slot (R31). -/
theorem Store.joinable_iff (st : Store) (k : RateClass) (p : Nat) :
    st.joinable k p = true ↔
      (st.pageState p = .opening ∨ st.pageState p = .open_) ∧
        (∃ sc, (st.pageAt p).schedule = some sc ∧ sc.cls = k) ∧ ∃ n, n < 8 ∧ st.slotAt (p * 8 + n) = .free := by
  rw [← Store.isSome_freeSlotOf]
  unfold Store.joinable
  cases (st.pageAt p).schedule <;> simp
  tauto

/-- The pages that an INSERT can open: CLOSED or DORMANT, with a FREE slot (R32). -/
theorem Store.openable_iff (st : Store) (p : Nat) :
    st.openable p = true ↔
      (st.pageState p = .closed ∨ st.pageState p = .dormant) ∧ ∃ n, n < 8 ∧ st.slotAt (p * 8 + n) = .free := by
  rw [← Store.isSome_freeSlotOf]
  unfold Store.openable
  simp

/-- An allocation gives a FREE slot of the table. -/
theorem Store.allocate_free {st : Store} {frames : Nat} {k : RateClass} {a : Allocation}
    (h : st.allocate frames k = .ok a) : st.slotAt a.slot = .free ∧ a.slot < Config.slotCount := by
  have hp : ∀ p, p < 128 → (st.freeSlotOf p).isSome = true →
      st.slotAt (slotIndex p ((st.freeSlotOf p).getD 0)) = .free ∧
        slotIndex p ((st.freeSlotOf p).getD 0) < Config.slotCount := by
    intro p hp h
    obtain ⟨n, hn⟩ := Option.isSome_iff_exists.1 h
    rw [hn]
    obtain ⟨h1, h2⟩ := find?_range_some hn
    refine ⟨?_, ?_⟩
    · simp only [Option.getD_some]
      cases hs : st.slotAt (slotIndex p n) <;> simp_all [Slot.isFree]
    · simp [slotIndex, Config.slotCount, Config.slotsPerPage] at *
      omega
  unfold Store.allocate at h
  split at h
  next p hf =>
    cases h
    obtain ⟨h1, h2⟩ := find?_range_some hf
    refine hp p h1 ?_
    unfold Store.joinable at h2
    split at h2
    · simp at h2
      exact h2.2
    · cases h2
  next =>
    split at h
    · cases h
    next p hf =>
      dsimp only at h
      split at h
      · cases h
      · cases h
        obtain ⟨h1, h2⟩ := find?_range_some hf
        refine hp p h1 ?_
        unfold Store.openable at h2
        simp at h2
        exact h2.2

theorem Store.directory_enter (st : Store) (a : Allocation) (k : RateClass) (key : Word) (v : Slot) :
    (st.enter a k key v).directory = Sparse.insert st.directory key.toNat a.slot := by
  unfold Store.enter
  dsimp only
  cases a.opened <;> rfl

/-- A record entered writes its slot and no other. -/
theorem Store.slotAt_enter (st : Store) (a : Allocation) (k : RateClass) (key : Word) (v : Slot) (j : Nat) :
    (st.enter a k key v).slotAt j = if j = a.slot then v else st.slotAt j := by
  unfold Store.enter
  dsimp only
  rw [Store.slotAt_write]
  cases a.opened <;> rfl

theorem Sparse.find?_place_slot (i s : Nat) (t : List (Nat × Nat)) (j : Nat) (h : j = s → ∀ e ∈ t, e.2 ≠ s) :
    (Sparse.place i s t).find? (fun e => decide (e.2 = j)) =
      if j = s then some (i, s) else t.find? fun e => decide (e.2 = j) := by
  induction t with
  | nil =>
    by_cases hj : j = s
    · simp [Sparse.place, hj]
    · simp [Sparse.place, hj, Ne.symm hj]
  | cons e t ih =>
    have ih := ih fun hj x hx => h hj x (List.mem_cons_of_mem _ hx)
    unfold Sparse.place
    by_cases hj : j = s
    · have he := h hj e List.mem_cons_self
      rw [if_pos hj] at ih ⊢
      split
      · simp [hj]
      · rw [List.find?_cons, ih]
        simp [hj, he]
    · rw [if_neg hj] at ih ⊢
      split
      · simp [Ne.symm hj]
      · rw [List.find?_cons, List.find?_cons, ih]

/-- A record entered under a new key gives its slot that key, and keeps the key of every other slot (R13). -/
theorem Store.keyAt_enter {st : Store} (ho : st.Occupied) (a : Allocation) (k : RateClass) (key : Word) (v : Slot)
    (hf : st.slotAt a.slot = .free) (hk : st.slotOfKey key = none) (j : Nat) :
    (st.enter a k key v).keyAt j = if j = a.slot then some key else st.keyAt j := by
  unfold Store.keyAt
  rw [Store.directory_enter]
  have hers : Sparse.erase st.directory key.toNat = st.directory := by
    unfold Sparse.erase
    rw [List.filter_eq_self]
    intro e he
    simp
    intro h
    have := Sparse.find?_of_mem st.directory e.1 e.2 ho.rising he
    rw [h] at this
    unfold Store.slotOfKey at hk
    rw [hk] at this
    cases this
  have hno : ∀ e ∈ st.directory, e.2 ≠ a.slot := fun e he h => (ho.exact a.slot).2 ⟨e, he, h⟩ hf
  unfold Sparse.insert
  rw [hers, Sparse.find?_place_slot _ _ _ _ fun _ => hno]
  by_cases hj : j = a.slot
  · simp [hj]
  · simp [hj]

end Sys2Proof.Machine
end

