-- ==== Sys2Proof/Laws/Line.lean ====
section
/-! SUPPORT. The 20 bit times of a line word: what they hold, and that a word is read back from them and from the line. -/

namespace Sys2Proof

@[simp] theorem LineWord.length_bits (w : LineWord) : w.bits.length = 20 := by simp [LineWord.bits]

/-- The data bits of a word on the line, most significant first (Table 11-1). -/
theorem LineWord.bits_data (w : LineWord) (k : Nat) (h : k < 16) : w.bits[2 + k]? = some (w.data.getLsbD (15 - k)) := by
  rw [show 2 + k = k + 1 + 1 by omega]
  simp [LineWord.bits, List.getElem?_append, h]

theorem LineWord.bits_parity (w : LineWord) : w.bits[18]? = some w.parity := rfl

theorem LineWord.bits_stop (w : LineWord) : w.bits[19]? = some w.stop := rfl

/-- A word is read back from its bit times: no bit of it is dropped. -/
theorem LineWord.ofBits_bits (w : LineWord) : LineWord.ofBits w.bits = some w := by
  unfold LineWord.ofBits
  rw [if_pos ⟨w.length_bits, rfl⟩]
  obtain ⟨lead, data, parity, stop⟩ := w
  congr 2
  apply BitVec.eq_of_getLsbD_eq
  intro i hi
  rw [BitVec.getLsbD_ofFnLE]
  have h := LineWord.bits_data ⟨lead, data, parity, stop⟩ (15 - i) (by omega)
  rw [show 2 + (15 - i) = 17 - i by omega, show 15 - (15 - i) = i by omega] at h
  simp [hi, List.getD_eq_getElem?_getD, h]

/-- Bit times that hold a word are the bit times of that word. -/
theorem LineWord.bits_of_ofBits {bits : List Bool} {w : LineWord} (h : LineWord.ofBits bits = some w) :
    bits = w.bits := by
  unfold LineWord.ofBits at h
  split at h
  next hb =>
    obtain ⟨hl, hs⟩ := hb
    cases h
    apply List.ext_getElem?
    intro n
    by_cases hn : n < 20
    · have hg : bits[n]? = some (bits.getD n false) := by
        rw [List.getD_eq_getElem?_getD, List.getElem?_eq_getElem (by omega)]
        rfl
      rcases Nat.lt_or_ge n 2 with h2 | h2
      · rcases (by omega : n = 0 ∨ n = 1) with rfl | rfl
        · rw [← List.head?_eq_getElem?, hs]
          rfl
        · rw [hg]
          rfl
      · rcases Nat.lt_or_ge n 18 with h3 | h3
        · obtain ⟨k, rfl⟩ : ∃ k, n = 2 + k := ⟨n - 2, by omega⟩
          rw [LineWord.bits_data _ k (by omega), hg, BitVec.getLsbD_ofFnLE]
          simp [show 15 - k < 16 by omega, show 17 - (15 - k) = 2 + k by omega]
        · rcases (by omega : n = 18 ∨ n = 19) with rfl | rfl
          · rw [hg, LineWord.bits_parity]
          · rw [hg, LineWord.bits_stop]
    · rw [List.getElem?_eq_none (by omega), List.getElem?_eq_none (by simp; omega)]
  · cases h

/-! ### Words on the line -/

/-- A word in progress on the line is taken at its twentieth bit time. -/
theorem hearFrom_word (level : Bool) (taken left rest : List Bool) (w : LineWord) (ht : taken ≠ [])
    (hl : left ≠ []) (h : taken ++ left = w.bits) :
    hearFrom level taken (left ++ rest) = w :: hearFrom w.stop [] rest := by
  induction left generalizing level taken with
  | nil => exact absurd rfl hl
  | cons b left ih =>
    have length := congrArg List.length h
    simp at length
    rw [List.cons_append, hearFrom, if_neg ht]
    cases left with
    | nil =>
      have hn : taken.length = 19 := by simpa using length
      rw [if_pos hn, h, LineWord.ofBits_bits]
      have : w.stop = b := by
        have hs := w.bits_stop
        rw [← h, List.getElem?_append_right (by omega), hn] at hs
        simpa using hs.symm
      rw [this]
      rfl
    | cons c left =>
      rw [if_neg (by simp at length; omega)]
      exact ih b (taken ++ [b]) (by simp) (by simp) (by simpa using h)

/-- A word that begins where the line stands at 1 is heard whole. -/
theorem hearFrom_bits (w : LineWord) (rest : List Bool) :
    hearFrom true [] (w.bits ++ rest) = w :: hearFrom w.stop [] rest := by
  have hb : w.bits = [false] ++ w.bits.drop 1 := rfl
  conv_lhs => rw [hb]
  rw [List.append_assoc, List.singleton_append, hearFrom, if_pos rfl]
  exact hearFrom_word false [false] (w.bits.drop 1) rest w (by simp) (by simp [LineWord.bits]) hb.symm

/-- Bit times at the idle level begin no word. -/
theorem hearFrom_idle (n : Nat) (level : Bool) (rest : List Bool) (h : level = true ∨ 1 ≤ n) :
    hearFrom level [] (List.replicate n true ++ rest) = hearFrom true [] rest := by
  induction n generalizing level with
  | zero =>
    rcases h with rfl | h
    · rfl
    · omega
  | succ n ih =>
    rw [List.replicate_succ, List.cons_append, hearFrom, if_pos rfl]
    simpa using ih true (.inl rfl)

/-- Words sent on the line with idle bit times before them are heard as they were sent, where each begins at a fall from
1 (R161). -/
theorem hear_items (items : List (Nat × LineWord)) (tail : Nat)
    (h : (∀ x ∈ items, x.2.stop = true) ∨ ∀ x ∈ items, 1 ≤ x.1) :
    hear (items.flatMap (fun x => List.replicate x.1 true ++ x.2.bits) ++ List.replicate tail true) =
      items.map Prod.snd := by
  have quiet : ∀ level, hearFrom level [] (List.replicate tail true) = [] := by
    intro level
    induction tail generalizing level with
    | zero => rfl
    | succ n ih =>
      rw [List.replicate_succ, hearFrom, if_pos rfl]
      simpa using ih true
  suffices ∀ level, (level = true ∨ ∀ x ∈ items, 1 ≤ x.1) →
      hearFrom level [] (items.flatMap (fun x => List.replicate x.1 true ++ x.2.bits) ++ List.replicate tail true) =
        items.map Prod.snd from this true (.inl rfl)
  induction items with
  | nil => exact fun level _ => quiet level
  | cons x items ih =>
    intro level hl
    rw [List.flatMap_cons, List.append_assoc, List.append_assoc, hearFrom_idle _ _ _ (hl.imp_right fun h => h x (by simp)),
      hearFrom_bits, List.map_cons]
    congr 1
    rcases h with h | h
    · exact ih (.inl fun y hy => h y (by simp [hy])) _ (.inl (h x (by simp)))
    · exact ih (.inr fun y hy => h y (by simp [hy])) _ (.inr fun y hy => h y (by simp [hy]))

end Sys2Proof
end

