-- ==== Sys2Proof/Laws/Replan.lean ====
section
/-! SUPPORT. What a change of one slot leaves of the Cycle Plan: the page states, the page records, the load counters and the
due list, and the laws of the pages that it keeps. -/

namespace Sys2Proof.Machine

/-! ### The page of a changed slot (R26, R28, R29, R30, R43) -/

/-- A slot change leaves the state of every other page. -/
theorem Store.pageState_changeSlot_ne (st : Store) (i : Nat) (v : Slot) (q : Nat) (h : q ≠ i / Config.slotsPerPage) :
    (st.changeSlot i v).pageState q = st.pageState q := by
  rw [← st.pageState_write_ne i v q h]
  exact Store.pageState_congr q fun k _ => Store.slotAt_eq (st.changeSlot_cells i v) _

/-- A slot change is its page planned again on a table that differs in slots and keys alone. -/
theorem Store.changeSlot_form (st : Store) (i : Nat) (v : Slot) :
    ∃ x : Store, st.changeSlot i v = x.replan (i / Config.slotsPerPage) ∧ x.cells = (st.changeSlot i v).cells ∧
      x.pages = st.pages ∧ x.loads = st.loads ∧ x.due = st.due := by
  unfold Store.changeSlot
  dsimp only
  split
  · exact ⟨(st.write i v).releaseKey i, rfl, by simp, rfl, rfl, rfl⟩
  · exact ⟨st.write i v, rfl, by simp, rfl, rfl, rfl⟩

/-- A load counter after a schedule's counters are lowered. -/
theorem Store.load_removeLoad (st : Store) (sc : Schedule) (i : Nat) (hi : i < 16) :
    (st.removeLoad sc).load i = st.load i - (if i % sc.cls.period = sc.phase then 1 else 0) := by
  have h : (st.removeLoad sc).load i = if sc.dueAt i then st.load i - 1 else st.load i := by
    simp [Store.removeLoad, cycleIndices, Config.indexCount, Store.load, hi]
  rw [h]
  unfold Schedule.dueAt
  by_cases hd : i % sc.cls.period = sc.phase <;> simp [hd]

/-- Everything a slot change does to the Cycle Plan. -/
theorem Store.replanned_changeSlot (st : Store) (i : Nat) (v : Slot) :
    st.Replanned (st.changeSlot i v) (i / Config.slotsPerPage) := by
  obtain ⟨x, form, cells, pages, loads, due⟩ := st.changeSlot_form i v
  generalize i / Config.slotsPerPage = p at *
  have state : x.pageState p = (st.changeSlot i v).pageState p := Store.pageState_congr p fun k _ =>
    Store.slotAt_eq cells _
  have pageAt : ∀ q, x.pageAt q = st.pageAt q := fun q => by unfold Store.pageAt; rw [pages]
  have load : ∀ n, x.load n = st.load n := fun n => by unfold Store.load; rw [loads]
  have filtered : ∀ y : Store, y.due = st.due →
      (y.strike p).due = st.due.filter fun e => e.transferred || decide (e.page ≠ p) := fun y h => by
    unfold Store.strike
    rw [h]
  cases hs : (st.changeSlot i v).pageState p with
  | open_ =>
    have e : st.changeSlot i v = x := by rw [form]; unfold Store.replan; rw [state, hs]
    exact ⟨fun q => by rw [e, pageAt], fun q _ => by rw [e, pageAt], fun _ => by rw [e, due],
      fun h => absurd hs h, fun _ => ⟨by rw [e, pageAt], by rw [e, loads]⟩, fun h => by simp [hs] at h⟩
  | opening =>
    have e : st.changeSlot i v = x.strike p := by rw [form]; unfold Store.replan; rw [state, hs]
    exact ⟨fun q => by rw [e]; exact congrArg _ (pageAt q), fun q _ => by rw [e]; exact pageAt q,
      fun h => by simp [hs] at h, fun _ => by rw [e]; exact filtered x due,
      fun _ => ⟨by rw [e]; exact congrArg _ (pageAt p), by rw [e]; exact loads⟩, fun h => by simp [hs] at h⟩
  | _ =>
    have e : st.changeSlot i v = (x.closePage p).strike p := by rw [form]; unfold Store.replan; rw [state, hs]
    have pg : ∀ q, (st.changeSlot i v).pageAt q =
        if q = p then { st.pageAt p with schedule := none } else st.pageAt q := by
      intro q
      have : (st.changeSlot i v).pageAt q = (x.closePage p).pageAt q := by rw [e]; rfl
      rw [this, Store.pageAt_closePage, pageAt, pageAt]
    have ld : ∀ n, (st.changeSlot i v).load n = (x.closePage p).load n := fun n => by rw [e]; rfl
    have cd : (x.closePage p).due = st.due := by
      unfold Store.closePage
      split <;> exact due
    refine ⟨fun q => ?_, fun q hq => by rw [pg, if_neg hq], fun h => by simp [hs] at h,
      fun _ => by rw [e]; exact filtered _ cd, fun h => by simp [hs] at h,
      fun _ => ⟨by rw [pg, if_pos rfl], fun h => ?_, fun sc h n hn => ?_⟩⟩
    · rw [pg]
      split
      next h => rw [h]
      · rfl
    · rw [e, Store.strike_loads]
      unfold Store.closePage
      rw [pageAt, h]
      exact loads
    · rw [ld]
      have : (x.closePage p).load n = (x.removeLoad sc).load n := by
        unfold Store.closePage
        rw [pageAt, h]
        rfl
      rw [this, Store.load_removeLoad x sc n hn, load]

/-- A verifying read that finds damage does to the Cycle Plan what the change of the slot to DAMAGED does (R16). -/
theorem Store.replanned_verify (st : Store) (i : Nat) (h : st.found i ≠ st.slotAt i) :
    st.Replanned (st.verify i) (i / Config.slotsPerPage) := by
  rcases st.verify_cases i with hv | ⟨hv, -⟩ <;> rw [hv]
  · have := st.slotAt_verify i i
    rw [hv, if_pos rfl] at this
    exact absurd this.symm h
  · exact st.replanned_changeSlot i _

/-! ### The laws of the pages that a slot change keeps -/

/-- A slot change keeps every untransferred due entry at an OPEN page: it strikes its page where that leaves OPEN (R43). -/
theorem Store.Struck.changeSlot {st : Store} (h : st.Struck) (i : Nat) (v : Slot) : (st.changeSlot i v).Struck := by
  have hr := st.replanned_changeSlot i v
  intro e he ht
  by_cases ho : (st.changeSlot i v).pageState (i / Config.slotsPerPage) = .open_
  · by_cases hp : e.page = i / Config.slotsPerPage
    · rw [hp, ho]
    · rw [hr.stays ho] at he
      rw [st.pageState_changeSlot_ne i v _ hp]
      exact h e he ht
  · rw [hr.struck ho, List.mem_filter] at he
    have hp : e.page ≠ i / Config.slotsPerPage := by simpa [ht] using he.2
    rw [st.pageState_changeSlot_ne i v _ hp]
    exact h e he.1 ht

/-- A page that holds a RESERVED, LIVE or WITHDRAWING slot is OPENING or OPEN (R26). -/
theorem Store.scheduled_of_slot {st : Store} {i : Nat} {r : Record} (h : (st.slotAt i).scheduled? = some r) :
    st.pageState (i / Config.slotsPerPage) = .opening ∨ st.pageState (i / Config.slotsPerPage) = .open_ := by
  have hs : st.scheduled (i / Config.slotsPerPage) = true := by
    rw [Store.scheduled_iff]
    refine ⟨i % Config.slotsPerPage, Nat.mod_lt _ (by decide), ?_⟩
    have : slotIndex (i / Config.slotsPerPage) (i % Config.slotsPerPage) = i := by
      simp only [slotIndex, Config.slotsPerPage]
      omega
    rw [this]
    cases hv : st.slotAt i <;> rw [hv] at h <;> simp [Slot.scheduled?, Slot.emittable, Slot.isReserved] at h ⊢
  simpa [Store.scheduled] using hs

/-- A slot change keeps the class condition where a record that counts for the page keeps its class (R2, R26). -/
theorem Store.Classed.changeSlot {st : Store} (h : st.Classed) (i : Nat) (v : Slot)
    (hv : ∀ r, v.scheduled? = some r → ∃ r', (st.slotAt i).scheduled? = some r' ∧ r'.cls = r.cls) :
    (st.changeSlot i v).Classed := by
  have hr := st.replanned_changeSlot i v
  intro j r hj
  have hs := Store.scheduled_of_slot hj
  have hold : ∃ r', (st.slotAt j).scheduled? = some r' ∧ r'.cls = r.cls := by
    rw [Store.slotAt_changeSlot] at hj
    split at hj
    next e =>
      rw [e]
      exact hv r hj
    · exact ⟨r, hj, rfl⟩
  obtain ⟨r', hr', hc⟩ := hold
  obtain ⟨sc, h1, h2⟩ := h j r' hr'
  refine ⟨sc, ?_, h2.trans hc⟩
  by_cases hp : j / 8 = i / Config.slotsPerPage
  · have hs' : (st.changeSlot i v).pageState (i / Config.slotsPerPage) = .open_ ∨
        (st.changeSlot i v).pageState (i / Config.slotsPerPage) = .opening := by
      rw [← hp]
      exact hs.symm
    rw [hp, (hr.keeps hs').1, ← hp, h1]
  · rw [hr.others _ hp, h1]

/-! ### The last transfer fields (R29) -/

/-- Two tables show the same last transfers. -/
def Store.SameTransfers (st u : Store) : Prop := ∀ p, (u.pageAt p).lastTransfer = (st.pageAt p).lastTransfer

theorem Store.SameTransfers.refl (st : Store) : st.SameTransfers st := fun _ => rfl

theorem Store.SameTransfers.trans {a b c : Store} (h : a.SameTransfers b) (h' : b.SameTransfers c) : a.SameTransfers c :=
  fun p => (h' p).trans (h p)

theorem Store.sameTransfers_changeSlot (st : Store) (i : Nat) (v : Slot) : st.SameTransfers (st.changeSlot i v) :=
  (st.replanned_changeSlot i v).lastTransfers

theorem Store.sameTransfers_verify (st : Store) (i : Nat) : st.SameTransfers (st.verify i) := by
  rcases st.verify_cases i with h | ⟨h, -⟩ <;> rw [h]
  · exact .refl st
  · exact st.sameTransfers_changeSlot i _

theorem Store.sameTransfers_verifyAny (st : Store) (entries : List BatchEntry) (i : Nat) :
    st.SameTransfers (st.verifyAny entries i) := by
  unfold Store.verifyAny
  split
  · split <;> exact fun _ => rfl
  all_goals exact st.sameTransfers_verify i

theorem Store.sameTransfers_foldl {β : Type} (f : Store → β → Store) (hf : ∀ (st : Store) x, st.SameTransfers (f st x))
    (l : List β) : ∀ st : Store, st.SameTransfers (l.foldl f st) := by
  induction l with
  | nil => exact fun st => .refl st
  | cons x l ih => exact fun st => (hf st x).trans (ih _)

/-- The countdown keeps every last transfer field. -/
theorem Store.sameTransfers_countdown (st : Store) (w : Nat) : st.SameTransfers (st.countdown w) := by
  refine Store.sameTransfers_foldl _ (fun st i => ?_) _ _
  unfold Store.countdownSlot
  split <;> try exact .refl st
  dsimp only
  split
  · split <;> exact (st.sameTransfers_verify i).trans (Store.sameTransfers_changeSlot _ _ _)
  all_goals exact st.sameTransfers_verify i

/-- The completion of the withdrawals keeps every last transfer field. -/
theorem Store.sameTransfers_completeWithdrawals (st : Store) : st.SameTransfers st.completeWithdrawals := by
  refine Store.sameTransfers_foldl _ (fun st i => ?_) _ _
  unfold Store.completeSlot
  split <;> try exact .refl st
  dsimp only
  split
  · exact (st.sameTransfers_verify i).trans (Store.sameTransfers_changeSlot _ _ _)
  all_goals exact st.sameTransfers_verify i

/-- ABORT BATCH keeps every last transfer field. -/
theorem Store.sameTransfers_abortBatch (st : Store) (entries : List BatchEntry) :
    st.SameTransfers (st.abortBatch entries) := by
  unfold Store.abortBatch
  refine (Store.sameTransfers_foldl _ (fun st i => ?_) slotIndices st).trans
    (Store.sameTransfers_foldl _ (fun st e => ?_) entries _)
  · unfold Store.freeReserved
    split
    · exact (st.sameTransfers_verifyAny entries i).trans (Store.sameTransfers_changeSlot _ _ _)
    · exact .refl st
  · unfold Store.clearStaged
    split <;> try exact .refl st
    split <;> try exact .refl st
    dsimp only
    split
    · exact (st.sameTransfers_verify e.slot).trans (Store.sameTransfers_changeSlot _ _ _)
    all_goals exact st.sameTransfers_verify e.slot

/-! ### The page that an allocation gives, and the entering of a record (R27, R31, R32, R34) -/

/-- An allocation gives a slot of its page: of a page that is OPENING or OPEN with the class, or of one that is neither. -/
theorem Store.allocate_page {st : Store} {frames : Nat} {k : RateClass} {a : Allocation}
    (h : st.allocate frames k = .ok a) :
    a.slot / Config.slotsPerPage = a.page ∧
      (a.opened = none → st.scheduled a.page = true ∧ ∃ sc, (st.pageAt a.page).schedule = some sc ∧ sc.cls = k) ∧
      (a.opened ≠ none → st.scheduled a.page = false) := by
  have slot : ∀ p, (st.freeSlotOf p).isSome = true →
      slotIndex p ((st.freeSlotOf p).getD 0) / Config.slotsPerPage = p := by
    intro p h
    obtain ⟨n, hn⟩ := Option.isSome_iff_exists.1 h
    rw [hn]
    exact slotIndex_div p n (find?_range_some hn).1
  unfold Store.allocate at h
  split at h
  next p hf =>
    cases h
    have hj := (find?_range_some hf).2
    unfold Store.joinable at hj
    split at hj
    next sc hsc =>
      simp at hj
      exact ⟨slot p hj.2, fun _ => ⟨by simpa [Store.scheduled] using hj.1.2, sc, hsc, hj.1.1⟩, fun h => absurd rfl h⟩
    · cases hj
  next =>
    split at h
    · cases h
    next p hf =>
      dsimp only at h
      split at h
      · cases h
      · cases h
        have ho := (find?_range_some hf).2
        unfold Store.openable at ho
        simp at ho
        refine ⟨slot p ho.2, fun h => (by cases h), fun _ => ?_⟩
        unfold Store.scheduled
        rcases ho.1 with e | e <;> simp [e]

/-- A record entered leaves every page record but that of a page it opens. -/
theorem Store.pageAt_enter (st : Store) (a : Allocation) (k : RateClass) (key : Word) (v : Slot) (q : Nat) :
    (st.enter a k key v).pageAt q =
      match a.opened with
      | some phase => if q = a.page then ⟨some ⟨k, phase⟩, none⟩ else st.pageAt q
      | none => st.pageAt q := by
  cases ho : a.opened with
  | none =>
    unfold Store.enter
    dsimp only
    rw [ho]
    rfl
  | some phase =>
    have : (st.enter a k key v).pageAt q = (st.openPage a.page ⟨k, phase⟩).pageAt q := by
      unfold Store.enter
      dsimp only
      rw [ho]
      rfl
    rw [this, Store.pageAt_openPage]

theorem Store.due_enter (st : Store) (a : Allocation) (k : RateClass) (key : Word) (v : Slot) :
    (st.enter a k key v).due = st.due := by
  unfold Store.enter
  dsimp only
  cases a.opened <;> rfl

/-- A page with a LIVE or WITHDRAWING slot is OPEN, and every OPEN page has one (R26, Table 2-2). -/
theorem Store.open_iff (st : Store) (p : Nat) :
    st.pageState p = .open_ ↔ ∃ k, k < Config.slotsPerPage ∧ (st.slotAt (slotIndex p k)).emittable = true := by
  have he : ((List.range Config.slotsPerPage).map fun k => st.slotAt (slotIndex p k)).any Slot.emittable = true ↔
      ∃ k, k < Config.slotsPerPage ∧ (st.slotAt (slotIndex p k)).emittable = true := by simp
  rw [← he]
  unfold Store.pageState Store.pageSlots
  dsimp only
  constructor
  · intro h
    split at h
    next hh => exact hh
    · split at h
      · cases h
      · split at h <;> cases h
  · intro h
    rw [if_pos h]

/-- A record entered into a FREE slot keeps an OPEN page OPEN. -/
theorem Store.open_enter {st : Store} {a : Allocation} (hf : st.slotAt a.slot = .free) (k : RateClass) (key : Word)
    (v : Slot) (p : Nat) (h : st.pageState p = .open_) : (st.enter a k key v).pageState p = .open_ := by
  rw [Store.open_iff] at h ⊢
  obtain ⟨n, hn, he⟩ := h
  refine ⟨n, hn, ?_⟩
  rw [Store.slotAt_enter, if_neg]
  · exact he
  · intro e
    rw [e, hf] at he
    cases he

theorem Store.Struck.enter {st : Store} (h : st.Struck) {a : Allocation} (hf : st.slotAt a.slot = .free) (k : RateClass)
    (key : Word) (v : Slot) : (st.enter a k key v).Struck := by
  intro e he ht
  rw [Store.due_enter] at he
  exact Store.open_enter hf k key v e.page (h e he ht)

/-- A record entered where its allocation places it keeps the class condition (R26). -/
theorem Store.Classed.enter {st : Store} (h : st.Classed) {frames : Nat} {k : RateClass} {a : Allocation}
    (ha : st.allocate frames k = .ok a) (key : Word) (v : Slot) (hv : ∀ r, v.scheduled? = some r → r.cls = k) :
    (st.enter a k key v).Classed := by
  obtain ⟨slot, joined, opened⟩ := Store.allocate_page ha
  intro j r hj
  rw [Store.slotAt_enter] at hj
  rw [Store.pageAt_enter]
  split at hj
  next e =>
    rw [e, show a.slot / 8 = a.page from slot]
    cases ho : a.opened with
    | none =>
      obtain ⟨-, sc, h1, h2⟩ := joined ho
      exact ⟨sc, h1, h2.trans (hv r hj).symm⟩
    | some phase => exact ⟨⟨k, phase⟩, by simp, (hv r hj).symm⟩
  next e =>
    cases ho : a.opened with
    | none => exact h j r hj
    | some phase =>
      dsimp only
      rw [if_neg]
      · exact h j r hj
      · intro e
        have hs : st.scheduled (j / 8) = true := by simpa [Store.scheduled] using Store.scheduled_of_slot hj
        rw [e, opened (by rw [ho]; simp)] at hs
        cases hs

end Sys2Proof.Machine
end

