-- ==== Sys2Proof/Laws/Requests.lean ====
section
/-! SUPPORT. The bytes of the host port: what splitting and joining bytes gives, and the checks of a request laid out as
code, length, arguments and CRC-8. -/

namespace Sys2Proof.Machine

/-! ### Bytes and words -/

/-- A 16-bit value is what its two bytes spell (R165). -/
theorem wordOfBytes_split (w : Word) : wordOfBytes (w.extractLsb' 8 8) (w.extractLsb' 0 8) = w := by
  apply BitVec.eq_of_toNat_eq
  have := w.isLt
  simp only [wordOfBytes, BitVec.toNat_append, BitVec.extractLsb'_toNat, Nat.shiftRight_eq_div_pow]
  rw [← Nat.shiftLeft_add_eq_or_of_lt (by omega), Nat.shiftLeft_eq]
  omega

/-- A value of 16 bits is what its two bytes spell. -/
theorem wordOfBytes_ofNat (n : Nat) (h : n < 65536) :
    (wordOfBytes ((BitVec.ofNat 16 n).extractLsb' 8 8) ((BitVec.ofNat 16 n).extractLsb' 0 8)).toNat = n := by
  rw [wordOfBytes_split]
  simp
  omega

/-- A payload is what its bytes spell (R165). -/
theorem wordsOfBytes_flatMap (ws : List Word) : wordsOfBytes (ws.flatMap bytesOfWord) = ws := by
  induction ws with
  | nil => rfl
  | cons w ws ih =>
    simp only [List.flatMap_cons, bytesOfWord, List.cons_append, List.nil_append, wordsOfBytes, wordOfBytes_split]
    exact congrArg (w :: ·) ih

/-- A payload takes two bytes a word. -/
theorem length_flatMap_bytesOfWord (ws : List Word) : (ws.flatMap bytesOfWord).length = 2 * ws.length := by
  induction ws with
  | nil => rfl
  | cons w ws ih =>
    simp only [List.flatMap_cons, List.length_append, List.length_cons, ih]
    simp [bytesOfWord]
    omega

/-- The number of words that a run of bytes spells. -/
theorem length_wordsOfBytes : ∀ bs : List Byte, (wordsOfBytes bs).length = bs.length / 2
  | [] => rfl
  | [_] => by simp [wordsOfBytes]
  | a :: b :: rest => by
    simp only [wordsOfBytes, List.length_cons, length_wordsOfBytes rest]
    omega

/-- A count below 256 is what its byte holds. -/
theorem toNat_byteOf (n : Nat) (h : n < 256) : (byteOf n).toNat = n := by
  simp [byteOf]
  omega

/-- What an options byte says (Table 11-5). -/
theorem optionsByte_bits (reply notify lease : Bool) :
    (optionsByte reply notify lease).getLsbD 0 = reply ∧ (optionsByte reply notify lease).getLsbD 1 = notify ∧
      (optionsByte reply notify lease).getLsbD 2 = lease ∧ optionsClear (optionsByte reply notify lease) = true := by
  cases reply <;> cases notify <;> cases lease <;> decide

/-- A class is what its code names (R165). -/
theorem RateClass.ofCode_code (k : RateClass) : RateClass.ofCode k.code = some k := by cases k <;> rfl

/-- A rate is what its code names (R165). -/
theorem LineRate.ofCode_code (r : LineRate) : LineRate.ofCode r.code = some r := by cases r <;> rfl

/-! ### The checks of a request laid out in its parts -/

/-- The frame check of a request of code, length, arguments and a last byte (R155). -/
theorem frameCheck_parts (code length crc : Byte) (args : List Byte) (count : Nat) :
    frameCheck (code :: length :: args ++ [crc]) count =
      (decide (3 ≤ count) && decide (count = length.toNat + 3) && decide (crc = crc8 (code :: length :: args))) := by
  have h : frameCheck (code :: length :: args ++ [crc]) count =
      (decide (3 ≤ count) && decide (count = length.toNat + 3) &&
        decide ((code :: length :: args ++ [crc]).getLast? =
          some (crc8 (code :: length :: args ++ [crc]).dropLast))) := rfl
  have hl : (code :: length :: args ++ [crc]).getLast? = some crc := by
    rw [List.getLast?_append]
    rfl
  have hd : (code :: length :: args ++ [crc]).dropLast = code :: length :: args := List.dropLast_concat
  rw [h, hl, hd]
  simp

/-- The arguments of a request of code, length, arguments and a last byte (R151). -/
theorem argumentBytes_parts (code length crc : Byte) (args : List Byte) :
    argumentBytes (code :: length :: args ++ [crc]) = args := by
  unfold argumentBytes
  exact List.dropLast_concat

/-- A request whose arguments pass the length check and the argument checks is read as that request. -/
theorem readRequest_bytes (r : Request) (hn : r.arguments.length < 256) (hl : lengthCheck r.code r.arguments = true) :
    readRequest r.bytes r.bytes.length = readArguments r.code r.arguments := by
  have hb : r.bytes = r.code :: byteOf r.arguments.length :: r.arguments ++
      [crc8 (r.code :: byteOf r.arguments.length :: r.arguments)] := rfl
  unfold readRequest
  rw [hb, frameCheck_parts, argumentBytes_parts]
  simp [toNat_byteOf _ hn, hl]

end Sys2Proof.Machine
end

