-- ==== Sys2Proof/Laws/Visits.lean ====
section
/-! SUPPORT. What one visit of a slot does: of the page transfer, of STOP SCAN's completion of withdrawals, of ABORT BATCH,
and of TAKE NOTICES. -/

namespace Sys2Proof.Machine

/-! ### The page transfer (R112) -/

/-- The transfer's visit to a slot leaves it as `Cell.transferred` says, and adds its entry if it has one. -/
theorem Store.transferSlot_own (acc : Store × List Entry) (i : Nat) :
    (Store.transferSlot acc i).1.slotAt i = (acc.1.cellAt i).transferred ∧
      (Store.transferSlot acc i).2 = acc.2 ++ ((acc.1.cellAt i).entry i).toList := by
  have hs : acc.1.slotAt i = (acc.1.cellAt i).slot := rfl
  have hv := acc.1.slotAt_verify i i
  rw [if_pos rfl] at hv
  have hf : acc.1.found i = (acc.1.cellAt i).found := rfl
  unfold Store.transferSlot Cell.transferred Cell.entry
  cases hc : (acc.1.cellAt i).slot <;> cases hu : (acc.1.cellAt i).upset <;>
    simp only [hs, hc, Slot.emittable, hv, hf, Cell.found, hu, if_true, if_false, Bool.false_eq_true] <;>
    exact ⟨by first | rfl | simp, by first | rfl | simp⟩

/-- The transfer's visit to a slot leaves every other slot as it was. -/
theorem Store.transferSlot_other (acc : Store × List Entry) (i j : Nat) (h : j ≠ i) :
    (Store.transferSlot acc i).1.cellAt j = acc.1.cellAt j := by
  have hv := acc.1.cellAt_verify_ne i j h
  unfold Store.transferSlot
  dsimp only
  split <;> (try rw [Store.cellAt_changeSlot, if_neg h]) <;> split <;> first | exact hv | rfl

/-- The transfer's visits to a list of slots: each is left as `Cell.transferred` says, and the entries follow in the order
of the list. -/
theorem Store.transferSlots (l : List Nat) (hl : l.Nodup) : ∀ acc : Store × List Entry,
    (∀ j, (l.foldl Store.transferSlot acc).1.slotAt j =
      if j ∈ l then (acc.1.cellAt j).transferred else acc.1.slotAt j) ∧
      (l.foldl Store.transferSlot acc).2 = acc.2 ++ l.filterMap fun i => (acc.1.cellAt i).entry i := by
  induction l with
  | nil => intro acc; simp
  | cons i l ih =>
    intro acc
    obtain ⟨h1, h2⟩ := ih (List.nodup_cons.1 hl).2 (Store.transferSlot acc i)
    obtain ⟨o1, o2⟩ := Store.transferSlot_own acc i
    have hne : ∀ j ∈ l, j ≠ i := fun j hj e => (List.nodup_cons.1 hl).1 (e ▸ hj)
    rw [List.foldl_cons]
    refine ⟨fun j => ?_, ?_⟩
    · rw [h1]
      by_cases hj : j = i
      · subst hj
        simp [(List.nodup_cons.1 hl).1, o1]
      · have hc := Store.transferSlot_other acc i j hj
        have : (Store.transferSlot acc i).1.slotAt j = acc.1.slotAt j := by unfold Store.slotAt; rw [hc]
        simp [hj, hc, this]
    · rw [h2, o2]
      have : l.filterMap (fun j => ((Store.transferSlot acc i).1.cellAt j).entry j) =
          l.filterMap fun j => (acc.1.cellAt j).entry j := by
        apply List.filterMap_congr
        intro j hj
        rw [Store.transferSlot_other acc i j (hne j hj)]
      rw [this]
      cases h : (acc.1.cellAt i).entry i <;> simp [h]

/-! ### The completion of withdrawals by STOP SCAN (R23) -/

/-- The completion's visit to a slot leaves it as `Cell.completed` says. -/
theorem Store.completeSlot_own (st : Store) (i : Nat) :
    (st.completeSlot i).slotAt i = (st.cellAt i).completed := by
  have hs : st.slotAt i = (st.cellAt i).slot := rfl
  have hv := st.slotAt_verify i i
  rw [if_pos rfl] at hv
  have hf : st.found i = (st.cellAt i).found := rfl
  unfold Store.completeSlot Cell.completed
  cases hc : (st.cellAt i).slot <;> cases hu : (st.cellAt i).upset <;>
    simp [hs, hc, hv, hf, Cell.found, hu]

/-- The completion's visit to a slot leaves every other slot as it was. -/
theorem Store.completeSlot_other (st : Store) (i j : Nat) (h : j ≠ i) :
    (st.completeSlot i).cellAt j = st.cellAt j := by
  have hv := st.cellAt_verify_ne i j h
  unfold Store.completeSlot
  split <;> try rfl
  dsimp only
  split <;> try exact hv
  rw [Store.cellAt_changeSlot, if_neg h, hv]

/-- The completion's visit to a slot releases its key exactly where it finds it WITHDRAWING with cause RETIRED. -/
theorem Store.completeSlot_directory (st : Store) (i : Nat) (e : Nat × Nat) :
    e ∈ (st.completeSlot i).directory ↔
      e ∈ st.directory ∧ ¬ (e.2 = i ∧ ∃ r n, (st.cellAt i).found = .withdrawing r .retired n) := by
  have hs : st.slotAt i = (st.cellAt i).slot := rfl
  have hv := st.slotAt_verify i i
  rw [if_pos rfl] at hv
  have hf : st.found i = (st.cellAt i).found := rfl
  unfold Store.completeSlot
  cases hc : (st.cellAt i).slot <;> cases hu : (st.cellAt i).upset <;>
    simp only [hs, hc, hv, hf, Cell.found, hu, Bool.false_eq_true, if_true, if_false] <;>
    (try simp [Store.directory_verify])
  next r c n => cases c <;> simp [Store.mem_directory_changeSlot, Cause.completed]

/-- STOP SCAN's completion leaves every slot of the table as `Cell.completed` says (R23). -/
theorem Store.slotAt_completeWithdrawals (st : Store) (j : Nat) :
    st.completeWithdrawals.slotAt j = if j < Config.slotCount then (st.cellAt j).completed else st.slotAt j := by
  unfold Store.completeWithdrawals
  rw [Store.slotAt_visits Store.completeSlot (fun _ c => c.completed) Store.completeSlot_own Store.completeSlot_other
    slotIndices nodup_slotIndices]
  simp only [mem_slotIndices]

/-- STOP SCAN's completion releases the keys of the slots it finds WITHDRAWING with cause RETIRED (R23). -/
theorem Store.mem_directory_completeWithdrawals (st : Store) (e : Nat × Nat) :
    e ∈ st.completeWithdrawals.directory ↔
      e ∈ st.directory ∧ ¬ (e.2 < Config.slotCount ∧ ∃ r n, st.found e.2 = .withdrawing r .retired n) := by
  unfold Store.completeWithdrawals
  rw [Store.directory_visits Store.completeSlot (fun c => ∃ r n, c.found = .withdrawing r .retired n)
    Store.completeSlot_directory Store.completeSlot_other slotIndices nodup_slotIndices, mem_slotIndices]
  rfl

/-- A slot whose withdrawal is completed is not WITHDRAWING. -/
theorem Cell.completed_ne_withdrawing (c : Cell) (r : Record) (cause : Cause) (n : Nat) :
    c.completed ≠ .withdrawing r cause n := by
  unfold Cell.completed Cell.found
  cases c.slot <;> cases c.upset <;> simp
  next r' cause' n' => cases cause' <;> simp [Cause.completed]

/-- STOP SCAN's completion leaves no slot of the table WITHDRAWING (R23). -/
theorem Store.completeWithdrawals_not_withdrawing (st : Store) (i : Nat) (hi : i < Config.slotCount) (r : Record)
    (c : Cause) (n : Nat) : st.completeWithdrawals.slotAt i ≠ .withdrawing r c n := by
  rw [Store.slotAt_completeWithdrawals, if_pos hi]
  exact Cell.completed_ne_withdrawing _ r c n

/-! ### ABORT BATCH (R94) -/

/-- The abort's visit to a slot makes it FREE where it is RESERVED, and leaves it otherwise. -/
theorem Store.freeReserved_own (entries : List BatchEntry) (st : Store) (i : Nat) :
    (st.freeReserved entries i).slotAt i = if (st.slotAt i).isReserved then .free else st.slotAt i := by
  unfold Store.freeReserved
  split <;> simp

/-- The abort's visit to a slot leaves every other slot as it was. -/
theorem Store.freeReserved_other (entries : List BatchEntry) (st : Store) (i j : Nat) (h : j ≠ i) :
    (st.freeReserved entries i).cellAt j = st.cellAt j := by
  unfold Store.freeReserved
  split
  · rw [Store.cellAt_changeSlot, if_neg h]
    unfold Store.verifyAny
    split
    · split
      · rw [Store.cellAt_write, if_neg h]
      · rfl
    all_goals exact st.cellAt_verify_ne i j h
  · rfl

/-- The abort's visit to a slot releases its key exactly where it is RESERVED. -/
theorem Store.freeReserved_directory (entries : List BatchEntry) (st : Store) (i : Nat) (e : Nat × Nat) :
    e ∈ (st.freeReserved entries i).directory ↔
      e ∈ st.directory ∧ ¬ (e.2 = i ∧ (st.cellAt i).slot.isReserved = true) := by
  unfold Store.freeReserved
  split
  next h =>
    rw [Store.mem_directory_changeSlot, Store.directory_verifyAny]
    have h' : (st.cellAt i).slot.isReserved = true := h
    simp [h']
  next h =>
    have h' : ¬ (st.cellAt i).slot.isReserved = true := h
    simp [h']

/-- Two tables with one directory have the same key for each slot. -/
theorem Store.keyAt_eq {st st' : Store} (h : st'.directory = st.directory) (i : Nat) : st'.keyAt i = st.keyAt i := by
  unfold Store.keyAt; rw [h]

/-- The abort's clearing of one entry keeps the Key Directory. -/
theorem Store.directory_clearStaged (st : Store) (e : BatchEntry) : (st.clearStaged e).directory = st.directory := by
  have hd := st.directory_verify e.slot
  unfold Store.clearStaged
  split <;> try rfl
  split <;> try rfl
  dsimp only
  split <;> first | exact hd | simp [Store.directory_changeSlot, Slot.isFree]

/-- The abort's clearing of one entry leaves each slot as `Cell.unstaged` says where the entry names it, and otherwise as it
was. -/
theorem Store.clearStaged_spec (st : Store) (e : BatchEntry) (i : Nat) :
    (e.names st i → (st.clearStaged e).slotAt i = (st.cellAt i).unstaged ∧
      ((st.clearStaged e).cellAt i).unstaged = (st.cellAt i).unstaged) ∧
      (¬ e.names st i → (st.clearStaged e).cellAt i = st.cellAt i) := by
  by_cases hi : i = e.slot
  · subst hi
    have hs : st.slotAt e.slot = (st.cellAt e.slot).slot := rfl
    have hv := st.slotAt_verify e.slot e.slot
    rw [if_pos rfl] at hv
    have hf : st.found e.slot = (st.cellAt e.slot).found := rfl
    constructor
    · rintro ⟨ha, -, hk⟩
      cases hop : e.op <;> simp [BatchEntry.isAmend, hop] at ha
      cases hc : (st.cellAt e.slot).slot <;> cases hu : (st.cellAt e.slot).upset <;>
        simp [Store.clearStaged, hop, hk, hs, hc, hv, hf, Cell.found, hu, Cell.unstaged]
      have hw : ((st.verify e.slot).cellAt e.slot).slot = .damaged false := by
        rw [show ((st.verify e.slot).cellAt e.slot).slot = (st.verify e.slot).slotAt e.slot from rfl, hv, hf]
        simp [Cell.found, hc, hu]
      simp [hw]
    · intro hn
      unfold Store.clearStaged
      split <;> try rfl
      next op v hop hl =>
        rw [if_neg]
        exact fun hk => hn ⟨by simp [BatchEntry.isAmend, hop], rfl, hk⟩
  · have hv := st.cellAt_verify_ne e.slot i hi
    refine ⟨fun h => absurd h.2.1.symm hi, fun _ => ?_⟩
    unfold Store.clearStaged
    split <;> try rfl
    split <;> try rfl
    dsimp only
    split <;> first | exact hv | (rw [Store.cellAt_changeSlot, if_neg hi, hv])

/-- The abort's clearing of the entries: a slot that one of them names is left as `Cell.unstaged` says, every other as it
was, and the Key Directory is kept (R94). -/
theorem Store.clearStaged_entries (entries : List BatchEntry) : ∀ (st : Store) (i : Nat),
    ((∃ e ∈ entries, e.names st i) → (entries.foldl Store.clearStaged st).slotAt i = (st.cellAt i).unstaged) ∧
      ((∀ e ∈ entries, ¬ e.names st i) → (entries.foldl Store.clearStaged st).cellAt i = st.cellAt i) ∧
      (entries.foldl Store.clearStaged st).directory = st.directory := by
  induction entries with
  | nil => intro st i; simp
  | cons e entries ih =>
    intro st i
    obtain ⟨h1, h2, h3⟩ := ih (st.clearStaged e) i
    obtain ⟨o1, o2⟩ := st.clearStaged_spec e i
    have hd := st.directory_clearStaged e
    have hn : ∀ x : BatchEntry, x.names (st.clearStaged e) i ↔ x.names st i := fun x => by
      unfold BatchEntry.names; rw [Store.keyAt_eq hd]
    simp only [hn] at h1 h2
    rw [List.foldl_cons]
    refine ⟨?_, ?_, h3.trans hd⟩
    · rintro ⟨x, hx, hxn⟩
      by_cases hr : ∃ y ∈ entries, y.names st i
      · rw [h1 hr]
        by_cases he : e.names st i
        · exact (o1 he).2
        · rw [o2 he]
      · have hc := h2 fun y hy hyn => hr ⟨y, hy, hyn⟩
        have he : e.names st i := by
          rcases List.mem_cons.1 hx with rfl | hx
          · exact hxn
          · exact absurd ⟨x, hx, hxn⟩ hr
        unfold Store.slotAt
        rw [hc]
        exact (o1 he).1
    · intro h
      rw [h2 fun y hy => h y (List.mem_cons_of_mem _ hy), o2 (h e List.mem_cons_self)]

/-- The first pass of ABORT BATCH: the RESERVED slots of the table made FREE (R94). -/
theorem Store.freeReserved_slots (st : Store) (entries : List BatchEntry) :
    (∀ i, (slotIndices.foldl (Store.freeReserved entries) st).slotAt i =
        if i < Config.slotCount ∧ (st.slotAt i).isReserved = true then .free else st.slotAt i) ∧
      (∀ i, (st.slotAt i).isReserved = false →
        (slotIndices.foldl (Store.freeReserved entries) st).cellAt i = st.cellAt i) ∧
      ∀ e, e ∈ (slotIndices.foldl (Store.freeReserved entries) st).directory ↔
        e ∈ st.directory ∧ ¬ (e.2 < Config.slotCount ∧ (st.slotAt e.2).isReserved = true) := by
  refine ⟨fun i => ?_, fun i hi => ?_, fun e => ?_⟩
  · rw [Store.slotAt_visits (Store.freeReserved entries) (fun _ c => if c.slot.isReserved then .free else c.slot)
      (Store.freeReserved_own entries) (Store.freeReserved_other entries) slotIndices nodup_slotIndices]
    by_cases h : i < Config.slotCount <;> simp [mem_slotIndices, h, Store.slotAt]
  · suffices ∀ (l : List Nat) (st : Store), (st.slotAt i).isReserved = false →
        (l.foldl (Store.freeReserved entries) st).cellAt i = st.cellAt i from this _ st hi
    intro l
    induction l with
    | nil => exact fun _ _ => rfl
    | cons j l ih =>
      intro st h
      have hc : (st.freeReserved entries j).cellAt i = st.cellAt i := by
        by_cases hj : i = j
        · subst hj; unfold Store.freeReserved; rw [if_neg (by simp [h])]
        · exact Store.freeReserved_other entries st j i hj
      rw [List.foldl_cons, ih _ (by unfold Store.slotAt; rw [hc]; exact h), hc]
  · rw [Store.directory_visits (Store.freeReserved entries) (fun c => c.slot.isReserved = true)
      (Store.freeReserved_directory entries) (Store.freeReserved_other entries) slotIndices nodup_slotIndices,
      mem_slotIndices]
    rfl

/-! ### TAKE NOTICES (R148) -/

/-- A notice record has 6 bytes (Table 11-10). -/
theorem length_noticeRecord (kind : Nat) (flag : Bool) (content : List Byte) :
    (noticeRecord kind flag content).length = 6 := by
  have : 4 ≤ content.length + 4 := Nat.le_add_left 4 _
  simp [noticeRecord, this]

/-- A slot's notice taken: the slot is left as `Cell.taken` says, and the record has 6 bytes. -/
theorem State.takeSlot_own (s : State) (i : Nat) (h : (s.store.slotAt i).noticePending = true) :
    (s.takeSlot i).1.store.slotAt i = (s.store.cellAt i).taken ∧ (s.takeSlot i).2.length = 6 := by
  have hs : s.store.slotAt i = (s.store.cellAt i).slot := rfl
  have hv := s.store.slotAt_verify i i
  rw [if_pos rfl] at hv
  have hf : s.store.found i = (s.store.cellAt i).found := rfl
  rw [hs] at h
  unfold State.takeSlot Cell.taken
  cases hc : (s.store.cellAt i).slot <;> rw [hc] at h <;>
    cases hu : (s.store.cellAt i).upset <;>
    first
      | (cases h; done)
      | (simp only [hv, hf, hc, Cell.found, hu, if_true, if_false, Bool.false_eq_true, Store.slotAt_changeSlot]
         exact ⟨trivial, length_noticeRecord _ _ _⟩)

/-- A slot's notice taken leaves every other slot as it was, and all of the part but the table. -/
theorem State.takeSlot_other (s : State) (i : Nat) :
    (∀ j, j ≠ i → (s.takeSlot i).1.store.cellAt j = s.store.cellAt j) ∧
      (s.takeSlot i).1 = { s with store := (s.takeSlot i).1.store } := by
  have hv := fun j h => s.store.cellAt_verify_ne i j h
  unfold State.takeSlot
  dsimp only
  split <;> refine ⟨fun j h => ?_, rfl⟩ <;> (try rw [Store.cellAt_changeSlot, if_neg h]) <;> exact hv j h

end Sys2Proof.Machine
end

