-- ==== Sys2Proof/Tests/Slice0.lean ====
section
/-! SUPPORT. The model's own tests: the operand ranges, the formats, one step of each command, and for each statement a state
that meets its hypotheses. -/

set_option maxRecDepth 100000

namespace Sys2Proof.Tests

open Sys2Proof Sys2Proof.Machine

/-! ### The operand ranges -/

theorem test_wf_fetch : (Instr.fetch 0).wf = false ∧ (Instr.fetch 1).wf = true := by decide
theorem test_wf_request_empty : (Instr.requestArrival []).wf = false := by decide
theorem test_wf_request_zero :
    (Instr.requestArrival [0]).wf = false ∧ (Instr.requestArrival [1]).wf = true := by decide
theorem test_wf_reply_none : (Instr.replyArrival []).wf = false := by decide
theorem test_wf_reply_many : (Instr.replyArrival (List.replicate 4 abortWord)).wf = false ∧
    (Instr.replyArrival (List.replicate 3 abortWord)).wf = true := by decide
theorem test_wf_demand_none : (Instr.demandRequestArrival []).wf = false := by decide
theorem test_wf_demand_many : (Instr.demandRequestArrival (List.replicate 5 abortWord)).wf = false ∧
    (Instr.demandRequestArrival (List.replicate 4 abortWord)).wf = true := by decide
theorem test_wf_upset : (Instr.storageUpset 1024).wf = false ∧ (Instr.storageUpset 1023).wf = true := by decide

/-! ### Formats -/

theorem test_crc8_check_value : crc8 [0x31, 0x32, 0x33, 0x34, 0x35, 0x36, 0x37, 0x38, 0x39] = 0xF4 := by decide
theorem test_word_order : bytesOfWord 0x1234 = [0x12, 0x34] ∧ wordOfBytes 0x12 0x34 = 0x1234 := by decide
theorem test_parity : parityOf true 0x0001 = false ∧ parityOf false 0x0001 = true := by decide
theorem test_abort_word : abortWord = ⟨true, 0xF000, true, true⟩ := by decide
theorem test_line_word_bits : (LineWord.make true 0x5141).bits =
    [false, true, false, true, false, true, false, false, false, true, false, true, false, false, false, false, false, true,
      false, true] := by decide
theorem test_hear : hear ([true, true] ++ abortWord.bits ++ (LineWord.mk false 0x1234 true false).bits ++ [true] ++
    abortWord.bits ++ [true, false]) = [abortWord, ⟨false, 0x1234, true, false⟩, abortWord] := by decide

/-! ### States -/

/-- The state that a result holds, if it is a next state. -/
def after (r : Result) : Option State :=
  match r with
  | .next t => some t
  | .fault _ | .refused _ => none

/-- READY after reset. -/
def ready : State := { State.reset with port := { HostPort.initial with state := .ready } }

/-- A state with RESET# asserted. -/
def inReset (s : State) : State := { s with port := { s.port with resetAsserted := true } }

/-- A request held by the port for its block. -/
def holding (r : Request) (s : State) : State :=
  { s with port := { s.port with state := .working, request := some r } }

/-- A request held in its access. -/
def access (r : Request) (s : State) : State := { holding r s with arbiter := ⟨some .host, []⟩ }

/-- A scan state with what is on the line. -/
def scanning (state : ScanState) (line : LineState) (s : State) : State :=
  { s with scan := { s.scan with state := state, line := line }, timer := ⟨true, 1, 17⟩ }

/-- A claim in its access. -/
def granted (c : Claim) (s : State) : State := { s with arbiter := ⟨some c, []⟩ }

/-- A record of key 300 with a lease of 2 cycles, reply requested and notify on change. -/
def sample : Record :=
  { key := 300, node := 9, channel := 3, cls := .p2, payload := [0x0010, 0x0220], revision := 4,
    replyRequested := true, notify := true, leaseLength := some 2, echo := some ⟨.none, none⟩,
    echoChanged := some false }

/-- The sample record as a standing record. -/
def standing : Record := { sample with leaseLength := none }

/-- A table whose one non-FREE slot is slot 16, in page 2, of class P2 and phase 1 where it is scheduled. -/
def tableOf (c : Cell) (scheduled : Bool) : Store :=
  { Store.initial with
    cells := [(16, c)], directory := [(300, 16)],
    pages := if scheduled then [(2, ⟨some ⟨.p2, 1⟩, none⟩)] else [],
    loads := if scheduled then [0, 1, 0, 1, 0, 1, 0, 1, 0, 1, 0, 1, 0, 1, 0, 1] else List.replicate 16 0 }

/-- READY with a sound slot 16 in this state, its page scheduled. -/
def withSlot (v : Slot) : State := { ready with store := tableOf ⟨v, false⟩ true }

/-- READY with a slot 16 whose page is not scheduled. -/
def withIdleSlot (v : Slot) : State := { ready with store := tableOf ⟨v, false⟩ false }

/-- The sample record LIVE. -/
def live : Slot := .live sample (some 2) false

/-- A batch state with its entries. -/
def batched (state : BatchState) (entries : List BatchEntry) (s : State) : State := { s with batch := ⟨state, entries⟩ }

/-- 32 entries of distinct keys, none of them 300. -/
def fullBatch : List BatchEntry := (List.range 32).map fun i => ⟨.retire, BitVec.ofNat 16 (1000 + i), 0⟩

/-- The arguments of an INSERT. -/
def newArgs (key : Word) (cls : RateClass) : InsertArgs := ⟨key, 5, 0, cls, false, false, none, [1]⟩

/-! ### Power, reset and the transactions of the port -/

theorem test_powerOn : after (exec .powerOn (withSlot live)) = some State.reset := by decide
theorem test_resetAssert : (after (exec .resetAssert (scanning .run .frame ready))).map
    (fun t => (t.scan.state, t.scan.line, t.port.resetAsserted, t.rdy)) = some (.stopped, .idle, true, false) := by decide
theorem test_resetRelease :
    after (exec .resetRelease { ready with port := { ready.port with resetAsserted := true } }) = some State.reset := by
  decide
theorem test_initializationEnd : (after (exec .initializationEnd State.reset)).map (fun t => (t.port.response, t.rdy)) =
    some ([0x04, 0x02, 0x00, 0x81], true) := by decide
theorem test_emptyTransaction : after (exec .emptyTransaction ready) = some ready := by decide
theorem test_fetch : (after (exec (.fetch 6) (holding .status ready))).map (fun t => t.port.miso) =
    some [0xFF, 0x02, 0x00, 0x00, crc8 [0x02, 0x00, 0x00], 0xFF] := by decide
theorem test_requestArrival : (after (exec (.requestArrival Request.identify.bytes) ready)).map
    (fun t => (t.port.state, t.port.request)) = some (.working, some .identify) := by decide
theorem test_requestArrival_unknown :
    (after (exec (.requestArrival [0x06, 0x00, crc8 [0x06, 0x00]]) ready)).map (fun t => t.port.response.head?) =
      some (some 0x12) := by decide

/-! ### Requests -/

/-- The response of the state that a result holds. -/
def answer (r : Result) : Option (List Byte) := (after r).map fun t => t.port.response.dropLast

theorem test_identify : answer (exec .identify (holding .identify ready)) =
    some [0x00, 0x00, 10, 0x0A, 0x7C, 0x12, 0x16, 1, 0x04, 0x00, 128, 62, 32] := by decide
theorem test_status : answer (exec .status (holding .status (scanning .hold .idle ready))) =
    some [0x00, 0x60, 0] := by decide
theorem test_readConfiguration : answer (exec .readConfiguration (holding .readConfiguration ready)) =
    some [0x00, 0x00, 5, 0, 4, 4, 2, 3] := by decide
theorem test_configure : (after (exec .configure (access (.configure ⟨.mbit5, 8, 1, 3, 15⟩) (withSlot live)))).map
    (fun t => (t.port.config, t.port.response.head?)) = some (⟨.mbit5, 8, 1, 3, 15⟩, some 0x00) := by decide
theorem test_configure_exceeds :
    answer (exec .configure (access (.configure ⟨.mbit10, 4, 0, 2, 3⟩) (withSlot live))) = some [0x41, 0x00, 0] := by
  decide
theorem test_clear : (after (exec .clear (access .clear (withSlot live)))).map
    (fun t => (t.store, t.port.state, t.port.initCause)) = some (Store.initial, .init, .clear) := by decide
theorem test_clearInitializationEnd : (after (exec .clearInitializationEnd
    { access .clear ready with port := { ready.port with state := .init, initCause := .clear } })).map
      (fun t => (t.port.state, t.port.response.head?, t.arbiter.inProgress)) = some (.ready, some 0x00, none) := by decide
theorem test_startScan : (after (exec .startScan (holding .startScan ready))).map
    (fun t => (t.scan.state, t.timer, t.arbiter.inProgress, t.scan.sent.map (·.data) |>.take 2)) =
      some (.run, ⟨true, 0, 0⟩, some .countdown, [0x1400, 0x0000]) := by decide
theorem test_stopScan : (after (exec .stopScan (access .stopScan
    { withSlot (.withdrawing sample .retired 2) with timer := ⟨true, 1, 17⟩ }))).map
      (fun t => (t.store.slotAt 16, t.store.loads, t.timer.running, t.port.stopScanDone)) =
        some (.free, List.replicate 16 0, false, true) := by decide
theorem test_stopScanCompletion : (after (exec .stopScanCompletion
    { holding .stopScan ready with
      port := { (holding .stopScan ready).port with stopScanDone := true }
      scan := { ready.scan with line := .frame, abort := .afterWord } })).map
      (fun t => (t.scan.sent, t.scan.line, t.port.state)) = some ([abortWord], .idle, .ready) := by decide
theorem test_holdScan : (after (exec .holdScan (holding .holdScan (scanning .run .mark ready)))).map
    (fun t => (t.scan.request, t.port.response.head?)) = some (.hold, some 0x00) := by decide
theorem test_resumeScan : (after (exec .resumeScan (holding .resumeScan (scanning .fault .idle ready)))).map
    (fun t => t.scan.request) = some .resume := by decide
theorem test_insert : (after (exec .insert (access (.insert (newArgs 301 .p2)) (withSlot live)))).map
    (fun t => (t.store.slotAt 17, t.port.response.dropLast)) =
      some ((newArgs 301 .p2).record.asLive, [0x00, 0x00, 3, 2, 1, 0]) := by decide
theorem test_insert_staged : (after (exec .insert (access (.insert (newArgs 301 .p1)) (batched .open_ [] ready)))).map
    (fun t => (t.store.pageState 0, t.port.response.dropLast)) = some (.opening, [0x00, 0x08, 5, 0, 0, 3, 0, 1]) := by
  decide
theorem test_amend : (after (exec .amend (access (.amend 300 [7] (some 0)) (withSlot live)))).map
    (fun t => (t.store.slotAt 16, t.port.response.dropLast)) =
      some (.live { sample with payload := [7], revision := 5, leaseLength := none } none false, [0, 0, 2, 5, 0]) := by
  decide
theorem test_renew : answer (exec .renew (access (.renew 300 (some 9)) (withSlot live))) =
    some [0x00, 0x00, 5, 1, 0, 9, 0, 9] := by decide
theorem test_retire : (after (exec .retire (access (.retire 300) (scanning .run .idle (withSlot live))))).map
    (fun t => (t.store.slotAt 16, t.port.response.dropLast)) =
      some (.withdrawing sample .retired 2, [0x00, 0x20, 2, 3, 2]) := by decide
theorem test_lookup : answer (exec .lookup (access (.lookup 300) (withSlot live))) =
    some [0x00, 0x00, 21, 0x01, 0x2C, 2, 0, 2, 9, 3, 1, 3, 0x47, 4, 2, 0x00, 0x10, 0x02, 0x20, 0, 2, 0, 2, 0] := by
  decide
theorem test_pageQuery : answer (exec .pageQuery (access (.pageQuery 2) (withSlot live))) =
    some [0x00, 0x00, 14, 3, 1, 1, 1, 2, 0x01, 0x2C, 0, 0, 0, 0, 0, 0, 0] := by decide
theorem test_loadQuery : answer (exec .loadQuery (access .loadQuery (withSlot live))) =
    some [0x00, 0x00, 17, 0, 1, 0, 1, 0, 1, 0, 1, 0, 1, 0, 1, 0, 1, 0, 1, 4] := by decide
theorem test_openBatch : (after (exec .openBatch (access .openBatch ready))).map (fun t => t.batch) =
    some ⟨.open_, []⟩ := by decide
theorem test_commitBatch : answer (exec .commitBatch (access .commitBatch
    (scanning .run .idle (batched .open_ [⟨.retire, 300, 16⟩] (withSlot live))))) = some [0x01, 0x30, 1, 1] := by decide
theorem test_commitBatch_stopped : (after (exec .commitBatch (access .commitBatch
    (batched .open_ [⟨.retire, 300, 16⟩] (withSlot live))))).map
      (fun t => (t.store, t.notices.applied, t.port.response.dropLast)) =
        some (Store.initial, some ⟨1, 0, false⟩, [0x00, 0x04, 2, 1, 0]) := by decide
theorem test_abortBatch : (after (exec .abortBatch (access .abortBatch
    (batched .open_ [⟨.insert sample, 300, 16⟩] (withSlot (.reserved sample)))))).map
      (fun t => (t.store, t.batch, t.port.response.dropLast)) =
        some (Store.initial, ⟨.none, []⟩, [0x00, 0x00, 1, 1]) := by decide
theorem test_batchQuery : answer (exec .batchQuery (access .batchQuery
    (batched .sealed_ [⟨.retire, 300, 16⟩] (withSlot live)))) = some [0x00, 0x10, 5, 2, 1, 3, 0x01, 0x2C] := by decide
theorem test_nodeQuery : answer (exec .nodeQuery (holding (.nodeQuery 62) ready)) =
    some [0x00, 0x00, 6, 62, 0, 0, 0, 0, 0] := by decide
theorem test_nodeSet : (after (exec .nodeSet (holding (.nodeSet 9 true true)
    { ready with nodes := ⟨[(9, ⟨.present, .unseen, 1, 255, false⟩)], 62⟩ }))).map
      (fun t => (t.nodes.at 9, t.port.response.dropLast)) =
        some (⟨.present, .unseen, 1, 0, true⟩, [0x00, 0x04, 6, 9, 1, 0, 1, 0, 1]) := by decide
theorem test_takeNotices : (after (exec .takeNotices (access .takeNotices
    { withIdleSlot (.lapsed sample) with notices := ⟨some ⟨1, 2, true⟩, none⟩ }))).map
      (fun t => (t.store, t.attn, t.port.response.dropLast)) =
        some (Store.initial, false, [0x00, 0x00, 15, 2, 0, 0, 1, 1, 1, 2, 0, 0, 4, 0, 0x01, 0x2C, 0, 0]) := by decide

/-! ### The boundary, the line and the storage -/

theorem test_boundary : (after (exec .boundary (scanning .run .idle ready))).map
    (fun t => (t.timer, t.scan.line, t.arbiter.inProgress, (t.scan.sent.map (·.data)).take 2)) =
      some (⟨true, 2, 18⟩, .mark, some .countdown, [0x1002, 18]) := by decide
theorem test_leaseCountdown : (after (exec .leaseCountdown (granted .countdown (scanning .run .mark
    (withSlot (.live sample (some 1) false)))))).map
      (fun t => (t.store.slotAt 16, t.store.due, t.arbiter.inProgress)) =
        some (.withdrawing sample .expired 2, [⟨2, false⟩], some (.transfer 2)) := by decide
theorem test_batchApplication : (after (exec .batchApplication (granted .application (scanning .run .mark
    (batched .sealed_ [⟨.amend [7] none, 300, 16⟩] (withSlot live)))))).map
      (fun t => (t.store.slotAt 16, t.notices.applied, t.batch.state)) =
        some (.live { sample with payload := [7], revision := 5 } (some 2) false, some ⟨1, 0, false⟩, .none) := by decide

/-- The frame of page 2 with the sample record in it. -/
def sampleFrame : Frame := ⟨2, [⟨16, 300, 9, 3, 4, false, true, [0x0010, 0x0220]⟩]⟩

/-- A state with page 2 on the due list, not yet transferred. -/
def due (s : State) : State := { s with store := { s.store with due := [⟨2, false⟩] } }

theorem test_pageTransfer : (after (exec .pageTransfer (granted (.transfer 2) (scanning .run .mark
    (due (withSlot live)))))).map (fun t => (t.scan.regA, t.store.due, (t.store.pageAt 2).lastTransfer)) =
      some (.filled sampleFrame, [⟨2, true⟩], some 17) := by decide

/-- A frame register of the part. -/
def register (r : FrameRegister) (s : State) : State := { s with scan := { s.scan with regA := r } }

theorem test_frameStart : (after (exec .frameStart (register (.filled sampleFrame) (scanning .run .mark ready)))).map
    (fun t => (t.scan.regA, t.scan.line, (t.scan.sent.map (·.data)).take 3)) =
      some (.inFlight sampleFrame, .frame, [0x2042, 17, 0x324D]) := by decide
theorem test_frameEnd : (after (exec .frameEnd (register (.inFlight sampleFrame) (scanning .run .frame ready)))).map
    (fun t => (t.scan.line, t.reply.slots)) = some (.replyWindow, [⟨16, 300, 9, 4, .undecided⟩]) := by decide
theorem test_cycleMarkEnd : (after (exec .cycleMarkEnd (scanning .hold .mark ready))).map (fun t => t.scan.line) =
    some .idle := by decide
theorem test_readbackMismatch : (after (exec .readbackMismatch (scanning .run .frame ready))).map
    (fun t => (t.scan.state, t.notices.fault, t.attn)) = some (.fault, some ⟨17, false⟩, true) := by decide
theorem test_strayLineWord : after (exec (.strayLineWord abortWord) (scanning .run .mark ready)) =
    some (scanning .run .mark ready) := by decide
theorem test_storageUpset : (after (exec (.storageUpset 16) (withSlot live))).map
    (fun t => (t.store.slotAt 16, t.store.found 16)) = some (live, .damaged false) := by decide

/-! ### Replies and demand lookups -/

/-- The words of a valid reply to the sample record. -/
def replyWords (value : Word) : List LineWord := [LineWord.make false value, LineWord.make false (crc16 [300, value])]

/-- A reply window with the sample record's slot in progress. -/
def replyWindow (words : List LineWord) (s : State) : State :=
  register (.inFlight sampleFrame)
    { scanning .run .replyWindow s with reply := ⟨[⟨16, 300, 9, 4, .undecided⟩], words⟩ }

theorem test_replyArrival : (after (exec (.replyArrival (replyWords 5)) (replyWindow [] (withSlot live)))).map
    (fun t => t.reply.words) = some (replyWords 5) := by decide
theorem test_replySlotExpiry : (after (exec .replySlotExpiry (replyWindow (replyWords 5) (withSlot live)))).map
    (fun t => (t.arbiter.inProgress, t.scan.line)) = some (some (.writeBack ⟨16, 300, 9, 4, .valid 5⟩), .between) := by
  decide
theorem test_echoWriteBack : (after (exec .echoWriteBack (granted (.writeBack ⟨16, 300, 9, 4, .valid 5⟩)
    (scanning .run .between (withSlot live))))).map (fun t => (t.store.slotAt 16, t.nodes.at 9, t.attn)) =
      some (.live { sample with echo := some ⟨.fresh, some ⟨5, 4⟩⟩, echoChanged := some true } (some 2) false,
        ⟨.present, .unseen, 0, 0, false⟩, true) := by decide

/-- A demand window with node 20 invited. -/
def demandWindow (state : DemandState) (key : Option Word) (words : List LineWord) (a : Option Answer) (s : State) :
    State :=
  { scanning .run .demandWindow s with demand := ⟨state, 20, key, words, a⟩ }

/-- The words of a valid demand request of node 20 for a key. -/
def demandWords (key : Word) : List LineWord :=
  [LineWord.make true 0x4500, LineWord.make false key, LineWord.make false (crc16 [0x4500, key])]

theorem test_demandWindowOpen : (after (exec .demandWindowOpen (scanning .run .between ready))).map
    (fun t => (t.scan.line, t.demand.state)) = some (.demandWindow, .silentWindow) := by decide
theorem test_demandRequestArrival : (after (exec (.demandRequestArrival (demandWords 300))
    (demandWindow .listening none [] none ready))).map (fun t => t.demand.words) = some (demandWords 300) := by decide
theorem test_requestAllowanceEnd : (after (exec .requestAllowanceEnd
    (demandWindow .listening none (demandWords 300) none ready))).map
      (fun t => (t.demand.state, t.demand.key, t.arbiter.inProgress, (t.nodes.at 20).presence)) =
        some (.looking, some 300, some (.lookup 300), .present) := by decide
theorem test_demandLookup : (after (exec .demandLookup (granted (.lookup 300)
    (demandWindow .looking (some 300) [] none (withSlot live))))).map (fun t => t.demand.answer) =
      some (some (.entry ⟨16, 300, 9, 3, 4, false, true, [0x0010, 0x0220]⟩)) := by decide
theorem test_answerAllowanceStart : (after (exec .answerAllowanceStart
    (demandWindow .looking (some 0) [] none ready))).map (fun t => (t.demand.state, (t.scan.sent.map (·.data)).take 2)) =
      some (.answering, [0x5941, 0]) := by decide
theorem test_answerSent : (after (exec .answerSent (demandWindow .answering (some 300) [] none ready))).map
    (fun t => t.demand.state) = some .silentWindow := by decide
theorem test_demandWindowEnd : (after (exec .demandWindowEnd (demandWindow .silentWindow none [] none ready))).map
    (fun t => (t.scan.line, t.demand)) = some (.idle, DemandServer.initial) := by decide

/-! ### States that meet the hypotheses of the statements -/

theorem test_hyp_StepRunsTheFrontCommand :
    { ready with pending := [.boundary, .identify] }.pending = Instr.boundary :: [.identify] ∧ ready.pending = [] := by
  decide

theorem test_hyp_PowerAndResetStartAfresh :
    { ready with port := { ready.port with resetAsserted := true } }.port.resetAsserted = true ∧
      State.reset.port.state = .init ∧ State.reset.port.initCause = .reset ∧
      State.reset.port.resetAsserted = false := by decide

theorem test_hyp_FetchReturnsTheResponse : 1 ≤ 1 ∧ ready.port.resetAsserted = false ∧ ready.port.state = .ready ∧
    (holding .status ready).port.state = .working ∧ State.reset.port.state = .init ∧
    (inReset ready).port.resetAsserted = true := by decide

theorem test_hyp_OverlappingRequestIsDiscarded : (1 : Byte) ≠ 0 ∧ State.reset.port.resetAsserted = false ∧
    State.reset.port.state ≠ .ready ∧ (holding .status ready).port.resetAsserted = false ∧
    (holding .status ready).port.state ≠ .ready ∧ (inReset ready).port.resetAsserted = true := by decide

theorem test_hyp_RequestIsTaken : (inReset ready).port.resetAsserted = true ∧
    ready.port.resetAsserted = false ∧ ready.port.state = .ready ∧ (0x02 : Byte) ≠ 0 ∧
    readRequest [0x02] 1 = .error .badCheck ∧
    readRequest Request.status.bytes 3 = .ok .status ∧ Request.status.direct = true ∧
    readRequest Request.clear.bytes 3 = .ok .clear ∧ Request.clear.direct = false := by decide

theorem test_hyp_FramingChecksComeFirst :
    2 < 3 ∧ 4 ≠ (0x00 : Byte).toNat + 3 ∧ (0x00 : Byte) ≠ crc8 [0x02, 0x00] ∧ ([7] : List Byte) ≠ [] ∧
      (0x01 : Byte).toNat = ([7] : List Byte).length ∧
      (0x50 : Byte) ∈ ([0x01, 0x02, 0x03, 0x05, 0x10, 0x11, 0x12, 0x13, 0x26, 0x30, 0x31, 0x32, 0x33, 0x50] : List Byte) ∧
      (([5, 2, 1] : List Nat).all fun n => ([n - 1, n + 1] : List Nat).all fun m =>
        decide ((byteOf m).toNat = (List.replicate m (0 : Byte)).length ∧ m ≠ n)) = true ∧
      (List.replicate 6 (0 : Byte)).length < 7 ∧ (List.replicate 3 (0 : Byte)).length < 4 ∧
      (byteOf 9).toNat = ([0, 1, 1, 0, 0, 4, 1] ++ [0, 5] : List Byte).length ∧
      ([0, 5] : List Byte).length ≠ (if (4 : Byte).getLsbD 2 then 2 else 0) + 2 * (1 : Byte).toNat ∧
      (byteOf 8).toNat = ([0, 1, 0, 1] ++ [0, 5, 0, 6] : List Byte).length ∧
      ([0, 5, 0, 6] : List Byte).length ≠ (if (0 : Byte).getLsbD 2 then 2 else 0) + 2 * (1 : Byte).toNat ∧
      (0x06 : Byte) ∉ ([0x01, 0x02, 0x03, 0x04, 0x05, 0x10, 0x11, 0x12, 0x13, 0x20, 0x21, 0x22, 0x23, 0x24, 0x25, 0x26,
        0x30, 0x31, 0x32, 0x33, 0x40, 0x41, 0x50] : List Byte) := by decide

/-- The requests at the ends of their ranges. -/
def edges : List Request :=
  [.configure ⟨.mbit10, 2, 1, 1, 1⟩, .configure ⟨.mbit10, 32, 16, 3, 15⟩,
    .insert ⟨1, 1, 0, .p1, false, false, none, [0]⟩,
    .insert ⟨0xFFFE, 62, 15, .p16, true, true, some 65535, List.replicate 8 0xFFFF⟩,
    .insert ⟨2, 63, 15, .p8, false, false, some 1, [1, 2]⟩, .amend 1 [0] none,
    .amend 0xFFFE (List.replicate 8 0x8001) (some 0), .amend 7 [3, 4] (some 65535), .renew 1 none,
    .renew 0xFFFE (some 65535), .renew 2 (some 0), .retire 1, .lookup 0xFFFE, .pageQuery 127, .pageQuery 0,
    .nodeQuery 1, .nodeQuery 62, .nodeSet 62 true true, .nodeSet 1 false false]

theorem test_hyp_AcceptedArgumentsAreInRange :
    edges.all (fun r => decide (readRequest r.bytes r.bytes.length = .ok r)) = true ∧
      ([] : List Byte).length = (if (0 : Byte).getLsbD 2 then 2 else 0) + 2 * (0 : Byte).toNat ∧
      (List.replicate 18 (0 : Byte)).length = (if (0 : Byte).getLsbD 2 then 2 else 0) + 2 * (9 : Byte).toNat ∧
      ([0, 0, 0, 5] : List Byte).length = (if (4 : Byte).getLsbD 2 then 2 else 0) + 2 * (1 : Byte).toNat := by decide

theorem test_refused_inserts : ([
    ([0, 0, 0, 0, 0, 0, 1, 0, 5], .badKey), ([0xFF, 0xFF, 1, 0, 0, 0, 1, 0, 5], .badKey),
    ([0, 1, 0, 0, 0, 0, 1, 0, 5], .badArg), ([0, 1, 64, 0, 0, 0, 1, 0, 5], .badArg),
    ([0, 1, 1, 16, 0, 0, 1, 0, 5], .badArg), ([0, 1, 1, 0, 5, 0, 1, 0, 5], .badArg), ([0, 1, 1, 0, 0, 0, 0], .badArg),
    ([0, 1, 1, 0, 0, 0, 9] ++ List.replicate 18 0, .badArg), ([0, 1, 1, 0, 0, 8, 1, 0, 5], .badArg),
    ([0, 1, 63, 0, 0, 1, 1, 0, 5], .badArg), ([0, 1, 1, 0, 0, 2, 1, 0, 5], .badArg),
    ([0, 1, 1, 0, 0, 4, 1, 0, 0, 0, 5], .badArg)] : List (List Byte × Status)).all
      (fun x => decide (readFramed 0x20 x.1 = .error x.2)) = true := by decide

theorem test_refused_arguments : ([
    (0x21, [0, 0, 0, 0], .badKey), (0x21, [0, 1, 0, 0], .badArg), (0x21, [0, 1, 0, 9] ++ List.replicate 18 0, .badArg),
    (0x21, [0, 1, 8, 1, 0, 5], .badArg), (0x22, [0xFF, 0xFF, 8, 0, 0], .badKey), (0x22, [0, 1, 8, 0, 0], .badArg),
    (0x23, [0, 0], .badKey), (0x24, [0xFF, 0xFF], .badKey), (0x25, [128], .badArg), (0x40, [0], .badArg),
    (0x40, [63], .badArg), (0x41, [0, 0], .badArg), (0x41, [63, 0], .badArg), (0x41, [1, 4], .badArg),
    (0x04, [3, 4, 4, 2, 3], .badArg), (0x04, [0, 0, 4, 2, 3], .badArg), (0x04, [0, 33, 4, 2, 3], .badArg),
    (0x04, [0, 4, 0, 2, 3], .badArg), (0x04, [0, 32, 17, 2, 3], .badArg), (0x04, [0, 4, 4, 0, 3], .badArg),
    (0x04, [0, 4, 4, 4, 3], .badArg), (0x04, [0, 4, 4, 2, 0], .badArg), (0x04, [0, 4, 4, 2, 16], .badArg),
    (0x04, [0, 1, 4, 2, 16], .badArg), (0x04, [0, 1, 4, 2, 3], .configInvalid)] : List (Byte × List Byte × Status)).all
      (fun x => decide (readFramed x.1 x.2.1 = .error x.2.2)) = true := by decide

theorem test_hyp_RequestBytesReadBack :
    (Request.insert ⟨0xFFFE, 62, 15, .p16, true, true, some 65535, List.replicate 8 0xFFFF⟩).inRange ∧
      (Request.configure ⟨.mbit10, 32, 16, 3, 15⟩).inRange ∧ (Request.renew 1 (some 65535)).inRange := by
  refine ⟨⟨by decide, by decide, by decide, by decide, by decide, by decide, by decide, by decide, by decide, by decide,
    ?_⟩, ⟨by decide, by decide, by decide, by decide, by decide, by decide, by decide, by decide, by decide⟩,
    ⟨by decide, by decide, ?_⟩⟩ <;> (intro n h; cases h; decide)

theorem test_hyp_CompletionAnswersAndGrantsOn :
    (Claim.countdown ≠ .host ∧ ready.arbiter.inProgress = none ∧ ready.arbiter.waiting = [] ∧
      ready.port.request ≠ some .stopScan) ∧
    (let s := { granted .host ready with arbiter := ⟨some .host, [.countdown]⟩ };
      s.arbiter.inProgress ≠ none ∧ (∀ d ∈ s.arbiter.waiting, d.rank ≠ (Claim.lookup 1).rank) ∧
        (∃ d ∈ s.arbiter.waiting, d.rank = Claim.countdown.rank) ∧ s.arbiter.waiting ≠ []) := by decide

/-- With all six accessors waiting, each completion grants the claim that R18 puts first of those left. -/
theorem test_grants_in_order_of_R18 :
    (let all : List Claim :=
        [.transfer 2, .writeBack ⟨16, 300, 9, 0, .absent⟩, .countdown, .application, .lookup 300, .host];
      ((List.range 6).map fun k => (Nat.repeat Arbiter.next (k + 1) ⟨some .host, all.reverse⟩).inProgress) = all.map some) := by
  decide

/-- A state whose timer runs, with a scan state and a pending request. -/
def timed (state : ScanState) (p : ScanRequest) : State :=
  { scanning state .idle ready with scan := { ready.scan with state := state, request := p } }

/-- A state with a scan state and a pending request, and a request held. -/
def requested (r : Request) (state : ScanState) (p : ScanRequest) : State :=
  holding r { ready with scan := { ready.scan with state := state, request := p } }

theorem test_hyp_PortRequestsAnswer : (holding .identify ready).heldDirect = some .identify ∧
    (holding .status ready).heldDirect = some .status ∧
    (holding .readConfiguration ready).heldDirect = some .readConfiguration ∧
    ([(.stopped, .none), (.run, .none), (.run, .hold), (.hold, .none), (.hold, .resume), (.fault, .none), (.fault, .hold),
        (.fault, .resume)] : List (ScanState × ScanRequest)).all (fun x =>
      decide ((requested .status x.1 x.2).scan.state = x.1 ∧ (requested .status x.1 x.2).scan.request = x.2)) = true ∧
    (requested .status .fault .resume).summary = 0xE0 ∧ (batched .sealed_ [] ready).summary = 0x10 ∧
    { ready with notices := ⟨none, some ⟨1, false⟩⟩ }.summary = 0x04 ∧
    { ready with port := { ready.port with resetSeen := true } }.summary = 0x02 ∧
    { ready with port := { ready.port with requestDiscarded := true } }.summary = 0x01 := by decide

theorem test_canonical : (withSlot live).canonical ∧ (withIdleSlot (.lapsed sample)).canonical :=
  ⟨⟨⟨by decide, by decide, by decide⟩, by decide⟩, ⟨⟨by decide, by decide, by decide⟩, by decide⟩⟩

/-- A CONFIGURE in its access beside one P2 page. -/
def configuring (frames : Nat) (state : ScanState) : State :=
  access (.configure ⟨.mbit10, 4, frames, 2, 3⟩) { withSlot live with scan := { ready.scan with state := state } }

theorem test_hyp_ConfigureStoresTheFiveValues :
    (configuring 1 .stopped).canonical ∧
    (configuring 1 .run).heldAccess = some (.configure ⟨.mbit10, 4, 1, 2, 3⟩) ∧ (configuring 1 .run).scan.state ≠ .stopped ∧
    (configuring 0 .stopped).heldAccess = some (.configure ⟨.mbit10, 4, 0, 2, 3⟩) ∧
    (∃ n ∈ (configuring 0 .stopped).store.loads, 0 < n) ∧
    (configuring 1 .stopped).heldAccess = some (.configure ⟨.mbit10, 4, 1, 2, 3⟩) ∧
    (configuring 1 .stopped).scan.state = .stopped ∧ (∀ n ∈ (configuring 1 .stopped).store.loads, n ≤ 1) := by
  refine ⟨⟨⟨by decide, by decide, by decide⟩, by decide⟩, by decide, by decide, by decide, by decide, by decide, by decide,
    by decide⟩

theorem test_hyp_ClearStartsAfresh :
    (access .clear (scanning .hold .idle ready)).heldAccess = some .clear ∧
    (access .clear (scanning .hold .idle ready)).scan.state ≠ .stopped ∧
    (access .clear ready).heldAccess = some .clear ∧ (access .clear ready).scan.state = .stopped ∧
    (let s := { ready with port := { ready.port with state := .init, initCause := .clear } };
      s.port.state = .init ∧ s.port.initCause = .clear) := by decide

theorem test_hyp_StartScanTakesTheFirstBoundary :
    (holding .startScan (scanning .run .idle ready)).heldDirect = some .startScan ∧
    (holding .startScan (scanning .run .idle ready)).scan.state ≠ .stopped ∧
    (holding .startScan ready).heldDirect = some .startScan ∧ (holding .startScan ready).scan.state = .stopped ∧
    (holding .startScan ready).scan.request = .none := by decide

/-- A scan in RUN with a claim in its access, and a STOP SCAN that waits behind it. -/
def waitingStop (c : Claim) (s : State) : State := { holding .stopScan s with arbiter := ⟨some c, [.host]⟩ }

theorem test_hyp_StopScanGrantStopsTheScan :
    ([.idle, .between, .mark, .frame, .replyWindow, .demandWindow] : List LineState).all (fun l =>
      ([.listening, .answering, .looking] : List DemandState).all fun d =>
        let s := { scanning .run l ready with demand := ⟨d, 20, none, [], none⟩ }
        decide (s.port.state = .ready ∧ s.port.resetAsserted = false ∧ s.arbiter.inProgress = none ∧
          s.scan.state ≠ .stopped ∧ s.scan.line = l ∧ s.demand.state = d)) = true ∧
    ([.transfer 2, .writeBack ⟨16, 300, 9, 4, .absent⟩, .lookup 300] : List Claim).all (fun c =>
      let s := waitingStop c (scanning .run .frame ready)
      decide (s.arbiter.inProgress = some c ∧ s.port.request = some .stopScan ∧ .host ∈ s.arbiter.waiting ∧
        (∀ d ∈ s.arbiter.waiting, d = .host) ∧ s.scan.state ≠ .stopped)) = true ∧
    ([[⟨16, 300, 9, 4, .absent⟩], [⟨16, 300, 9, 4, .absent⟩, ⟨17, 301, 9, 0, .undecided⟩]] : List (List ReplySlot)).all
      (fun l => ((l.drop 1).head?.toList.all fun x => decide (x.result = .undecided))) = true ∧
    (waitingStop (.lookup 300) (demandWindow .looking (some 300) [] none (withSlot live))).scan.line = .demandWindow ∧
    (waitingStop (.lookup 300) (demandWindow .looking (some 300) [] none (withSlot live))).demand.state = .looking := by
  decide

theorem test_waiting_stop : (after (exec .demandLookup
    (waitingStop (.lookup 300) (demandWindow .looking (some 300) [] none (withSlot live))))).map
      (fun t => (t.scan.state, t.scan.abort, t.arbiter.inProgress)) = some (.stopped, .sent, some .host) := by decide

theorem test_hyp_StopScanAccessEndsTheWork :
    ([.none, .open_, .sealed_] : List BatchState).all (fun b =>
      let s := access .stopScan { batched b [] ready with timer := ⟨true, 1, 17⟩ }
      decide (s.heldAccess = some .stopScan ∧ s.scan.state = .stopped ∧ s.timer.running = true ∧ s.batch.state = b)) = true ∧
    (access .stopScan ready).heldAccess = some .stopScan ∧ (access .stopScan ready).timer.running = false ∧
    (withSlot (.withdrawing sample .retired 2)).store.found 16 = .withdrawing sample .retired 2 ∧
    (withSlot (.withdrawing sample .expired 1)).store.found 16 = .withdrawing sample .expired 1 ∧
    (tableOf ⟨.withdrawing sample .retired 1, true⟩ true).found 16 = .damaged false ∧
    (withSlot live).store.slotAt 16 = live ∧
    (300, 16) ∈ (withSlot live).store.directory := by decide

theorem test_hyp_StopScanCompletesAfterTheAbortWord :
    ([.none, .afterWord, .afterSlot, .afterAllowance, .sent] : List Abort).all (fun a =>
      let s := holding .stopScan
        { ready with scan := { ready.scan with abort := a }, port := { ready.port with stopScanDone := true } }
      decide (s.heldDirect = some .stopScan ∧ s.port.stopScanDone = true ∧ s.scan.abort = a)) = true := by decide

theorem test_hyp_HoldScanSetsThePendingRequest :
    ([.stopped, .run, .hold, .fault] : List ScanState).all (fun st =>
      ([.none, .hold, .resume] : List ScanRequest).all fun p =>
        decide ((requested .holdScan st p).heldDirect = some .holdScan ∧ (requested .holdScan st p).scan.state = st ∧
          (requested .holdScan st p).scan.request = p)) = true ∧
    (timed .fault .hold).timer.running = true ∧ (timed .fault .hold).scan.state ≠ .stopped ∧
    (timed .fault .hold).scan.request = .hold ∧ (timed .hold .none).scan.state = .hold := by decide

theorem test_hyp_ResumeScanSetsThePendingRequest :
    ([.stopped, .run, .hold, .fault] : List ScanState).all (fun st =>
      ([.none, .hold, .resume] : List ScanRequest).all fun p =>
        decide ((requested .resumeScan st p).heldDirect = some .resumeScan ∧
          (requested .resumeScan st p).scan.state = st ∧ (requested .resumeScan st p).scan.request = p)) = true ∧
    (timed .fault .resume).timer.running = true ∧ (timed .fault .resume).scan.state ≠ .stopped ∧
    (timed .fault .resume).scan.request = .resume ∧ (timed .run .none).scan.state = .run := by decide

theorem test_hyp_InsertMakesALiveRecord :
    (access (.insert (newArgs 300 .p1)) (withSlot live)).heldAccess = some (.insert (newArgs 300 .p1)) ∧
    (withSlot live).batch.state = .none ∧ (withSlot live).store.slotOfKey 300 = some 16 ∧
    (withSlot live).store.slotOfKey 301 = none ∧
    (withSlot live).store.allocate 4 .p2 = .ok ⟨2, 1, none⟩ ∧
    (withSlot live).store.allocate 4 .p1 = .ok ⟨0, 0, some 0⟩ ∧
    (withSlot live).store.allocate 1 .p1 = .error .noCapacity ∧ (withSlot live).port.config.frames = 4 := by decide

/-- RDY and LTXEN where their level changes: a mark, a reply window, a demand window with and without an answer, a fault, and
the word in progress after the grant of STOP SCAN. -/
theorem test_rdy_and_ltxen :
    (ready.rdy, (holding .status ready).rdy) = (true, false) ∧
    (scanning .hold .mark ready).ltxen = true ∧ (scanning .run .replyWindow ready).ltxen = false ∧
    (scanning .run .demandWindow ready).ltxen = false ∧
    ({ scanning .run .demandWindow ready with demand := { ready.demand with state := .answering } } : State).ltxen = true ∧
    (scanning .fault .idle ready).ltxen = false ∧
    (scanning .run .frame ready).stopAtGrant.ltxen = true ∧ (scanning .run .replyWindow ready).stopAtGrant.ltxen = false := by
  decide

theorem test_hyp_AllocationTakesTheLowestPage :
    (withSlot live).store.joinable .p2 2 = true ∧ (withSlot live).store.joinable .p4 2 = false ∧
    (withSlot live).store.openable 0 = true ∧ (withSlot live).store.openable 2 = false ∧
    (withSlot live).store.allocate 1 .p2 = .ok ⟨2, 1, none⟩ ∧
    (withSlot live).store.allocate 4 .p16 = .ok ⟨0, 0, some 0⟩ ∧
    (withSlot live).store.allocate 1 .p1 = .error .noCapacity := by decide

theorem test_hyp_AdmissionChoosesThePhase :
    (withSlot live).store.allocate 2 .p4 = .ok ⟨0, 0, some 0⟩ ∧
    (withSlot live).store.allocate 1 .p1 = .error .noCapacity ∧ 0 < 2 ∧ 0 < (withSlot live).store.worstLoad 2 1 := by
  decide

theorem test_hyp_StagedInsertReservesASlot :
    (access (.insert (newArgs 301 .p1)) (batched .open_ (fullBatch.take 31) ready)).heldAccess =
      some (.insert (newArgs 301 .p1)) ∧
    (batched .open_ (fullBatch.take 31) ready).batch.state = .open_ ∧ (∀ e ∈ fullBatch.take 31, e.key ≠ 301) ∧
    (fullBatch.take 31).length < 32 ∧ ready.store.slotOfKey 301 = none ∧
    ready.store.allocate 4 .p1 = .ok ⟨0, 0, some 0⟩ ∧ ready.store.allocate 0 .p1 = .error .noCapacity ∧
    (withSlot live).store.slotOfKey 300 = some 16 ∧ (withSlot live).store.slotOfKey 301 = none ∧
    (withSlot live).store.allocate 4 .p2 = .ok ⟨2, 1, none⟩ ∧ (withSlot live).store.pageState 2 = .open_ := by decide

theorem test_hyp_StagingRefusalsComeFirst :
    (newArgs 300 .p1).key = 300 ∧
    ([.insert (newArgs 300 .p1), .amend 300 [1] none, .retire 300] : List Request).all (fun r =>
      decide ((access r (batched .sealed_ fullBatch ready)).heldAccess = some r ∧
        (access r (batched .sealed_ fullBatch ready)).batch.state = .sealed_ ∧
        (access r (batched .open_ fullBatch ready)).batch.state = .open_)) = true ∧
    (∀ e ∈ fullBatch, e.key ≠ 300) ∧ 32 ≤ fullBatch.length ∧ (∃ e ∈ fullBatch, e.key = 1031) := by decide

/-! What a verifying read finds. -/

theorem test_found_live : (withSlot live).store.found 16 = live := by decide
theorem test_found_lapsed : (withIdleSlot (.lapsed sample)).store.found 16 = .lapsed sample := by decide
theorem test_found_damaged :
    { ready with store := tableOf ⟨live, true⟩ true }.store.found 16 = .damaged false := by decide

theorem test_hyp_AmendReplacesThePayload :
    (access (.amend 300 [7] (some 1)) (withSlot live)).heldAccess = some (.amend 300 [7] (some 1)) ∧
    (access (.amend 300 [7] (some 0)) (withSlot live)).heldAccess = some (.amend 300 [7] (some 0)) ∧
    (access (.amend 300 [7] none) (withSlot live)).heldAccess = some (.amend 300 [7] none) ∧
    (access (.amend 300 [7] none) (withSlot live)).batch.state = .none ∧
    (withSlot live).store.slotOfKey 301 = none ∧ (withSlot live).store.slotOfKey 300 = some 16 ∧
    (withSlot live).store.found 16 = .live sample (some 2) false ∧
    (withIdleSlot (.lapsed sample)).store.slotOfKey 300 = some 16 ∧
    (∀ r m g, (withIdleSlot (.lapsed sample)).store.found 16 ≠ .live r m g) :=
  ⟨by decide, by decide, by decide, by decide, by decide, by decide, by decide, by decide,
    fun _ _ _ h => by cases test_found_lapsed.symm.trans h⟩

theorem test_hyp_StagedAmendAndRetireWait :
    (let s := batched .open_ (fullBatch.take 31) (withSlot live);
      s.batch.state = .open_ ∧ (∀ e ∈ s.batch.entries, e.key ≠ 300) ∧ s.batch.entries.length < 32 ∧
        (access (.amend 300 [7] none) s).heldAccess = some (.amend 300 [7] none) ∧
        (access (.retire 300) s).heldAccess = some (.retire 300) ∧
        s.store.slotOfKey 300 = some 16 ∧ s.store.slotOfKey 301 = none ∧
        s.store.found 16 = .live sample (some 2) false) ∧
    { ready with store := tableOf ⟨live, true⟩ true }.store.found 16 = .damaged false ∧
    (∀ r m g, (withIdleSlot (.lapsed sample)).store.found 16 ≠ .live r m g) ∧
    (∀ b, (withIdleSlot (.lapsed sample)).store.found 16 ≠ .damaged b) :=
  ⟨by decide, by decide, fun _ _ _ h => (by cases test_found_lapsed.symm.trans h),
    fun _ h => (by cases test_found_lapsed.symm.trans h)⟩

theorem test_hyp_RenewRestartsTheLease :
    (access (.renew 300 none) (withSlot live)).heldAccess = some (.renew 300 none) ∧
    (access (.renew 300 (some 0)) (withSlot live)).heldAccess = some (.renew 300 (some 0)) ∧
    (access (.renew 300 (some 1)) (withSlot live)).heldAccess = some (.renew 300 (some 1)) ∧
    (withSlot live).store.found 16 = .live sample (some 2) false ∧ sample.leaseLength ≠ none ∧
    (withSlot standing.asLive).store.found 16 = .live standing none false ∧ standing.leaseLength = none ∧
    (∀ r m g, (withIdleSlot (.lapsed sample)).store.found 16 ≠ .live r m g) :=
  ⟨by decide, by decide, by decide, by decide, by decide, by decide, by decide,
    fun _ _ _ h => by cases test_found_lapsed.symm.trans h⟩

theorem test_hyp_RetireWithdrawsOrFrees :
    (access (.retire 300) (withSlot live)).canonical ∧
    (access (.retire 300) (withSlot live)).heldAccess = some (.retire 300) ∧ (withSlot live).batch.state = .none ∧
    (withSlot live).store.slotOfKey 300 = some 16 ∧ (withSlot live).store.slotOfKey 301 = none ∧
    (withSlot live).store.found 16 = .live sample (some 2) false ∧ (withSlot live).scan.state = .stopped ∧
    (scanning .run .idle (withSlot live)).scan.state ≠ .stopped ∧
    (withSlot (.reserved sample)).store.found 16 = .reserved sample ∧
    (withSlot (.withdrawing sample .expired 1)).store.found 16 = .withdrawing sample .expired 1 ∧
    (withIdleSlot (.lapsed sample)).store.found 16 = .lapsed sample ∧
    (withIdleSlot (.damaged true)).store.found 16 = .damaged true :=
  ⟨⟨⟨by decide, by decide, by decide⟩, by decide⟩, by decide, by decide, by decide, by decide, by decide, by decide,
    by decide, by decide, by decide, by decide, by decide⟩

/-- The sample record with an echo that holds a value and has changed. -/
def echoing : Record := { sample with echo := some ⟨.fresh, some ⟨7, 4⟩⟩, echoChanged := some true }

theorem test_hyp_QueriesReportTheTable :
    (access (.lookup 300) (withSlot live)).heldAccess = some (.lookup 300) ∧
    (withSlot live).store.slotOfKey 300 = some 16 ∧ (withSlot live).store.slotOfKey 301 = none ∧
    (newArgs 300 .p1).record.echo = none ∧ (newArgs 300 .p1).record.echoChanged = none ∧
    (newArgs 300 .p1).record.leaseLength = none ∧
    ((0xFF : Byte).getLsbD 0 = echoing.leaseLength.isSome ∧ (0xFF : Byte).getLsbD 1 = (some 1 : Option Nat).isSome ∧
      (0xFF : Byte).getLsbD 2 = echoing.echo.isSome ∧ (0xFF : Byte).getLsbD 3 = echoing.echoHeld.isSome ∧
      (0xFF : Byte).getLsbD 4 = (some (Cause.expired, 1)).isSome ∧ (0xFF : Byte).getLsbD 5 = true ∧
      (0xFF : Byte).getLsbD 6 = (some true).isSome ∧ (0xFF : Byte).getLsbD 7 = (some true).getD false) ∧
    ((0x45 : Byte).getLsbD 0 = sample.leaseLength.isSome ∧ (0x45 : Byte).getLsbD 1 = (none : Option Nat).isSome ∧
      (0x45 : Byte).getLsbD 2 = sample.echo.isSome ∧ (0x45 : Byte).getLsbD 3 = sample.echoHeld.isSome ∧
      (0x45 : Byte).getLsbD 6 = (some false).isSome ∧ (0x45 : Byte).getLsbD 7 = (some false).getD false) ∧
    (access (.pageQuery 127) (withSlot live)).heldAccess = some (.pageQuery 127) ∧
    (withSlot live).store.pageAt 127 = ⟨none, none⟩ ∧ (∀ k, k < 8 → (withSlot live).store.slotAt (127 * 8 + k) = .free) ∧
    (access .loadQuery ready).heldAccess = some .loadQuery := by decide

theorem test_lookup_of_every_state : ([(.reserved echoing, 1, 0x0D), (.live echoing (some 1) true, 2, 0xEF),
    (.withdrawing echoing .expired 1, 3, 0xDD), (.lapsed echoing, 4, 0xCD)] : List (Slot × Byte × Byte)).all (fun x =>
      decide (((lookupData 300 16 x.1).drop 4).take 6 = [x.2.1, 9, 3, 1, 3, x.2.2])) = true := by decide

theorem test_hyp_OpenBatchAndBatchQuery :
    ([.none, .open_, .sealed_] : List BatchState).all (fun b =>
      ([.openBatch, .batchQuery] : List Request).all fun r =>
        decide ((access r (batched b [] ready)).heldAccess = some r ∧ (access r (batched b [] ready)).batch.state = b)) =
      true := by decide

theorem test_hyp_CommitBatchSealsOrApplies :
    ([.none, .open_, .sealed_] : List BatchState).all (fun b =>
      decide ((access .commitBatch (batched b [] ready)).heldAccess = some .commitBatch ∧
        (access .commitBatch (batched b [] ready)).batch.state = b)) = true ∧
    (access .commitBatch (batched .open_ [] ready)).scan.state = .stopped ∧
    (access .commitBatch (batched .open_ [] (scanning .fault .idle ready))).scan.state ≠ .stopped := by decide

/-- An OPEN batch with an AMEND of the sample record, staged. -/
def amendBatch : State := batched .open_ [⟨.amend [7] none, 300, 16⟩] (withSlot (.live sample (some 2) true))

theorem test_hyp_AbortBatchDiscardsTheBatch :
    ([.none, .open_, .sealed_] : List BatchState).all (fun b =>
      decide ((access .abortBatch (batched b [] ready)).heldAccess = some .abortBatch ∧
        (access .abortBatch (batched b [] ready)).batch.state = b)) = true ∧
    (BatchEntry.mk (.amend [7] none) 300 16).isAmend = true ∧ amendBatch.store.keyAt 16 = some 300 ∧
    amendBatch.store.found 16 = .live sample (some 2) true ∧ (tableOf ⟨live, true⟩ true).slotAt 16 = live ∧
    (tableOf ⟨live, true⟩ true).found 16 = .damaged false ∧ (tableOf ⟨live, true⟩ true).keyAt 16 = some 300 ∧
    (∀ e ∈ amendBatch.batch.entries, e.slot ≠ 17) ∧ (amendBatch.store.slotAt 17).isReserved = false ∧
    (withSlot (.reserved sample)).store.slotAt 16 = .reserved sample ∧
    (BatchEntry.mk .retire 300 16).isAmend = false ∧ (withIdleSlot (.lapsed sample)).store.slotAt 16 = .lapsed sample := by
  decide

theorem test_abort_keeps : (amendBatch.store.abortBatch amendBatch.batch.entries).slotAt 16 = live ∧
    ((withSlot live).store.abortBatch [⟨.retire, 300, 16⟩]).slotAt 16 = live := by decide

theorem test_hyp_BatchApplicationAppliesTheEntries :
    (granted .application ready).arbiter.inProgress = some .application ∧ NoticeUnit.initial.applied = none ∧
    (NoticeUnit.mk (some ⟨254, 255, false⟩) none).applied = some ⟨254, 255, false⟩ := by decide

/-- A table under application, with no entry counted yet. -/
def applying (s : State) : Application := ⟨s.store, 0, 0⟩

theorem test_hyp_EntryOutcomesAtApplication :
    ((applying (withSlot live)).store.verifyAny [] 16).keyAt 16 = some 300 ∧
    ((applying (withSlot live)).store.verifyAny [] 16).keyAt 16 ≠ some 301 ∧
    ((applying (withSlot live)).store.verifyAny [] 16).slotAt 16 = .live sample (some 2) false ∧
    ((applying (withSlot (.reserved sample))).store.verifyAny [] 16).slotAt 16 = .reserved sample ∧
    ((applying { ready with store := tableOf ⟨live, true⟩ true }).store.verifyAny [] 16).slotAt 16 = .damaged false ∧
    (∀ r m g, (withIdleSlot (.lapsed sample)).store.found 16 ≠ .live r m g) ∧
    (∀ b, (withIdleSlot (.lapsed sample)).store.found 16 ≠ .damaged b) ∧
    ((applying (withIdleSlot (.lapsed sample))).store.verifyAny [] 16).slotAt 16 =
      (withIdleSlot (.lapsed sample)).store.found 16 ∧
    (scanning .run .idle ready).scan.state ≠ .stopped :=
  ⟨by decide, by decide, by decide, by decide, by decide, fun _ _ _ h => (by cases test_found_lapsed.symm.trans h),
    fun _ h => (by cases test_found_lapsed.symm.trans h), by decide, by decide⟩

theorem test_hyp_NodeRequestsReadAndSet :
    (holding (.nodeQuery 1) ready).heldDirect = some (.nodeQuery 1) ∧
    (holding (.nodeSet 62 true false) ready).heldDirect = some (.nodeSet 62 true false) ∧
    (holding (.nodeSet 1 false true) ready).heldDirect = some (.nodeSet 1 false true) := by decide

/-- Seventeen pending notices: both device notices, 14 nodes newly PRESENT, and a record whose echo has changed. -/
def manyNotices : State :=
  { withSlot (.live echoing (some 2) false) with
    notices := ⟨some ⟨1, 2, true⟩, some ⟨0x1234, true⟩⟩
    nodes := ⟨(List.range 14).map fun n => (n + 1, ⟨.present, .unseen, 0, 0, false⟩), 62⟩ }

theorem test_hyp_TakeNoticesReportsTwelve :
    (access .takeNotices (withIdleSlot (.damaged false))).heldAccess = some .takeNotices ∧
    (withIdleSlot (.damaged false)).noticeSources = [.slot 16] ∧
    (access .takeNotices manyNotices).heldAccess = some .takeNotices ∧ manyNotices.noticeSources.length = 17 ∧
    manyNotices.notices.applied = some ⟨1, 2, true⟩ ∧ manyNotices.notices.fault = some ⟨0x1234, true⟩ ∧
    .node 10 ∈ manyNotices.noticeSources.take 12 ∧ .node 11 ∉ manyNotices.noticeSources.take 12 ∧
    (withSlot (.live echoing (some 2) false)).store.found 16 = .live echoing (some 2) false ∧
    (withSlot (.withdrawing echoing .expired 1)).store.found 16 = .withdrawing echoing .expired 1 ∧
    (withIdleSlot (.lapsed echoing)).store.found 16 = .lapsed echoing ∧ echoing.echoHeld = some ⟨7, 4⟩ ∧
    sample.echoHeld = none ∧ (withIdleSlot (.damaged false)).store.found 16 = .damaged false := by decide

theorem test_take_beyond_twelve : (after (exec .takeNotices (access .takeNotices manyNotices))).map
    (fun t => (t.noticeSources, (t.port.response.drop 3).take 27)) =
      some ([.node 11, .node 12, .node 13, .node 14, .slot 16],
        [12, 0, 5, 1, 1, 1, 2, 0, 0, 2, 1, 0x12, 0x34, 0, 0, 3, 0, 1, 1, 0, 0, 3, 0, 2, 1, 0, 0]) := by decide

theorem test_take_records :
    (answer (exec .takeNotices (access .takeNotices (withSlot (.live echoing (some 2) false))))).map (·.drop 3) =
        some [1, 0, 0, 5, 0, 0x01, 0x2C, 0, 7] ∧
      (answer (exec .takeNotices (access .takeNotices (withIdleSlot (.lapsed echoing))))).map (·.drop 3) =
        some [1, 0, 0, 4, 1, 0x01, 0x2C, 0, 7] ∧
      (answer (exec .takeNotices (access .takeNotices (withIdleSlot (.damaged false))))).map (·.drop 3) =
        some [1, 0, 0, 6, 0, 0x01, 0x2C, 0, 0] := by decide

theorem test_hyp_BoundaryBeginsACycle :
    ([.run, .hold, .fault] : List ScanState).all (fun st =>
      ([.none, .hold, .resume] : List ScanRequest).all fun p =>
        ([.none, .open_, .sealed_] : List BatchState).all fun b =>
          let s := batched b [] { scanning st .idle ready with scan := { ready.scan with state := st, request := p } }
          decide (s.timer.running = true ∧ s.scan.state ≠ .stopped ∧ s.scan.request = p ∧ s.batch.state = b)) = true ∧
    ([.none, .open_, .sealed_] : List BatchState).all (fun b =>
      let s := access .stopScan (batched b [] (scanning .stopped .idle ready))
      decide (s.timer.running = true ∧ s.scan.state = .stopped ∧ s.arbiter.inProgress = some .host ∧
        s.batch.state = b)) = true := by
  decide

/-- A Node Table with one node permitted. -/
def permitted (n pointer : Nat) : NodeTable := ⟨[(n, ⟨.unseen, .unseen, 0, 0, true⟩)], pointer⟩

theorem test_hyp_InvitationGoesRound :
    (∀ n, n ≤ 62 → 1 ≤ n → (NodeTable.initial.at n).permitted = false) ∧
    ((permitted 62 61).at 62).permitted = true ∧ (permitted 62 61).pointer < 62 ∧
    ((permitted 1 62).at 1).permitted = true ∧ 1 ≤ (permitted 1 62).pointer ∧ (permitted 1 62).pointer ≤ 62 ∧
    ((permitted 62 62).at 62).permitted = true ∧
    (∀ m, m < 62 → 1 ≤ m → ((permitted 62 62).at m).permitted = false) ∧
    (timed .hold .resume).timer.running = true ∧ (timed .hold .resume).scan.state ≠ .stopped ∧
    (timed .hold .resume).scan.request = .resume ∧
    (timed .run .hold).scan.request = .hold ∧ (timed .fault .none).scan.request = .none ∧
    (timed .fault .none).scan.state ≠ .stopped ∧ (timed .fault .none).scan.state ≠ .run ∧
    (access .stopScan ready).heldAccess = some .stopScan ∧ (access .stopScan ready).scan.state = .stopped ∧
    (holding .startScan ready).heldDirect = some .startScan ∧ (holding .startScan ready).scan.request = .none := by decide

theorem test_hyp_CountdownReducesEveryLease :
    (granted .countdown (withSlot (.live sample (some 1) false))).arbiter.inProgress = some .countdown ∧
    ((withSlot (.live sample (some 1) false)).store.cellAt 16).counted 2 = .withdrawing sample .expired 2 ∧
    ((withSlot live).store.cellAt 16).counted 2 = .live sample (some 1) false ∧
    ((tableOf ⟨live, true⟩ true).cellAt 16).counted 2 = .damaged false := by decide

theorem test_hyp_DueListHoldsTheOpenDuePages : ((withSlot live).store.fixDue 1).due = [⟨2, false⟩] ∧
    ((withSlot live).store.fixDue 2).due = [] ∧ ((withSlot live).store.pageAt 2).schedule = some ⟨.p2, 1⟩ := by decide

theorem test_hyp_TransferCopiesThePage :
    (granted (.transfer 2) (due (withSlot live))).arbiter.inProgress = some (.transfer 2) ∧
    (due (withSlot live)).store.isDue 2 = true ∧ (withSlot live).store.isDue 2 = false ∧
    (withSlot live).store.pageState 2 = .open_ ∧ ((withSlot live).store.copyPage 2 17).1.pageState 2 = .open_ ∧
    ((withSlot (.withdrawing sample .retired 1)).store.copyPage 2 17).1.pageState 2 = .closed ∧
    ((withSlot (.withdrawing sample .expired 1)).store.copyPage 2 17).1.pageState 2 = .dormant ∧
    ((withSlot live).store.pageAt 2).schedule = some ⟨.p2, 1⟩ ∧
    (withSlot (.withdrawing sample .retired 1)).store.found 16 = .withdrawing sample .retired 1 ∧
    ready.scan.regA = .free ∧ (register (.inFlight sampleFrame) ready).scan.regA ≠ .free ∧
    (register (.inFlight sampleFrame) ready).scan.regB = .free := by decide

theorem test_hyp_FrameTraffic :
    ([.mark, .between] : List LineState).all (fun l =>
      let s := register (.filled sampleFrame) (scanning .run l ready)
      decide (s.scan.state = .run ∧ (s.scan.line = .mark ∨ s.scan.line = .between) ∧
        s.scan.regA = .filled sampleFrame)) = true ∧
    (let s := { scanning .run .mark ready with scan := { (scanning .run .mark ready).scan with
        regA := .inFlight sampleFrame, regB := .filled sampleFrame } };
      s.scan.regA.isFilled = false ∧ s.scan.regB = .filled sampleFrame) ∧
    (let s := register (.inFlight sampleFrame) (scanning .run .frame ready);
      s.scan.frameInFlight = some sampleFrame ∧ s.scan.regB = .free ∧ s.scan.regA.isFilled = false) ∧
    (sampleFrame.entries.filter fun e => !e.withdraw && decide (1 ≤ e.node ∧ e.node ≤ 62) && e.reply) ≠ [] ∧
    ((Frame.mk 2 []).entries.filter fun e => !e.withdraw && decide (1 ≤ e.node ∧ e.node ≤ 62) && e.reply) = [] ∧
    (due ready).store.nextDue = some 2 ∧ ready.store.nextDue = none ∧
    ([(0, abortWord), (2, abortWord)].all fun x => x.2.stop) = true ∧
    ([(1, LineWord.mk false 5 true false), (3, abortWord)].all fun x => decide (1 ≤ x.1)) = true := by decide

theorem test_hyp_WordsAreTakenByTheOpenWindow :
    (scanning .run .replyWindow ready).scan.state = .run ∧ (scanning .run .replyWindow ready).scan.line = .replyWindow ∧
    (demandWindow .listening none [] none ready).scan.line = .demandWindow ∧
    (demandWindow .listening none [] none ready).demand.state = .listening ∧
    ¬ ((scanning .run .mark ready).scan.line = .replyWindow ∨ (scanning .run .mark ready).scan.line = .demandWindow) := by
  decide

theorem test_hyp_SlotExpiryJudgesTheReply :
    ([[], replyWords 5, [abortWord]] : List (List LineWord)).all (fun ws =>
      let s := replyWindow ws (withSlot live)
      decide (s.scan.abort ≠ .afterSlot ∧ s.scan.state = .run ∧ s.scan.line = .replyWindow ∧ s.reply.words = ws ∧
        s.reply.slots = [] ++ ⟨16, 300, 9, 4, .undecided⟩ :: [])) = true ∧
    (LineWord.make false 5).sound = true ∧ (LineWord.make false 5).lead = false ∧
    (LineWord.make false (crc16 [300, 5])).data = crc16 [300, 5] := by decide

theorem test_hyp_EchoIsWrittenToTheNamedLiveRecord :
    (withSlot live).store.found 16 = .live sample (some 2) false ∧ sample.echo = some ⟨.none, none⟩ ∧
    (withSlot live).store.keyAt 16 = some 300 ∧ (withSlot live).store.keyAt 16 ≠ some 301 ∧
    sample.replyRequested = true ∧ (newArgs 300 .p2).record.replyRequested = false ∧
    (newArgs 300 .p2).record.echo = none ∧
    (withSlot (newArgs 300 .p2).record.asLive).store.found 16 = .live (newArgs 300 .p2).record none false ∧
    (ReplySlot.mk 16 300 9 4 (.valid 0)).result = .valid 0 ∧ (ReplySlot.mk 16 300 9 4 .absent).result = .absent ∧
    (ReplySlot.mk 16 300 9 4 .invalid).result = .invalid ∧
    (∀ r m g, (withIdleSlot (.lapsed sample)).store.found 16 ≠ .live r m g) :=
  ⟨by decide, by decide, by decide, by decide, by decide, by decide, by decide, by decide, by decide, by decide, by decide,
    fun _ _ _ h => by cases test_found_lapsed.symm.trans h⟩

theorem test_hyp_WriteBackReportsTheNode :
    (granted (.writeBack ⟨16, 300, 9, 4, .absent⟩) (replyWindow [] (withSlot live))).arbiter.inProgress =
      some (.writeBack ⟨16, 300, 9, 4, .absent⟩) ∧
    (replyWindow [] (withSlot live)).reply.slots.drop 1 = [] ∧
    (scanning .run .between ready).scan.line = .between ∧ (scanning .run .replyWindow ready).scan.line ≠ .between ∧
    ready.reply.slots = [] ∧ (replyWindow [] ready).reply.slots = ReplySlot.mk 16 300 9 4 .undecided :: [] ∧
    { ready with reply := ⟨[⟨16, 300, 9, 4, .absent⟩], []⟩ }.reply.slots = ReplySlot.mk 16 300 9 4 .absent :: [] ∧
    (NodeRecord.mk .present .present 14 0 false).misses < 15 ∧ 14 + 1 = 15 ∧
    15 ≤ (NodeRecord.mk .silent .silent 15 0 false).misses := by decide

theorem test_hyp_DemandWindowOpensAnswersAndEnds :
    ([.mark, .between] : List LineState).all (fun l =>
      let s := scanning .run l ready
      decide (s.scan.state = .run ∧ s.scan.line = l ∧ s.arbiter.outstanding 0 = false ∧
        s.arbiter.outstanding 2 = false ∧ s.arbiter.outstanding 3 = false ∧ (∀ e ∈ s.store.due, e.transferred = true) ∧
        s.scan.regA.isFilled = false ∧ s.scan.regB.isFilled = false)) = true ∧
    (demandWindow .looking (some 300) [] (some (.notFound 300)) ready).demand.answer = some (.notFound 300) ∧
    (demandWindow .looking (some 0xFFFF) [] none ready).demand.key = some 0xFFFF ∧
    (demandWindow .looking (some 0) [] none ready).demand.answer = none ∧
    (demandWindow .answering none [] none ready).demand.state = .answering ∧
    (demandWindow .silentWindow none [] none ready).scan.line = .demandWindow ∧
    (demandWindow .silentWindow none [] none ready).demand.state = .silentWindow := by decide

theorem test_hyp_AllowanceEndJudgesTheRequest :
    ([[], demandWords 0, demandWords 1, demandWords 0xFFFE, (demandWords 1).take 2, [abortWord]] :
        List (List LineWord)).all (fun ws =>
      let s := demandWindow .listening none ws none ready
      decide (s.scan.abort ≠ .afterAllowance ∧ s.scan.state = .run ∧ s.demand.state = .listening ∧
        s.demand.words = ws)) = true ∧
    (demandWords 1).all (·.sound) = true ∧ (LineWord.make true 0x4500).code = 4 ∧
    (LineWord.make true 0x4500).requester.toNat = 20 ∧ abortWord.code ≠ 4 := by decide

theorem test_hyp_LookupChoosesTheAnswer :
    (granted (.lookup 300) (demandWindow .looking (some 300) [] none (withSlot live))).arbiter.inProgress =
      some (.lookup 300) ∧
    (demandWindow .looking (some 300) [] none (withSlot live)).demand.state = .looking ∧
    (granted (.lookup 300) ready).arbiter.inProgress = some (.lookup 300) ∧ ready.demand.state ≠ .looking ∧
    ready.store.slotOfKey 300 = none ∧ (withSlot live).store.slotOfKey 300 = some 16 ∧
    ((withSlot live).store.verifyAny [] 16).slotAt 16 = .live sample (some 2) false ∧
    ((withSlot (.withdrawing sample .retired 1)).store.verifyAny [] 16).slotAt 16 = .withdrawing sample .retired 1 ∧
    ((withIdleSlot (.lapsed sample)).store.verifyAny [] 16).slotAt 16 = .lapsed sample := by decide

theorem test_hyp_MismatchStopsTheLine :
    ([.run, .hold] : List ScanState).all (fun st => ([.mark, .frame] : List LineState).all fun l =>
      decide ((scanning st l ready).scan.state = st ∧ (scanning st l ready).scan.line = l)) = true ∧
    (demandWindow .answering none [] none ready).scan.line = .demandWindow ∧
    (demandWindow .answering none [] none ready).demand.state = .answering ∧ ready.scan.state = .stopped ∧
    (scanning .fault .idle ready).scan.state = .fault := by decide

theorem test_hyp_UpsetIsFoundAtTheNextRead :
    ((withSlot live).store.slotAt 16).record?.isSome = true ∧
    ([live, .withdrawing sample .retired 1, .lapsed sample, .reserved sample] : List Slot).all (fun v =>
      decide (((tableOf ⟨v, true⟩ true).cellAt 16).upset = true ∧ (tableOf ⟨v, true⟩ true).slotAt 16 = v ∧
        ((tableOf ⟨v, false⟩ true).cellAt 16).upset = false)) = true ∧
    (tableOf ⟨live, true⟩ true).found 16 ≠ (tableOf ⟨live, true⟩ true).slotAt 16 ∧
    (([.free, .lapsed sample, .reserved sample, live] : List Slot).map fun v =>
      ((tableOf ⟨live, false⟩ true).changeSlot 16 v).pageState 2) = [.closed, .dormant, .opening, .open_] := by decide

/-- Page 2 with its one slot in this state, due and carried before, in the cycle of count 9. -/
def carried (c : Cell) : Store :=
  { tableOf c true with pages := [(2, ⟨some ⟨.p2, 1⟩, some 9⟩)], due := [⟨2, false⟩, ⟨5, true⟩] }

theorem test_damage_strikes_the_page : (after (exec .demandLookup (granted (.lookup 300)
    (demandWindow .looking (some 300) [] none { ready with store := carried ⟨live, true⟩ })))).map
      (fun t => (t.store.slotAt 16, t.store.due, t.store.loads, t.store.pageAt 2)) =
        some (.damaged false, [⟨5, true⟩], List.replicate 16 0, ⟨none, some 9⟩) := by decide

theorem test_free_strikes_the_page : (after (exec .retire (access (.retire 300)
    { ready with store := carried ⟨live, false⟩ }))).map
      (fun t => (t.store.slotAt 16, t.store.due, t.store.loads, t.store.pageAt 2)) =
        some (.free, [⟨5, true⟩], List.replicate 16 0, ⟨none, some 9⟩) := by decide

/-! ### The hypotheses of the laws, in a state with a record -/

theorem test_hyp_TablesStayCanonical : ∃ t, (withSlot live).canonical ∧ step (withSlot live) = .next t :=
  ⟨_, test_canonical.1, rfl⟩

/-- The slots of the table with one slot. -/
theorem slotAt_tableOf (c : Cell) (b : Bool) (i : Nat) : (tableOf c b).slotAt i = if i = 16 then c.slot else .free := by
  by_cases h : i = 16
  · subst h; rfl
  · have h' : ¬ (16 = i) := fun e => h e.symm
    simp [Store.slotAt, Store.cellAt, tableOf, Sparse.get, Sparse.find?, h, h', Cell.empty]

/-- A slot that is not FREE leaves the table exact. -/
theorem occupied_tableOf (v : Slot) (h : v ≠ .free) : (tableOf ⟨v, false⟩ true).Occupied := by
  refine ⟨rfl, List.pairwise_singleton _ _, fun i => ?_, by simp [tableOf, Config.slotCount]⟩
  rw [slotAt_tableOf]
  by_cases hi : i = 16
  · subst hi; simp [tableOf, h]
  · simp [hi, tableOf, Ne.symm hi]

/-- The key of the table's one slot, and of no other. -/
theorem keyAt_tableOf (c : Cell) (b : Bool) (i : Nat) : (tableOf c b).keyAt i = if i = 16 then some 300 else none := by
  by_cases h : i = 16
  · subst h; rfl
  · have h' : ¬ (16 = i) := fun e => h e.symm
    simp [Store.keyAt, tableOf, h, h']

/-- A slot that is sent or RESERVED leaves the table planned. -/
theorem planned_tableOf (v : Slot) (h : (tableOf ⟨v, false⟩ true).scheduled 2 = true)
    (hl : ∀ i, i < 16 → (tableOf ⟨v, false⟩ true).load i =
      (pageIndices.filter ((tableOf ⟨v, false⟩ true).promised i)).length) : (tableOf ⟨v, false⟩ true).Planned := by
  refine ⟨rfl, fun p => ?_, hl, fun i hi => ?_⟩
  · by_cases hp : p = 2
    · subst hp; rw [h]; rfl
    · have hpage : (tableOf ⟨v, false⟩ true).pageAt p = PageRecord.empty := by
        have h' : ¬ (2 = p) := fun e => hp e.symm
        simp [Store.pageAt, tableOf, Sparse.get, Sparse.find?, h']
      have hs : (tableOf ⟨v, false⟩ true).pageSlots p = List.replicate 8 .free := by
        unfold Store.pageSlots
        rw [List.map_congr_left (g := fun _ => Slot.free)]
        · rfl
        · intro k hk
          have hk' : k < 8 := List.mem_range.1 hk
          rw [slotAt_tableOf, if_neg]
          simp only [slotIndex, Config.slotsPerPage]
          omega
      rw [hpage]
      simp only [Store.scheduled, Store.pageState, hs]
      rfl
  · rw [slotAt_tableOf, if_neg]
    simp only [Config.slotCount] at hi
    omega

/-- An OPEN batch with one staged INSERT, the scan STOPPED. -/
def stagedInsert : State :=
  batched .open_ [⟨.insert sample, 300, 16⟩] (withSlot (.reserved sample))

theorem sample_lawful : sample.Lawful :=
  ⟨by decide, by decide, by decide, by decide, by decide, by decide, fun n h => by cases h; decide, by decide,
    fun e h => (by cases h; exact ⟨fun _ => rfl, fun h => (by cases h)⟩), by decide⟩

/-- A table whose one slot is lawful holds lawful records. -/
theorem recorded_tableOf (v : Slot) (h : v.lawful (some 300)) (s : State) (hs : s.store = tableOf ⟨v, false⟩ true)
    (hr : s.port.request = none) (ha : ∀ e ∈ s.batch.entries, ∀ p l, e.op ≠ .amend p l) : s.Recorded := by
  refine ⟨fun i => ?_, ?_, fun r h => (by rw [hr] at h; cases h), fun e he p l hop => absurd hop (ha e he p l)⟩
  · rw [hs, slotAt_tableOf, keyAt_tableOf]
    by_cases hi : i = 16
    · rw [if_pos hi, if_pos hi]; exact h
    · rw [if_neg hi, if_neg hi]; trivial
  · rw [hs]; simp [tableOf]

theorem test_recorded : (withSlot live).Recorded ∧ stagedInsert.Recorded :=
  ⟨recorded_tableOf live ⟨sample_lawful, rfl, by decide, by decide⟩ _ rfl rfl fun e he => absurd he List.not_mem_nil,
    recorded_tableOf (.reserved sample) ⟨sample_lawful, rfl⟩ _ rfl rfl fun e he p l h => by
      rw [List.mem_singleton.1 he] at h; cases h⟩

theorem test_staged : stagedInsert.batch.Bounded ∧ stagedInsert.Staged := by
  refine ⟨⟨by decide, by decide, fun h => by cases h⟩, ⟨fun e he copy h => ?_, fun i r h => ?_, by decide⟩⟩
  · rw [List.mem_singleton.1 he] at h ⊢; cases h; exact ⟨rfl, rfl⟩
  · rw [show stagedInsert.store = tableOf ⟨.reserved sample, false⟩ true from rfl, slotAt_tableOf] at h
    by_cases hi : i = 16
    · rw [if_pos hi] at h; cases h; exact ⟨_, List.mem_singleton.2 rfl, rfl, hi.symm⟩
    · rw [if_neg hi] at h; cases h

theorem test_at_rest : stagedInsert.Hosted ∧ stagedInsert.AtRest := by
  refine ⟨⟨fun h => (by cases h), fun h => (by cases h), fun h => (by cases h), fun h => (by cases h),
    fun h => (by cases h)⟩, ⟨fun _ h => (by cases h), fun _ _ => by decide, fun _ _ h => (by cases h), ?_,
    fun _ _ => rfl⟩⟩
  intro _ _ i r c n h
  rw [show stagedInsert.store = tableOf ⟨.reserved sample, false⟩ true from rfl, slotAt_tableOf] at h
  by_cases hi : i = 16
  · rw [if_pos hi] at h; cases h
  · rw [if_neg hi] at h; cases h

theorem test_budgeted : stagedInsert.Budgeted := by
  refine ⟨fun i => ?_, by decide⟩
  by_cases hi : i < 16
  · have : ∀ j, j < 16 → stagedInsert.store.load j ≤ stagedInsert.port.config.frames := by decide
    exact this i hi
  · have : stagedInsert.store.load i = 0 := by
      simp only [Store.load, stagedInsert, batched, withSlot, tableOf, if_true, List.getD_eq_getElem?_getD]
      rw [List.getElem?_eq_none (by simpa using hi)]; rfl
    rw [this]; exact Nat.zero_le _

/-- A scan in RUN with a WITHDRAWING record whose count is W. -/
def withdrawing : State := scanning .run .mark (withSlot (.withdrawing sample .retired 2))

theorem test_counted : withdrawing.store.slotAt 16 = .withdrawing sample .retired 2 ∧ withdrawing.AtRest ∧
    withdrawing.Counted := by
  refine ⟨by decide, ⟨fun h => (by cases h), fun h => (by cases h), fun h => (by cases h), fun h => (by cases h),
    fun h => (by cases h)⟩, ⟨by decide, fun _ h => (by cases h), fun i r c n h => ?_⟩⟩
  rw [show withdrawing.store = tableOf ⟨.withdrawing sample .retired 2, false⟩ true from rfl, slotAt_tableOf] at h
  by_cases hi : i = 16
  · rw [if_pos hi] at h; cases h; decide
  · rw [if_neg hi] at h; cases h

/-- A table whose one slot holds a P2 record, if it counts for its page, meets the class condition. -/
theorem classed_tableOf (v : Slot) (h : ∀ r, v.scheduled? = some r → r.cls = .p2) :
    (tableOf ⟨v, false⟩ true).Classed := by
  intro i r hr
  rw [slotAt_tableOf] at hr
  by_cases hi : i = 16
  · rw [if_pos hi] at hr; subst hi; exact ⟨⟨.p2, 1⟩, rfl, (h r hr).symm⟩
  · rw [if_neg hi] at hr; cases hr

theorem test_hyp_DirectoryStaysExact : ∃ t u x, (withSlot live).store.Occupied ∧ step (withSlot live) = .next t ∧
    stagedInsert.store.Occupied ∧ stagedInsert.batch.Bounded ∧ stagedInsert.Recorded ∧ stagedInsert.Staged ∧
    step stagedInsert = .next u ∧ withdrawing.AtRest ∧ withdrawing.Counted ∧ step withdrawing = .next x :=
  ⟨_, _, _, occupied_tableOf _ (by decide), rfl, occupied_tableOf _ (by decide), test_staged.1, test_recorded.2,
    test_staged.2, rfl, test_counted.2.1, test_counted.2.2, rfl⟩

theorem test_hyp_LoadCountersStayExact : ∃ t u x, (withSlot live).store.Planned ∧ step (withSlot live) = .next t ∧
    stagedInsert.store.Planned ∧ stagedInsert.AtRest ∧ stagedInsert.Budgeted ∧ stagedInsert.Staged ∧
    stagedInsert.store.Classed ∧ step stagedInsert = .next u ∧
    (due (withSlot live)).store.due = [⟨2, false⟩] ∧ (due (withSlot live)).store.Struck ∧
    step (due (withSlot live)) = .next x :=
  ⟨_, _, _, planned_tableOf _ (by decide) (by decide), rfl, planned_tableOf _ (by decide) (by decide), test_at_rest.2,
    test_budgeted, test_staged.2, classed_tableOf _ (fun _ h => (by cases h; rfl)), rfl, rfl,
    fun _ he _ => (by rw [List.mem_singleton.1 he]; decide), rfl⟩

theorem test_hyp_PresentNodesStayBelowTheThreshold :
    ∃ (s t : State), (s.nodes.at 9).presence = .present ∧ s.Presence ∧ step s = .next t := by
  refine ⟨{ ready with nodes := ⟨[(9, ⟨.present, .unseen, 2, 0, false⟩)], 62⟩ }, _, by decide,
    ⟨by decide, fun _ h => (by cases h), fun n h => ?_⟩, rfl⟩
  by_cases hn : n = 9
  · subst hn; decide
  · have h' : ¬ (9 = n) := fun e => hn e.symm
    simp [NodeTable.at, Sparse.get, Sparse.find?, h', NodeRecord.initial] at h

theorem test_hyp_TimerAndRequestStayInStep :
    ∃ t, (scanning .run .idle ready).timer.inStep ∧ (scanning .run .idle ready).timed ∧
      (scanning .run .idle ready).quiet ∧ step (scanning .run .idle ready) = .next t :=
  ⟨_, rfl, fun _ => rfl, fun _ => rfl, rfl⟩

theorem test_hyp_RegistersAndBatchStayBounded :
    (∃ s t : State, s.scan.regA = .filled sampleFrame ∧ s.Registers ∧ s.batch.Bounded ∧ step s = .next t) ∧
    ∃ t, stagedInsert.store.Occupied ∧ stagedInsert.batch.Bounded ∧ stagedInsert.Recorded ∧ stagedInsert.Staged ∧
      stagedInsert.timed ∧ stagedInsert.Hosted ∧ stagedInsert.AtRest ∧ step stagedInsert = .next t :=
  ⟨⟨register (.filled sampleFrame) (batched .sealed_ fullBatch (scanning .run .mark ready)), _, rfl,
      ⟨by decide, by decide, fun h => (by cases h), fun _ h => (by cases h)⟩,
      ⟨by decide, by decide, fun h => (by cases h)⟩, rfl⟩,
    ⟨_, occupied_tableOf _ (by decide), test_staged.1, test_recorded.2, test_staged.2, fun h => absurd rfl h,
      test_at_rest.1, test_at_rest.2, rfl⟩⟩

end Sys2Proof.Tests
end

section
/-! HOLD SCAN and RESUME SCAN (R102, R103): what the two requests do when taken, and what the next boundary makes of the
pending request (R104). -/

namespace Sys2Proof.Machine

/-! ### The two requests taken -/

/-- The answer to a HOLD SCAN or a RESUME SCAN that leaves the pending request `r`: WRONG_STATE while STOPPED, else OK
with `r` pending (R102, R103). -/
def State.answerScanRequest (s : State) (r : ScanRequest) : State :=
  if s.scan.state = .stopped then s.complete .wrongState []
  else State.complete { s with scan := { s.scan with request := r } } .ok []

theorem State.answerScanRequest_of_stopped (s : State) (r : ScanRequest) (h : s.scan.state = .stopped) :
    s.answerScanRequest r = s.complete .wrongState [] := if_pos h

theorem State.answerScanRequest_of_ne_stopped (s : State) (r : ScanRequest) (h : s.scan.state ≠ .stopped) :
    s.answerScanRequest r = State.complete { s with scan := { s.scan with request := r } } .ok [] := if_neg h

/-- A request that leaves the pending one as it is changes nothing but the port. -/
theorem State.answerScanRequest_same (s : State) (h : s.scan.state ≠ .stopped) :
    s.answerScanRequest s.scan.request = s.complete .ok [] := s.answerScanRequest_of_ne_stopped _ h

theorem exec_holdScan_of_held (s : State) (h : s.heldDirect = some .holdScan) :
    exec .holdScan s = .next (s.answerScanRequest s.scan.holdRequest) := by
  change execHoldScan s = _
  rw [execHoldScan, h, State.answerScanRequest]
  exact (apply_ite Host.Outcome.next _ _ _).symm

theorem exec_resumeScan_of_held (s : State) (h : s.heldDirect = some .resumeScan) :
    exec .resumeScan s = .next (s.answerScanRequest s.scan.resumeRequest) := by
  change execResumeScan s = _
  rw [execResumeScan, h, State.answerScanRequest]
  exact (apply_ite Host.Outcome.next _ _ _).symm

/-! ### The pending request that each leaves (Table 6-2) -/

theorem ScanEngine.holdRequest_of_run_or_fault (e : ScanEngine) (h : e.state = .run ∨ e.state = .fault) :
    e.holdRequest = .hold := by
  rcases h with h | h <;> simp [holdRequest, h]

theorem ScanEngine.holdRequest_of_hold (e : ScanEngine) (h : e.state = .hold) :
    e.holdRequest = if e.request = .resume then .none else e.request := by
  simp [holdRequest, h]

theorem ScanEngine.resumeRequest_of_hold_or_fault (e : ScanEngine) (h : e.state = .hold ∨ e.state = .fault) :
    e.resumeRequest = .resume := by
  rcases h with h | h <;> simp [resumeRequest, h]

theorem ScanEngine.resumeRequest_of_run (e : ScanEngine) (h : e.state = .run) :
    e.resumeRequest = if e.request = .hold then .none else e.request := by
  simp [resumeRequest, h]

/-! ### The next boundary (R104) -/

theorem ScanEngine.taken_of_hold (e : ScanEngine) (h : e.request = .hold) : e.taken = .hold := by
  simp [taken, h]

theorem ScanEngine.taken_of_resume (e : ScanEngine) (h : e.request = .resume) : e.taken = .run := by
  simp [taken, h]

theorem ScanEngine.taken_of_none (e : ScanEngine) (h : e.request = .none) : e.taken = e.state := by
  simp [taken, h]

/-- While the scan is not STOPPED, no pending request makes it so: only STOP SCAN does (R100). -/
theorem ScanEngine.taken_ne_stopped (e : ScanEngine) (h : e.state ≠ .stopped) : e.taken ≠ .stopped := by
  cases hr : e.request with
  | none => rwa [e.taken_of_none hr]
  | hold => simp [e.taken_of_hold hr]
  | resume => simp [e.taken_of_resume hr]

/-- The Scan Engine at a boundary is in the state that the pending request asked for, and none pends any more. -/
theorem State.scanBoundary_takes_request (s : State) (first : Bool) (h : s.scan.state ≠ .stopped) :
    (s.scanBoundary first).scan.state = s.scan.taken ∧ (s.scanBoundary first).scan.request = .none := by
  have hne := s.scan.taken_ne_stopped h
  unfold State.scanBoundary
  cases ht : s.scan.taken with
  | stopped => exact absurd ht hne
  | run | hold | fault => exact ⟨rfl, rfl⟩

/-- BOUNDARY while the timer runs takes the pending request (R104): the other work of the boundary leaves the scan state
and the request to the Scan Engine. -/
theorem exec_boundary_takes_request (s : State) (hrun : s.timer.running = true) (hs : s.scan.state ≠ .stopped)
    {state : ScanState} (ht : s.scan.taken = state) :
    ∃ t : State, exec .boundary s = .next t ∧ t.scan.state = state ∧ t.scan.request = .none := by
  obtain ⟨a, hb, -⟩ := s.takeBoundary_eq false hs
  have hexec : exec .boundary s = .next ((s.atBoundary false a).scanBoundary false) := by
    change execBoundary s = _
    rw [execBoundary, if_pos hrun, hb]
  obtain ⟨hstate, hrequest⟩ := (s.atBoundary false a).scanBoundary_takes_request false hs
  exact ⟨_, hexec, hstate.trans ht, hrequest⟩

/-! ### The line outside RUN (R107) -/

theorem State.atItemStart_of_ne_run (s : State) (h : s.scan.state ≠ .run) : s.atItemStart = false := by
  simp [State.atItemStart, h]

/-- Where no item of a cycle can begin, no frame does. -/
theorem exec_frameStart_of_not_atItemStart (s : State) (h : s.atItemStart = false) :
    exec .frameStart s = .next s := by
  change execFrameStart s = _
  unfold execFrameStart
  cases s.scan.waitingFrame with
  | none => rfl
  | some f => simp [h]

/-- Where no item of a cycle can begin, no demand window does. -/
theorem exec_demandWindowOpen_of_not_atItemStart (s : State) (h : s.atItemStart = false) :
    exec .demandWindowOpen s = .next s := by
  change execDemandWindowOpen s = _
  simp [execDemandWindowOpen, h]

/-! ### The obligations -/

/-- Settles O19: HOLD SCAN by the scan state it is taken in, then the boundary that takes a pending HOLD, or finds none
in HOLD. -/
theorem holdScanSetsThePendingRequest : Obligations.HoldScanSetsThePendingRequest := by
  refine ⟨rfl, fun s held => ?_, fun s hrun h => ?_⟩
  · rw [exec_holdScan_of_held s held]
    refine ⟨fun hs => ?_, fun hs hq => ?_, fun hs hq => ?_, fun hs => ?_⟩
    · have hne : s.scan.state ≠ .stopped := by rcases hs with hs | hs <;> simp [hs]
      rw [s.scan.holdRequest_of_run_or_fault hs, s.answerScanRequest_of_ne_stopped _ hne]
    · rw [s.scan.holdRequest_of_hold hs, if_pos hq, s.answerScanRequest_of_ne_stopped _ (by simp [hs])]
    · rw [s.scan.holdRequest_of_hold hs, if_neg hq, s.answerScanRequest_same (by simp [hs])]
    · rw [s.answerScanRequest_of_stopped _ hs]
  · rcases h with ⟨hs, hq⟩ | ⟨hs, hq⟩
    · exact exec_boundary_takes_request s hrun hs (s.scan.taken_of_hold hq)
    · exact exec_boundary_takes_request s hrun (by simp [hs]) ((s.scan.taken_of_none hq).trans hs)

/-- Settles O20: RESUME SCAN by the scan state it is taken in, then the boundary that takes a pending RESUME, or finds
none in RUN; until then the scan is not in RUN and no item of a cycle begins. -/
theorem resumeScanSetsThePendingRequest : Obligations.ResumeScanSetsThePendingRequest := by
  refine ⟨rfl, fun s held => ?_, fun s hrun h => ?_, fun s hs => ?_⟩
  · rw [exec_resumeScan_of_held s held]
    refine ⟨fun hs => ?_, fun hs hq => ?_, fun hs hq => ?_, fun hs => ?_⟩
    · have hne : s.scan.state ≠ .stopped := by rcases hs with hs | hs <;> simp [hs]
      rw [s.scan.resumeRequest_of_hold_or_fault hs, s.answerScanRequest_of_ne_stopped _ hne]
    · rw [s.scan.resumeRequest_of_run hs, if_pos hq, s.answerScanRequest_of_ne_stopped _ (by simp [hs])]
    · rw [s.scan.resumeRequest_of_run hs, if_neg hq, s.answerScanRequest_same (by simp [hs])]
    · rw [s.answerScanRequest_of_stopped _ hs]
  · rcases h with ⟨hs, hq⟩ | ⟨hs, hq⟩
    · exact exec_boundary_takes_request s hrun hs (s.scan.taken_of_resume hq)
    · exact exec_boundary_takes_request s hrun (by simp [hs]) ((s.scan.taken_of_none hq).trans hs)
  · have hitem : s.atItemStart = false :=
      s.atItemStart_of_ne_run (by rcases hs with hs | hs <;> simp [hs])
    exact ⟨exec_frameStart_of_not_atItemStart s hitem, exec_demandWindowOpen_of_not_atItemStart s hitem⟩

end Sys2Proof.Machine
end

section
/-! Every command completes (O2): the queue under the operations that the commands share, and then every command. -/

namespace Sys2Proof.Machine

/-! ### The queue -/

@[simp] theorem State.startScan_pending (s : State) : s.startScan.pending = s.pending := by simp [State.startScan]

@[simp] theorem State.stopInAccess_pending (s : State) : s.stopInAccess.pending = s.pending := by
  unfold State.stopInAccess
  dsimp only
  split <;> rfl

@[simp] theorem State.takeSlot_pending (s : State) (i : Nat) : (s.takeSlot i).1.pending = s.pending := by
  rw [(s.takeSlot_other i).2]

@[simp] theorem State.stageWith_pending (s : State) (st : Store) (e : BatchEntry) (data : List Byte) :
    (s.stageWith st e data).pending = s.pending := by simp [State.stageWith]

@[simp] theorem takeOne_pending (acc : State × List Byte) (x : NoticeSource) :
    (takeOne acc x).1.pending = acc.1.pending := by
  cases x with
  | applied => unfold takeOne State.takeApplied; dsimp only; split <;> rfl
  | fault => unfold takeOne State.takeFault; dsimp only; split <;> rfl
  | node n => rfl
  | slot i => exact acc.1.takeSlot_pending i

@[simp] theorem foldl_takeOne_pending (l : List NoticeSource) (acc : State × List Byte) :
    (l.foldl takeOne acc).1.pending = acc.1.pending := by
  induction l generalizing acc with
  | nil => rfl
  | cons x l ih => rw [List.foldl_cons, ih, takeOne_pending]

@[simp] theorem State.takeRequest_pending (s : State) (bytes : List Byte) :
    (s.takeRequest bytes).pending = s.pending := by
  unfold State.takeRequest
  dsimp only
  split
  · simp
  · split <;> simp

@[simp] theorem State.arrive_pending (s : State) (bytes : List Byte) : (s.arrive bytes).pending = s.pending := by
  unfold State.arrive
  split <;> simp

/-- A command answers a next state and leaves the queue alone. -/
def Completes (s : State) (r : Result) : Prop := ∃ t, r = .next t ∧ t.pending = s.pending

theorem completes_next {s t : State} (h : t.pending = s.pending) : Completes s (.next t) := ⟨t, rfl, h⟩

/-! ### The record requests -/

@[simp] theorem State.insertNow_pending (s : State) (args : InsertArgs) : (s.insertNow args).pending = s.pending := by
  unfold State.insertNow
  repeat' split
  all_goals simp

@[simp] theorem State.insertStaged_pending (s : State) (args : InsertArgs) :
    (s.insertStaged args).pending = s.pending := by
  unfold State.insertStaged
  repeat' split
  all_goals simp

@[simp] theorem State.amendNow_pending (s : State) (key : Word) (payload : List Word) (field : Option Nat) :
    (s.amendNow key payload field).pending = s.pending := by
  unfold State.amendNow
  split
  · simp
  · dsimp only
    repeat' split
    all_goals simp

@[simp] theorem State.amendStaged_pending (s : State) (key : Word) (payload : List Word) (field : Option Nat) :
    (s.amendStaged key payload field).pending = s.pending := by
  unfold State.amendStaged
  split
  · simp
  · split
    · simp
    · dsimp only
      split <;> simp

@[simp] theorem State.renewNow_pending (s : State) (key : Word) (field : Option Nat) :
    (s.renewNow key field).pending = s.pending := by
  unfold State.renewNow
  split
  · simp
  · dsimp only
    repeat' split
    all_goals simp

@[simp] theorem State.retireNow_pending (s : State) (key : Word) : (s.retireNow key).pending = s.pending := by
  unfold State.retireNow
  split
  · simp
  · dsimp only
    repeat' split
    all_goals simp

@[simp] theorem State.retireStaged_pending (s : State) (key : Word) : (s.retireStaged key).pending = s.pending := by
  unfold State.retireStaged
  split
  · simp
  · split
    · simp
    · dsimp only
      split <;> simp

/-! ### Every command -/

/-- Every command answers a next state with the queue as it was: each meaning is a tree of cases whose leaves are next
states, made by the operations above. -/
theorem exec_completes (c : Instr) (s : State) : Completes s (exec c s) := by
  cases c
  all_goals simp only [exec, execPowerOn, execResetAssert, execResetRelease, execInitializationEnd, execEmptyTransaction,
    execFetch, execIdentify, execStatus, execReadConfiguration, execConfigure, execClear, execClearInitializationEnd,
    execStartScan, execStopScan, execStopScanCompletion, execHoldScan, execResumeScan, execInsert, execAmend, execRenew,
    execRetire, execLookup, execPageQuery, execLoadQuery, execOpenBatch, execCommitBatch, execAbortBatch,
    execBatchQuery, execNodeQuery, execNodeSet, execTakeNotices, execBoundary, execLeaseCountdown, execBatchApplication,
    execPageTransfer, execFrameStart, execFrameEnd, execReplyArrival, execReplySlotExpiry, execEchoWriteBack,
    execDemandWindowOpen, execDemandRequestArrival, execRequestAllowanceEnd, execDemandLookup,
    execAnswerAllowanceStart, execDemandWindowEnd, execReadbackMismatch, execStrayLineWord, execStorageUpset,
    execAnswerSent, execCycleMarkEnd, execRequestArrival]
  all_goals repeat' split
  all_goals refine completes_next ?_
  all_goals simp

/-- Settles O2, command by command. -/
theorem everyCommandCompletes : Obligations.EveryCommandCompletes := exec_completes

end Sys2Proof.Machine
end

section
/-! What a command can do to the Record Table, the batch and the configuration, said once: the changes of one slot, the
changes of the table made of them, and the ways in which a command brings them about. The laws of O54, O55, O56 and O59
are drawn from it. -/

namespace Sys2Proof.Machine

/-! ### The changes of one slot -/

/-- The payload and lease field of an AMEND that the part holds: of the request in hand, or of an entry of the batch. -/
def State.Offers (s : State) (payload : List Word) (field : Option Nat) : Prop :=
  (∃ key, s.port.request = some (.amend key payload field)) ∨ ∃ e ∈ s.batch.entries, e.op = .amend payload field

/-- The changes of a LIVE record and its lease remaining that leave it LIVE: none (amend staged set or cleared), an AMEND
(R53), a RENEW (R54), the countdown (R67), an echo write-back (R123), its notice taken (R148). -/
inductive State.Amends (s : State) : Record → Option Nat → Record → Option Nat → Prop
  | none (r : Record) (m : Option Nat) : s.Amends r m r m
  | amended (r : Record) (m : Option Nat) (payload : List Word) (field : Option Nat) (h : s.Offers payload field) :
    s.Amends r m (r.amended payload field) (r.amended payload field).leaseLength
  | renewed (r : Record) (m : Option Nat) (key : Word) (field : Option Nat)
    (h : s.port.request = some (.renew key field)) :
    s.Amends r m { r with leaseLength := leaseAfter field r.leaseLength } (leaseAfter field r.leaseLength)
  | counted (r : Record) (n : Nat) (h : 1 < n) : s.Amends r (some n) r (some (n - 1))
  | echoed (r : Record) (m : Option Nat) (result : ReplyResult) (revision : Byte) :
    s.Amends r m (r.echoed result revision) m
  | noticed (r : Record) (m : Option Nat) (h : r.echoChanged = some true) :
    s.Amends r m { r with echoChanged := some false } m

/-- The changes of a slot that is neither FREE nor RESERVED (Table 1-4). -/
inductive State.Moves (s : State) : Slot → Slot → Prop
  | damaged (v : Slot) (b : Bool) (hr : v.isReserved = false) (hf : v ≠ .free) : s.Moves v (.damaged b)
  | freed (v : Slot) (hr : v.isReserved = false) (hf : v ≠ .free) : s.Moves v .free
  | amended {r r' : Record} {m m' : Option Nat} (g g' : Bool) (h : s.Amends r m r' m') :
    s.Moves (.live r m g) (.live r' m' g')
  | expired (r : Record) (m : Option Nat) (g : Bool) (h : s.arbiter.inProgress = some .countdown) :
    s.Moves (.live r m g) (.withdrawing r .expired s.port.config.withdrawals)
  | retired (r : Record) (m : Option Nat) (g : Bool) (h : s.scan.state ≠ .stopped) :
    s.Moves (.live r m g) (.withdrawing r .retired s.port.config.withdrawals)
  | counted (r : Record) (c : Cause) (n : Nat) (h : 1 < n) : s.Moves (.withdrawing r c n) (.withdrawing r c (n - 1))
  | noticed (r : Record) (c : Cause) (n : Nat) (h : r.echoChanged = some true) :
    s.Moves (.withdrawing r c n) (.withdrawing { r with echoChanged := some false } c n)
  | lapsed (r : Record) (c : Cause) (n : Nat) : s.Moves (.withdrawing r c n) (.lapsed r)

theorem State.Moves.not_reserved {s : State} {v w : Slot} (h : s.Moves v w) :
    v.isReserved = false ∧ w.isReserved = false := by
  cases h with
  | damaged _ _ hr _ => exact ⟨hr, rfl⟩
  | freed _ hr _ => exact ⟨hr, rfl⟩
  | amended | expired | retired | counted | noticed | lapsed => exact ⟨rfl, rfl⟩

theorem State.Moves.ne_free {s : State} {v w : Slot} (h : s.Moves v w) : v ≠ .free := by
  cases h with
  | damaged _ _ _ hf => exact hf
  | freed _ _ hf => exact hf
  | amended | expired | retired | counted | noticed | lapsed => simp

/-- A withdrawal completed is a change of its slot (R23, R74). -/
theorem State.Moves.completed (s : State) (r : Record) (c : Cause) (n : Nat) :
    s.Moves (.withdrawing r c n) (c.completed r) := by
  cases c with
  | retired => exact .freed _ rfl (by simp)
  | expired => exact .lapsed r _ n

/-! ### The changes of the table -/

/-- The tables that changes of slots and of the due list make of a table while `s` stands, `settles` saying whether
RESERVED slots may become LIVE or FREE, as the application and the abort of a batch make them. -/
inductive State.Edits (s : State) (settles : Bool) (st : Store) : Store → Prop
  | refl : s.Edits settles st st
  | move {u : Store} (i : Nat) (v : Slot) (hu : s.Edits settles st u) (h : s.Moves (u.slotAt i) v) :
    s.Edits settles st (u.changeSlot i v)
  | restore {u : Store} (i : Nat) (r : Record) (hu : s.Edits settles st u) (h : u.slotAt i = .reserved r) :
    s.Edits settles st (u.write i (.reserved (stagedCopy s.batch.entries i r)))
  | settle {u : Store} (i : Nat) (r : Record) (v : Slot) (hs : settles = true) (hu : s.Edits settles st u)
    (h : u.slotAt i = .reserved r) (hv : v = r.asLive ∨ v = .free) : s.Edits settles st (u.changeSlot i v)
  | fixed {u : Store} (i : Nat) (hi : i < 16)
    (hp : s.arbiter.inProgress = some .countdown ∨ s.arbiter.inProgress = some .application)
    (hu : s.Edits settles st u) : s.Edits settles st (u.fixDue i)
  | ended {u : Store} (hu : s.Edits settles st u) : s.Edits settles st { u with due := [] }
  | marked {u : Store} (p : Nat) (hu : s.Edits settles st u) : s.Edits settles st (u.markTransferred p)
  | stamped {u : Store} (p : Nat) (n : Word) (hu : s.Edits settles st u) : s.Edits settles st (u.setLastTransfer p n)
  | upset {u : Store} (i : Nat) (hu : s.Edits settles st u) : s.Edits settles st (u.upset i)

theorem State.Edits.trans {s : State} {b : Bool} {x y z : Store} (h : s.Edits b x y) (h' : s.Edits b y z) :
    s.Edits b x z := by
  induction h' with
  | refl => exact h
  | move i v _ hm ih => exact ih.move i v hm
  | restore i r _ hr ih => exact ih.restore i r hr
  | settle i r v hs _ hr hv ih => exact ih.settle i r v hs hr hv
  | fixed i hi hp _ ih => exact ih.fixed i hi hp
  | ended _ ih => exact ih.ended
  | marked p _ ih => exact ih.marked p
  | stamped p n _ ih => exact ih.stamped p n
  | upset i _ ih => exact ih.upset i

/-- Changes that leave RESERVED slots alone are changes. -/
theorem State.Edits.settling {s : State} {x y : Store} (h : s.Edits false x y) : s.Edits true x y := by
  induction h with
  | refl => exact .refl
  | move i v _ hm ih => exact ih.move i v hm
  | restore i r _ hr ih => exact ih.restore i r hr
  | settle i r v hs => cases hs
  | fixed i hi hp _ ih => exact ih.fixed i hi hp
  | ended _ ih => exact ih.ended
  | marked p _ ih => exact ih.marked p
  | stamped p n _ ih => exact ih.stamped p n
  | upset i _ ih => exact ih.upset i

theorem State.Edits.foldl {β : Type} {s : State} {b : Bool} (f : Store → β → Store) (hf : ∀ u x, s.Edits b u (f u x))
    (l : List β) : ∀ st, s.Edits b st (l.foldl f st) := by
  induction l with
  | nil => exact fun _ => .refl
  | cons x l ih => exact fun st => (hf st x).trans (ih _)

variable (s : State) (b : Bool) (st : Store)

/-- One slot changed. -/
theorem State.Edits.moved (i : Nat) {v w : Slot} (hv : st.slotAt i = v) (h : s.Moves v w) :
    s.Edits b st (st.changeSlot i w) := State.Edits.move i w .refl (hv ▸ h)

theorem State.edits_verify (i : Nat) : s.Edits b st (st.verify i) := by
  unfold Store.verify
  split
  · cases h : st.slotAt i with
    | live | withdrawing | lapsed => exact .moved s b st i h (.damaged _ _ rfl (by simp))
    | free | reserved | damaged => exact .refl
  · exact .refl

theorem State.edits_verifyAny (i : Nat) : s.Edits b st (st.verifyAny s.batch.entries i) := by
  unfold Store.verifyAny
  cases h : st.slotAt i with
  | reserved r =>
    dsimp only
    split
    · exact State.Edits.restore i r .refl h
    · exact .refl
  | free | live | withdrawing | lapsed | damaged => exact s.edits_verify b st i

/-- A change of a slot as a verifying read finds it. -/
theorem State.Edits.verified (i : Nat) {v w : Slot} (hv : (st.verify i).slotAt i = v) (h : s.Moves v w) :
    s.Edits b st ((st.verify i).changeSlot i w) := (s.edits_verify b st i).trans (.moved s b _ i hv h)

theorem State.edits_countdownSlot (h : s.arbiter.inProgress = some .countdown) (i : Nat) :
    s.Edits b st (Store.countdownSlot s.port.config.withdrawals st i) := by
  unfold Store.countdownSlot
  split <;> try exact .refl
  dsimp only
  split
  next r n g hr =>
    split
    next => exact .verified s b st i hr (.expired r _ g h)
    next hn => exact .verified s b st i hr (.amended g g (.counted r n (by omega)))
  all_goals exact s.edits_verify b st i

theorem State.edits_countdown (h : s.arbiter.inProgress = some .countdown) :
    s.Edits b st (st.countdown s.port.config.withdrawals) :=
  State.Edits.foldl _ (fun u i => s.edits_countdownSlot b u h i) _ st

theorem State.edits_transferSlot (acc : Store × List Entry) (i : Nat) :
    s.Edits b acc.1 (Store.transferSlot acc i).1 := by
  have hv : s.Edits b acc.1 (if (acc.1.slotAt i).emittable then acc.1.verify i else acc.1) := by
    split
    · exact s.edits_verify b _ i
    · exact .refl
  unfold Store.transferSlot
  dsimp only
  split <;> try exact hv
  next r c n hr =>
    refine hv.trans (.moved s b _ i hr ?_)
    split
    next => exact .completed s r c n
    next hn => exact .counted r c n (by omega)

theorem State.edits_copyPage (p : Nat) (n : Word) : s.Edits b st (st.copyPage p n).1 := by
  unfold Store.copyPage
  refine State.Edits.stamped p n ?_
  suffices ∀ (l : List Nat) (acc : Store × List Entry), s.Edits b acc.1 (l.foldl Store.transferSlot acc).1 from
    (State.Edits.marked p .refl).trans (this _ (st.markTransferred p, []))
  intro l
  induction l with
  | nil => exact fun _ => .refl
  | cons i l ih => exact fun acc => (s.edits_transferSlot b acc i).trans (ih _)

theorem State.edits_completeWithdrawals : s.Edits b st st.completeWithdrawals := by
  refine State.Edits.foldl _ (fun u i => ?_) _ st
  unfold Store.completeSlot
  split <;> try exact .refl
  dsimp only
  split
  next r c n hr => exact .verified s b u i hr (.completed s r c n)
  all_goals exact s.edits_verify b u i

theorem State.edits_writeEcho (item : ReplySlot) : s.Edits b st (st.writeEcho item) := by
  unfold Store.writeEcho
  dsimp only
  split
  next r m g hr =>
    split
    · exact .verified s b st _ hr (.amended g g (.echoed r m _ _))
    · exact s.edits_verify b st _
  all_goals exact s.edits_verify b st _

theorem State.edits_demandLookup (key : Word) : s.Edits b st (st.demandLookup s.batch.entries key).1 := by
  unfold Store.demandLookup
  split
  · exact .refl
  · exact s.edits_verifyAny b st _

/-- A LIVE record retired, in the scan state that stands (R56). -/
theorem State.edits_retireLive (i : Nat) {r : Record} {m : Option Nat} {g : Bool} (h : st.slotAt i = .live r m g) :
    s.Edits b st (st.retireLive s.scan.state s.port.config.withdrawals i r) := by
  refine .moved s b st i h ?_
  split
  · exact .freed _ rfl (by simp)
  next hs => exact .retired r m g hs

/-! ### The application and the abort of a batch -/

theorem State.edits_applyEntry (a : Application) (e : BatchEntry) (he : e ∈ s.batch.entries) :
    s.Edits true a.store
      (applyEntry s.batch.entries s.scan.state s.port.config.withdrawals a e).store := by
  have hv := s.edits_verifyAny true a.store e.slot
  unfold applyEntry
  dsimp only
  split
  · split
    next copy r hop hr => exact hv.trans (.settle e.slot r _ rfl .refl hr (.inl rfl))
    next payload field r m g hop hr =>
      exact hv.trans (.moved s true _ e.slot hr (.amended g false (.amended r m payload field (.inr ⟨e, he, hop⟩))))
    next r m g hop hr => exact hv.trans (s.edits_retireLive true _ e.slot hr)
    next x hop hr => exact hv.trans (.moved s true _ e.slot hr (.freed _ rfl (by simp)))
    next => exact hv
  · exact hv

theorem State.edits_applyEntries :
    s.Edits true st (applyEntries st s.batch.entries s.scan.state s.port.config.withdrawals).store := by
  unfold applyEntries
  suffices ∀ (l : List BatchEntry), (∀ e ∈ l, e ∈ s.batch.entries) → ∀ a : Application, s.Edits true a.store
      (l.foldl (applyEntry s.batch.entries s.scan.state s.port.config.withdrawals) a).store from
    this _ (fun _ h => h) ⟨st, 0, 0⟩
  intro l
  induction l with
  | nil => exact fun _ _ => .refl
  | cons e l ih =>
    exact fun hl a => (s.edits_applyEntry a e (hl e List.mem_cons_self)).trans
      (ih (fun x hx => hl x (List.mem_cons_of_mem _ hx)) _)

theorem State.edits_clearStaged (e : BatchEntry) : s.Edits b st (st.clearStaged e) := by
  unfold Store.clearStaged
  split <;> try exact .refl
  split <;> try exact .refl
  dsimp only
  split
  next r m g hr => exact .verified s b st _ hr (.amended g false (.none r m))
  all_goals exact s.edits_verify b st _

theorem State.edits_freeReserved (i : Nat) : s.Edits true st (st.freeReserved s.batch.entries i) := by
  unfold Store.freeReserved
  split
  next h =>
    have hv := s.edits_verifyAny true st i
    obtain ⟨r, hr⟩ : ∃ r, (st.verifyAny s.batch.entries i).slotAt i = .reserved r := by
      cases hs : st.slotAt i with
      | reserved r =>
        unfold Store.verifyAny
        rw [hs]
        dsimp only
        split
        · exact ⟨_, by rw [Store.slotAt_write, if_pos rfl]⟩
        · exact ⟨r, hs⟩
      | free | live | withdrawing | lapsed | damaged => rw [hs] at h; cases h
    exact hv.trans (.settle i r _ rfl .refl hr (.inr rfl))
  next => exact .refl

theorem State.edits_abortBatch : s.Edits true st (st.abortBatch s.batch.entries) :=
  (State.Edits.foldl _ (fun u i => s.edits_freeReserved u i) _ st).trans
    (State.Edits.foldl _ (fun u e => s.edits_clearStaged true u e) _ _)

end Sys2Proof.Machine
end

section
/-! What each command does to the Record Table, the batch and the configuration (`State.Tables`). -/

namespace Sys2Proof.Machine

/-! ### TAKE NOTICES (R147, R148) -/

/-- A slot whose notice is pending has it taken by a change of that slot. -/
theorem State.edits_takeSlot (s u : State) (b : Bool) (i : Nat) (h : (u.store.slotAt i).noticePending = true) :
    s.Edits b u.store (u.takeSlot i).1.store := by
  have hv := s.edits_verify b u.store i
  have same : ∀ v, (u.store.verify i).slotAt i = v → v ≠ .damaged false → (u.store.slotAt i) = v := by
    intro v hr hd
    rw [Store.slotAt_verify, if_pos rfl] at hr
    rw [u.store.found_eq_slotAt i (hr ▸ hd), hr]
  unfold State.takeSlot
  dsimp only
  split
  next r hr => exact hv.trans (.moved s b _ i hr (.freed _ rfl (by simp)))
  next r m g hr =>
    rw [same _ hr (by simp)] at h
    exact hv.trans (.moved s b _ i hr (.amended g g (.noticed r m (by simpa [Slot.noticePending] using h))))
  next r c n hr =>
    rw [same _ hr (by simp)] at h
    exact hv.trans (.moved s b _ i hr (.noticed r c n (by simpa [Slot.noticePending] using h)))
  next x hr => exact hv.trans (.moved s b _ i hr (.damaged _ _ rfl (by simp)))
  all_goals exact hv

/-- A notice that is not of a slot is taken without the table. -/
theorem takeOne_store_of_ne (acc : State × List Byte) (x : NoticeSource) (h : ∀ i, x ≠ .slot i) :
    (takeOne acc x).1.store = acc.1.store := by
  cases x with
  | applied => unfold takeOne State.takeApplied; dsimp only; split <;> rfl
  | fault => unfold takeOne State.takeFault; dsimp only; split <;> rfl
  | node n => rfl
  | slot i => exact absurd rfl (h i)

/-- A notice taken leaves every slot but its own as it was. -/
theorem takeOne_cellAt_ne (acc : State × List Byte) (x : NoticeSource) (i : Nat) (h : x ≠ .slot i) :
    (takeOne acc x).1.store.cellAt i = acc.1.store.cellAt i := by
  cases x with
  | slot j => exact (acc.1.takeSlot_other j).1 i fun e => h (by rw [e])
  | applied | fault | node => rw [takeOne_store_of_ne _ _ (by simp)]

/-- Notices that are pending, each listed once, are taken by changes of their slots. -/
theorem State.edits_takeNotices (s : State) (b : Bool) (l : List NoticeSource) (hl : l.Nodup) :
    ∀ acc : State × List Byte, (∀ i, .slot i ∈ l → (acc.1.store.slotAt i).noticePending = true) →
      s.Edits b acc.1.store (l.foldl takeOne acc).1.store := by
  induction l with
  | nil => exact fun _ _ => .refl
  | cons x l ih =>
    intro acc h
    obtain ⟨hx, hl'⟩ := List.nodup_cons.1 hl
    have first : s.Edits b acc.1.store (takeOne acc x).1.store := by
      cases x with
      | slot i => exact s.edits_takeSlot acc.1 b i (h i List.mem_cons_self)
      | applied | fault | node => rw [takeOne_store_of_ne _ _ (by simp)]; exact .refl
    refine first.trans (ih hl' _ fun i hi => ?_)
    have hne : x ≠ .slot i := fun e => hx (e ▸ hi)
    unfold Store.slotAt
    rw [takeOne_cellAt_ne acc x i hne]
    exact h i (List.mem_cons_of_mem _ hi)

/-- A slot is among the notice sources exactly while its notice is pending (R143). -/
theorem State.slot_mem_noticeSources (s : State) (i : Nat) :
    NoticeSource.slot i ∈ s.noticeSources ↔ i < Config.slotCount ∧ (s.store.slotAt i).noticePending = true := by
  unfold State.noticeSources
  cases s.notices.applied <;> cases s.notices.fault <;> simp [mem_slotIndices]

/-- Each notice source is listed once (R147). -/
theorem State.nodup_noticeSources (s : State) : s.noticeSources.Nodup := by
  have nodes : (((List.range Config.nodeCount).map (· + 1)).filter fun n => (s.nodes.at n).noticePending).Nodup :=
    (List.nodup_range.map fun _ _ h => Nat.succ.inj h).filter _
  have slots : (slotIndices.filter fun i => (s.store.slotAt i).noticePending).Nodup := nodup_slotIndices.filter _
  have both := List.Nodup.append (nodes.map (f := NoticeSource.node) fun _ _ h => NoticeSource.node.inj h)
    (slots.map (f := NoticeSource.slot) fun _ _ h => NoticeSource.slot.inj h)
    (by
      rintro x hx hy
      obtain ⟨n, -, rfl⟩ := List.mem_map.1 hx
      simp at hy)
  unfold State.noticeSources
  cases s.notices.applied <;> cases s.notices.fault <;> simp [both]

/-! ### The ways to change the table, the batch and the configuration -/

/-- What a command can do to the Record Table, the batch and the configuration. -/
inductive State.Tables (s t : State) : Prop
  | edited (h : s.Edits false s.store t.store) (hb : t.batch = s.batch) (hc : t.port.config = s.port.config)
  | cleared (h : t.store = Store.initial) (hb : t.batch = BatchUnit.initial)
    (hc : t.port.config = s.port.config ∨ t.port.config = Configuration.default)
  | inserted (args : InsertArgs) (place : Allocation) (hr : s.heldAccess = some (.insert args))
    (hk : s.store.slotOfKey args.key = none) (ha : s.store.allocate s.port.config.frames args.cls = .ok place)
    (h : t.store = s.store.enter place args.cls args.key args.record.asLive) (hb : t.batch = s.batch)
    (hc : t.port.config = s.port.config)
  | reserved (args : InsertArgs) (place : Allocation) (hr : s.heldAccess = some (.insert args))
    (ho : s.batch.state = .open_) (hf : s.batch.stagingRefusal args.key = none)
    (hk : s.store.slotOfKey args.key = none) (ha : s.store.allocate s.port.config.frames args.cls = .ok place)
    (h : t.store = s.store.enter place args.cls args.key (.reserved args.record))
    (hb : t.batch = s.batch.stage ⟨.insert args.record, args.key, place.slot⟩) (hc : t.port.config = s.port.config)
  | staged (e : BatchEntry) (ho : s.batch.state = .open_) (hf : s.batch.stagingRefusal e.key = none)
    (he : e.op = .retire ∨
      ∃ payload field, e.op = .amend payload field ∧ s.port.request = some (.amend e.key payload field))
    (h : s.Edits false s.store t.store) (hb : t.batch = s.batch.stage e) (hc : t.port.config = s.port.config)
  | opened (hn : s.batch.state = .none) (h : t.store = s.store) (hb : t.batch = ⟨.open_, []⟩)
    (hc : t.port.config = s.port.config)
  | sealed_ (ho : s.batch.state = .open_) (hs : s.scan.state ≠ .stopped) (h : t.store = s.store)
    (hb : t.batch = ⟨.sealed_, s.batch.entries⟩) (hc : t.port.config = s.port.config)
  | applied (u : Store) (hu : s.Edits false s.store u)
    (h : s.Edits false (applyEntries u s.batch.entries s.scan.state s.port.config.withdrawals).store t.store)
    (hb : t.batch = BatchUnit.initial) (hc : t.port.config = s.port.config)
  | aborted (h : t.store = s.store.abortBatch s.batch.entries) (hb : t.batch = BatchUnit.initial)
    (hc : t.port.config = s.port.config)
  | configured (c : Configuration) (hr : s.heldAccess = some (.configure c)) (hs : s.scan.state = .stopped)
    (hl : s.store.maxLoad ≤ c.frames) (h : t.store = s.store) (hb : t.batch = s.batch) (hc : t.port.config = c)

/-- A state that agrees with `s` in table, batch and configuration. -/
theorem State.Tables.same {s t : State} (h : t.store = s.store) (hb : t.batch = s.batch)
    (hc : t.port.config = s.port.config) : s.Tables t := .edited (h ▸ .refl) hb hc

/-! ### The completions -/

@[simp] theorem State.finishWith_store (s : State) (st : Store) (status : Status) (data : List Byte) :
    (s.finishWith st status data).store = st := by simp [State.finishWith]

@[simp] theorem State.refuseWith_store (s : State) (st : Store) (status : Status) :
    (s.refuseWith st status).store = st := by simp [State.refuseWith]

@[simp] theorem State.finish_config (s : State) (status : Status) (data : List Byte) :
    (s.finish status data).port.config = s.port.config := by simp [State.finish]

@[simp] theorem State.finishWith_config (s : State) (st : Store) (status : Status) (data : List Byte) :
    (s.finishWith st status data).port.config = s.port.config := by simp [State.finishWith]

@[simp] theorem State.refuseWith_config (s : State) (st : Store) (status : Status) :
    (s.refuseWith st status).port.config = s.port.config := by simp [State.refuseWith]

@[simp] theorem State.stageWith_store (s : State) (st : Store) (e : BatchEntry) (data : List Byte) :
    (s.stageWith st e data).store = st := by simp [State.stageWith]

@[simp] theorem State.stageWith_batch (s : State) (st : Store) (e : BatchEntry) (data : List Byte) :
    (s.stageWith st e data).batch = s.batch.stage e := by simp [State.stageWith]

@[simp] theorem State.stageWith_config (s : State) (st : Store) (e : BatchEntry) (data : List Byte) :
    (s.stageWith st e data).port.config = s.port.config := by simp [State.stageWith]

theorem State.fixDueList_store (s : State) : s.fixDueList.store = s.store.fixDue s.timer.index.toNat := by
  simp [State.fixDueList]

theorem State.takeBoundary_store (s : State) (first : Bool) :
    (s.takeBoundary first).store = { s.store with due := [] } := (s.agrees_takeBoundary first).1

@[simp] theorem State.applyBatch_store (s : State) : s.applyBatch.store =
    (applyEntries s.store s.batch.entries s.scan.state s.port.config.withdrawals).store := rfl

@[simp] theorem State.applyBatch_batch (s : State) : s.applyBatch.batch = BatchUnit.initial := rfl

variable (s : State)

/-- A refusal changes the table by what its reads found. -/
theorem State.tables_refuse {st : Store} (h : s.Edits false s.store st) (status : Status) :
    s.Tables (s.refuseWith st status) := .edited (by simpa using h) (by simp) (by simp)

theorem State.tables_finish {st : Store} (h : s.Edits false s.store st) (status : Status) (data : List Byte) :
    s.Tables (s.finishWith st status data) := .edited (by simpa using h) (by simp) (by simp)

/-! ### The record requests -/

theorem State.tables_insertNow (args : InsertArgs) (hr : s.heldAccess = some (.insert args)) :
    s.Tables (s.insertNow args) := by
  unfold State.insertNow
  split
  · exact s.tables_refuse .refl _
  next hk =>
    split
    · exact s.tables_refuse .refl _
    next place ha =>
      exact .inserted args place hr (by simpa using hk) ha (by simp) (by simp) (by simp)

theorem State.tables_insertStaged (args : InsertArgs) (hr : s.heldAccess = some (.insert args))
    (ho : s.batch.state = .open_) : s.Tables (s.insertStaged args) := by
  unfold State.insertStaged
  split
  · exact s.tables_refuse .refl _
  next hf =>
    split
    · exact s.tables_refuse .refl _
    next hk =>
      split
      · exact s.tables_refuse .refl _
      next place ha =>
        exact .reserved args place hr ho hf (by simpa using hk) ha (by simp) (by simp) (by simp)

theorem State.tables_amendNow (key : Word) (payload : List Word) (field : Option Nat)
    (hr : s.port.request = some (.amend key payload field)) : s.Tables (s.amendNow key payload field) := by
  unfold State.amendNow
  split
  · exact s.tables_refuse .refl _
  next i _ =>
    dsimp only
    split
    next r m g hl =>
      exact s.tables_finish (.verified s false _ i hl (.amended g false (.amended r m payload field (.inl ⟨key, hr⟩)))) _ _
    all_goals exact s.tables_refuse (s.edits_verify false _ i) _

theorem State.tables_amendStaged (key : Word) (payload : List Word) (field : Option Nat)
    (hr : s.port.request = some (.amend key payload field)) (ho : s.batch.state = .open_) :
    s.Tables (s.amendStaged key payload field) := by
  unfold State.amendStaged
  split
  · exact s.tables_refuse .refl _
  next hf =>
    split
    · exact s.tables_refuse .refl _
    next i _ =>
      dsimp only
      split
      next r m g hl =>
        exact .staged ⟨.amend payload field, key, i⟩ ho hf (.inr ⟨payload, field, rfl, hr⟩)
          (by simpa using State.Edits.verified s false _ i hl (.amended g true (.none r m))) (by simp) (by simp)
      all_goals exact s.tables_refuse (s.edits_verify false _ i) _

theorem State.tables_renewNow (key : Word) (field : Option Nat) (hr : s.port.request = some (.renew key field)) :
    s.Tables (s.renewNow key field) := by
  unfold State.renewNow
  split
  · exact s.tables_refuse .refl _
  next i _ =>
    dsimp only
    split
    next r m g hl =>
      split
      · exact s.tables_refuse (s.edits_verify false _ i) _
      · exact s.tables_finish (.verified s false _ i hl (.amended g g (.renewed r m key field hr))) _ _
    all_goals exact s.tables_refuse (s.edits_verify false _ i) _

theorem State.tables_retireNow (key : Word) : s.Tables (s.retireNow key) := by
  unfold State.retireNow
  split
  · exact s.tables_refuse .refl _
  next i _ =>
    have hv := s.edits_verify false s.store i
    dsimp only
    split
    next r m g hl => exact s.tables_finish (hv.trans (s.edits_retireLive false _ i hl)) _ _
    next r hl => exact s.tables_finish (hv.trans (.moved s false _ i hl (.freed _ rfl (by simp)))) _ _
    next x hl => exact s.tables_finish (hv.trans (.moved s false _ i hl (.freed _ rfl (by simp)))) _ _
    all_goals exact s.tables_refuse hv _

theorem State.tables_retireStaged (key : Word) (ho : s.batch.state = .open_) : s.Tables (s.retireStaged key) := by
  unfold State.retireStaged
  split
  · exact s.tables_refuse .refl _
  next hf =>
    split
    · exact s.tables_refuse .refl _
    next i _ =>
      have hv := s.edits_verify false s.store i
      dsimp only
      split
      next => exact .staged ⟨.retire, key, i⟩ ho hf (.inl rfl) (by simpa using hv) (by simp) (by simp)
      next => exact .staged ⟨.retire, key, i⟩ ho hf (.inl rfl) (by simpa using hv) (by simp) (by simp)
      all_goals exact s.tables_refuse hv _

/-! ### Every command -/

@[simp] theorem State.startScan_batch (s : State) : s.startScan.batch = s.batch := by simp [State.startScan]

@[simp] theorem State.startScan_port (s : State) : s.startScan.port = s.port := by simp [State.startScan]

theorem State.startScan_store (s : State) : s.startScan.store = { s.store with due := [] } := by
  simp [State.startScan, State.takeBoundary_store]

theorem takeOne_frame (acc : State × List Byte) (x : NoticeSource) :
    (takeOne acc x).1 = { acc.1 with
      store := (takeOne acc x).1.store, nodes := (takeOne acc x).1.nodes, notices := (takeOne acc x).1.notices } := by
  cases x with
  | applied => unfold takeOne State.takeApplied; dsimp only; split <;> rfl
  | fault => unfold takeOne State.takeFault; dsimp only; split <;> rfl
  | node n => rfl
  | slot i => unfold takeOne State.takeSlot; dsimp only; split <;> rfl

/-- The notices taken change the table, the nodes and the device notices, and nothing else. -/
theorem foldl_takeOne_frame (l : List NoticeSource) : ∀ acc : State × List Byte,
    (l.foldl takeOne acc).1 = { acc.1 with
      store := (l.foldl takeOne acc).1.store, nodes := (l.foldl takeOne acc).1.nodes,
      notices := (l.foldl takeOne acc).1.notices } := by
  induction l with
  | nil => exact fun _ => rfl
  | cons x l ih =>
    intro acc
    rw [List.foldl_cons, ih, takeOne_frame acc x]

theorem State.tables_takeNotices (status : Status) (data : List Byte) :
    s.Tables ((s.reportable.foldl takeOne (s, [])).1.finish status data) := by
  have frame := foldl_takeOne_frame s.reportable (s, [])
  refine .edited ?_ (by rw [State.finish_batch, frame]) (by rw [State.finish_config, frame])
  rw [State.finish_store]
  refine s.edits_takeNotices false s.reportable (s.nodup_noticeSources.sublist (List.take_sublist _ _)) (s, []) ?_
  exact fun i hi => ((s.slot_mem_noticeSources i).1 (List.mem_of_mem_take hi)).2

theorem State.tables_stopInAccess : s.Tables s.stopInAccess := by
  have hc := s.edits_completeWithdrawals false s.store
  unfold State.stopInAccess
  dsimp only
  split
  · refine .applied s.store.completeWithdrawals hc ?_ (by simp) (by simp)
    simpa using State.Edits.ended (s := s) (settles := false) .refl
  · exact .edited hc.ended rfl rfl

/-- The changes go on where a state agrees in table, batch and configuration. -/
theorem State.Tables.of_eq {s t u : State} (h : s.Tables t) (hs : u.store = t.store) (hb : u.batch = t.batch)
    (hc : u.port.config = t.port.config) : s.Tables u := by
  cases h with
  | edited h hb' hc' => exact .edited (hs ▸ h) (hb.trans hb') (hc.trans hc')
  | cleared h hb' hc' => exact .cleared (hs.trans h) (hb.trans hb') (by rwa [hc])
  | inserted args place hr hk ha h hb' hc' =>
    exact .inserted args place hr hk ha (hs.trans h) (hb.trans hb') (hc.trans hc')
  | reserved args place hr ho hf hk ha h hb' hc' =>
    exact .reserved args place hr ho hf hk ha (hs.trans h) (hb.trans hb') (hc.trans hc')
  | staged e ho hf he h hb' hc' => exact .staged e ho hf he (hs ▸ h) (hb.trans hb') (hc.trans hc')
  | opened hn h hb' hc' => exact .opened hn (hs.trans h) (hb.trans hb') (hc.trans hc')
  | sealed_ ho hn h hb' hc' => exact .sealed_ ho hn (hs.trans h) (hb.trans hb') (hc.trans hc')
  | applied u hu h hb' hc' => exact .applied u hu (hs ▸ h) (hb.trans hb') (hc.trans hc')
  | aborted h hb' hc' => exact .aborted (hs.trans h) (hb.trans hb') (hc.trans hc')
  | configured c hr hs' hl h hb' hc' => exact .configured c hr hs' hl (hs.trans h) (hb.trans hb') (hc.trans hc')

@[simp] theorem State.completeReset_config (s : State) : s.completeReset.port.config = s.port.config := rfl

@[simp] theorem State.returning_config (s : State) (bytes : List Byte) :
    (s.returning bytes).port.config = s.port.config := rfl

@[simp] theorem State.fetch_config (s : State) (count : Nat) : (s.fetch count).port.config = s.port.config := by
  unfold State.fetch
  split <;> rfl

/-- A request that arrives leaves the table, the batch and the configuration alone. -/
theorem State.arrive_same (s : State) (bytes : List Byte) :
    (s.arrive bytes).store = s.store ∧ (s.arrive bytes).batch = s.batch ∧
      (s.arrive bytes).port.config = s.port.config := by
  unfold State.arrive State.takeRequest
  dsimp only
  split
  · split
    · simp
    · split <;> simp
  all_goals exact ⟨rfl, rfl, rfl⟩

/-- Every command changes the table, the batch and the configuration in one of those ways. -/
theorem exec_tables (c : Instr) (s t : State) (h : exec c s = .next t) : s.Tables t := by
  cases c
  case powerOn | resetAssert => cases h; exact .cleared rfl rfl (.inr rfl)
  case resetRelease =>
    simp only [exec, execResetRelease] at h
    split at h <;> cases h
    · exact .cleared rfl rfl (.inr rfl)
    · exact .same rfl rfl rfl
  case configure =>
    simp only [exec, execConfigure] at h
    split at h
    next c hr =>
      split at h
      · cases h; exact .same (by simp) (by simp) (by simp)
      next hs =>
        split at h
        · cases h; exact .same (by simp) (by simp) (by simp)
        next hl =>
          cases h
          exact .configured c hr (by simpa using hs) (by simpa using hl) (by simp) (by simp)
            (by simp [State.setConfiguration])
    · cases h; exact .same rfl rfl rfl
  case clear =>
    simp only [exec, execClear] at h
    split at h
    · cases h
      split
      · exact .cleared rfl rfl (.inl rfl)
      · exact .same (by simp) (by simp) (by simp)
    · cases h; exact .same rfl rfl rfl
  case startScan =>
    simp only [exec, execStartScan] at h
    split at h
    · cases h
      split
      · exact .edited (by simpa [State.startScan_store] using State.Edits.ended .refl) (by simp) (by simp)
      · exact .same (by simp) (by simp) (by simp)
    · cases h; exact .same rfl rfl rfl
  case stopScan =>
    simp only [exec, execStopScan] at h
    split at h
    · cases h
      split
      · exact s.tables_stopInAccess.of_eq (by simp) (by simp) (by simp)
      · exact .same (by simp) (by simp) (by simp)
    · cases h; exact .same rfl rfl rfl
  case insert =>
    simp only [exec, execInsert] at h
    split at h
    next args hr =>
      split at h
      next => cases h; exact s.tables_insertNow args hr
      next ho => cases h; exact s.tables_insertStaged args hr ho
      next => cases h; exact s.tables_refuse .refl _
    · cases h; exact .same rfl rfl rfl
  case amend =>
    simp only [exec, execAmend] at h
    split at h
    next key payload field hr =>
      have hr := ((s.heldAccess_eq_some _).1 hr).2.2
      split at h
      next => cases h; exact s.tables_amendNow key payload field hr
      next ho => cases h; exact s.tables_amendStaged key payload field hr ho
      next => cases h; exact s.tables_refuse .refl _
    · cases h; exact .same rfl rfl rfl
  case renew =>
    simp only [exec, execRenew] at h
    split at h
    next key field hr => cases h; exact s.tables_renewNow key field ((s.heldAccess_eq_some _).1 hr).2.2
    · cases h; exact .same rfl rfl rfl
  case retire =>
    simp only [exec, execRetire] at h
    split at h
    next key hr =>
      split at h
      next => cases h; exact s.tables_retireNow key
      next ho => cases h; exact s.tables_retireStaged key ho
      next => cases h; exact s.tables_refuse .refl _
    · cases h; exact .same rfl rfl rfl
  case lookup =>
    simp only [exec, execLookup] at h
    split at h
    next key hr =>
      split at h
      next => cases h; exact s.tables_refuse .refl _
      next i _ => cases h; exact s.tables_finish (s.edits_verifyAny false _ i) _ _
    · cases h; exact .same rfl rfl rfl
  case openBatch =>
    simp only [exec, execOpenBatch] at h
    split at h
    · split at h
      next hn => cases h; exact .opened hn (by simp) (by simp) (by simp)
      all_goals cases h; exact .same (by simp) (by simp) (by simp)
    · cases h; exact .same rfl rfl rfl
  case commitBatch =>
    simp only [exec, execCommitBatch] at h
    split at h
    · split at h
      next => cases h; exact .same (by simp) (by simp) (by simp)
      next => cases h; exact .same (by simp) (by simp) (by simp)
      next ho =>
        split at h
        · cases h
          exact .applied s.store .refl (by simpa using State.Edits.refl) (by simp) (by simp)
        next hs => cases h; exact .sealed_ ho hs (by simp) (by simp) (by simp)
    · cases h; exact .same rfl rfl rfl
  case abortBatch =>
    simp only [exec, execAbortBatch] at h
    split at h
    · split at h
      next => cases h; exact .same (by simp) (by simp) (by simp)
      next => cases h; exact .same (by simp) (by simp) (by simp)
      next => cases h; exact .aborted (by simp) (by simp) (by simp)
    · cases h; exact .same rfl rfl rfl
  case takeNotices =>
    simp only [exec, execTakeNotices] at h
    split at h
    · cases h; exact s.tables_takeNotices _ _
    · cases h; exact .same rfl rfl rfl
  case boundary =>
    simp only [exec, execBoundary] at h
    cases h
    split
    · exact .edited (by rw [State.takeBoundary_store]; exact .ended .refl) (by simp) (by simp)
    · exact .same rfl rfl rfl
  case leaseCountdown =>
    simp only [exec, execLeaseCountdown] at h
    split at h
    next hp =>
      have hd := s.edits_countdown false s.store hp
      cases h
      split
      · exact .edited (by simpa using hd) (by simp) (by simp)
      · exact .edited (by simpa [State.fixDueList_store] using hd.fixed _ s.timer.index.isLt (.inl hp)) (by simp) (by simp)
    · cases h; exact .same rfl rfl rfl
  case batchApplication =>
    simp only [exec, execBatchApplication] at h
    split at h
    next hp =>
      cases h
      exact .applied s.store .refl
        (by simpa [State.fixDueList_store] using State.Edits.fixed _ s.timer.index.isLt (.inr hp) .refl)
        (by simp) (by simp)
    · cases h; exact .same rfl rfl rfl
  case pageTransfer =>
    simp only [exec, execPageTransfer] at h
    split at h
    next p hp =>
      split at h
      · cases h
        have hd := s.edits_copyPage false s.store p s.timer.count
        split <;> exact .edited (by simpa using hd) (by simp) (by simp)
      · cases h; exact .same (by simp) (by simp) (by simp)
    · cases h; exact .same rfl rfl rfl
  case echoWriteBack =>
    simp only [exec, execEchoWriteBack] at h
    split at h
    next item hp =>
      cases h
      have hd := s.edits_writeEcho false s.store item
      split <;> exact .edited (by simpa using hd) (by simp) (by simp)
    · cases h; exact .same rfl rfl rfl
  case demandLookup =>
    simp only [exec, execDemandLookup] at h
    split at h
    next key hp =>
      cases h
      have hd := s.edits_demandLookup false s.store key
      split <;> exact .edited (by simpa using hd) (by simp) (by simp)
    · cases h; exact .same rfl rfl rfl
  case storageUpset i =>
    cases h
    exact .edited (.upset i .refl) rfl rfl
  -- every other command leaves the three alone
  all_goals simp only [exec, execInitializationEnd, execEmptyTransaction, execFetch, execIdentify, execStatus,
    execReadConfiguration, execClearInitializationEnd, execStopScanCompletion, execHoldScan, execResumeScan,
    execPageQuery, execLoadQuery, execBatchQuery, execNodeQuery, execNodeSet, execFrameStart, execFrameEnd,
    execReplyArrival, execReplySlotExpiry, execDemandWindowOpen, execDemandRequestArrival, execRequestAllowanceEnd,
    execAnswerAllowanceStart, execDemandWindowEnd, execReadbackMismatch, execStrayLineWord, execAnswerSent,
    execCycleMarkEnd, execRequestArrival] at h
  all_goals repeat' split at h
  all_goals cases h
  all_goals refine .same ?_ ?_ ?_
  all_goals simp [State.arrive_same]

end Sys2Proof.Machine
end

section
/-! The laws of the Key Directory, of the pages and of the load counters under the changes of the table (O54, O55, O56). -/

namespace Sys2Proof.Machine

/-! ### Tables that differ in nothing but the due list, the last transfers and the stored checks -/

/-- Two tables agree in slots, keys, schedules and load counters. -/
structure Store.Alike (u v : Store) : Prop where
  slots : ∀ i, v.slotAt i = u.slotAt i
  directory : v.directory = u.directory
  schedules : ∀ p, (v.pageAt p).schedule = (u.pageAt p).schedule
  loads : v.loads = u.loads

theorem Store.Alike.of_eq {u v : Store} (hc : v.cells = u.cells) (hd : v.directory = u.directory)
    (hp : v.pages = u.pages) (hl : v.loads = u.loads) : u.Alike v :=
  ⟨Store.slotAt_eq hc, hd, fun p => by unfold Store.pageAt; rw [hp], hl⟩

theorem Store.alike_setLastTransfer (u : Store) (p : Nat) (n : Word) : u.Alike (u.setLastTransfer p n) :=
  ⟨Store.slotAt_eq rfl, rfl, fun q => by
    rw [Store.pageAt_setLastTransfer]
    split
    next h => rw [h]
    · rfl, rfl⟩

/-- An upset leaves every recorded slot as it reads (log entry 8). -/
@[simp] theorem Store.slotAt_upset (u : Store) (i j : Nat) : (u.upset i).slotAt j = u.slotAt j := by
  unfold Store.upset
  split
  · rfl
  · rfl
  all_goals
    unfold Store.slotAt Store.cellAt
    rw [Sparse.get_put]
    split
    next h => rw [h]
    · rfl

theorem Store.alike_upset (u : Store) (i : Nat) : u.Alike (u.upset i) := by
  refine ⟨u.slotAt_upset i, ?_, fun p => ?_, ?_⟩ <;> unfold Store.upset <;> split <;> rfl

/-- The state of a page is read off its slots (R26). -/
theorem Store.Alike.pageState {u v : Store} (h : u.Alike v) (p : Nat) : v.pageState p = u.pageState p :=
  Store.pageState_congr p fun _ _ => h.slots _

theorem Store.Alike.scheduled {u v : Store} (h : u.Alike v) (p : Nat) : v.scheduled p = u.scheduled p := by
  unfold Store.scheduled
  rw [h.pageState]

theorem Store.Alike.load {u v : Store} (h : u.Alike v) (i : Nat) : v.load i = u.load i := by
  unfold Store.load
  rw [h.loads]

/-- A law that holds of a table holds of every table that changes make of it, where alike tables share it and the three
changes of a slot keep it. -/
theorem State.Edits.keeps {s : State} {b : Bool} {st v : Store} (P : Store → Prop) (h : s.Edits b st v) (hst : P st)
    (alike : ∀ u v : Store, u.Alike v → P u → P v)
    (move : ∀ (u : Store) i w, s.Edits b st u → P u → s.Moves (u.slotAt i) w → P (u.changeSlot i w))
    (restore : ∀ (u : Store) i r, s.Edits b st u → P u → u.slotAt i = .reserved r →
      P (u.write i (.reserved (stagedCopy s.batch.entries i r))))
    (settle : ∀ (u : Store) i r w, b = true → s.Edits b st u → P u → u.slotAt i = .reserved r →
      w = r.asLive ∨ w = .free → P (u.changeSlot i w)) : P v := by
  induction h with
  | refl => exact hst
  | move i w hu hm ih => exact move _ i w hu ih hm
  | restore i r hu hr ih => exact restore _ i r hu ih hr
  | settle i r w hb hu hr hw ih => exact settle _ i r w hb hu ih hr hw
  | @fixed u i _ _ _ ih => exact alike u _ (.of_eq rfl rfl rfl rfl) ih
  | @ended u _ ih => exact alike u _ (.of_eq rfl rfl rfl rfl) ih
  | @marked u p _ ih => exact alike u _ (.of_eq rfl rfl rfl rfl) ih
  | stamped p n _ ih => exact alike _ _ (Store.alike_setLastTransfer _ p n) ih
  | upset i _ ih => exact alike _ _ (Store.alike_upset _ i) ih

/-! ### The canonical form -/

theorem Store.canonical_edits {s : State} {b : Bool} {st v : Store} (h : s.Edits b st v) (hst : st.canonical) :
    v.canonical := by
  induction h with
  | refl => exact hst
  | move i w _ _ ih => exact Store.canonical_changeSlot ih i w
  | restore i r _ _ ih => exact Store.canonical_write ih i _
  | settle i r w _ _ _ _ ih => exact Store.canonical_changeSlot ih i w
  | fixed i _ _ _ ih => exact Store.canonical_of_eq ih rfl rfl rfl
  | ended _ ih => exact Store.canonical_of_eq ih rfl rfl rfl
  | marked p _ ih => exact Store.canonical_of_eq ih rfl rfl rfl
  | stamped p n _ ih => exact Store.canonical_setLastTransfer ih p n
  | upset i _ ih => exact Store.canonical_upset ih i

/-- Every way to change the table keeps its canonical form. -/
theorem State.Tables.canonical {s t : State} (h : s.Tables t) (hs : s.store.canonical) : t.store.canonical := by
  cases h with
  | edited h | staged _ _ _ _ h => exact Store.canonical_edits h hs
  | cleared h => exact h ▸ Store.canonical_initial
  | inserted args place _ _ _ h => exact h ▸ Store.canonical_enter hs _ _ _ _
  | reserved args place _ _ _ _ _ h => exact h ▸ Store.canonical_enter hs _ _ _ _
  | opened _ h | sealed_ _ _ h | configured _ _ _ _ h => exact h ▸ hs
  | applied u hu h =>
    exact Store.canonical_edits h (applyEntries_canonical (Store.canonical_edits hu hs) _ _ _)
  | aborted h => exact h ▸ Store.canonical_abortBatch hs _

/-! ### The Key Directory (R13) -/

theorem Store.Occupied.alike {u v : Store} (h : u.Alike v) (hu : u.Occupied) : v.Occupied :=
  Store.occupied_of_eq hu h.directory fun i => by rw [h.slots]

/-- A RESERVED slot written RESERVED again keeps the Key Directory exact. -/
theorem Store.Occupied.restore {u : Store} (hu : u.Occupied) {i : Nat} {r : Record} (h : u.slotAt i = .reserved r)
    (r' : Record) : (u.write i (.reserved r')).Occupied :=
  Store.occupied_of_eq hu rfl fun j => by
    rw [Store.slotAt_write]
    split
    next e => simp [e, h]
    · rfl

theorem Store.Occupied.edits {s : State} {b : Bool} {st v : Store} (h : s.Edits b st v) (hst : st.Occupied) :
    v.Occupied :=
  h.keeps _ hst (fun _ _ => Store.Occupied.alike)
    (fun u i w _ hu hm => Store.occupied_changeSlot hu i w hm.ne_free)
    (fun u i r _ hu hr => hu.restore hr _)
    (fun u i r w _ _ hu hr _ => Store.occupied_changeSlot hu i w (by simp [hr]))

/-- An entry placed in a numbered table stands beside the others. -/
theorem Sparse.place_perm {α : Type} (i : Nat) (v : α) (t : List (Nat × α)) :
    (Sparse.place i v t).Perm ((i, v) :: t) := by
  induction t with
  | nil => exact .refl _
  | cons e rest ih =>
    unfold Sparse.place
    split
    · exact .refl _
    · exact (ih.cons e).trans (.swap _ _ _)

/-- No entry of the Key Directory has a key that the search does not find. -/
theorem Store.Occupied.key_ne {st : Store} (h : st.Occupied) {key : Word} (hk : st.slotOfKey key = none) :
    ∀ e ∈ st.directory, e.1 ≠ key.toNat := by
  intro e he hh
  have := Sparse.find?_of_mem st.directory e.1 e.2 h.rising he
  rw [hh] at this
  unfold Store.slotOfKey at hk
  rw [hk] at this
  cases this

/-- A record entered under a new key into a FREE slot keeps the Key Directory exact (R13). -/
theorem Store.Occupied.enter {st : Store} (h : st.Occupied) {frames : Nat} {k k' : RateClass} {a : Allocation}
    (ha : st.allocate frames k = .ok a) {key : Word} (hk : st.slotOfKey key = none) {v : Slot} (hv : v ≠ .free) :
    (st.enter a k' key v).Occupied := by
  obtain ⟨free, inTable⟩ := Store.allocate_free ha
  have dir := st.directory_enter a k' key v
  have mem : ∀ e, e ∈ (st.enter a k' key v).directory ↔ e = (key.toNat, a.slot) ∨ e ∈ st.directory := by
    intro e
    rw [dir, Sparse.mem_insert]
    exact or_congr_right ⟨fun x => x.1, fun x => ⟨x, h.key_ne hk e x⟩⟩
  refine ⟨?_, ?_, fun i => ?_, fun e he => ?_⟩
  · rw [dir]
    exact Sparse.rising_insert _ _ _ h.rising
  · rw [dir]
    refine ((Sparse.place_perm _ _ _).pairwise_iff fun {x y} (hxy : x.2 ≠ y.2) => hxy.symm).2
      (List.pairwise_cons.2 ⟨fun e he hh => ?_, h.distinct.filter _⟩)
    exact (h.exact a.slot).2 ⟨e, (List.mem_filter.1 he).1, hh.symm⟩ free
  · rw [Store.slotAt_enter]
    by_cases hi : i = a.slot
    · simp only [hi, if_pos, ne_eq, hv, not_false_eq_true, true_iff]
      exact ⟨_, (mem _).2 (.inl rfl), rfl⟩
    · rw [if_neg hi, h.exact i]
      constructor
      · rintro ⟨e, he, rfl⟩
        exact ⟨e, (mem e).2 (.inr he), rfl⟩
      · rintro ⟨e, he, rfl⟩
        rcases (mem e).1 he with rfl | he
        · exact absurd rfl hi
        · exact ⟨e, he, rfl⟩
  · rcases (mem e).1 he with rfl | he
    · exact inTable
    · exact h.inTable e he

theorem Store.occupied_initial : Store.initial.Occupied :=
  ⟨rfl, .nil, fun i => by simp [Store.initial, Store.slotAt, Store.cellAt, Sparse.get, Sparse.find?, Cell.empty],
    fun _ he => absurd he List.not_mem_nil⟩

/-- Every way to change the table keeps the Key Directory exact. -/
theorem State.Tables.occupied {s t : State} (h : s.Tables t) (hs : s.store.Occupied) : t.store.Occupied := by
  cases h with
  | edited h | staged _ _ _ _ h => exact hs.edits h
  | cleared h => exact h ▸ Store.occupied_initial
  | inserted args place _ hk ha h => exact h ▸ hs.enter ha hk (by simp [Record.asLive])
  | reserved args place _ _ _ hk ha h => exact h ▸ hs.enter ha hk (by simp)
  | opened _ h | sealed_ _ _ h | configured _ _ _ _ h => exact h ▸ hs
  | applied u hu h => exact ((hs.edits hu).edits (s.edits_applyEntries u)).edits h
  | aborted h => exact h ▸ hs.edits (s.edits_abortBatch s.store)

/-! ### Class, phase and load counters (R24, R26, R30) -/

theorem Store.Planned.alike {u v : Store} (h : u.Alike v) (hu : u.Planned) : v.Planned := by
  have promised : ∀ i, v.promised i = u.promised i := fun i => by
    funext p
    unfold Store.promised
    rw [h.scheduled, h.schedules]
  exact ⟨h.loads ▸ hu.counters, fun p => by rw [h.schedules, h.scheduled]; exact hu.schedules p,
    fun i hi => by rw [promised, h.load]; exact hu.loads i hi, fun i hi => by rw [h.slots]; exact hu.inTable i hi⟩

/-- A RESERVED slot written RESERVED again leaves the pages' states. -/
theorem Store.pageState_restore {u : Store} {i : Nat} {r : Record} (h : u.slotAt i = .reserved r) (r' : Record)
    (p : Nat) : (u.write i (.reserved r')).pageState p = u.pageState p := by
  have kind : ∀ j, ((u.write i (.reserved r')).slotAt j).emittable = (u.slotAt j).emittable ∧
      ((u.write i (.reserved r')).slotAt j).isReserved = (u.slotAt j).isReserved ∧
      ((u.write i (.reserved r')).slotAt j).isFree = (u.slotAt j).isFree := by
    intro j
    rw [Store.slotAt_write]
    split
    next e => rw [e, h]; exact ⟨rfl, rfl, rfl⟩
    · exact ⟨rfl, rfl, rfl⟩
  have any : ∀ f : Slot → Bool, (∀ j, f ((u.write i (.reserved r')).slotAt j) = f (u.slotAt j)) →
      ((u.write i (.reserved r')).pageSlots p).map f = (u.pageSlots p).map f := by
    intro f hf
    unfold Store.pageSlots
    rw [List.map_map, List.map_map]
    exact List.map_congr_left fun k _ => hf _
  have e1 := any _ fun j => (kind j).1
  have e2 := any _ fun j => (kind j).2.1
  have e3 := any _ fun j => (kind j).2.2
  unfold Store.pageState
  dsimp only
  have anyMap : ∀ (l : List Slot) (f : Slot → Bool), l.any f = (l.map f).any id := fun l f => by simp
  have allMap : ∀ (l : List Slot) (f : Slot → Bool), l.all f = (l.map f).all id := fun l f => by simp
  rw [anyMap, anyMap, allMap, e1, e2, e3, ← anyMap, ← anyMap, ← allMap]

theorem Store.Planned.restore {u : Store} (hu : u.Planned) {i : Nat} {r : Record} (h : u.slotAt i = .reserved r)
    (r' : Record) : (u.write i (.reserved r')).Planned := by
  have sched : ∀ p, (u.write i (.reserved r')).scheduled p = u.scheduled p := fun p => by
    unfold Store.scheduled
    rw [Store.pageState_restore h]
  have promised : ∀ n, (u.write i (.reserved r')).promised n = u.promised n := fun n => by
    funext p
    unfold Store.promised
    rw [sched]
    rfl
  refine ⟨hu.counters, fun p => by rw [sched]; exact hu.schedules p,
    fun n hn => by rw [promised]; exact hu.loads n hn, fun j hj => ?_⟩
  rw [Store.slotAt_write]
  split
  next e =>
    have := hu.inTable j hj
    rw [e, h] at this
    cases this
  · exact hu.inTable j hj

/-- A change of a slot that is neither FREE nor RESERVED makes it count for its page only where it did (R26). -/
theorem State.Moves.counts {s : State} {v w : Slot} (h : s.Moves v w)
    (hw : w.emittable = true ∨ w.isReserved = true) : v.emittable = true ∨ v.isReserved = true := by
  cases h with
  | damaged | freed | lapsed => simp [Slot.emittable, Slot.isReserved] at hw
  | amended | expired | retired | counted | noticed => exact .inl rfl

theorem Store.Planned.edits {s : State} {b : Bool} {st v : Store} (h : s.Edits b st v) (hst : st.Planned) :
    v.Planned :=
  h.keeps _ hst (fun _ _ => Store.Planned.alike)
    (fun u i w _ hu hm => Store.planned_changeSlot hu i w hm.ne_free hm.counts)
    (fun u i r _ hu hr => hu.restore hr _)
    (fun u i r w _ _ hu hr _ => Store.planned_changeSlot hu i w (by simp [hr]) fun _ => .inr (by rw [hr]; rfl))

/-- A load counter after a schedule's counters are raised. -/
theorem Store.load_addLoad (st : Store) (sc : Schedule) (i : Nat) (hi : i < 16) :
    (st.addLoad sc).load i = st.load i + (sc.dueAt i).toNat := by
  have h : (st.addLoad sc).load i = if sc.dueAt i then st.load i + 1 else st.load i := by
    simp [Store.addLoad, cycleIndices, Config.indexCount, Store.load, hi]
  rw [h]
  cases sc.dueAt i <;> rfl

/-- The load counters after a record is entered (R30). -/
theorem Store.load_enter (st : Store) (a : Allocation) (k : RateClass) (key : Word) (v : Slot) (i : Nat)
    (hi : i < 16) : (st.enter a k key v).load i = match a.opened with
      | some phase => st.load i + (Schedule.dueAt ⟨k, phase⟩ i).toNat
      | none => st.load i := by
  unfold Store.enter
  cases a.opened with
  | none => rfl
  | some phase => exact st.load_addLoad ⟨k, phase⟩ i hi

/-- An allocation is of a page of the table. -/
theorem Store.allocate_page_lt {st : Store} {frames : Nat} {k : RateClass} {a : Allocation}
    (h : st.allocate frames k = .ok a) : a.page < Config.pageCount := by
  have hs := (Store.allocate_free h).2
  have hp := (Store.allocate_page h).1
  simp only [Config.slotCount, Config.slotsPerPage, Config.pageCount] at *
  omega

/-- A record entered where its allocation places it keeps class, phase and load counters (R27, R30). -/
theorem Store.Planned.enter {st : Store} (h : st.Planned) {frames : Nat} {k : RateClass} {a : Allocation}
    (ha : st.allocate frames k = .ok a) (key : Word) {v : Slot} (hv : v.emittable = true ∨ v.isReserved = true) :
    (st.enter a k key v).Planned := by
  obtain ⟨-, inTable⟩ := Store.allocate_free ha
  obtain ⟨slot, joined, opened⟩ := Store.allocate_page ha
  have page := Store.allocate_page_lt ha
  have schedPage : (st.enter a k key v).scheduled a.page = true := by
    rw [Store.scheduled_iff]
    refine ⟨a.slot % Config.slotsPerPage, Nat.mod_lt _ (by decide), ?_⟩
    have : slotIndex a.page (a.slot % Config.slotsPerPage) = a.slot := by
      rw [← slot]
      simp only [slotIndex, Config.slotsPerPage]
      omega
    rw [this, Store.slotAt_enter, if_pos rfl]
    exact hv
  have schedNe : ∀ q, q ≠ a.page → (st.enter a k key v).scheduled q = st.scheduled q := by
    intro q hq
    unfold Store.scheduled
    rw [Store.pageState_congr q fun n hn => ?_]
    rw [Store.slotAt_enter, if_neg]
    intro e
    exact hq (by rw [← slotIndex_div q n hn, e, slot])
  have free : ∀ i, Config.slotCount ≤ i → (st.enter a k key v).slotAt i = .free := by
    intro i hi
    rw [Store.slotAt_enter, if_neg (by omega)]
    exact h.inTable i hi
  cases ho : a.opened with
  | none =>
    obtain ⟨sched, sc, hsc, -⟩ := joined ho
    have pages : (st.enter a k key v).pages = st.pages ∧ (st.enter a k key v).loads = st.loads := by
      unfold Store.enter
      rw [ho]
      exact ⟨rfl, rfl⟩
    have pageAt : ∀ q, (st.enter a k key v).pageAt q = st.pageAt q := fun q => by unfold Store.pageAt; rw [pages.1]
    have all : ∀ q, (st.enter a k key v).scheduled q = st.scheduled q := by
      intro q
      by_cases hq : q = a.page
      · rw [hq, schedPage, sched]
      · exact schedNe q hq
    have promised : ∀ n, (st.enter a k key v).promised n = st.promised n := fun n => by
      funext q
      unfold Store.promised
      rw [all, pageAt]
    exact ⟨pages.2 ▸ h.counters, fun q => by rw [pageAt, all]; exact h.schedules q,
      fun n hn => by unfold Store.load; rw [promised, pages.2]; exact h.loads n hn, free⟩
  | some phase =>
    have unsched := opened (by rw [ho]; simp)
    have pageAt : ∀ q, (st.enter a k key v).pageAt q = if q = a.page then ⟨some ⟨k, phase⟩, none⟩ else st.pageAt q := by
      intro q
      rw [Store.pageAt_enter, ho]
    refine ⟨?_, fun q => ?_, fun n hn => ?_, free⟩
    · unfold Store.enter
      rw [ho]
      simp [Store.openPage, Store.addLoad, cycleIndices]
    · rw [pageAt]
      by_cases hq : q = a.page
      · rw [if_pos hq, hq, schedPage]
        rfl
      · rw [if_neg hq, schedNe q hq]
        exact h.schedules q
    · have agree : ∀ q, q ≠ a.page → (st.enter a k key v).promised n q = st.promised n q := by
        intro q hq
        unfold Store.promised
        rw [schedNe q hq, pageAt, if_neg hq]
      have before : st.promised n a.page = false := by
        unfold Store.promised
        rw [unsched]
        rfl
      have now : (st.enter a k key v).promised n a.page = Schedule.dueAt ⟨k, phase⟩ n := by
        unfold Store.promised
        rw [schedPage, pageAt, if_pos rfl]
        rfl
      have count := length_filter_update nodup_pageIndices a.page ((mem_pageIndices _).2 page) _ _ agree
      rw [before, now] at count
      have load := st.load_enter a k key v n hn
      rw [ho] at load
      rw [load, h.loads n hn]
      simpa using count.symm

theorem Store.load_initial (i : Nat) : Store.initial.load i = 0 := by
  unfold Store.load Store.initial
  dsimp only
  rw [List.getD_eq_getElem?_getD, List.getElem?_replicate]
  split <;> rfl

theorem Store.planned_initial : Store.initial.Planned := by
  have slot : ∀ i, Store.initial.slotAt i = .free := fun i => rfl
  have sched : ∀ p, Store.initial.scheduled p = false := by
    intro p
    rw [Bool.eq_false_iff, ne_eq, Store.scheduled_iff]
    rintro ⟨k, -, h⟩
    simp [slot, Slot.emittable, Slot.isReserved] at h
  refine ⟨rfl, fun p => by rw [sched]; rfl, fun i hi => ?_, fun i _ => slot i⟩
  have : Store.initial.promised i = fun _ => false := by
    funext p
    unfold Store.promised
    rw [sched]
    rfl
  rw [this, List.filter_false]
  exact Store.load_initial i

/-- Every way to change the table keeps class, phase and load counters. -/
theorem State.Tables.planned {s t : State} (h : s.Tables t) (hs : s.store.Planned) : t.store.Planned := by
  cases h with
  | edited h | staged _ _ _ _ h => exact hs.edits h
  | cleared h => exact h ▸ Store.planned_initial
  | inserted args place _ _ ha h => exact h ▸ hs.enter ha _ (.inl rfl)
  | reserved args place _ _ _ _ ha h => exact h ▸ hs.enter ha _ (.inr rfl)
  | opened _ h | sealed_ _ _ h | configured _ _ _ _ h => exact h ▸ hs
  | applied u hu h => exact ((hs.edits hu).edits (s.edits_applyEntries u)).edits h
  | aborted h => exact h ▸ hs.edits (s.edits_abortBatch s.store)

end Sys2Proof.Machine
end

section
/-! The laws of the due list, of the load bound, of the batch and of the records under the changes of the table (O55, O56,
O59). -/

namespace Sys2Proof.Machine

/-! ### The due list names OPEN pages (R40, R43) -/

theorem Store.Struck.alike {u v : Store} (h : u.Alike v) (hd : v.due = u.due) (hu : u.Struck) : v.Struck := by
  intro e he ht
  rw [h.pageState]
  exact hu e (hd ▸ he) ht

theorem Store.struck_fixDue (u : Store) (i : Nat) : (u.fixDue i).Struck := by
  intro e he _
  have open_ : ∀ p, (u.fixDue i).pageState p = u.pageState p := fun p => Store.pageState_congr p fun _ _ => rfl
  rw [open_]
  unfold Store.fixDue at he
  simp only [List.mem_flatMap, List.mem_map, List.mem_filter] at he
  obtain ⟨k, -, p, ⟨-, hp⟩, rfl⟩ := he
  unfold Store.carriedAt at hp
  split at hp
  · simp only [Bool.and_eq_true, decide_eq_true_eq] at hp
    exact hp.2
  · cases hp

theorem Store.Struck.edits {s : State} {b : Bool} {st v : Store} (h : s.Edits b st v) (hst : st.Struck) :
    v.Struck := by
  induction h with
  | refl => exact hst
  | move i w _ _ ih => exact ih.changeSlot i w
  | restore i r _ hr ih =>
    intro e he ht
    rw [Store.pageState_restore hr]
    exact ih e he ht
  | settle i r w _ _ _ _ ih => exact ih.changeSlot i w
  | fixed i _ _ _ _ => exact Store.struck_fixDue _ i
  | ended _ _ => exact fun _ he => absurd he List.not_mem_nil
  | @marked u p _ ih =>
    intro e he ht
    have hp : (u.markTransferred p).pageState e.page = u.pageState e.page := Store.pageState_congr _ fun _ _ => rfl
    obtain ⟨x, hx, rfl⟩ := List.mem_map.1 he
    rw [hp]
    split at ht
    · cases ht
    next hne =>
      rw [if_neg hne]
      exact ih x hx ht
  | stamped p n _ ih => exact ih.alike (Store.alike_setLastTransfer _ p n) rfl
  | upset i _ ih => exact ih.alike (Store.alike_upset _ i) (by unfold Store.upset; split <;> rfl)

theorem Store.struck_initial : Store.initial.Struck := fun _ he => absurd he List.not_mem_nil

theorem State.Tables.struck {s t : State} (h : s.Tables t) (hs : s.store.Struck) : t.store.Struck := by
  cases h with
  | edited h | staged _ _ _ _ h => exact hs.edits h
  | cleared h => exact h ▸ Store.struck_initial
  | inserted args place _ _ ha h => exact h ▸ hs.enter (Store.allocate_free ha).1 _ _ _
  | reserved args place _ _ _ _ ha h => exact h ▸ hs.enter (Store.allocate_free ha).1 _ _ _
  | opened _ h | sealed_ _ _ h | configured _ _ _ _ h => exact h ▸ hs
  | applied u hu h => exact ((hs.edits hu).edits (s.edits_applyEntries u)).edits h
  | aborted h => exact h ▸ hs.edits (s.edits_abortBatch s.store)

/-! ### The staged copies of RESERVED slots (R79) -/

/-- The staged copy found for a RESERVED slot is its record: its entry holds it, and no other entry reserved the slot. -/
theorem State.Staged.stagedCopy_eq {s : State} (h : s.Staged) {i : Nat} {r : Record}
    (hr : s.store.slotAt i = .reserved r) : stagedCopy s.batch.entries i r = r := by
  suffices ∀ l : List BatchEntry, (∀ e ∈ l, ∀ copy, e.op = .insert copy → e.slot = i → copy = r) →
      stagedCopy l i r = r by
    refine this _ fun e he copy hop hs => ?_
    have := (h.copies e he copy hop).1
    rw [hs, hr] at this
    exact (Slot.reserved.inj this).symm
  intro l
  induction l with
  | nil => exact fun _ => rfl
  | cons e l ih =>
    intro hl
    have ih := ih fun x hx => hl x (List.mem_cons_of_mem _ hx)
    unfold stagedCopy
    split
    next copy hop =>
      split
      next hs => exact hl e List.mem_cons_self copy hop hs
      · exact ih
    · exact ih
    · exact ih

/-- A RESERVED slot of a table that changes made was RESERVED with the same record before. -/
theorem State.Edits.reserved_origin {s : State} (hs : s.Staged) {b : Bool} {v : Store} (h : s.Edits b s.store v) :
    ∀ i r, v.slotAt i = .reserved r → s.store.slotAt i = .reserved r := by
  refine h.keeps (fun v => ∀ i r, v.slotAt i = .reserved r → s.store.slotAt i = .reserved r) (fun _ _ h => h)
    (fun u v ha ih i r hr => ih i r (by rwa [← ha.slots])) (fun u i w _ ih hm j r hr => ?_)
    (fun u i r0 _ ih h0 j r hr => ?_) (fun u i r0 w _ _ ih h0 hw j r hr => ?_)
  · rw [Store.slotAt_changeSlot] at hr
    split at hr
    · have := hm.not_reserved.2
      rw [hr] at this
      cases this
    · exact ih j r hr
  · rw [Store.slotAt_write] at hr
    split at hr
    next e =>
      rw [hs.stagedCopy_eq (ih i r0 h0)] at hr
      rw [e, ← hr]
      exact ih i r0 h0
    · exact ih j r hr
  · rw [Store.slotAt_changeSlot] at hr
    split at hr
    · rcases hw with rfl | rfl <;> cases hr
    · exact ih j r hr

/-- Changes that leave RESERVED slots alone keep each with its record. -/
theorem State.Edits.reserved_iff {s : State} (hs : s.Staged) {v : Store} (h : s.Edits false s.store v) (i : Nat)
    (r : Record) : v.slotAt i = .reserved r ↔ s.store.slotAt i = .reserved r := by
  refine ⟨h.reserved_origin hs i r, fun hr => ?_⟩
  refine h.keeps (fun v => v.slotAt i = .reserved r) hr (fun u v ha ih => by rwa [ha.slots])
    (fun u j w _ ih hm => ?_) (fun u j r0 _ ih h0 => ?_) (fun u j r0 w hb => by cases hb)
  · rw [Store.slotAt_changeSlot, if_neg]
    · exact ih
    · intro e
      have := hm.not_reserved.1
      rw [← e, ih] at this
      cases this
  · rw [Store.slotAt_write]
    split
    next e =>
      rw [← e, ih] at h0
      cases h0
      rw [← e, hs.stagedCopy_eq hr]
    · exact ih

/-- Changes make no slot RESERVED. -/
theorem State.Edits.no_reserved {s : State} {b : Bool} {st v : Store} (h : s.Edits b st v)
    (hst : ∀ i r, st.slotAt i ≠ .reserved r) : ∀ i r, v.slotAt i ≠ .reserved r := by
  refine h.keeps (fun v => ∀ i r, v.slotAt i ≠ .reserved r) hst (fun u v ha ih i r => by rw [ha.slots]; exact ih i r)
    (fun u i w _ ih hm j r => ?_) (fun u i r0 _ ih h0 => absurd h0 (ih i r0))
    (fun u i r0 w _ _ ih h0 => absurd h0 (ih i r0))
  rw [Store.slotAt_changeSlot]
  split
  · intro e
    have := hm.not_reserved.2
    rw [e] at this
    cases this
  · exact ih j r

/-! ### The class condition (R26) -/

theorem State.Amends.kept {s : State} {r r' : Record} {m m' : Option Nat} (h : s.Amends r m r' m') :
    r'.cls = r.cls ∧ r'.key = r.key := by
  cases h with
  | none | amended | renewed | counted | noticed => exact ⟨rfl, rfl⟩
  | echoed => unfold Record.echoed; split <;> exact ⟨rfl, rfl⟩

/-- A change of a slot keeps the class of a record that counts for its page. -/
theorem State.Moves.cls {s : State} {v w : Slot} (h : s.Moves v w) (r : Record) (hr : w.scheduled? = some r) :
    ∃ r', v.scheduled? = some r' ∧ r'.cls = r.cls := by
  cases h with
  | damaged | freed | lapsed => cases hr
  | amended g g' ha => cases hr; exact ⟨_, rfl, ha.kept.1.symm⟩
  | expired | retired | counted | noticed => cases hr; exact ⟨_, rfl, rfl⟩

theorem Store.Classed.alike {u v : Store} (h : u.Alike v) (hu : u.Classed) : v.Classed := by
  intro i r hr
  rw [h.slots] at hr
  rw [h.schedules]
  exact hu i r hr

theorem Store.Classed.edits {s : State} (hs : s.Staged) {b : Bool} {v : Store} (h : s.Edits b s.store v)
    (hst : s.store.Classed) : v.Classed :=
  h.keeps _ hst (fun _ _ => Store.Classed.alike) (fun u i w _ hu hm => hu.changeSlot i w hm.cls)
    (fun u i r he hu hr j r' hj => by
      rw [Store.slotAt_write] at hj
      split at hj
      next e =>
        rw [hs.stagedCopy_eq (he.reserved_origin hs i r hr)] at hj
        exact hu j r' (by rw [e, hr]; exact hj)
      · exact hu j r' hj)
    (fun u i r w _ _ hu hr hw => hu.changeSlot i w fun r' hr' => by
      rcases hw with rfl | rfl
      · cases hr'
        exact ⟨r, by rw [hr]; rfl, rfl⟩
      · cases hr')

theorem State.Tables.classed {s t : State} (h : s.Tables t) (hs : s.Staged) (hc : s.store.Classed) :
    t.store.Classed := by
  cases h with
  | edited h | staged _ _ _ _ h => exact hc.edits hs h
  | cleared h =>
    intro i r hr
    rw [h] at hr
    cases hr
  | inserted args place _ _ ha h => exact h ▸ hc.enter ha _ _ fun r hr => by cases hr; rfl
  | reserved args place _ _ _ _ ha h => exact h ▸ hc.enter ha _ _ fun r hr => by cases hr; rfl
  | opened _ h | sealed_ _ _ h | configured _ _ _ _ h => exact h ▸ hc
  | applied u hu h => exact hc.edits hs ((hu.settling.trans (s.edits_applyEntries u)).trans h.settling)
  | aborted h => exact h ▸ hc.edits hs (s.edits_abortBatch s.store)

/-! ### The load bound (R30, R33, R35) -/

theorem Store.load_changeSlot_le (st : Store) (i : Nat) (v : Slot) (n : Nat) :
    (st.changeSlot i v).load n ≤ st.load n := by
  obtain ⟨x, form, -, -, loads, -⟩ := st.changeSlot_form i v
  have hx : x.load n = st.load n := by unfold Store.load; rw [loads]
  have closed : ∀ p, (x.closePage p).load n ≤ x.load n := by
    intro p
    unfold Store.closePage
    split
    · exact le_rfl
    next sc _ =>
      show (x.removeLoad sc).load n ≤ _
      by_cases hn : n < 16
      · rw [x.load_removeLoad sc n hn]
        omega
      · have : (x.removeLoad sc).load n = 0 := by
          simp [Store.removeLoad, cycleIndices, Config.indexCount, Store.load, hn]
        omega
  rw [form, ← hx]
  unfold Store.replan
  split
  · exact le_rfl
  · exact le_rfl
  all_goals exact closed _

theorem State.Edits.load_le {s : State} {b : Bool} {st v : Store} (h : s.Edits b st v) (n : Nat) :
    v.load n ≤ st.load n :=
  h.keeps (fun v => v.load n ≤ st.load n) le_rfl (fun u v ha ih => by rwa [ha.load])
    (fun u i w _ ih _ => (u.load_changeSlot_le i w n).trans ih) (fun u i r _ ih _ => ih)
    (fun u i r w _ _ ih _ _ => (u.load_changeSlot_le i w n).trans ih)

/-- Each value of a run is at most the largest of them. -/
theorem le_foldl_max {β : Type} (f : β → Nat) (l : List β) : ∀ a, a ≤ l.foldl (fun m x => max m (f x)) a ∧
    ∀ x ∈ l, f x ≤ l.foldl (fun m x => max m (f x)) a := by
  induction l with
  | nil => simp
  | cons y l ih =>
    intro a
    obtain ⟨h1, h2⟩ := ih (max a (f y))
    rw [List.foldl_cons]
    refine ⟨(le_max_left _ _).trans h1, fun x hx => ?_⟩
    rcases List.mem_cons.1 hx with rfl | hx
    · exact (le_max_right _ _).trans h1
    · exact h2 x hx

theorem Store.load_le_maxLoad (st : Store) (n : Nat) : st.load n ≤ st.maxLoad := by
  unfold Store.load
  rw [List.getD_eq_getElem?_getD]
  cases h : st.loads[n]? with
  | none => exact Nat.zero_le _
  | some x => exact (le_foldl_max id st.loads 0).2 x (List.mem_of_getElem? h)

theorem Store.load_le_worstLoad (st : Store) (period phase i : Nat) (hi : i < 16) (h : i % period = phase) :
    st.load i ≤ st.worstLoad period phase :=
  (le_foldl_max st.load _ 0).2 i (List.mem_filter.2 ⟨List.mem_range.2 hi, by simpa using h⟩)

/-- A page is opened only in a phase whose counters are all below the frame budget (R33). -/
theorem Store.worstLoad_lt_of_opened {st : Store} {frames : Nat} {k : RateClass} {a : Allocation}
    (h : st.allocate frames k = .ok a) {phase : Nat} (ho : a.opened = some phase) :
    phase = st.choosePhase k ∧ st.worstLoad k.period phase < frames := by
  unfold Store.allocate at h
  split at h
  · cases h; cases ho
  · split at h
    · cases h
    · dsimp only at h
      split at h
      · cases h
      next hw =>
        cases h
        cases ho
        exact ⟨rfl, by omega⟩

theorem Store.load_enter_le {st : Store} {frames : Nat} {k : RateClass} {a : Allocation}
    (ha : st.allocate frames k = .ok a) (h : ∀ i, st.load i ≤ frames) (key : Word) (v : Slot) (i : Nat) :
    (st.enter a k key v).load i ≤ frames := by
  by_cases hi : i < 16
  · rw [Store.load_enter _ _ _ _ _ _ hi]
    cases ho : a.opened with
    | none => exact h i
    | some phase =>
      have hw := (Store.worstLoad_lt_of_opened ha ho).2
      dsimp only
      by_cases hd : Schedule.dueAt ⟨k, phase⟩ i = true
      · have := st.load_le_worstLoad k.period phase i hi (by simpa [Schedule.dueAt] using hd)
        rw [hd, Bool.toNat_true]
        omega
      · rw [Bool.eq_false_iff.2 hd]
        exact h i
  · unfold Store.enter
    cases a.opened with
    | none => exact h i
    | some phase =>
      have : (st.addLoad ⟨k, phase⟩).load i = 0 := by
        simp [Store.addLoad, cycleIndices, Config.indexCount, Store.load, hi]
      show (st.addLoad ⟨k, phase⟩).load i ≤ frames
      omega

/-- Every way to change the table and the configuration keeps the load counters at or below the frame budget. -/
theorem State.Tables.loads_le {s t : State} (h : s.Tables t) (hs : ∀ i, s.store.load i ≤ s.port.config.frames) :
    ∀ i, t.store.load i ≤ t.port.config.frames := by
  intro i
  cases h with
  | edited h _ hc | staged _ _ _ _ h _ hc => exact hc ▸ (h.load_le i).trans (hs i)
  | cleared h _ hc =>
    rw [h, Store.load_initial]
    exact Nat.zero_le _
  | inserted args place _ _ ha h _ hc => exact hc ▸ h ▸ Store.load_enter_le ha hs _ _ i
  | reserved args place _ _ _ _ ha h _ hc => exact hc ▸ h ▸ Store.load_enter_le ha hs _ _ i
  | opened _ h _ hc | sealed_ _ _ h _ hc => exact hc ▸ h ▸ hs i
  | configured c _ _ hl h _ hc => exact hc ▸ h ▸ (s.store.load_le_maxLoad i).trans hl
  | applied u hu h _ hc =>
    exact hc ▸ (((h.load_le i).trans ((s.edits_applyEntries u).load_le i)).trans (hu.load_le i)).trans (hs i)
  | aborted h _ hc => exact hc ▸ h ▸ ((s.edits_abortBatch s.store).load_le i).trans (hs i)

/-! ### The length of the due list (R30, R40) -/

/-- The due list of a cycle index has at most as many entries as its load counter counts pages: each OPEN page that is due
stands under the one class it has. -/
theorem Store.length_fixDue_le (st : Store) (i : Nat) :
    (st.fixDue i).due.length ≤ (pageIndices.filter (st.promised i)).length := by
  have one : ∀ p, (st.carriedAt i .p1 p).toNat + ((st.carriedAt i .p2 p).toNat + ((st.carriedAt i .p4 p).toNat +
      ((st.carriedAt i .p8 p).toNat + (st.carriedAt i .p16 p).toNat))) ≤ (st.promised i p).toNat := by
    intro p
    unfold Store.carriedAt Store.promised Store.scheduled
    cases (st.pageAt p).schedule with
    | none => simp
    | some sc =>
      cases hd : sc.dueAt i
      · simp [hd]
      · cases hc : sc.cls <;> cases st.pageState p <;> simp [hd, hc]
  suffices ∀ l : List Nat, (l.filter (st.carriedAt i .p1)).length + ((l.filter (st.carriedAt i .p2)).length +
      ((l.filter (st.carriedAt i .p4)).length + ((l.filter (st.carriedAt i .p8)).length +
        (l.filter (st.carriedAt i .p16)).length))) ≤ (l.filter (st.promised i)).length by
    simpa [Store.fixDue] using this pageIndices
  have count : ∀ (f : Nat → Bool) (p : Nat) (l : List Nat),
      ((p :: l).filter f).length = (f p).toNat + (l.filter f).length := by
    intro f p l
    cases hf : f p <;> simp [hf, Nat.add_comm]
  intro l
  induction l with
  | nil => simp
  | cons p l ih =>
    have := one p
    simp only [count]
    omega

theorem Store.length_due_changeSlot_le (st : Store) (i : Nat) (v : Slot) :
    (st.changeSlot i v).due.length ≤ st.due.length := by
  have hr := st.replanned_changeSlot i v
  by_cases ho : (st.changeSlot i v).pageState (i / Config.slotsPerPage) = .open_
  · rw [hr.stays ho]
  · rw [hr.struck ho]
    exact List.length_filter_le _ _

/-- Changes keep the due list within a bound that the load counters keep. -/
theorem State.Edits.due_le {s : State} {b : Bool} {st v : Store} (h : s.Edits b st v) (hp : st.Planned) {n : Nat}
    (hl : ∀ i, st.load i ≤ n) (hd : st.due.length ≤ n) : v.due.length ≤ n := by
  induction h with
  | refl => exact hd
  | move i w _ _ ih => exact (Store.length_due_changeSlot_le _ i w).trans ih
  | restore i r _ _ ih => exact ih
  | settle i r w _ _ _ _ ih => exact (Store.length_due_changeSlot_le _ i w).trans ih
  | @fixed u i hi _ hu _ =>
    have := (hp.edits hu).loads i hi
    have := hu.load_le i
    have := hl i
    have := u.length_fixDue_le i
    omega
  | ended => exact Nat.zero_le _
  | marked p _ ih => simpa [Store.markTransferred] using ih
  | stamped p n _ ih => exact ih
  | upset i _ ih => unfold Store.upset; split <;> exact ih

/-- While a request other than STOP SCAN is in its access and the scan is STOPPED, the timer does not run (R101). -/
theorem State.AtRest.not_running {s : State} (h : s.AtRest) {r : Request} (hr : s.heldAccess = some r)
    (hne : r ≠ .stopScan) (hs : s.scan.state = .stopped) : s.timer.running = false := by
  by_contra hrun
  have := (h.access hs (by simpa using hrun)).2
  rw [((s.heldAccess_eq_some r).1 hr).2.2] at this
  exact hne (Option.some.inj this)

theorem State.Tables.budgeted {s t : State} (h : s.Tables t) (hp : s.store.Planned) (hr : s.AtRest)
    (hs : s.Budgeted) : t.Budgeted := by
  refine ⟨h.loads_le hs.loads, ?_⟩
  cases h with
  | edited h _ hc | staged _ _ _ _ h _ hc => exact hc ▸ h.due_le hp hs.loads hs.due
  | cleared h => rw [h]; exact Nat.zero_le _
  | inserted args place _ _ ha h _ hc => rw [hc, h, Store.due_enter]; exact hs.due
  | reserved args place _ _ _ _ ha h _ hc => rw [hc, h, Store.due_enter]; exact hs.due
  | opened _ h _ hc | sealed_ _ _ h _ hc => exact hc ▸ h ▸ hs.due
  | configured c hq hst hl h =>
    rw [h, hr.due hst (hr.not_running hq (by simp) hst)]
    exact Nat.zero_le _
  | applied u hu h _ hc =>
    exact hc ▸ ((hu.settling.trans (s.edits_applyEntries u)).trans h.settling).due_le hp hs.loads hs.due
  | aborted h _ hc => exact hc ▸ h ▸ (s.edits_abortBatch s.store).due_le hp hs.loads hs.due

end Sys2Proof.Machine
end

section
/-! The laws of the records, of the batch and of the withdrawal counts under the changes of the table (O55, O59). -/

namespace Sys2Proof.Machine

/-! ### The batch (R80) -/

theorem BatchUnit.stagingRefusal_eq_none {b : BatchUnit} {key : Word} (h : b.stagingRefusal key = none) :
    (∀ e ∈ b.entries, e.key ≠ key) ∧ b.entries.length < Config.batchLimit := by
  unfold BatchUnit.stagingRefusal at h
  split at h
  · cases h
  next hk =>
    split at h
    · cases h
    next hl => exact ⟨by simpa using hk, by omega⟩

theorem BatchUnit.Bounded.stage {b : BatchUnit} (h : b.Bounded) {e : BatchEntry} (ho : b.state = .open_)
    (hf : b.stagingRefusal e.key = none) : (b.stage e).Bounded := by
  obtain ⟨hk, hl⟩ := BatchUnit.stagingRefusal_eq_none hf
  refine ⟨?_, ?_, fun hn => ?_⟩
  · simpa [BatchUnit.stage] using hl
  · exact List.pairwise_append.2 ⟨h.distinct, List.pairwise_singleton _ _, fun x hx y hy => by
      rw [List.mem_singleton.1 hy]
      exact hk x hx⟩
  · have hn : b.state = .none := hn
    rw [ho] at hn
    cases hn

theorem BatchUnit.bounded_empty (state : BatchState) : (BatchUnit.mk state []).Bounded :=
  ⟨Nat.zero_le _, .nil, fun _ => rfl⟩

theorem State.Tables.bounded {s t : State} (h : s.Tables t) (hs : s.batch.Bounded) : t.batch.Bounded := by
  cases h with
  | edited _ hb | inserted _ _ _ _ _ _ hb | configured _ _ _ _ _ hb => exact hb ▸ hs
  | cleared _ hb | applied _ _ _ hb | aborted _ hb | opened _ _ hb => exact hb ▸ BatchUnit.bounded_empty _
  | reserved args place _ ho hf _ _ _ hb => exact hb ▸ hs.stage ho hf
  | staged e ho hf _ _ hb => exact hb ▸ hs.stage ho hf
  | sealed_ _ _ _ hb => exact hb ▸ ⟨hs.few, hs.distinct, fun hn => by cases hn⟩

/-! ### The withdrawal counts (R73) -/

/-- Every withdrawal count of a table lies between 1 and `w`. -/
def Store.CountedBy (w : Nat) (st : Store) : Prop := ∀ i r c n, st.slotAt i = .withdrawing r c n → 1 ≤ n ∧ n ≤ w

theorem Store.CountedBy.changeSlot {w : Nat} {st : Store} (h : st.CountedBy w) (i : Nat) (v : Slot)
    (hv : ∀ r c n, v = .withdrawing r c n → 1 ≤ n ∧ n ≤ w) : (st.changeSlot i v).CountedBy w := by
  intro j r c n hj
  rw [Store.slotAt_changeSlot] at hj
  split at hj
  · exact hv r c n hj
  · exact h j r c n hj

theorem Store.CountedBy.enter {w : Nat} {st : Store} (h : st.CountedBy w) (a : Allocation) (k : RateClass) (key : Word)
    {v : Slot} (hv : ∀ r c n, v ≠ .withdrawing r c n) : (st.enter a k key v).CountedBy w := by
  intro j r c n hj
  rw [Store.slotAt_enter] at hj
  split at hj
  · exact absurd hj (hv r c n)
  · exact h j r c n hj

theorem Store.CountedBy.edits {s : State} (hw : 1 ≤ s.port.config.withdrawals) {b : Bool} {st v : Store}
    (h : s.Edits b st v) (hst : st.CountedBy s.port.config.withdrawals) : v.CountedBy s.port.config.withdrawals := by
  refine h.keeps _ hst (fun u v ha hu i r c n hi => hu i r c n (by rwa [← ha.slots])) (fun u i w _ hu hm => ?_)
    (fun u i r _ hu hr j r' c n hj => ?_) (fun u i r w _ _ hu _ hw' => ?_)
  · refine hu.changeSlot i w fun r c n hwn => ?_
    subst hwn
    generalize hv : u.slotAt i = v at hm
    cases hm with
    | expired | retired => exact ⟨hw, le_rfl⟩
    | counted _ _ m hm => exact ⟨by omega, by have := (hu i _ _ _ hv).2; omega⟩
    | noticed => exact hu i _ _ _ hv
  · rw [Store.slotAt_write] at hj
    split at hj
    · cases hj
    · exact hu j r' c n hj
  · refine hu.changeSlot i w fun r' c n hwn => ?_
    rcases hw' with rfl | rfl <;> cases hwn

/-- Every way to change the table and the configuration keeps the withdrawal counts between 1 and W: W changes only while
the scan is at rest, with no record WITHDRAWING (R73, R160). -/
theorem State.Tables.counted {s t : State} (h : s.Tables t) (hr : s.AtRest) (hs : s.Counted) :
    1 ≤ t.port.config.withdrawals ∧ t.store.CountedBy t.port.config.withdrawals := by
  have edits := @Store.CountedBy.edits s hs.atLeastOne
  have here : s.store.CountedBy s.port.config.withdrawals := hs.counts
  cases h with
  | edited h _ hc | staged _ _ _ _ h _ hc => exact hc ▸ ⟨hs.atLeastOne, edits h here⟩
  | cleared h _ hc =>
    refine ⟨?_, fun i r c n hi => ?_⟩
    · rcases hc with hc | hc <;> rw [hc]
      · exact hs.atLeastOne
      · decide
    · rw [h] at hi
      cases hi
  | inserted _ _ _ _ _ h _ hc => exact hc ▸ h ▸ ⟨hs.atLeastOne, here.enter _ _ _ fun _ _ _ => by simp [Record.asLive]⟩
  | reserved _ _ _ _ _ _ _ h _ hc => exact hc ▸ h ▸ ⟨hs.atLeastOne, here.enter _ _ _ fun _ _ _ => by simp⟩
  | opened _ h _ hc | sealed_ _ _ h _ hc => exact hc ▸ h ▸ ⟨hs.atLeastOne, here⟩
  | configured c hq hst _ h _ hc =>
    refine ⟨hc ▸ hs.requested c ((s.heldAccess_eq_some _).1 hq).2.2, fun i r x n hi => ?_⟩
    rw [h] at hi
    exact absurd hi (hr.slots hst (hr.not_running hq (by simp) hst) i r x n)
  | applied u hu h _ hc => exact hc ▸ ⟨hs.atLeastOne, edits h (edits (s.edits_applyEntries u) (edits hu here))⟩
  | aborted h _ hc => exact hc ▸ h ▸ ⟨hs.atLeastOne, edits (s.edits_abortBatch s.store) here⟩

/-! ### The records (R2, R5, R66) -/

/-- What a lease field leaves lies in the range of a lease length. -/
theorem leaseAfter_inRange {field length : Option Nat} (hf : leaseInRange field)
    (hl : ∀ n, length = some n → 1 ≤ n ∧ n < 65536) (n : Nat) (h : leaseAfter field length = some n) :
    1 ≤ n ∧ n < 65536 := by
  unfold leaseAfter at h
  split at h
  · exact hl n h
  · cases h
  next k =>
    cases h
    exact ⟨by omega, hf _ rfl⟩

/-- A lease that runs from its length (R66). -/
theorem leaseWithin_self (length : Option Nat) (h : ∀ n, length = some n → 1 ≤ n ∧ n < 65536) :
    leaseWithin length length := by
  cases length with
  | none => trivial
  | some n => exact ⟨(h n rfl).1, le_rfl⟩

theorem Echo.lawful_after {e : Echo} (h : e.lawful) (result : ReplyResult) (revision : Byte) :
    (e.after result revision).lawful := by
  cases result with
  | undecided => exact h
  | valid v => exact ⟨fun hn => (by cases hn), fun _ hn => (by cases hn)⟩
  | absent | invalid => exact ⟨fun hn => (by cases hn), fun hn => (by cases hn)⟩

theorem Record.Lawful.echoed {r : Record} (h : r.Lawful) (result : ReplyResult) (revision : Byte) :
    (r.echoed result revision).Lawful := by
  unfold Record.echoed
  cases he : r.echo with
  | none => exact h
  | some e =>
    have isSome : r.replyRequested = true := by rw [← h.echo, he]; rfl
    refine { h with echo := isSome.symm, held := fun x hx => ?_, changed := ?_ }
    · cases hx
      exact Echo.lawful_after (h.held e he) _ _
    · dsimp only
      split
      · simpa using h.changed
      · exact h.changed

/-- The payload and lease field of an AMEND that the part holds are in range. -/
theorem State.Recorded.offers {s : State} (h : s.Recorded) {payload : List Word} {field : Option Nat}
    (ho : s.Offers payload field) : (1 ≤ payload.length ∧ payload.length ≤ 8) ∧ leaseInRange field := by
  rcases ho with ⟨key, hr⟩ | ⟨e, he, hop⟩
  · obtain ⟨-, -, h1, h2, h3⟩ := h.request _ hr
    exact ⟨⟨h1, h2⟩, h3⟩
  · obtain ⟨h1, h2, h3⟩ := h.amends e he payload field hop
    exact ⟨⟨h1, h2⟩, h3⟩

theorem State.Amends.lawful {s : State} (hs : s.Recorded) {r r' : Record} {m m' : Option Nat} (h : s.Amends r m r' m')
    (hr : r.Lawful) (hm : leaseWithin m r.leaseLength) : r'.Lawful ∧ leaseWithin m' r'.leaseLength := by
  cases h with
  | none => exact ⟨hr, hm⟩
  | amended _ payload field ho =>
    obtain ⟨hp, hf⟩ := hs.offers ho
    have lease := leaseAfter_inRange hf hr.lease
    exact ⟨{ hr with payload := hp, lease := lease }, leaseWithin_self _ lease⟩
  | renewed _ key field ho =>
    obtain ⟨-, -, hf⟩ := hs.request _ ho
    have lease := leaseAfter_inRange hf hr.lease
    exact ⟨{ hr with lease := lease }, leaseWithin_self _ lease⟩
  | counted n hn =>
    refine ⟨hr, ?_⟩
    cases hl : r.leaseLength with
    | none => rw [hl] at hm; exact hm
    | some k =>
      rw [hl] at hm
      obtain ⟨-, hk⟩ : 1 ≤ n ∧ n ≤ k := hm
      exact ⟨by omega, by omega⟩
  | echoed _ result revision =>
    refine ⟨hr.echoed result revision, ?_⟩
    unfold Record.echoed
    split <;> exact hm
  | noticed _ hc => exact ⟨{ hr with changed := by rw [← hr.changed, hc]; rfl }, hm⟩

theorem State.Moves.lawful {s : State} (hs : s.Recorded) {v w : Slot} (h : s.Moves v w) {key : Option Word}
    (hv : v.lawful key) : w.lawful key := by
  cases h with
  | damaged | freed => trivial
  | amended g g' ha =>
    obtain ⟨hr, hk, hm⟩ := hv
    obtain ⟨hr', hm'⟩ := ha.lawful hs hr hm
    exact ⟨hr', by rw [ha.kept.2, hk], hm'⟩
  | expired | retired => exact ⟨hv.1, hv.2.1⟩
  | counted | lapsed => exact hv
  | noticed r c n hc =>
    obtain ⟨hr, hk⟩ := hv
    exact ⟨{ hr with changed := by rw [← hr.changed, hc]; rfl }, hk⟩

/-- A RESERVED record enters LIVE lawfully (R3, R8). -/
theorem Slot.lawful_asLive {key : Option Word} {r : Record} (h : (Slot.reserved r).lawful key) : r.asLive.lawful key :=
  ⟨h.1, h.2, leaseWithin_self _ h.1.lease⟩

/-- Every slot of a table is lawful under its key, and every key lies in 1 to 65534 (R2, R13). -/
structure Store.LawfulTable (st : Store) : Prop where
  slots : ∀ i, (st.slotAt i).lawful (st.keyAt i)
  keys : ∀ e ∈ st.directory, 1 ≤ e.1 ∧ e.1 ≤ 65534

theorem State.Recorded.table {s : State} (h : s.Recorded) : s.store.LawfulTable := ⟨h.slots, h.keys⟩

theorem Store.LawfulTable.changeSlot {st : Store} (h : st.LawfulTable) (i : Nat) {v : Slot}
    (hv : v.lawful (st.keyAt i)) : (st.changeSlot i v).LawfulTable := by
  refine ⟨fun j => ?_, fun e he => ?_⟩
  · rw [Store.slotAt_changeSlot, Store.keyAt_changeSlot]
    by_cases hj : j = i
    · rw [if_pos hj, hj]
      cases hf : v.isFree with
      | true => rw [(Slot.isFree_iff v).1 hf]; trivial
      | false => rw [if_neg (by simp)]; exact hv
    · rw [if_neg hj, if_neg (by simp [hj])]
      exact h.slots j
  · rw [Store.mem_directory_changeSlot] at he
    exact h.keys e he.1

theorem Store.LawfulTable.edits {s : State} (hs : s.Recorded) (hg : s.Staged) {b : Bool} {v : Store}
    (h : s.Edits b s.store v) : v.LawfulTable := by
  refine h.keeps _ hs.table (fun u v ha hu => ⟨fun i => ?_, ?_⟩)
    (fun u i w _ hu hm => hu.changeSlot i (hm.lawful hs (hu.slots i))) (fun u i r he hu hr => ⟨fun j => ?_, hu.keys⟩)
    (fun u i r w _ _ hu hr hw => hu.changeSlot i ?_)
  · rw [ha.slots, Store.keyAt_eq ha.directory]
    exact hu.slots i
  · rw [ha.directory]
    exact hu.keys
  · rw [Store.slotAt_write, Store.keyAt_eq (st' := u.write i _) (st := u) rfl]
    split
    next e =>
      rw [hg.stagedCopy_eq (he.reserved_origin hg i r hr), ← hr, e]
      exact hu.slots i
    · exact hu.slots j
  · have := hu.slots i
    rw [hr] at this
    rcases hw with rfl | rfl
    · exact Slot.lawful_asLive this
    · trivial

/-- The record that an INSERT in range enters is lawful (R49, R50). -/
theorem InsertArgs.record_lawful {a : InsertArgs} (h : (Request.insert a).inRange) : a.record.Lawful := by
  obtain ⟨k1, k2, n1, n2, ch, p1, p2, reply, notify, l1, l2⟩ := h
  refine ⟨⟨k1, k2⟩, ⟨n1, n2⟩, ch, ⟨p1, p2⟩, reply, notify, fun n hn => ⟨?_, l2 n hn⟩, ?_, fun e he => ?_, ?_⟩
  · rcases Nat.eq_zero_or_pos n with rfl | hp
    · exact absurd hn l1
    · exact hp
  · cases hr : a.replyRequested <;> simp [InsertArgs.record, hr]
  · cases hr : a.replyRequested with
    | false => simp [InsertArgs.record, hr] at he
    | true =>
      obtain rfl : (⟨.none, none⟩ : Echo) = e := by simpa [InsertArgs.record, hr] using he
      exact ⟨fun _ => rfl, fun hf => by cases hf⟩
  · cases hr : a.notify <;> simp [InsertArgs.record, hr]

theorem Store.LawfulTable.enter {st : Store} (h : st.LawfulTable) (ho : st.Occupied) {frames : Nat} {k k' : RateClass}
    {a : Allocation} (ha : st.allocate frames k = .ok a) {key : Word} (hk : st.slotOfKey key = none)
    (hr : key ≠ 0 ∧ key ≠ 0xFFFF) {v : Slot} (hv : v.lawful (some key)) : (st.enter a k' key v).LawfulTable := by
  refine ⟨fun j => ?_, fun e he => ?_⟩
  · rw [Store.slotAt_enter, Store.keyAt_enter ho _ _ _ _ (Store.allocate_free ha).1 hk]
    split
    · exact hv
    · exact h.slots j
  · rw [Store.directory_enter, Sparse.mem_insert] at he
    rcases he with rfl | ⟨he, -⟩
    · have h0 : key.toNat ≠ 0 := fun e => hr.1 (BitVec.eq_of_toNat_eq e)
      have h1 : key.toNat ≠ 65535 := fun e => hr.2 (BitVec.eq_of_toNat_eq e)
      have := key.isLt
      exact ⟨by show 1 ≤ key.toNat; omega, by show key.toNat ≤ 65534; omega⟩
    · exact h.keys e he

/-- Every way to change the table keeps the records lawful (R2, R5, R13, R66). -/
theorem State.Tables.lawfulTable {s t : State} (h : s.Tables t) (ho : s.store.Occupied) (hs : s.Recorded)
    (hg : s.Staged) : t.store.LawfulTable := by
  have edits : ∀ {b v}, s.Edits b s.store v → v.LawfulTable := fun h => .edits hs hg h
  cases h with
  | edited h | staged _ _ _ _ h => exact edits h
  | cleared h => exact h ▸ ⟨fun _ => trivial, fun _ he => absurd he List.not_mem_nil⟩
  | inserted args place hq hk ha h =>
    have hr := hs.request _ ((s.heldAccess_eq_some _).1 hq).2.2
    have hl := InsertArgs.record_lawful hr
    exact h ▸ hs.table.enter ho ha hk hl.key (Slot.lawful_asLive ⟨hl, rfl⟩)
  | reserved args place hq _ _ hk ha h =>
    have hr := hs.request _ ((s.heldAccess_eq_some _).1 hq).2.2
    have hl := InsertArgs.record_lawful hr
    exact h ▸ hs.table.enter ho ha hk hl.key ⟨hl, rfl⟩
  | opened _ h | sealed_ _ _ h | configured _ _ _ _ h => exact h ▸ hs.table
  | applied u hu h => exact edits ((hu.settling.trans (s.edits_applyEntries u)).trans h.settling)
  | aborted h => exact h ▸ edits (s.edits_abortBatch s.store)

/-- Every way to change the batch keeps the payload and the lease field of its AMEND entries in range (R80). -/
theorem State.Tables.amends {s t : State} (h : s.Tables t) (hs : s.Recorded) :
    ∀ e ∈ t.batch.entries, ∀ payload lease, e.op = .amend payload lease →
      1 ≤ payload.length ∧ payload.length ≤ 8 ∧ leaseInRange lease := by
  cases h with
  | edited _ hb | inserted _ _ _ _ _ _ hb | configured _ _ _ _ _ hb => exact hb ▸ hs.amends
  | cleared _ hb | applied _ _ _ hb | aborted _ hb | opened _ _ hb =>
    rw [hb]
    exact fun e he => absurd he List.not_mem_nil
  | sealed_ _ _ _ hb => rw [hb]; exact hs.amends
  | reserved args place _ _ _ _ _ _ hb =>
    rw [hb]
    intro e he payload lease hop
    rcases List.mem_append.1 he with he | he
    · exact hs.amends e he payload lease hop
    · rw [List.mem_singleton.1 he] at hop
      cases hop
  | staged x _ _ hx _ hb =>
    rw [hb]
    intro e he payload lease hop
    rcases List.mem_append.1 he with he | he
    · exact hs.amends e he payload lease hop
    · rw [List.mem_singleton.1 he] at hop
      rcases hx with hx | ⟨payload', field', hx, hr⟩
      · rw [hx] at hop
        cases hop
      · rw [hx] at hop
        cases hop
        exact (hs.request _ hr).2.2

/-! ### The RESERVED slots and the INSERT entries (R79, R80) -/

/-- The number of RESERVED slots follows from which slots are RESERVED. -/
theorem Store.reservedCount_congr {st u : Store}
    (h : ∀ i, (u.slotAt i).isReserved = (st.slotAt i).isReserved) : u.reservedCount = st.reservedCount := by
  unfold Store.reservedCount
  simp only [h]

theorem Slot.isReserved_iff (v : Slot) : v.isReserved = true ↔ ∃ r, v = .reserved r := by
  cases v <;> simp [Slot.isReserved]

theorem Store.reservedCount_of_iff {st u : Store}
    (h : ∀ i r, u.slotAt i = .reserved r ↔ st.slotAt i = .reserved r) : u.reservedCount = st.reservedCount := by
  refine Store.reservedCount_congr fun i => ?_
  rw [Bool.eq_iff_iff, Slot.isReserved_iff, Slot.isReserved_iff]
  exact exists_congr (h i)

theorem Store.reservedCount_of_none {u : Store} (h : ∀ i r, u.slotAt i ≠ .reserved r) : u.reservedCount = 0 := by
  unfold Store.reservedCount
  rw [List.filter_eq_nil_iff.2, List.length_nil]
  intro i _ hi
  obtain ⟨r, hr⟩ := (Slot.isReserved_iff _).1 hi
  exact h i r hr

/-- A table with the RESERVED slots of `s`, beside a batch with the INSERT entries of `s`. -/
theorem State.Staged.of_iff {s t : State} (hs : s.Staged)
    (hr : ∀ i r, t.store.slotAt i = .reserved r ↔ s.store.slotAt i = .reserved r)
    (he : ∀ e copy, e.op = .insert copy → (e ∈ t.batch.entries ↔ e ∈ s.batch.entries))
    (hn : (t.batch.entries.filter BatchEntry.isInsert).length = (s.batch.entries.filter BatchEntry.isInsert).length) :
    t.Staged := by
  refine ⟨fun e hm copy hop => ?_, fun i r hi => ?_, ?_⟩
  · obtain ⟨h1, h2⟩ := hs.copies e ((he e copy hop).1 hm) copy hop
    exact ⟨(hr _ _).2 h1, h2⟩
  · obtain ⟨e, hm, hop, hsl⟩ := hs.reserved i r ((hr i r).1 hi)
    exact ⟨e, (he e r hop).2 hm, hop, hsl⟩
  · rw [Store.reservedCount_of_iff hr, hs.count, hn]

/-- A table without RESERVED slots, beside an empty batch. -/
theorem State.staged_of_none {t : State} (hr : ∀ i r, t.store.slotAt i ≠ .reserved r) (he : t.batch.entries = []) :
    t.Staged := by
  refine ⟨fun e hm => ?_, fun i r hi => absurd hi (hr i r), ?_⟩
  · rw [he] at hm
    exact absurd hm List.not_mem_nil
  · rw [Store.reservedCount_of_none hr, he]
    rfl

/-- The application of one entry: the slot verified, and then left, or changed to what is not RESERVED. -/
theorem applyEntry_store (entries : List BatchEntry) (scan : ScanState) (w : Nat) (a : Application) (e : BatchEntry) :
    (applyEntry entries scan w a e).store = a.store.verifyAny entries e.slot ∧
        (e.isInsert = true → (a.store.verifyAny entries e.slot).keyAt e.slot = some e.key →
          ∀ r, (a.store.verifyAny entries e.slot).slotAt e.slot ≠ .reserved r) ∨
      ∃ v : Slot, (applyEntry entries scan w a e).store = (a.store.verifyAny entries e.slot).changeSlot e.slot v ∧
        v.isReserved = false ∧ (a.store.verifyAny entries e.slot).keyAt e.slot = some e.key ∧
        (e.isInsert = false → ((a.store.verifyAny entries e.slot).slotAt e.slot).isReserved = false) := by
  unfold applyEntry
  dsimp only
  split
  next hk =>
    split
    next copy r hop hr => exact .inr ⟨_, rfl, rfl, hk, fun hi => by simp [BatchEntry.isInsert, hop] at hi⟩
    next payload field r m g hop hr => exact .inr ⟨_, rfl, rfl, hk, fun _ => by rw [hr]; rfl⟩
    next r m g hop hr =>
      refine .inr ⟨_, rfl, ?_, hk, fun _ => by rw [hr]; rfl⟩
      split <;> rfl
    next x hop hr => exact .inr ⟨_, rfl, rfl, hk, fun _ => by rw [hr]; rfl⟩
    next hno _ _ _ =>
      refine .inl ⟨rfl, fun hi _ r hr => ?_⟩
      cases hop : e.op with
      | insert copy => exact hno copy r hop hr
      | amend | retire => simp [BatchEntry.isInsert, hop] at hi
  next hk => exact .inl ⟨rfl, fun _ h => absurd h hk⟩

/-- A verifying read leaves a RESERVED slot RESERVED, and makes none so. -/
theorem Store.isReserved_verifyAny (st : Store) (entries : List BatchEntry) (i j : Nat) :
    ((st.verifyAny entries i).slotAt j).isReserved = (st.slotAt j).isReserved := by
  unfold Store.verifyAny
  cases hs : st.slotAt i with
  | reserved r =>
    dsimp only
    split
    · rw [Store.slotAt_write]
      split
      next e => rw [e, hs]; rfl
      · rfl
    · rfl
  | free | live | withdrawing | lapsed | damaged =>
    have found : (st.found i).isReserved = false := by
      unfold Store.found Cell.found
      rw [show (st.cellAt i).slot = st.slotAt i from rfl, hs]
      cases (st.cellAt i).upset <;> rfl
    rw [Store.slotAt_verify]
    split
    next e => rw [e, found, hs]; rfl
    · rfl

/-- After a batch is applied no slot is RESERVED, where each RESERVED slot belongs to an INSERT entry under its key (R89). -/
theorem applyEntries_not_reserved (entries : List BatchEntry) (scan : ScanState) (w : Nat) (l : List BatchEntry)
    (hd : l.Pairwise fun x y => x.key ≠ y.key) : ∀ a : Application,
    (∀ i, (a.store.slotAt i).isReserved = true → ∃ e ∈ l, e.isInsert = true ∧ e.slot = i) →
    (∀ e ∈ l, e.isInsert = true →
      (a.store.slotAt e.slot).isReserved = true ∧ a.store.keyAt e.slot = some e.key) →
    ∀ i, ((l.foldl (applyEntry entries scan w) a).store.slotAt i).isReserved = false := by
  induction l with
  | nil =>
    intro a h1 _ i
    rw [Bool.eq_false_iff]
    intro hi
    obtain ⟨e, he, -⟩ := h1 i hi
    exact absurd he List.not_mem_nil
  | cons e l ih =>
    intro a h1 h2
    obtain ⟨hne, hd'⟩ := List.pairwise_cons.1 hd
    have res := fun j => a.store.isReserved_verifyAny entries e.slot j
    have key : ∀ j, (a.store.verifyAny entries e.slot).keyAt j = a.store.keyAt j :=
      fun j => Store.keyAt_eq (a.store.directory_verifyAny entries e.slot) j
    rw [List.foldl_cons]
    rcases applyEntry_store entries scan w a e with ⟨hs, hno⟩ | ⟨v, hs, hv, hk, hni⟩
    · -- the entry changes no slot: it is no INSERT
      have notInsert : e.isInsert = false := by
        rw [Bool.eq_false_iff]
        intro hi
        obtain ⟨hr, hke⟩ := h2 e List.mem_cons_self hi
        obtain ⟨r, hr⟩ := (Slot.isReserved_iff _).1 ((res e.slot).trans hr)
        exact hno hi ((key _).trans hke) r hr
      refine ih hd' _ (fun i hi => ?_) fun x hx hi => ?_
      · rw [hs, res] at hi
        obtain ⟨x, hx, hxi, hxs⟩ := h1 i hi
        rcases List.mem_cons.1 hx with rfl | hx
        · rw [notInsert] at hxi
          cases hxi
        · exact ⟨x, hx, hxi, hxs⟩
      · rw [hs, res, key]
        exact h2 x (List.mem_cons_of_mem _ hx) hi
    · -- the slot of the entry is changed, and it alone
      have other : ∀ x ∈ l, x.isInsert = true → x.slot ≠ e.slot := by
        intro x hx hi hsl
        have hkx := (h2 x (List.mem_cons_of_mem _ hx) hi).2
        rw [hsl, ← key, hk] at hkx
        exact hne x hx (Option.some.inj hkx)
      refine ih hd' _ (fun i hi => ?_) fun x hx hi => ?_
      · rw [hs, Store.slotAt_changeSlot] at hi
        split at hi
        · rw [hv] at hi
          cases hi
        next hne' =>
          rw [res] at hi
          obtain ⟨x, hx, hxi, hxs⟩ := h1 i hi
          rcases List.mem_cons.1 hx with rfl | hx
          · exact absurd hxs.symm hne'
          · exact ⟨x, hx, hxi, hxs⟩
      · have hsl := other x hx hi
        rw [hs, Store.slotAt_changeSlot, if_neg hsl, Store.keyAt_changeSlot, if_neg (fun h => hsl h.2), res, key]
        exact h2 x (List.mem_cons_of_mem _ hx) hi

/-- After ABORT BATCH no slot is RESERVED (R94). -/
theorem State.abortBatch_not_reserved (s : State) (ho : s.store.Occupied) :
    ∀ i r, (s.store.abortBatch s.batch.entries).slotAt i ≠ .reserved r := by
  have first : ∀ i r, (slotIndices.foldl (Store.freeReserved s.batch.entries) s.store).slotAt i ≠ .reserved r := by
    intro i r
    rw [(s.store.freeReserved_slots s.batch.entries).1]
    split
    · simp
    next hn =>
      intro hr
      obtain ⟨e, he, rfl⟩ := (ho.exact i).1 (by simp [hr])
      exact hn ⟨ho.inTable e he, by rw [hr]; rfl⟩
  exact (State.Edits.foldl (b := false) _ (fun u e => s.edits_clearStaged false u e) _ _).no_reserved first

/-- Every way to change the table and the batch keeps the RESERVED slots with their INSERT entries. -/
theorem State.Tables.staged_ {s t : State} (h : s.Tables t) (ho : s.store.Occupied) (hb : s.batch.Bounded)
    (hr : s.Recorded) (hs : s.Staged) : t.Staged := by
  cases h with
  | edited h hb' => exact hs.of_iff (h.reserved_iff hs) (fun _ _ _ => by rw [hb']) (by rw [hb'])
  | cleared h hb' =>
    refine State.staged_of_none (fun i r hi => ?_) (by rw [hb']; rfl)
    rw [h] at hi
    cases hi
  | inserted args place _ _ ha h hb' =>
    refine hs.of_iff (fun i r => ?_) (fun _ _ _ => by rw [hb']) (by rw [hb'])
    rw [h, Store.slotAt_enter]
    split
    next e => rw [e, (Store.allocate_free ha).1]; simp [Record.asLive]
    · rfl
  | reserved args place _ _ _ _ ha h hb' =>
    obtain ⟨free, inTable⟩ := Store.allocate_free ha
    have slot : ∀ j, t.store.slotAt j = if j = place.slot then .reserved args.record else s.store.slotAt j := by
      intro j
      rw [h, Store.slotAt_enter]
    refine ⟨fun e he copy hop => ?_, fun i r hi => ?_, ?_⟩
    · rw [hb'] at he
      rcases List.mem_append.1 he with he | he
      · obtain ⟨h1, h2⟩ := hs.copies e he copy hop
        rw [slot, if_neg]
        · exact ⟨h1, h2⟩
        · intro hsl
          rw [hsl, free] at h1
          cases h1
      · rw [List.mem_singleton.1 he] at hop ⊢
        cases hop
        exact ⟨by rw [slot, if_pos rfl], rfl⟩
    · rw [slot] at hi
      rw [hb']
      split at hi
      next e =>
        cases hi
        exact ⟨_, List.mem_append_right _ (List.mem_singleton_self _), rfl, e.symm⟩
      · obtain ⟨x, hx, hop, hsl⟩ := hs.reserved i r hi
        exact ⟨x, List.mem_append_left _ hx, hop, hsl⟩
    · have count := length_filter_update nodup_slotIndices place.slot ((mem_slotIndices _).2 inTable)
        (fun i => (t.store.slotAt i).isReserved) (fun i => (s.store.slotAt i).isReserved)
        fun i hi => by rw [slot, if_neg hi]
      simp only [slot place.slot, if_pos, free, show (Slot.reserved args.record).isReserved = true from rfl,
        show Slot.free.isReserved = false from rfl, Bool.toNat_false, Bool.toNat_true, Nat.add_zero] at count
      have old := hs.count
      have now : (t.batch.entries.filter BatchEntry.isInsert).length =
          (s.batch.entries.filter BatchEntry.isInsert).length + 1 := by
        rw [hb']
        simp [BatchUnit.stage, show BatchEntry.isInsert ⟨.insert args.record, args.key, place.slot⟩ = true from rfl]
      unfold Store.reservedCount at old ⊢
      omega
  | staged x _ _ hx h hb' =>
    have no : x.isInsert = false := by
      rcases hx with hx | ⟨_, _, hx, -⟩ <;> simp [BatchEntry.isInsert, hx]
    refine hs.of_iff (h.reserved_iff hs) (fun e copy hop => ?_) ?_
    · rw [hb']
      refine ⟨fun he => ?_, fun he => List.mem_append_left _ he⟩
      rcases List.mem_append.1 he with he | he
      · exact he
      · rw [← List.mem_singleton.1 he] at no
        simp [BatchEntry.isInsert, hop] at no
    · rw [hb']
      simp [BatchUnit.stage, no]
  | opened hn h hb' =>
    have := hb.emptyWhenNone hn
    exact hs.of_iff (fun _ _ => by rw [h]) (fun _ _ _ => by rw [hb', this]) (by rw [hb', this])
  | sealed_ _ _ h hb' => exact hs.of_iff (fun _ _ => by rw [h]) (fun _ _ _ => by rw [hb']) (by rw [hb'])
  | configured _ _ _ _ h hb' => exact hs.of_iff (fun _ _ => by rw [h]) (fun _ _ _ => by rw [hb']) (by rw [hb'])
  | applied u hu h hb' =>
    refine State.staged_of_none (h.no_reserved fun i r hi => ?_) (by rw [hb']; rfl)
    have lawful : u.LawfulTable := .edits hr hs hu
    have := applyEntries_not_reserved s.batch.entries s.scan.state s.port.config.withdrawals s.batch.entries hb.distinct
      ⟨u, 0, 0⟩ (fun i hi => ?_) (fun e he hi => ?_) i
    · unfold applyEntries at hi
      rw [hi] at this
      cases this
    · obtain ⟨r, hr⟩ := (Slot.isReserved_iff _).1 hi
      obtain ⟨e, he, hop, hsl⟩ := hs.reserved i r ((hu.reserved_iff hs i r).1 hr)
      exact ⟨e, he, by simp [BatchEntry.isInsert, hop], hsl⟩
    · cases hop : e.op with
      | insert copy =>
        obtain ⟨h1, h2⟩ := hs.copies e he copy hop
        have hu1 : u.slotAt e.slot = .reserved copy := (hu.reserved_iff hs _ _).2 h1
        have hl := lawful.slots e.slot
        rw [hu1] at hl
        exact ⟨by rw [hu1]; rfl, by rw [hl.2, h2]⟩
      | amend | retire => simp [BatchEntry.isInsert, hop] at hi
  | aborted h hb' => exact State.staged_of_none (by rw [h]; exact s.abortBatch_not_reserved ho) (by rw [hb']; rfl)

end Sys2Proof.Machine
end

section
/-! How each command moves the arbiter, the port, the Scan Engine and the timer: the turns of the part's control. -/

namespace Sys2Proof.Machine

/-! ### Claims (R18, R19) -/

/-- An arbiter that keeps the access in progress and the waiting claims of another, or fewer, beside claims of one kind. -/
structure Arbiter.Adds (P : Claim → Prop) (a b : Arbiter) : Prop where
  inProgress : b.inProgress = a.inProgress ∨ a.inProgress = none ∧ ∃ c, P c ∧ b.inProgress = some c
  waiting : ∀ c ∈ b.waiting, c ∈ a.waiting ∨ P c

theorem Arbiter.Adds.refl (P : Claim → Prop) (a : Arbiter) : a.Adds P a := ⟨.inl rfl, fun _ h => .inl h⟩

theorem Arbiter.Adds.mono {P Q : Claim → Prop} {a b : Arbiter} (h : a.Adds P b) (hq : ∀ c, P c → Q c) : a.Adds Q b :=
  ⟨h.inProgress.imp_right fun ⟨hn, c, hc, he⟩ => ⟨hn, c, hq c hc, he⟩, fun c hc => (h.waiting c hc).imp_right (hq c)⟩

theorem Arbiter.Adds.trans {P : Claim → Prop} {a b c : Arbiter} (h : a.Adds P b) (h' : b.Adds P c) : a.Adds P c := by
  refine ⟨?_, fun x hx => (h'.waiting x hx).elim (h.waiting x) .inr⟩
  rcases h'.inProgress with e' | ⟨n', x, hx, e'⟩
  · rw [e']
    exact h.inProgress
  · rcases h.inProgress with e | ⟨n, y, hy, e⟩
    · exact .inr ⟨e.symm.trans n', x, hx, e'⟩
    · rw [e] at n'
      cases n'

/-- The arbiter after a claim is placed: granted at once while the table is idle, else waiting (R18). -/
def Arbiter.place (a : Arbiter) (c : Claim) : Arbiter :=
  match a.inProgress with
  | none => a.grantTo c
  | some _ => a.enqueue c

theorem Arbiter.mem_enqueue (a : Arbiter) (c d : Claim) (h : d ∈ (a.enqueue c).waiting) : d ∈ a.waiting ∨ d = c := by
  unfold Arbiter.enqueue at h
  split at h
  · exact .inl h
  · simpa using h

theorem Arbiter.adds_place (a : Arbiter) (c : Claim) : a.Adds (· = c) (a.place c) := by
  unfold Arbiter.place
  cases hi : a.inProgress with
  | none => exact ⟨.inr ⟨hi, c, rfl, rfl⟩, fun d hd => .inl (List.mem_filter.1 hd).1⟩
  | some x =>
    refine ⟨.inl ?_, fun d hd => a.mem_enqueue c d hd⟩
    simp only [Arbiter.enqueue]
    split <;> rfl

theorem Arbiter.adds_withdrawLine (a : Arbiter) (P : Claim → Prop) : a.Adds P a.withdrawLine :=
  ⟨.inl rfl, fun _ hd => .inl (List.mem_filter.1 hd).1⟩

/-- When an access completes, the next one is a claim that waited, no claim of that accessor waits, and the rest wait on. -/
theorem Arbiter.next_cases (a : Arbiter) :
    a.next = ⟨none, []⟩ ∨
      ∃ c ∈ a.waiting, a.next.inProgress = some c ∧ ∀ d ∈ a.next.waiting, d ∈ a.waiting ∧ d.rank ≠ c.rank := by
  unfold Arbiter.next
  cases hf : a.first with
  | none => exact .inl (by rw [(Arbiter.first_eq_none a).1 hf])
  | some c =>
    refine .inr ⟨c, a.first_mem c hf, rfl, fun d hd => ?_⟩
    simpa [Arbiter.grantTo] using hd

theorem Arbiter.outstanding_iff (a : Arbiter) (r : Nat) :
    a.outstanding r = true ↔ ∃ c, (a.inProgress = some c ∨ c ∈ a.waiting) ∧ c.rank = r := by
  unfold Arbiter.outstanding
  cases a.inProgress with
  | none => simp
  | some d =>
    simp only [Bool.or_eq_true, decide_eq_true_eq, List.any_eq_true, Option.some.injEq]
    constructor
    · rintro (h | ⟨c, hc, h⟩)
      · exact ⟨d, .inl rfl, h⟩
      · exact ⟨c, .inr hc, h⟩
    · rintro ⟨c, rfl | hc, h⟩
      · exact .inl h
      · exact .inr ⟨c, hc, h⟩

/-- What is outstanding after an access completes waited before. -/
theorem Arbiter.outstanding_next (a : Arbiter) (r : Nat) (h : a.next.outstanding r = true) :
    ∃ c ∈ a.waiting, c.rank = r := by
  obtain ⟨c, hc, hr⟩ := (a.next.outstanding_iff r).1 h
  rcases a.next_cases with e | ⟨d, hd, hi, hw⟩
  · simp [e] at hc
  · rcases hc with hc | hc
    · rw [hi] at hc
      cases hc
      exact ⟨c, hd, hr⟩
    · exact ⟨c, (hw c hc).1, hr⟩

/-- What is outstanding after claims of one kind was outstanding, or is of that kind. -/
theorem Arbiter.Adds.outstanding {P : Claim → Prop} {a b : Arbiter} (h : a.Adds P b) {r : Nat}
    (hb : b.outstanding r = true) : a.outstanding r = true ∨ ∃ c, P c ∧ c.rank = r := by
  obtain ⟨c, hc, hr⟩ := (b.outstanding_iff r).1 hb
  rw [Arbiter.outstanding_iff]
  rcases hc with hc | hc
  · rcases h.inProgress with e | ⟨-, d, hd, e⟩
    · exact .inl ⟨c, .inl (e ▸ hc), hr⟩
    · rw [e] at hc
      cases hc
      exact .inr ⟨c, hd, hr⟩
  · exact (h.waiting c hc).imp (fun h => ⟨c, .inr h, hr⟩) fun h => ⟨c, h, hr⟩

/-- The claims of a boundary (R38, R88). -/
def Claim.ofBoundary (c : Claim) : Prop := c = .countdown ∨ c = .application

/-- The claims that a block of the line places behind others' traffic (R122, R138). -/
def Claim.behind (c : Claim) : Prop := c.rank = 1 ∨ c.rank = 4

/-! ### The control of the part -/

/-- What the laws of the control speak of. -/
structure Core where
  arbiter : Arbiter
  port : PortState × InitCause × Option Request × Bool
  scan : ScanState × ScanRequest × FrameRegister × FrameRegister
  timer : CycleTimer
  store : Store
  batch : BatchUnit

def State.core (s : State) : Core :=
  ⟨s.arbiter, (s.port.state, s.port.initCause, s.port.request, s.port.stopScanDone),
    (s.scan.state, s.scan.request, s.scan.regA, s.scan.regB), s.timer, s.store, s.batch⟩

theorem State.core_eq_iff {s t : State} : s.core = t.core ↔
    s.arbiter = t.arbiter ∧
      (s.port.state = t.port.state ∧ s.port.initCause = t.port.initCause ∧ s.port.request = t.port.request ∧
        s.port.stopScanDone = t.port.stopScanDone) ∧
      (s.scan.state = t.scan.state ∧ s.scan.request = t.scan.request ∧ s.scan.regA = t.scan.regA ∧
        s.scan.regB = t.scan.regB) ∧
      s.timer = t.timer ∧ s.store = t.store ∧ s.batch = t.batch := by
  simp only [State.core, Core.mk.injEq, Prod.mk.injEq]

/-- A Scan Engine with the state and the request of another, each register as it was or FREE. -/
structure ScanEngine.Eased (e e' : ScanEngine) : Prop where
  state : e'.state = e.state
  request : e'.request = e.request
  regA : e'.regA = e.regA ∨ e'.regA = .free
  regB : e'.regB = e.regB ∨ e'.regB = .free

theorem ScanEngine.Eased.refl (e : ScanEngine) : e.Eased e := ⟨rfl, rfl, .inl rfl, .inl rfl⟩

theorem FrameRegister.landed_cases (r : FrameRegister) : r.landed = r ∨ r.landed = .free := by
  cases r <;> simp [FrameRegister.landed]

theorem FrameRegister.discarded_cases (r : FrameRegister) : r.discarded = r ∨ r.discarded = .free := by
  cases r <;> simp [FrameRegister.discarded]

/-- The port holds a request that has passed its checks (R152). -/
def State.holding (s : State) (r : Request) : State :=
  { s with port := { s.port with state := .working, stopScanDone := false, request := some r } }

/-- What a grant does beside the arbiter, as far as the control goes: nothing, or it stops the scan (R100). -/
inductive State.Granted (u : State) : State → Prop
  | plain : u.Granted u
  | stops (e : ScanEngine) (hi : u.arbiter.inProgress = some .host) (hr : u.port.request = some .stopScan)
    (hs : u.scan.state ≠ .stopped) (he : ({ u.scan with state := .stopped, request := .none } : ScanEngine).Eased e) :
    u.Granted { u with scan := e, arbiter := u.arbiter.withdrawLine }

/-- The turns of the control: what a command makes of it, up to the grant that ends it. Tables and batches are left
open where the turn says nothing of them. -/
inductive State.Turn (s : State) : State → Prop
  | kept (st : Store) (b : BatchUnit) (e : ScanEngine) (he : s.scan.Eased e) :
    s.Turn { s with store := st, batch := b, scan := e }
  | reset (p : HostPort) (hs : p.state = .init) (hc : p.initCause = .reset) (hr : p.request = none) : s.Turn (s.resetTo p)
  | initialized (hs : s.port.state = .init) (hc : s.port.initCause = .reset) : s.Turn s.completeReset
  | answered (q : ScanRequest)
    (hr : s.port.state = .ready ∨ ∃ r, s.port.state = .working ∧ s.port.request = some r ∧ r.direct = true)
    (hq : q = s.scan.request ∨ s.scan.state ≠ .stopped) :
    s.Turn (State.complete { s with scan := { s.scan with request := q } } .ok [])
  | held (r : Request) (hs : s.port.state = .ready) (hr : r.inRange) (hd : r.direct = true) : s.Turn (s.holding r)
  | called (r : Request) (hs : s.port.state = .ready) (hr : r.inRange) (hd : r.direct = false) :
    s.Turn { s.holding r with arbiter := s.arbiter.place .host }
  | started (st : Store) (e : ScanEngine) (a : Arbiter) (hr : s.heldDirect = some .startScan)
    (hs : s.scan.state = .stopped) (he : e.state ≠ .stopped) (hA : e.regA = .free) (hB : e.regB = .free)
    (ha : s.arbiter.Adds Claim.ofBoundary a) :
    s.Turn (State.complete { s with store := st, scan := e, arbiter := a, timer := s.timer.boundary true } .ok [])
  | stopCompleted (e : ScanEngine) (hr : s.heldDirect = some .stopScan) (hd : s.port.stopScanDone = true)
    (he : s.scan.Eased e) : s.Turn (State.complete { s with scan := e } .ok [])
  | finished (st : Store) (b : BatchUnit) (r : Request) (hr : s.heldAccess = some r) (hne : r ≠ .stopScan) :
    s.Turn { s.complete .ok [] with store := st, batch := b, arbiter := s.arbiter.next }
  | clearing (hr : s.heldAccess = some .clear) (hs : s.scan.state = .stopped) : s.Turn s.startClear
  | cleared (hs : s.port.state = .init) (hc : s.port.initCause = .clear) :
    s.Turn { s.complete .ok [] with arbiter := s.arbiter.next }
  | stopEnds (hr : s.heldAccess = some .stopScan) (hs : s.scan.state = .stopped) (ht : s.timer.running = true) :
    s.Turn { s.stopInAccess with
      port := { s.port with stopScanDone := true }, arbiter := s.stopInAccess.arbiter.next }
  | stopIdle (hr : s.heldAccess = some .stopScan) (hn : ¬ (s.scan.state = .stopped ∧ s.timer.running = true)) :
    s.Turn { s with port := { s.port with stopScanDone := true }, arbiter := s.arbiter.next }
  | boundary (st : Store) (e : ScanEngine) (a : Arbiter) (hr : s.timer.running = true)
    (he : s.scan.state = .stopped ∧ e = s.scan ∨
      s.scan.state ≠ .stopped ∧ e.state ≠ .stopped ∧ e.regA = .free ∧ e.regB = .free)
    (ha : s.arbiter.Adds Claim.ofBoundary a) :
    s.Turn { s with store := st, scan := e, arbiter := a, timer := s.timer.boundary false }
  | accessed (st : Store) (b : BatchUnit) (e : ScanEngine) (a : Arbiter) (c : Claim)
    (hc : s.arbiter.inProgress = some c) (hne : c ≠ .host) (he : s.scan.Eased e)
    (ha : s.arbiter.Adds (fun d => d.ofLine = true) a)
    (ht : ∀ p, .transfer p ∈ a.waiting → .transfer p ∈ s.arbiter.waiting ∨ e.registers FrameRegister.isFilled = 0) :
    s.Turn { s with store := st, batch := b, scan := e, arbiter := a.next }
  | filled (st : Store) (p : Nat) (f : Frame) (hc : s.arbiter.inProgress = some (.transfer p)) :
    s.Turn { s with store := st, scan := s.scan.fill f, arbiter := s.arbiter.next }
  | posted (a : Arbiter) (ha : s.arbiter.Adds Claim.behind a) : s.Turn { s with arbiter := a }
  | launched (f : Frame) (a : Arbiter) (hf : s.scan.waitingFrame = some f)
    (ha : a = s.arbiter ∨ ∃ p, a = s.arbiter.place (.transfer p) ∧ s.scan.launch.canFill = true) :
    s.Turn { s with scan := s.scan.launch, arbiter := a }
  | faulted (hs : s.scan.state ≠ .stopped) :
    s.Turn { s with
      scan := { s.scan with state := .fault, regA := .free, regB := .free }, arbiter := s.arbiter.withdrawLine }

/-- A state whose control a turn and the grant that ends it give. -/
def State.Turns (s t : State) : Prop :=
  ∃ w u v : State, s.Turn w ∧ u.core = w.core ∧ u.Granted v ∧ t.core = v.core

theorem State.Turn.turns {s w t : State} (h : s.Turn w) (e : t.core = w.core) : s.Turns t :=
  ⟨w, w, w, h, rfl, .plain, e⟩

/-! ### Grants, claims and completions as turns -/

/-- A grant stops the scan exactly as `Granted` says. -/
theorem State.afterGrant_granted (u : State) : ∃ v, u.Granted v ∧ u.afterGrant.core = v.core := by
  unfold State.afterGrant
  split
  next h =>
    by_cases hs : u.scan.state = .stopped
    · exact ⟨u, .plain, by rw [State.stopAtGrant_of_stopped u hs]⟩
    · refine ⟨_, .stops u.stopAtGrant.scan h.1 h.2 hs ?_, ?_⟩ <;>
        (unfold State.stopAtGrant; rw [if_neg hs]; cases u.abortDue)
      case refine_1.none => exact ⟨rfl, rfl, .inr rfl, .inr rfl⟩
      case refine_1.sent => exact ⟨rfl, rfl, .inr rfl, .inr rfl⟩
      case refine_1.afterWord | refine_1.afterSlot | refine_1.afterAllowance =>
        exact ⟨rfl, rfl, FrameRegister.discarded_cases _, FrameRegister.discarded_cases _⟩
      all_goals rfl
  next => exact ⟨u, .plain, rfl⟩

theorem State.claim_granted (u : State) (c : Claim) :
    ∃ v, State.Granted { u with arbiter := u.arbiter.place c } v ∧ (u.claim c).core = v.core := by
  unfold State.claim Arbiter.place
  cases u.arbiter.inProgress with
  | none => exact State.afterGrant_granted _
  | some x => exact ⟨_, .plain, rfl⟩

theorem State.release_granted (u : State) :
    ∃ v, State.Granted { u with arbiter := u.arbiter.next } v ∧ u.release.core = v.core := State.afterGrant_granted _

/-- A claim placed at the end of a turn. -/
theorem State.Turn.claim {s w u : State} {c : Claim} (h : s.Turn w)
    (e : State.core { u with arbiter := u.arbiter.place c } = w.core) : s.Turns (u.claim c) :=
  have ⟨v, hv, ev⟩ := u.claim_granted c
  ⟨w, _, v, h, e, hv, ev⟩

/-- An access that completes at the end of a turn. -/
theorem State.Turn.release {s w u : State} (h : s.Turn w)
    (e : State.core { u with arbiter := u.arbiter.next } = w.core) : s.Turns u.release :=
  have ⟨v, hv, ev⟩ := u.release_granted
  ⟨w, _, v, h, e, hv, ev⟩

variable (s : State)

/-- The control stays as it is where only tables and batches change. -/
theorem State.turns_kept {t : State} (h : t.core = State.core { s with store := t.store, batch := t.batch }) :
    s.Turns t := (State.Turn.kept t.store t.batch s.scan (.refl _)).turns h

/-- A host request other than STOP SCAN completes in its access. -/
theorem State.turns_finish {r : Request} (hr : s.heldAccess = some r) (hne : r ≠ .stopScan) {u : State}
    (hu : u.core = State.core { s with store := u.store, batch := u.batch }) (status : Status) (data : List Byte) :
    s.Turns (u.finish status data) := by
  refine (State.Turn.finished u.store u.batch r hr hne).turns ?_
  obtain ⟨ha, ⟨hs, hc, hq, hd⟩, ⟨h1, h2, h3, h4⟩, ht, -, -⟩ := State.core_eq_iff.1 hu
  rw [State.finish_eq]
  refine State.core_eq_iff.2 ⟨by simp [ha], ?_, ?_, ht, rfl, rfl⟩
  · exact ⟨rfl, hc, rfl, rfl⟩
  · exact ⟨h1, h2, h3, h4⟩

/-- A direct request completes at dispatch. -/
theorem State.turns_answer {r : Request} (hr : s.heldDirect = some r) (hd : r.direct = true) {u : State}
    (hu : u.core = State.core { s with scan := { s.scan with request := u.scan.request } })
    (hq : u.scan.request = s.scan.request ∨ s.scan.state ≠ .stopped) (status : Status) (data : List Byte) :
    s.Turns (u.complete status data) := by
  obtain ⟨hw, hq'⟩ := (s.heldDirect_eq_some r).1 hr
  refine (State.Turn.answered u.scan.request (.inr ⟨r, hw, hq', hd⟩) hq).turns ?_
  obtain ⟨ha, ⟨hs, hc, -, -⟩, h1, ht, hst, hb⟩ := State.core_eq_iff.1 hu
  exact State.core_eq_iff.2 ⟨ha, ⟨rfl, hc, rfl, rfl⟩, h1, ht, hst, hb⟩

/-- A transfer claim placed where it may be: one claim, or none. -/
theorem State.claimTransfer_cases :
    s.claimTransfer = s ∨ ∃ p, s.claimTransfer = s.claim (.transfer p) ∧ s.scan.canFill = true := by
  unfold State.claimTransfer
  split
  next h =>
    split
    · exact .inr ⟨_, rfl, h.2⟩
    · exact .inl rfl
  · exact .inl rfl

/-- A claim of an accessor other than the host moves the arbiter alone. -/
theorem State.claim_place (c : Claim) (h : c ≠ .host) : s.claim c = { s with arbiter := s.arbiter.place c } := by
  unfold Arbiter.place
  cases hi : s.arbiter.inProgress with
  | none => exact State.claim_idle s c hi (.inl h)
  | some x => exact State.claim_busy s c x hi

theorem ScanEngine.filled_of_canFill {e : ScanEngine} (h : e.canFill = true) :
    e.registers FrameRegister.isFilled = 0 := by
  simp only [ScanEngine.canFill, Bool.and_eq_true, Bool.not_eq_true'] at h
  simp [ScanEngine.registers, h.1.2, h.2]

/-- An access of another accessor than the host completes, after a transfer claim where one may be placed. -/
theorem State.turns_transferRelease {c : Claim} (hc : s.arbiter.inProgress = some c) (hne : c ≠ .host) {u : State}
    (hu : u.core = State.core { s with store := u.store, batch := u.batch }) : s.Turns u.claimTransfer.release := by
  obtain ⟨ha, hp, hs, ht, -, -⟩ := State.core_eq_iff.1 hu
  rcases u.claimTransfer_cases with e | ⟨p, e, hf⟩
  · rw [e]
    refine (State.Turn.accessed u.store u.batch s.scan s.arbiter c hc hne (.refl _) (.refl _ _) fun _ h => .inl h).release ?_
    exact State.core_eq_iff.2 ⟨congrArg Arbiter.next ha, hp, hs, ht, rfl, rfl⟩
  · rw [e, u.claim_place _ (by simp)]
    have free : s.scan.registers FrameRegister.isFilled = 0 := by
      obtain ⟨-, -, h3, h4⟩ := hs
      have := ScanEngine.filled_of_canFill hf
      simpa [ScanEngine.registers, h3, h4] using this
    refine (State.Turn.accessed u.store u.batch s.scan (s.arbiter.place (.transfer p)) c hc hne (.refl _)
      ((s.arbiter.adds_place _).mono fun _ h => by rw [h]; rfl) fun _ _ => .inr free).release ?_
    refine State.core_eq_iff.2 ⟨?_, hp, hs, ht, rfl, rfl⟩
    show (u.arbiter.place _).next = _
    rw [ha]

end Sys2Proof.Machine
end

section
/-! The checks of a request (O8, O9, O10): what a request that passes them holds. -/

namespace Sys2Proof.Machine

/-! ### What the argument checks leave -/

theorem keyInRange_iff (key : Word) : keyInRange key = true ↔ key ≠ 0 ∧ key ≠ 0xFFFF := by simp [keyInRange]

theorem payloadInRange_iff (n : Byte) : payloadInRange n = true ↔ 1 ≤ n.toNat ∧ n.toNat ≤ 8 := by simp [payloadInRange]

theorem nodeInRange_iff (n : Nat) : nodeInRange n = true ↔ 1 ≤ n ∧ n ≤ 62 := by simp [nodeInRange, Config.nodeCount]

/-- A lease value read from two bytes is one of 16 bits. -/
theorem leaseInRange_leaseAndPayload (present : Bool) (rest : List Byte) :
    leaseInRange (leaseAndPayload present rest).1 := by
  intro n hn
  unfold leaseAndPayload at hn
  split at hn
  · cases hn
    exact (wordOfBytes _ _).isLt
  · cases hn

/-- The payload has as many words as the bytes after the lease value allow. -/
theorem length_leaseAndPayload (present : Bool) (rest : List Byte) (n : Nat)
    (h : rest.length = (if present then 2 else 0) + 2 * n) : (leaseAndPayload present rest).2.length = n := by
  unfold leaseAndPayload
  cases present <;> simp [length_wordsOfBytes] at h ⊢ <;> omega

/-- The length check of a request whose arguments state their length (Table 11-5). -/
theorem lengthCheck_stated {code : Byte} {n options payload : Nat} (h : lengthRule code = .stated n options payload)
    (args : List Byte) : lengthCheck code args = true ↔
      n ≤ args.length ∧
        args.length = n + (if (argAt args options).getLsbD 2 then 2 else 0) + 2 * (argAt args payload).toNat := by
  unfold lengthCheck
  rw [h]
  simp

theorem readKey_inRange {args : List Byte} {request : Word → Request} {r : Request}
    (hq : ∀ key, (key ≠ 0 ∧ key ≠ 0xFFFF) → (request key).inRange) (h : readKey args request = .ok r) : r.inRange := by
  unfold readKey at h
  split at h
  · cases h
  next hk =>
    cases h
    exact hq _ ((keyInRange_iff _).1 (by simpa using hk))

theorem readRenew_inRange {args : List Byte} {r : Request} (h : readRenew args = .ok r) : r.inRange := by
  unfold readRenew at h
  dsimp only at h
  split at h
  · cases h
  next hk =>
    split at h
    · cases h
    · cases h
      obtain ⟨h0, h1⟩ := (keyInRange_iff _).1 (by simpa using hk)
      refine ⟨h0, h1, fun n hn => ?_⟩
      split at hn
      · cases hn
        exact (wordOfBytes _ _).isLt
      · cases hn

theorem readAmend_inRange {args : List Byte} {r : Request} (hl : lengthCheck 0x21 args = true)
    (h : readAmend args = .ok r) : r.inRange := by
  obtain ⟨hn, hlen⟩ := (lengthCheck_stated (n := 4) (options := 2) (payload := 3) (by decide) args).1 hl
  unfold readAmend at h
  dsimp only at h
  split at h
  · cases h
  next hk =>
    split at h
    · cases h
    next hp =>
      split at h
      · cases h
      · cases h
        obtain ⟨h0, h1⟩ := (keyInRange_iff _).1 (by simpa using hk)
        have length := length_leaseAndPayload ((argAt args 2).getLsbD 2) (args.drop 4) (argAt args 3).toNat
          (by rw [List.length_drop]; omega)
        obtain ⟨p0, p1⟩ := (payloadInRange_iff _).1 (by simpa using hp)
        exact ⟨h0, h1, by omega, by omega, leaseInRange_leaseAndPayload _ _⟩

theorem readInsert_inRange {args : List Byte} {r : Request} (hl : lengthCheck 0x20 args = true)
    (h : readInsert args = .ok r) : r.inRange := by
  obtain ⟨hn, hlen⟩ := (lengthCheck_stated (n := 7) (options := 5) (payload := 6) (by decide) args).1 hl
  have length := length_leaseAndPayload ((argAt args 5).getLsbD 2) (args.drop 7) (argAt args 6).toNat
    (by rw [List.length_drop]; omega)
  simp only [readInsert, ite_eq_iff, reduceCtorEq, and_false, false_or] at h
  obtain ⟨hk, hc, h⟩ := h
  split at h
  · cases h
  next cls _ =>
    simp only [ite_eq_iff, reduceCtorEq, and_false, false_or] at h
    obtain ⟨hp, ho, ha, hr, hz, h⟩ := h
    cases h
    obtain ⟨h0, h1⟩ := (keyInRange_iff _).1 (by simpa using hk)
    obtain ⟨p0, p1⟩ := (payloadInRange_iff _).1 (by simpa using hp)
    obtain ⟨⟨hnode, hnode'⟩, hchannel⟩ : (1 ≤ (argAt args 2).toNat ∧ (argAt args 2).toNat ≤ 63) ∧
        (argAt args 3).toNat ≤ 15 := by omega
    refine ⟨h0, h1, hnode, hnode', hchannel, ?_, ?_, fun hq hn => ha ⟨hq, hn⟩, fun hq => ?_, hz,
      leaseInRange_leaseAndPayload _ _⟩
    · exact length ▸ p0
    · exact length ▸ p1
    · by_contra hn
      exact hr ⟨hq, by simpa using hn⟩

theorem readConfigure_inRange {args : List Byte} {r : Request} (h : readConfigure args = .ok r) : r.inRange := by
  unfold readConfigure at h
  split at h
  · cases h
  next rate _ =>
    simp only [ite_eq_iff, reduceCtorEq, and_false, false_or] at h
    obtain ⟨h1, h2, h3, h4, h5, h⟩ := h
    cases h
    show _ ∧ _ ∧ _ ∧ _ ∧ _ ∧ _ ∧ _ ∧ _ ∧ _
    dsimp only
    refine ⟨by omega, by omega, by omega, by omega, by omega, by omega, by omega, by omega, ?_⟩
    simpa only [Configuration.meetsBudget, Config.frameBudget, Config.markBudget, Config.demandBudget, decide_eq_false_iff_not,
      not_not] using h5

theorem readNodeSet_inRange {args : List Byte} {r : Request} (h : readNodeSet args = .ok r) : r.inRange := by
  unfold readNodeSet at h
  dsimp only at h
  split at h
  · cases h
  next hn =>
    split at h
    · cases h
    · cases h
      exact (nodeInRange_iff _).1 (by simpa using hn)

/-- An answer of the checks that is no request, or one in range. -/
def Accepts (x : Except Status Request) : Prop := ∀ r, x = .ok r → r.inRange

theorem Accepts.ok {r : Request} (h : r.inRange) : Accepts (.ok r) := fun _ hr => by cases hr; exact h

theorem Accepts.error (status : Status) : Accepts (.error status) := fun _ hr => by cases hr

theorem Accepts.ite {c : Prop} [Decidable c] {x y : Except Status Request} (hx : c → Accepts x) (hy : Accepts y) :
    Accepts (if c then x else y) := by
  split
  next h => exact hx h
  · exact hy

/-- Arguments that pass the length check and the argument checks are in range (Table 10-3): the codes one by one. -/
theorem readArguments_accepts {code : Byte} {args : List Byte} (hl : lengthCheck code args = true) :
    Accepts (readArguments code args) := by
  unfold readArguments
  have plain {r : Request} {y : Except Status Request} (c : Byte) (hr : r.inRange) (hy : Accepts y) :
      Accepts (if code = c then .ok r else y) := .ite (fun _ => .ok hr) hy
  refine plain 0x01 trivial <| plain 0x02 trivial <| plain 0x03 trivial <|
    .ite (fun _ _ h => readConfigure_inRange h) <| plain 0x05 trivial <| plain 0x10 trivial <| plain 0x11 trivial <|
    plain 0x12 trivial <| plain 0x13 trivial <| .ite (fun hc _ h => readInsert_inRange (hc ▸ hl) h) <|
    .ite (fun hc _ h => readAmend_inRange (hc ▸ hl) h) <| .ite (fun _ _ h => readRenew_inRange h) <|
    .ite (fun _ _ h => readKey_inRange (request := .retire) (fun _ hk => hk) h) <|
    .ite (fun _ _ h => readKey_inRange (request := .lookup) (fun _ hk => hk) h) <|
    .ite (fun _ => .ite (fun hp => .ok hp) (.error _)) <| plain 0x26 trivial <| plain 0x30 trivial <|
    plain 0x31 trivial <| plain 0x32 trivial <| plain 0x33 trivial <|
    .ite (fun _ => .ite (fun hn => .ok ((nodeInRange_iff _).1 hn)) (.error _)) <|
    .ite (fun _ _ h => readNodeSet_inRange h) <| plain 0x50 trivial <| .error _

/-- A request that passes checks 1 to 4 has every argument within its range (R155). -/
theorem readRequest_inRange (received : List Byte) (count : Nat) (r : Request) (h : readRequest received count = .ok r) :
    r.inRange := by
  unfold readRequest at h
  split at h
  · cases h
  · split at h
    · cases h
    next hl => exact readArguments_accepts (by simpa using hl) r h

end Sys2Proof.Machine
end

section
/-! Every command is a turn of the control. -/

namespace Sys2Proof.Machine

variable (s : State)

/-! ### Boundaries -/

theorem CycleTimer.boundary_running {t : CycleTimer} {first : Bool} (h : first = true ∨ t.running = true) :
    (t.boundary first).running = true := by
  unfold CycleTimer.boundary
  rcases h with rfl | h
  · rfl
  · cases first
    · exact h
    · rfl

/-- The Scan Engine at a boundary, in a state with both registers FREE, ends in RUN, HOLD or FAULT with both FREE. -/
theorem State.scanBoundary_scan (first : Bool) (hs : s.scan.state ≠ .stopped) (hA : s.scan.regA = .free)
    (hB : s.scan.regB = .free) :
    (s.scanBoundary first).scan.state ≠ .stopped ∧ (s.scanBoundary first).scan.regA = .free ∧
      (s.scanBoundary first).scan.regB = .free ∧ (s.scanBoundary first).scan.request = .none := by
  have taken : s.scan.taken ≠ .stopped := by
    unfold ScanEngine.taken
    cases s.scan.request
    · exact hs
    · simp
    · simp
  unfold State.scanBoundary
  cases ht : s.scan.taken with
  | run | hold | fault => exact ⟨by simp, hA, hB, rfl⟩
  | stopped => exact absurd ht taken

/-- A boundary adds its claims, moves the timer, and frees the registers unless the scan is STOPPED. -/
theorem State.takeBoundary_control (first : Bool) : ∃ (e : ScanEngine) (a : Arbiter),
    (s.takeBoundary first).core =
      State.core { s with
        store := { s.store with due := [] }, scan := e, arbiter := a, timer := s.timer.boundary first } ∧
      (s.scan.state = .stopped ∧ e = s.scan ∨
        s.scan.state ≠ .stopped ∧ e.state ≠ .stopped ∧ e.regA = .free ∧ e.regB = .free) ∧
      (s.scan.state ≠ .stopped → e.request = .none) ∧ s.arbiter.Adds Claim.ofBoundary a := by
  have claims : ∀ u : State, ∃ a, u.arbiter.Adds Claim.ofBoundary a ∧
      (if (u.claim .countdown).batch.state = .sealed_ then (u.claim .countdown).claim .application
        else u.claim .countdown) = { u with arbiter := a } := by
    intro u
    have h1 := (u.arbiter.adds_place .countdown).mono (Q := Claim.ofBoundary) fun _ h => .inl h
    rw [u.claim_place _ (by simp)]
    split
    · rw [State.claim_place _ _ (by simp)]
      exact ⟨_, h1.trans ((Arbiter.adds_place _ .application).mono fun _ h => .inr h), rfl⟩
    · exact ⟨_, h1, rfl⟩
  have whole : s.takeBoundary first =
      (let u := { s with timer := s.timer.boundary first, store := { s.store with due := [] } }
       let v := if s.scan.state = .stopped then u else u.abandonTraffic
       let w := if (v.claim .countdown).batch.state = .sealed_ then (v.claim .countdown).claim .application
         else v.claim .countdown
       if w.scan.state = .stopped then w else w.scanBoundary first) := rfl
  rw [whole]
  dsimp only
  by_cases hs : s.scan.state = .stopped
  · rw [if_pos hs]
    obtain ⟨a, ha, e⟩ := claims { s with timer := s.timer.boundary first, store := { s.store with due := [] } }
    rw [e, if_pos hs]
    exact ⟨s.scan, a, rfl, .inl ⟨hs, rfl⟩, fun h => absurd hs h, ha⟩
  · rw [if_neg hs]
    obtain ⟨a, ha, e⟩ := claims
      (State.abandonTraffic { s with timer := s.timer.boundary first, store := { s.store with due := [] } })
    generalize hu : ({ State.abandonTraffic _ with arbiter := a } : State) = u at e
    rw [e, if_neg (by rw [← hu]; exact hs)]
    obtain ⟨h1, h2, h3, h4⟩ := u.scanBoundary_scan first (hu ▸ hs) (hu ▸ rfl) (hu ▸ rfl)
    refine ⟨(u.scanBoundary first).scan, a, ?_, .inr ⟨hs, h1, h2, h3⟩, fun _ => h4,
      (s.arbiter.adds_withdrawLine _).trans ha⟩
    refine State.core_eq_iff.2 ⟨?_, ?_, ⟨rfl, rfl, rfl, rfl⟩, ?_, ?_, ?_⟩ <;> simp [← hu]

/-! ### The port -/

/-- A request that arrives in READY. -/
theorem State.turns_takeRequest (miso bytes : List Byte) (hs : s.port.state = .ready) :
    s.Turns ((s.returning miso).takeRequest bytes) := by
  unfold State.takeRequest
  dsimp only
  split
  next status _ => exact (State.Turn.answered s.scan.request (.inl hs) (.inl rfl)).turns rfl
  next r hr =>
    have inRange := readRequest_inRange _ _ _ hr
    split
    next hd => exact (State.Turn.held r hs inRange hd).turns rfl
    next hd => exact (State.Turn.called r hs inRange (by simpa using hd)).claim rfl

theorem State.turns_fetch (count : Nat) : s.Turns (s.fetch count) :=
  s.turns_kept (by unfold State.fetch; split <;> rfl)

theorem State.turns_requestArrival (bytes : List Byte) (t : State) (h : execRequestArrival bytes s = .next t) :
    s.Turns t := by
  unfold execRequestArrival at h
  split at h
  · cases h; exact s.turns_kept rfl
  · cases h
    split
    · exact s.turns_kept rfl
    · split
      · exact s.turns_fetch _
      · unfold State.arrive
        split
        next hs => exact s.turns_takeRequest _ _ hs
        all_goals exact s.turns_kept rfl

/-! ### The host's accesses -/

/-- A state that a host request's access ends in: table and batch as it leaves them, and the request completed. -/
def State.Finishes (s t : State) : Prop :=
  ∃ (st : Store) (b : BatchUnit) (status : Status) (data : List Byte),
    t = State.finish { s with store := st, batch := b } status data

theorem State.Finishes.turns {s t : State} (h : s.Finishes t) {r : Request} (hr : s.heldAccess = some r)
    (hne : r ≠ .stopScan) : s.Turns t := by
  obtain ⟨st, b, status, data, rfl⟩ := h
  exact s.turns_finish (u := { s with store := st, batch := b }) hr hne rfl status data

theorem State.finishes_finish (status : Status) (data : List Byte) : s.Finishes (s.finish status data) :=
  ⟨s.store, s.batch, status, data, rfl⟩

theorem State.finishes_finishWith (st : Store) (status : Status) (data : List Byte) :
    s.Finishes (s.finishWith st status data) := ⟨st, s.batch, status, data, rfl⟩

theorem State.finishes_refuseWith (st : Store) (status : Status) : s.Finishes (s.refuseWith st status) :=
  ⟨st, s.batch, status, [], rfl⟩

theorem State.finishes_stageWith (st : Store) (e : BatchEntry) (data : List Byte) : s.Finishes (s.stageWith st e data) :=
  ⟨st, s.batch.stage e, .ok, data, rfl⟩

theorem State.finishes_insertNow (args : InsertArgs) : s.Finishes (s.insertNow args) := by
  unfold State.insertNow
  split
  · exact s.finishes_refuseWith _ _
  · split
    · exact s.finishes_refuseWith _ _
    · exact s.finishes_finishWith _ _ _

theorem State.finishes_insertStaged (args : InsertArgs) : s.Finishes (s.insertStaged args) := by
  unfold State.insertStaged
  split
  · exact s.finishes_refuseWith _ _
  · split
    · exact s.finishes_refuseWith _ _
    · split
      · exact s.finishes_refuseWith _ _
      · exact s.finishes_stageWith _ _ _

theorem State.finishes_amendNow (key : Word) (payload : List Word) (field : Option Nat) :
    s.Finishes (s.amendNow key payload field) := by
  unfold State.amendNow
  split
  · exact s.finishes_refuseWith _ _
  · dsimp only
    split
    next => exact s.finishes_finishWith _ _ _
    all_goals exact s.finishes_refuseWith _ _

theorem State.finishes_amendStaged (key : Word) (payload : List Word) (field : Option Nat) :
    s.Finishes (s.amendStaged key payload field) := by
  unfold State.amendStaged
  split
  · exact s.finishes_refuseWith _ _
  · split
    · exact s.finishes_refuseWith _ _
    · dsimp only
      split
      next => exact s.finishes_stageWith _ _ _
      all_goals exact s.finishes_refuseWith _ _

theorem State.finishes_renewNow (key : Word) (field : Option Nat) : s.Finishes (s.renewNow key field) := by
  unfold State.renewNow
  split
  · exact s.finishes_refuseWith _ _
  · dsimp only
    split
    next =>
      split
      · exact s.finishes_refuseWith _ _
      · exact s.finishes_finishWith _ _ _
    all_goals exact s.finishes_refuseWith _ _

theorem State.finishes_retireNow (key : Word) : s.Finishes (s.retireNow key) := by
  unfold State.retireNow
  split
  · exact s.finishes_refuseWith _ _
  · dsimp only
    split
    next => exact s.finishes_finishWith _ _ _
    next => exact s.finishes_finishWith _ _ _
    next => exact s.finishes_finishWith _ _ _
    all_goals exact s.finishes_refuseWith _ _

theorem State.finishes_retireStaged (key : Word) : s.Finishes (s.retireStaged key) := by
  unfold State.retireStaged
  split
  · exact s.finishes_refuseWith _ _
  · split
    · exact s.finishes_refuseWith _ _
    · dsimp only
      split
      next => exact s.finishes_stageWith _ _ _
      next => exact s.finishes_stageWith _ _ _
      all_goals exact s.finishes_refuseWith _ _

/-! ### Every command -/

theorem ScanEngine.eased_landFrame (e : ScanEngine) : e.Eased e.landFrame :=
  ⟨rfl, rfl, FrameRegister.landed_cases _, FrameRegister.landed_cases _⟩

/-- The write-back claim placed, or not. -/
theorem State.claimWriteBack_cases (u : State) :
    u.claimWriteBack = u ∨ ∃ x, u.claimWriteBack = { u with arbiter := u.arbiter.place (.writeBack x) } := by
  unfold State.claimWriteBack
  split
  · exact .inl rfl
  · split
    · exact .inl rfl
    · exact .inr ⟨_, State.claim_place _ _ (by simp)⟩

/-- The abort word, and a quiet end, free the registers. -/
theorem State.turns_sendAbort : s.Turns s.sendAbort :=
  (State.Turn.kept s.store s.batch { s.scan with regA := .free, regB := .free } ⟨rfl, rfl, .inr rfl, .inr rfl⟩).turns rfl

/-- The state in which the Reply Unit has handled a slot result (R122, R123). -/
def State.handled (item : ReplySlot) : State :=
  let u :=
    { s with
      store := s.store.writeEcho item,
      nodes := s.nodes.set item.node ((s.nodes.at item.node).afterReply s.port.config.misses item.result),
      reply := { s.reply with slots := s.reply.slots.drop 1 } }
  if u.reply.slots = [] ∧ u.scan.line = .between then { u with scan := u.scan.landFrame } else u

theorem execEchoWriteBack_eq (item : ReplySlot) (hi : s.arbiter.inProgress = some (.writeBack item)) :
    execEchoWriteBack s = .next (s.handled item).claimWriteBack.release := by
  unfold execEchoWriteBack
  rw [hi]
  rfl

theorem State.turns_echoWriteBack (item : ReplySlot) (hi : s.arbiter.inProgress = some (.writeBack item)) :
    s.Turns (s.handled item).claimWriteBack.release := by
  generalize hu : s.handled item = u
  have agree : u.arbiter = s.arbiter ∧ u.port = s.port ∧ s.scan.Eased u.scan ∧ u.timer = s.timer := by
    subst hu
    unfold State.handled
    dsimp only
    split
    · exact ⟨rfl, rfl, s.scan.eased_landFrame, rfl⟩
    · exact ⟨rfl, rfl, .refl _, rfl⟩
  obtain ⟨ha, hp, he, ht⟩ := agree
  have turn := fun a hadds htransfer =>
    State.Turn.accessed (s := s) u.store u.batch u.scan a (.writeBack item) hi (by simp) he hadds htransfer
  rcases u.claimWriteBack_cases with e | ⟨x, e⟩
  · rw [e]
    exact (turn s.arbiter (.refl _ _) fun _ h => .inl h).release
      (State.core_eq_iff.2 ⟨congrArg Arbiter.next ha, by simp [hp], ⟨rfl, rfl, rfl, rfl⟩, ht, rfl, rfl⟩)
  · rw [e]
    have adds := s.arbiter.adds_place (.writeBack x)
    refine (turn _ (adds.mono fun _ h => by rw [h]; rfl) fun p hp => .inl ?_).release
      (State.core_eq_iff.2 ⟨by show Arbiter.next _ = Arbiter.next _; rw [ha], by simp [hp], ⟨rfl, rfl, rfl, rfl⟩, ht, rfl, rfl⟩)
    exact (adds.waiting _ hp).resolve_right (by simp)

theorem State.turns_pageTransfer (p : Nat) (hi : s.arbiter.inProgress = some (.transfer p)) (t : State)
    (h : execPageTransfer s = .next t) : s.Turns t := by
  unfold execPageTransfer at h
  rw [hi] at h
  dsimp only at h
  split at h
  · cases h
    split
    · exact (State.Turn.filled (s.store.copyPage p s.timer.count).1 p _ hi).release rfl
    · exact (State.Turn.accessed (s.store.copyPage p s.timer.count).1 s.batch s.scan s.arbiter _ hi (by simp) (.refl _)
        (.refl _ _) fun _ h => .inl h).release rfl
  · cases h
    exact s.turns_transferRelease hi (by simp) rfl

theorem State.turns_demandLookup (key : Word) (hi : s.arbiter.inProgress = some (.lookup key)) (t : State)
    (h : execDemandLookup s = .next t) : s.Turns t := by
  unfold execDemandLookup at h
  rw [hi] at h
  dsimp only at h
  cases h
  refine (State.Turn.accessed (s.store.demandLookup s.batch.entries key).1 s.batch s.scan s.arbiter _ hi (by simp)
    (.refl _) (.refl _ _) fun _ h => .inl h).release ?_
  split <;> rfl

theorem State.turns_countdown (hi : s.arbiter.inProgress = some .countdown) (t : State)
    (h : execLeaseCountdown s = .next t) : s.Turns t := by
  unfold execLeaseCountdown at h
  rw [hi] at h
  generalize s.store.countdown s.port.config.withdrawals = st at h
  dsimp only at h
  cases h
  split
  · exact (State.Turn.accessed st s.batch s.scan s.arbiter _ hi (by simp) (.refl _) (.refl _ _) fun _ h => .inl h).release
      rfl
  · exact s.turns_transferRelease (u := { s with store := st.fixDue s.timer.index.toNat }) hi (by simp) rfl

theorem State.turns_application (hi : s.arbiter.inProgress = some .application) (t : State)
    (h : execBatchApplication s = .next t) : s.Turns t := by
  unfold execBatchApplication at h
  rw [hi] at h
  cases h
  exact s.turns_transferRelease (u := { s.applyBatch with store := s.applyBatch.store.fixDue s.timer.index.toNat })
    hi (by simp) rfl

/-- The Reply Unit and the Demand Server place a claim, or none, with the registers and the scan state as they were. -/
theorem State.turns_behind {u : State} (hu : u.core = s.core) (c : Claim) (hc : c.behind) :
    s.Turns { u with arbiter := u.arbiter.place c } := by
  obtain ⟨ha, hp, hs, ht, hst, hb⟩ := State.core_eq_iff.1 hu
  refine (State.Turn.posted (s.arbiter.place c) ((s.arbiter.adds_place c).mono fun _ h => h ▸ hc)).turns ?_
  exact State.core_eq_iff.2 ⟨by show u.arbiter.place c = _; rw [ha], hp, hs, ht, hst, hb⟩

/-- The state in which the Reply Unit has judged the slot that expires (R121). -/
def State.judged : State :=
  let u := { s with reply := s.reply.judge }
  if u.reply.windowOpen then u else { u with scan := { u.scan with line := .between } }

theorem State.turns_slotExpiry (t : State) (h : execReplySlotExpiry s = .next t) : s.Turns t := by
  unfold execReplySlotExpiry at h
  split at h
  · cases h; exact s.turns_sendAbort
  · split at h
    · change Host.Outcome.next (if s.judged.arbiter.outstanding 1 = true then s.judged else s.judged.claimWriteBack) = _ at h
      have agree : s.judged.core = s.core := by unfold State.judged; dsimp only; split <;> rfl
      have kept := (State.Turn.kept s.store s.batch s.scan (.refl _)).turns agree
      cases h
      split
      · exact kept
      · rcases s.judged.claimWriteBack_cases with e | ⟨x, e⟩
        · rw [e]; exact kept
        · rw [e]; exact s.turns_behind agree _ (.inl rfl)
    · cases h; exact s.turns_kept rfl

theorem State.turns_allowanceEnd (t : State) (h : execRequestAllowanceEnd s = .next t) : s.Turns t := by
  unfold execRequestAllowanceEnd at h
  split at h
  · cases h; exact s.turns_sendAbort
  · split at h
    · split at h
      next => cases h; exact s.turns_kept rfl
      next => cases h; exact s.turns_kept rfl
      next => cases h; exact s.turns_kept rfl
      next key _ =>
        cases h
        unfold State.takeDemand
        dsimp only
        split
        · rw [State.claim_place _ _ (by simp)]
          exact State.turns_behind s (u := { s with nodes := _, demand := _ }) rfl _ (.inr rfl)
        · exact s.turns_kept rfl
    · cases h; exact s.turns_kept rfl

theorem State.turns_frameStart (t : State) (h : execFrameStart s = .next t) : s.Turns t := by
  unfold execFrameStart at h
  split at h
  next f hf =>
    split at h
    · cases h
      generalize hu : ({ s with scan := { s.scan.launch with line := _, sent := _ } } : State) = u
      have agree : u.core = State.core { s with scan := s.scan.launch } := by subst hu; rfl
      obtain ⟨ha, hp, hs, ht, hst, hb⟩ := State.core_eq_iff.1 agree
      rcases u.claimTransfer_cases with e | ⟨p, e, hc⟩
      · rw [e]
        exact (State.Turn.launched f s.arbiter hf (.inl rfl)).turns agree
      · rw [e, u.claim_place _ (by simp)]
        refine (State.Turn.launched f _ hf (.inr ⟨p, rfl, ?_⟩)).turns
          (State.core_eq_iff.2 ⟨by show u.arbiter.place _ = _; rw [ha], hp, hs, ht, hst, hb⟩)
        subst hu
        exact hc
    · cases h; exact s.turns_kept rfl
  · cases h; exact s.turns_kept rfl

theorem State.turns_stopScan (t : State) (h : execStopScan s = .next t) : s.Turns t := by
  unfold execStopScan at h
  split at h
  next hr =>
    dsimp only at h
    cases h
    split
    next hs => exact (State.Turn.stopEnds hr hs.1 hs.2).release (by
      refine State.core_eq_iff.2 ⟨rfl, ?_, ⟨rfl, rfl, rfl, rfl⟩, rfl, rfl, rfl⟩
      unfold State.stopInAccess
      dsimp only
      split <;> exact ⟨rfl, rfl, rfl, rfl⟩)
    next hs => exact (State.Turn.stopIdle hr hs).release rfl
  · cases h; exact s.turns_kept rfl

theorem State.turns_stopCompletion (t : State) (h : execStopScanCompletion s = .next t) : s.Turns t := by
  unfold execStopScanCompletion at h
  split at h
  next hr =>
    split at h
    next hd =>
      dsimp only at h
      cases h
      split
      · exact (State.Turn.stopCompleted { s.scan with regA := .free, regB := .free } hr hd.1
          ⟨rfl, rfl, .inr rfl, .inr rfl⟩).turns rfl
      · exact (State.Turn.stopCompleted s.scan hr hd.1 (.refl _)).turns rfl
    · cases h; exact s.turns_kept rfl
  · cases h; exact s.turns_kept rfl

theorem State.turns_startScan (hr : s.heldDirect = some .startScan) (hs : s.scan.state = .stopped) :
    s.Turns (s.startScan.complete .ok []) := by
  obtain ⟨e, a, hcore, he, -, ha⟩ := State.takeBoundary_control { s with scan := { s.scan with state := .run } } true
  obtain ⟨-, h1, h2, h3⟩ := he.resolve_left fun h => by cases h.1
  refine (State.Turn.started { s.store with due := [] } e a hr hs h1 h2 h3 ha).turns ?_
  obtain ⟨ca, ⟨-, cc, -, -⟩, cs, ct, cst, cb⟩ := State.core_eq_iff.1 hcore
  exact State.core_eq_iff.2 ⟨ca, ⟨rfl, cc, rfl, rfl⟩, cs, ct, cst, cb⟩

theorem State.turns_boundary (t : State) (h : execBoundary s = .next t) : s.Turns t := by
  unfold execBoundary at h
  cases h
  split
  next hr =>
    obtain ⟨e, a, hcore, he, -, ha⟩ := s.takeBoundary_control false
    exact (State.Turn.boundary _ e a hr he ha).turns hcore
  · exact s.turns_kept rfl

end Sys2Proof.Machine
end

section
/-! Every command is a turn of the control: the commands one by one, and what a step makes of the control. -/

namespace Sys2Proof.Machine

theorem State.takeNotices_core (s : State) (l : List NoticeSource) :
    (l.foldl takeOne (s, [])).1.core = State.core { s with
      store := (l.foldl takeOne (s, [])).1.store, batch := (l.foldl takeOne (s, [])).1.batch } := by
  rw [foldl_takeOne_frame l (s, [])]
  rfl

theorem exec_resetRelease_turns (s t : State) (h : exec .resetRelease s = .next t) : s.Turns t := by
  simp only [exec, execResetRelease] at h
  split at h <;> cases h
  · exact (State.Turn.reset HostPort.initial rfl rfl rfl).turns rfl
  · exact s.turns_kept rfl

theorem exec_initializationEnd_turns (s t : State) (h : exec .initializationEnd s = .next t) : s.Turns t := by
  simp only [exec, execInitializationEnd] at h
  split at h <;> cases h
  next hs => exact (State.Turn.initialized hs.1 hs.2.1).turns rfl
  · exact s.turns_kept rfl

theorem exec_configure_turns (s t : State) (h : exec .configure s = .next t) : s.Turns t := by
  simp only [exec, execConfigure] at h
  split at h
  next c hr =>
    split at h
    · cases h; exact (s.finishes_finish _ _).turns hr (by simp)
    · split at h
      · cases h; exact (s.finishes_finish _ _).turns hr (by simp)
      · cases h; exact s.turns_finish (u := s.setConfiguration c) hr (by simp) rfl _ _
  · cases h; exact s.turns_kept rfl

theorem exec_clear_turns (s t : State) (h : exec .clear s = .next t) : s.Turns t := by
  simp only [exec, execClear] at h
  split at h
  next hr =>
    cases h
    split
    next hs => exact (State.Turn.clearing hr hs).turns rfl
    · exact (s.finishes_finish _ _).turns hr (by simp)
  · cases h; exact s.turns_kept rfl

theorem exec_clearInitializationEnd_turns (s t : State) (h : exec .clearInitializationEnd s = .next t) : s.Turns t := by
  simp only [exec, execClearInitializationEnd] at h
  cases h
  split
  next hs => exact (State.Turn.cleared hs.1 hs.2).turns (by rw [State.finish_eq]; rfl)
  · exact s.turns_kept rfl

theorem exec_startScan_turns (s t : State) (h : exec .startScan s = .next t) : s.Turns t := by
  simp only [exec, execStartScan] at h
  split at h
  next hr =>
    cases h
    split
    next hs => exact s.turns_startScan hr hs
    · exact s.turns_answer (u := s) hr rfl rfl (.inl rfl) _ _
  · cases h; exact s.turns_kept rfl

theorem exec_holdScan_turns (s t : State) (h : exec .holdScan s = .next t) : s.Turns t := by
  simp only [exec, execHoldScan] at h
  split at h
  next hr =>
    split at h
    next => cases h; exact s.turns_answer (u := s) hr rfl rfl (.inl rfl) _ _
    next hs =>
      cases h
      exact s.turns_answer (u := { s with scan := { s.scan with request := s.scan.holdRequest } }) hr rfl rfl (.inr hs) _ _
  · cases h; exact s.turns_kept rfl

theorem exec_resumeScan_turns (s t : State) (h : exec .resumeScan s = .next t) : s.Turns t := by
  simp only [exec, execResumeScan] at h
  split at h
  next hr =>
    split at h
    next => cases h; exact s.turns_answer (u := s) hr rfl rfl (.inl rfl) _ _
    next hs =>
      cases h
      exact s.turns_answer (u := { s with scan := { s.scan with request := s.scan.resumeRequest } }) hr rfl rfl (.inr hs) _ _
  · cases h; exact s.turns_kept rfl

theorem exec_insert_turns (s t : State) (h : exec .insert s = .next t) : s.Turns t := by
  simp only [exec, execInsert] at h
  split at h
  next args hr =>
    have turn {u : State} (hu : s.Finishes u) : s.Turns u := hu.turns hr (by simp)
    split at h
    next => cases h; exact turn (s.finishes_insertNow args)
    next => cases h; exact turn (s.finishes_insertStaged args)
    next => cases h; exact turn (s.finishes_refuseWith _ _)
  · cases h; exact s.turns_kept rfl

theorem exec_amend_turns (s t : State) (h : exec .amend s = .next t) : s.Turns t := by
  simp only [exec, execAmend] at h
  split at h
  next key payload field hr =>
    have turn {u : State} (hu : s.Finishes u) : s.Turns u := hu.turns hr (by simp)
    split at h
    next => cases h; exact turn (s.finishes_amendNow key payload field)
    next => cases h; exact turn (s.finishes_amendStaged key payload field)
    next => cases h; exact turn (s.finishes_refuseWith _ _)
  · cases h; exact s.turns_kept rfl

theorem exec_renew_turns (s t : State) (h : exec .renew s = .next t) : s.Turns t := by
  simp only [exec, execRenew] at h
  split at h
  next key field hr => cases h; exact (s.finishes_renewNow key field).turns hr (by simp)
  · cases h; exact s.turns_kept rfl

theorem exec_retire_turns (s t : State) (h : exec .retire s = .next t) : s.Turns t := by
  simp only [exec, execRetire] at h
  split at h
  next key hr =>
    have turn {u : State} (hu : s.Finishes u) : s.Turns u := hu.turns hr (by simp)
    split at h
    next => cases h; exact turn (s.finishes_retireNow key)
    next => cases h; exact turn (s.finishes_retireStaged key)
    next => cases h; exact turn (s.finishes_refuseWith _ _)
  · cases h; exact s.turns_kept rfl

theorem exec_lookup_turns (s t : State) (h : exec .lookup s = .next t) : s.Turns t := by
  simp only [exec, execLookup] at h
  split at h
  next key hr =>
    split at h
    next => cases h; exact (s.finishes_refuseWith _ _).turns hr (by simp)
    next => cases h; exact (s.finishes_finishWith _ _ _).turns hr (by simp)
  · cases h; exact s.turns_kept rfl

theorem exec_pageQuery_turns (s t : State) (h : exec .pageQuery s = .next t) : s.Turns t := by
  simp only [exec, execPageQuery] at h
  split at h
  next p hr => cases h; exact (s.finishes_finish _ _).turns hr (by simp)
  · cases h; exact s.turns_kept rfl

theorem exec_loadQuery_turns (s t : State) (h : exec .loadQuery s = .next t) : s.Turns t := by
  simp only [exec, execLoadQuery] at h
  split at h
  next hr => cases h; exact (s.finishes_finish _ _).turns hr (by simp)
  · cases h; exact s.turns_kept rfl

theorem exec_openBatch_turns (s t : State) (h : exec .openBatch s = .next t) : s.Turns t := by
  simp only [exec, execOpenBatch] at h
  split at h
  next hr =>
    split at h
    next => cases h; exact s.turns_finish (u := { s with batch := ⟨.open_, []⟩ }) hr (by simp) rfl _ _
    next => cases h; exact (s.finishes_finish _ _).turns hr (by simp)
    next => cases h; exact (s.finishes_finish _ _).turns hr (by simp)
  · cases h; exact s.turns_kept rfl

theorem exec_commitBatch_turns (s t : State) (h : exec .commitBatch s = .next t) : s.Turns t := by
  simp only [exec, execCommitBatch] at h
  split at h
  next hr =>
    split at h
    next => cases h; exact (s.finishes_finish _ _).turns hr (by simp)
    next => cases h; exact (s.finishes_finish _ _).turns hr (by simp)
    next =>
      split at h
      · cases h; exact s.turns_finish (u := s.applyBatch) hr (by simp) rfl _ _
      · cases h
        exact s.turns_finish (u := { s with batch := { s.batch with state := .sealed_ } }) hr (by simp) rfl _ _
  · cases h; exact s.turns_kept rfl

theorem exec_abortBatch_turns (s t : State) (h : exec .abortBatch s = .next t) : s.Turns t := by
  simp only [exec, execAbortBatch] at h
  split at h
  next hr =>
    split at h
    next => cases h; exact (s.finishes_finish _ _).turns hr (by simp)
    next => cases h; exact (s.finishes_finish _ _).turns hr (by simp)
    next =>
      cases h
      exact s.turns_finish
        (u := { s with batch := BatchUnit.initial, store := s.store.abortBatch s.batch.entries }) hr (by simp) rfl _ _
  · cases h; exact s.turns_kept rfl

theorem exec_batchQuery_turns (s t : State) (h : exec .batchQuery s = .next t) : s.Turns t := by
  simp only [exec, execBatchQuery] at h
  split at h
  next hr => cases h; exact (s.finishes_finish _ _).turns hr (by simp)
  · cases h; exact s.turns_kept rfl

theorem exec_takeNotices_turns (s t : State) (h : exec .takeNotices s = .next t) : s.Turns t := by
  simp only [exec, execTakeNotices] at h
  split at h
  next hr => cases h; exact s.turns_finish (u := (s.reportable.foldl takeOne (s, [])).1) hr (by simp) (s.takeNotices_core _) _ _
  · cases h; exact s.turns_kept rfl

theorem exec_identify_turns (s t : State) (h : exec .identify s = .next t) : s.Turns t := by
  simp only [exec, execIdentify] at h
  split at h
  next hr => cases h; exact s.turns_answer (u := s) hr rfl rfl (.inl rfl) _ _
  · cases h; exact s.turns_kept rfl

theorem exec_status_turns (s t : State) (h : exec .status s = .next t) : s.Turns t := by
  simp only [exec, execStatus] at h
  split at h
  next hr => cases h; exact s.turns_answer (u := s) hr rfl rfl (.inl rfl) _ _
  · cases h; exact s.turns_kept rfl

theorem exec_readConfiguration_turns (s t : State) (h : exec .readConfiguration s = .next t) : s.Turns t := by
  simp only [exec, execReadConfiguration] at h
  split at h
  next hr => cases h; exact s.turns_answer (u := s) hr rfl rfl (.inl rfl) _ _
  · cases h; exact s.turns_kept rfl

theorem exec_nodeQuery_turns (s t : State) (h : exec .nodeQuery s = .next t) : s.Turns t := by
  simp only [exec, execNodeQuery] at h
  split at h
  next n hr => cases h; exact s.turns_answer (u := s) hr rfl rfl (.inl rfl) _ _
  · cases h; exact s.turns_kept rfl

theorem exec_nodeSet_turns (s t : State) (h : exec .nodeSet s = .next t) : s.Turns t := by
  simp only [exec, execNodeSet] at h
  split at h
  next n p c hr =>
    cases h
    exact s.turns_answer (u := { s with nodes := s.nodes.set n ((s.nodes.at n).changed p c) }) hr rfl rfl (.inl rfl) _ _
  · cases h; exact s.turns_kept rfl

theorem exec_leaseCountdown_turns (s t : State) (h : exec .leaseCountdown s = .next t) : s.Turns t := by
  by_cases hp : s.arbiter.inProgress = some .countdown
  · exact s.turns_countdown hp t h
  · simp only [exec, execLeaseCountdown] at h
    cases h
    exact s.turns_kept rfl

theorem exec_batchApplication_turns (s t : State) (h : exec .batchApplication s = .next t) : s.Turns t := by
  by_cases hp : s.arbiter.inProgress = some .application
  · exact s.turns_application hp t h
  · simp only [exec, execBatchApplication] at h
    cases h
    exact s.turns_kept rfl

theorem exec_pageTransfer_turns (s t : State) (h : exec .pageTransfer s = .next t) : s.Turns t := by
  by_cases hp : ∃ p, s.arbiter.inProgress = some (.transfer p)
  · obtain ⟨p, hp⟩ := hp
    exact s.turns_pageTransfer p hp t h
  · simp only [exec, execPageTransfer] at h
    split at h
    next p hi => exact absurd ⟨p, hi⟩ hp
    · cases h; exact s.turns_kept rfl

theorem exec_echoWriteBack_turns (s t : State) (h : exec .echoWriteBack s = .next t) : s.Turns t := by
  by_cases hp : ∃ x, s.arbiter.inProgress = some (.writeBack x)
  · obtain ⟨x, hp⟩ := hp
    rw [show exec .echoWriteBack s = execEchoWriteBack s from rfl, execEchoWriteBack_eq s x hp] at h
    cases h
    exact s.turns_echoWriteBack x hp
  · simp only [exec, execEchoWriteBack] at h
    split at h
    next x hi => exact absurd ⟨x, hi⟩ hp
    · cases h; exact s.turns_kept rfl

theorem exec_demandLookup_turns (s t : State) (h : exec .demandLookup s = .next t) : s.Turns t := by
  by_cases hp : ∃ k, s.arbiter.inProgress = some (.lookup k)
  · obtain ⟨k, hp⟩ := hp
    exact s.turns_demandLookup k hp t h
  · simp only [exec, execDemandLookup] at h
    split at h
    next k hi => exact absurd ⟨k, hi⟩ hp
    · cases h; exact s.turns_kept rfl

theorem exec_frameEnd_turns (s t : State) (h : exec .frameEnd s = .next t) : s.Turns t := by
  simp only [exec, execFrameEnd] at h
  have landed := State.Turn.kept s.store s.batch s.scan.landFrame s.scan.eased_landFrame
  split at h
  next =>
    split at h
    next =>
      split at h
      · cases h; exact landed.turns rfl
      · cases h; exact s.turns_kept rfl
    next => cases h; exact s.turns_kept rfl
  next => cases h; exact s.turns_kept rfl

theorem exec_demandWindowOpen_turns (s t : State) (h : exec .demandWindowOpen s = .next t) : s.Turns t := by
  simp only [exec, execDemandWindowOpen] at h
  cases h
  split
  · exact (State.Turn.kept s.store s.batch s.scan.landFrame s.scan.eased_landFrame).turns rfl
  · exact s.turns_kept rfl

theorem exec_readbackMismatch_turns (s t : State) (h : exec .readbackMismatch s = .next t) : s.Turns t := by
  simp only [exec, execReadbackMismatch] at h
  cases h
  split
  next hc =>
    refine (State.Turn.faulted fun hs => ?_).turns rfl
    simp [State.comparing, hs] at hc
  · exact s.turns_kept rfl

theorem exec_answerAllowanceStart_turns (s t : State) (h : exec .answerAllowanceStart s = .next t) : s.Turns t := by
  simp only [exec, execAnswerAllowanceStart] at h
  split at h
  · split at h <;> cases h <;> exact s.turns_kept rfl
  · cases h; exact s.turns_kept rfl

theorem exec_cycleMarkEnd_turns (s t : State) (h : exec .cycleMarkEnd s = .next t) : s.Turns t := by
  cases h
  refine s.turns_kept ?_
  split
  · rfl
  · split <;> rfl

/-- Every command is a turn of the control. -/
theorem exec_turns (c : Instr) (s t : State) (h : exec c s = .next t) : s.Turns t := by
  cases c
  case powerOn => cases h; exact (State.Turn.reset HostPort.initial rfl rfl rfl).turns rfl
  case resetAssert => cases h; exact (State.Turn.reset _ rfl rfl rfl).turns rfl
  case resetRelease => exact exec_resetRelease_turns s t h
  case initializationEnd => exact exec_initializationEnd_turns s t h
  case fetch count => cases h; exact s.turns_fetch count
  case requestArrival bytes => exact s.turns_requestArrival bytes t h
  case configure => exact exec_configure_turns s t h
  case clear => exact exec_clear_turns s t h
  case clearInitializationEnd => exact exec_clearInitializationEnd_turns s t h
  case startScan => exact exec_startScan_turns s t h
  case stopScan => exact s.turns_stopScan t h
  case stopScanCompletion => exact s.turns_stopCompletion t h
  case holdScan => exact exec_holdScan_turns s t h
  case resumeScan => exact exec_resumeScan_turns s t h
  case insert => exact exec_insert_turns s t h
  case amend => exact exec_amend_turns s t h
  case renew => exact exec_renew_turns s t h
  case retire => exact exec_retire_turns s t h
  case lookup => exact exec_lookup_turns s t h
  case pageQuery => exact exec_pageQuery_turns s t h
  case loadQuery => exact exec_loadQuery_turns s t h
  case openBatch => exact exec_openBatch_turns s t h
  case commitBatch => exact exec_commitBatch_turns s t h
  case abortBatch => exact exec_abortBatch_turns s t h
  case batchQuery => exact exec_batchQuery_turns s t h
  case takeNotices => exact exec_takeNotices_turns s t h
  case identify => exact exec_identify_turns s t h
  case status => exact exec_status_turns s t h
  case readConfiguration => exact exec_readConfiguration_turns s t h
  case nodeQuery => exact exec_nodeQuery_turns s t h
  case nodeSet => exact exec_nodeSet_turns s t h
  case boundary => exact s.turns_boundary t h
  case leaseCountdown => exact exec_leaseCountdown_turns s t h
  case batchApplication => exact exec_batchApplication_turns s t h
  case pageTransfer => exact exec_pageTransfer_turns s t h
  case echoWriteBack => exact exec_echoWriteBack_turns s t h
  case demandLookup => exact exec_demandLookup_turns s t h
  case frameStart => exact s.turns_frameStart t h
  case replySlotExpiry => exact s.turns_slotExpiry t h
  case requestAllowanceEnd => exact s.turns_allowanceEnd t h
  case frameEnd => exact exec_frameEnd_turns s t h
  case demandWindowOpen => exact exec_demandWindowOpen_turns s t h
  case readbackMismatch => exact exec_readbackMismatch_turns s t h
  case replyArrival | demandRequestArrival | strayLineWord =>
    cases h
    refine s.turns_kept ?_
    unfold State.receive
    split
    · rfl
    · split <;> rfl
  case answerAllowanceStart => exact exec_answerAllowanceStart_turns s t h
  case answerSent | demandWindowEnd =>
    cases h
    refine s.turns_kept ?_
    split <;> rfl
  case cycleMarkEnd => exact exec_cycleMarkEnd_turns s t h
  case emptyTransaction | storageUpset => cases h; exact s.turns_kept rfl

end Sys2Proof.Machine
end

section
/-! What every turn keeps of the registers and the timer (O58, O59). -/

namespace Sys2Proof.Machine

/-! ### Steps -/

/-- A step runs one command with the rest of the queue, or idles. -/
theorem step_cases {s t : State} (h : step s = .next t) :
    t = s ∨ ∃ c rest, s.pending = c :: rest ∧ exec c { s with pending := rest } = .next t := by
  unfold step at h
  split at h
  · cases h; exact .inl rfl
  next c rest hq => exact .inr ⟨c, rest, hq, h⟩

/-- A law that does not speak of the queue and that every command keeps is kept by every step. -/
theorem step_keeps {P : State → Prop} (hq : ∀ s q, P s → P { s with pending := q })
    (hx : ∀ c s t, P s → exec c s = .next t → P t) {s t : State} (h : step s = .next t) (hs : P s) : P t := by
  rcases step_cases h with rfl | ⟨c, rest, -, he⟩
  · exact hs
  · exact hx c _ t (hq s rest hs) he

/-! ### The registers (R18, R111) -/

/-- No transfer claim waits while a transfer is in progress (R18). -/
def Arbiter.Once (a : Arbiter) : Prop := ∀ p, a.inProgress = some (.transfer p) → ∀ q, .transfer q ∉ a.waiting

theorem Arbiter.once_next (a : Arbiter) : a.next.Once := by
  intro p hp q hq
  rcases a.next_cases with e | ⟨c, -, hi, hw⟩
  · rw [e] at hp
    cases hp
  · rw [hi] at hp
    cases hp
    exact (hw _ hq).2 rfl

theorem Arbiter.Adds.once {P : Claim → Prop} {a b : Arbiter} (h : a.Adds P b) (hP : ∀ p, ¬ P (.transfer p))
    (ha : a.Once) : b.Once := by
  intro p hp q hq
  rcases h.inProgress with e | ⟨-, c, hc, e⟩
  · exact ha p (e ▸ hp) q ((h.waiting _ hq).resolve_right (hP q))
  · rw [e] at hp
    cases hp
    exact hP p hc

/-- A transfer claim placed while none is outstanding is the only one. -/
theorem Arbiter.once_place {a : Arbiter} (p : Nat) (h : a.outstanding 0 = false) : (a.place (.transfer p)).Once := by
  have none : ∀ q, .transfer q ∉ a.waiting := fun q hq => by
    have := (a.outstanding_iff 0).2 ⟨_, .inr hq, rfl⟩
    rw [h] at this
    cases this
  unfold Arbiter.place
  cases hi : a.inProgress with
  | none => exact fun _ _ q hq => none q (List.mem_filter.1 hq).1
  | some c =>
    have same : (a.enqueue (.transfer p)).inProgress = some c := by
      unfold Arbiter.enqueue
      split <;> exact hi
    intro q hq
    have hc : c = .transfer q := by simpa [same] using hq
    have := (a.outstanding_iff 0).2 ⟨c, .inl hi, by rw [hc]; rfl⟩
    rw [h] at this
    cases this

/-- The number of registers with a property that FREE has not does not rise where registers are eased. -/
theorem ScanEngine.Eased.registers_le {e e' : ScanEngine} (h : e.Eased e') (test : FrameRegister → Bool)
    (hf : test .free = false) : e'.registers test ≤ e.registers test := by
  have one : ∀ x y : FrameRegister, y = x ∨ y = .free → (test y).toNat ≤ (test x).toNat := by
    rintro x y (rfl | rfl)
    · exact le_rfl
    · simp [hf]
  exact Nat.add_le_add (one _ _ h.regA) (one _ _ h.regB)

theorem State.Registers.of_core {s t : State} (h : t.core = s.core) (hs : s.Registers) : t.Registers := by
  obtain ⟨ha, -, ⟨-, -, hA, hB⟩, -⟩ := State.core_eq_iff.1 h
  have count : ∀ test, t.scan.registers test = s.scan.registers test := fun test => by
    unfold ScanEngine.registers
    rw [hA, hB]
  exact ⟨count _ ▸ hs.filled, count _ ▸ hs.inFlight, by rw [ha, count]; exact hs.claimed, by rw [ha]; exact hs.once⟩

theorem State.Registers.eased {s w : State} (hs : s.Registers) (he : s.scan.Eased w.scan)
    (ho : w.arbiter.outstanding 0 = true → s.arbiter.outstanding 0 = true) (honce : w.arbiter.Once) : w.Registers :=
  ⟨(he.registers_le _ rfl).trans hs.filled, (he.registers_le _ rfl).trans hs.inFlight,
    fun h => Nat.le_zero.1 ((hs.claimed (ho h)) ▸ he.registers_le _ rfl), honce⟩

/-- Where both registers are FREE only the claims matter. -/
theorem State.Registers.of_free {w : State} (hA : w.scan.regA = .free) (hB : w.scan.regB = .free)
    (honce : w.arbiter.Once) : w.Registers := by
  have count : ∀ test : FrameRegister → Bool, test .free = false → w.scan.registers test = 0 := fun test hf => by
    simp [ScanEngine.registers, hA, hB, hf]
  exact ⟨by rw [count _ rfl]; omega, by rw [count _ rfl]; omega, fun _ => count _ rfl, honce⟩

theorem Arbiter.outstanding_of_next {a : Arbiter} {r : Nat} (h : a.next.outstanding r = true) : a.outstanding r = true :=
  have ⟨c, hc, hr⟩ := a.outstanding_next r h
  (a.outstanding_iff r).2 ⟨c, .inr hc, hr⟩

theorem Arbiter.outstanding_of_mem {a : Arbiter} {c : Claim} (h : c ∈ a.waiting) : a.outstanding c.rank = true :=
  (a.outstanding_iff _).2 ⟨c, .inr h, rfl⟩

theorem Claim.eq_transfer_of_rank {c : Claim} (h : c.rank = 0) : ∃ p, c = .transfer p := by
  cases c <;> simp_all [Claim.rank]

/-- A claim of another accessor leaves the transfer claims as they were. -/
theorem Arbiter.Adds.outstanding_of_ne {P : Claim → Prop} {a b : Arbiter} (h : a.Adds P b) {r : Nat}
    (hP : ∀ c, P c → c.rank ≠ r) (hb : b.outstanding r = true) : a.outstanding r = true :=
  (h.outstanding hb).resolve_right fun ⟨c, hc, hr⟩ => hP c hc hr

theorem Claim.ofBoundary_rank {c : Claim} (h : c.ofBoundary) : c.rank = 2 ∨ c.rank = 3 := by
  rcases h with rfl | rfl <;> simp [Claim.rank]

/-- The frame that waits is in a register that is FILLED. -/
theorem ScanEngine.filled_of_waitingFrame {e : ScanEngine} {f : Frame} (h : e.waitingFrame = some f) :
    e.registers FrameRegister.isFilled ≠ 0 := by
  unfold ScanEngine.waitingFrame at h
  unfold ScanEngine.registers
  cases hA : e.regA <;> cases hB : e.regB <;> simp_all [FrameRegister.filled?, FrameRegister.isFilled]

/-- Filling a FREE register, with none FILLED before. -/
theorem ScanEngine.registers_fill (e : ScanEngine) (f : Frame) (h : e.registers FrameRegister.isFilled = 0) :
    (e.fill f).registers FrameRegister.isFilled ≤ 1 ∧
      (e.fill f).registers FrameRegister.isInFlight = e.registers FrameRegister.isInFlight := by
  have hA : e.regA.isFilled = false := by
    cases he : e.regA.isFilled <;> simp_all [ScanEngine.registers]
  have hB : e.regB.isFilled = false := by
    cases he : e.regB.isFilled <;> simp_all [ScanEngine.registers]
  have filled : FrameRegister.isFilled (.filled f) = true := rfl
  unfold ScanEngine.fill
  split
  next free => simp [ScanEngine.registers, free, hB, filled, FrameRegister.isInFlight]
  · split
    next free => simp [ScanEngine.registers, free, hA, filled, FrameRegister.isInFlight]
    · simp [ScanEngine.registers, hA, hB]

/-- A frame that begins: its register is IN FLIGHT, and the other is FREE. -/
theorem ScanEngine.registers_launch {e : ScanEngine} {f : Frame} (hf : e.waitingFrame = some f)
    (h : e.registers FrameRegister.isFilled ≤ 1) :
    e.launch.registers FrameRegister.isFilled = 0 ∧ e.launch.registers FrameRegister.isInFlight = 1 := by
  unfold ScanEngine.waitingFrame at hf
  unfold ScanEngine.launch
  unfold ScanEngine.registers at h ⊢
  cases hA : e.regA with
  | filled x =>
    cases hB : e.regB with
    | filled y => simp [hA, hB, FrameRegister.isFilled] at h
    | free | inFlight => exact ⟨rfl, rfl⟩
  | free | inFlight =>
    cases hB : e.regB with
    | filled y => exact ⟨rfl, rfl⟩
    | free | inFlight => rw [hA, hB] at hf; cases hf

theorem State.Granted.registers {u v : State} (h : u.Granted v) (hu : u.Registers) : v.Registers := by
  cases h with
  | plain => exact hu
  | stops e _ _ _ he =>
    have adds := u.arbiter.adds_withdrawLine (fun _ => False)
    refine State.Registers.eased (s := { u with scan := { u.scan with state := .stopped, request := .none } })
      ⟨hu.filled, hu.inFlight, hu.claimed, hu.once⟩ he ?_ (adds.once (fun _ h => h) hu.once)
    exact fun h => (adds.outstanding h).resolve_right fun ⟨_, h, _⟩ => h

theorem State.stopInAccess_scan (s : State) : s.stopInAccess.scan = s.scan := by
  unfold State.stopInAccess
  dsimp only
  split <;> rfl

theorem State.stopInAccess_arbiter (s : State) : s.stopInAccess.arbiter =
    { s.arbiter with waiting := s.arbiter.waiting.filter fun c => decide (c ≠ .countdown ∧ c ≠ .application) } := by
  unfold State.stopInAccess
  dsimp only
  split <;> rfl

/-- STOP SCAN's access withdraws claims and places none (R78, R92). -/
theorem State.stopInAccess_adds (s : State) : s.arbiter.Adds (fun _ => False) s.stopInAccess.arbiter := by
  rw [s.stopInAccess_arbiter]
  exact ⟨.inl rfl, fun _ hc => .inl (List.mem_filter.1 hc).1⟩

/-- Every turn keeps the registers within their bounds (R111). -/
theorem State.Turn.registers {s w : State} (h : s.Turn w) (hs : s.Registers) : w.Registers := by
  cases h with
  | kept st b e he => exact hs.eased he id hs.once
  | reset => exact .of_free rfl rfl fun _ h => by cases h
  | initialized => exact ⟨hs.filled, hs.inFlight, hs.claimed, hs.once⟩
  | answered q => exact ⟨hs.filled, hs.inFlight, hs.claimed, hs.once⟩
  | held r => exact ⟨hs.filled, hs.inFlight, hs.claimed, hs.once⟩
  | called r =>
    have adds := s.arbiter.adds_place .host
    exact hs.eased (.refl _) (adds.outstanding_of_ne fun c hc => by rw [hc]; decide) (adds.once (by simp) hs.once)
  | started st e a _ _ _ hA hB ha =>
    exact .of_free hA hB (ha.once (by simp [Claim.ofBoundary]) hs.once)
  | stopCompleted e _ _ he => exact hs.eased he id hs.once
  | finished st b r => exact hs.eased (.refl _) Arbiter.outstanding_of_next (Arbiter.once_next _)
  | clearing =>
    refine hs.eased (.refl _) (fun h => ?_) fun _ _ _ h => by cases h
    obtain ⟨c, hc, hr⟩ := (Arbiter.outstanding_iff _ _).1 h
    exact (Arbiter.outstanding_iff _ _).2 ⟨c, .inl (hc.resolve_right List.not_mem_nil), hr⟩
  | cleared => exact hs.eased (.refl _) Arbiter.outstanding_of_next (Arbiter.once_next _)
  | stopEnds =>
    refine hs.eased (w := { s.stopInAccess with port := _, arbiter := _ }) ?_ (fun h => ?_) (Arbiter.once_next _)
    · exact s.stopInAccess_scan ▸ .refl _
    · exact s.stopInAccess_adds.outstanding_of_ne (fun _ h => absurd h id) (Arbiter.outstanding_of_next h)
  | stopIdle => exact hs.eased (.refl _) Arbiter.outstanding_of_next (Arbiter.once_next _)
  | boundary st e a _ he ha =>
    have once := ha.once (by simp [Claim.ofBoundary]) hs.once
    rcases he with ⟨-, rfl⟩ | ⟨-, -, hA, hB⟩
    · exact hs.eased (.refl _) (ha.outstanding_of_ne fun c hc => by have := Claim.ofBoundary_rank hc; omega) once
    · exact .of_free hA hB once
  | accessed st b e a c hc hne he ha ht =>
    refine ⟨(he.registers_le _ rfl).trans hs.filled, (he.registers_le _ rfl).trans hs.inFlight, fun h => ?_,
      a.once_next⟩
    obtain ⟨d, hd, hr⟩ := a.outstanding_next 0 h
    obtain ⟨p, rfl⟩ := Claim.eq_transfer_of_rank hr
    rcases ht p hd with hw | hf
    · exact Nat.le_zero.1 (hs.claimed (Arbiter.outstanding_of_mem hw) ▸ he.registers_le _ rfl)
    · exact hf
  | filled st p f hc =>
    have none := hs.claimed ((Arbiter.outstanding_iff _ _).2 ⟨_, .inl hc, rfl⟩)
    obtain ⟨h1, h2⟩ := s.scan.registers_fill f none
    refine ⟨h1, h2 ▸ hs.inFlight, fun h => ?_, Arbiter.once_next _⟩
    obtain ⟨d, hd, hr⟩ := Arbiter.outstanding_next _ 0 h
    obtain ⟨q, rfl⟩ := Claim.eq_transfer_of_rank hr
    exact absurd hd (hs.once p hc q)
  | posted a ha =>
    have other : ∀ c : Claim, c.behind → c.rank ≠ 0 := fun c hc => by unfold Claim.behind at hc; omega
    exact hs.eased (.refl _) (ha.outstanding_of_ne other) (ha.once (fun p hp => other _ hp rfl) hs.once)
  | launched f a hf ha =>
    obtain ⟨h1, h2⟩ := ScanEngine.registers_launch hf hs.filled
    refine ⟨h1.trans_le (Nat.zero_le 1), h2.le, fun _ => h1, ?_⟩
    rcases ha with rfl | ⟨p, rfl, -⟩
    · exact hs.once
    · refine Arbiter.once_place p ?_
      rw [Bool.eq_false_iff]
      exact fun h => ScanEngine.filled_of_waitingFrame hf (hs.claimed h)
  | faulted => exact .of_free rfl rfl ((s.arbiter.adds_withdrawLine (fun _ => False)).once (fun _ h => h) hs.once)

theorem State.Turns.registers {s t : State} (h : s.Turns t) (hs : s.Registers) : t.Registers := by
  obtain ⟨w, u, v, hw, e1, hg, e2⟩ := h
  exact (hg.registers ((hw.registers hs).of_core e1)).of_core e2

/-! ### The timer and the pending request (R36, R37, R98) -/

/-- The laws of the timer and of the pending request together. -/
structure State.Timed (s : State) : Prop where
  inStep : s.timer.inStep
  timed : s.timed
  quiet : s.quiet

theorem State.Timed.of_core {s t : State} (h : t.core = s.core) (hs : s.Timed) : t.Timed := by
  obtain ⟨-, -, ⟨h1, h2, -, -⟩, ht, -⟩ := State.core_eq_iff.1 h
  exact ⟨ht ▸ hs.inStep, fun hn => ht ▸ hs.timed (h1 ▸ hn), fun hn => h2.trans (hs.quiet (h1 ▸ hn))⟩

/-- A boundary keeps the index in step with the count (R37). -/
theorem CycleTimer.inStep_boundary {t : CycleTimer} (h : t.inStep) (first : Bool) : (t.boundary first).inStep := by
  unfold CycleTimer.boundary
  split
  · rfl
  · unfold CycleTimer.inStep at h ⊢
    simp only [Config.indexCount] at h ⊢
    bv_omega

theorem State.Granted.keeps_timed {u v : State} (h : u.Granted v) (hu : u.timed) : v.timed := by
  cases h with
  | plain => exact hu
  | stops e _ _ hs => exact fun _ => hu hs

theorem ScanEngine.fill_eased (e : ScanEngine) (f : Frame) :
    (e.fill f).state = e.state ∧ (e.fill f).request = e.request := by
  unfold ScanEngine.fill
  split
  · exact ⟨rfl, rfl⟩
  · split <;> exact ⟨rfl, rfl⟩

theorem ScanEngine.launch_eased (e : ScanEngine) : e.launch.state = e.state ∧ e.launch.request = e.request := by
  unfold ScanEngine.launch
  split <;> exact ⟨rfl, rfl⟩

theorem State.stopInAccess_timer (s : State) : s.stopInAccess.timer = { s.timer with running := false } := by
  unfold State.stopInAccess
  dsimp only
  split <;> rfl

/-- Every turn keeps the timer running while the scan is not STOPPED (R36). -/
theorem State.Turn.keeps_timed {s w : State} (h : s.Turn w) (hs : s.timed) : w.timed := by
  cases h with
  | kept _ _ e he | stopCompleted e _ _ he | accessed _ _ e _ _ _ _ he => exact fun hn => hs (he.state ▸ hn)
  | reset => exact fun hn => absurd rfl hn
  | initialized | answered | held | called | finished | cleared | stopIdle | posted => exact hs
  | started => exact fun _ => rfl
  | clearing _ hst => exact fun hn => absurd hst hn
  | stopEnds _ hst => exact fun hn => absurd ((congrArg ScanEngine.state s.stopInAccess_scan).trans hst) hn
  | boundary st e a hr => exact fun _ => CycleTimer.boundary_running (.inr hr)
  | filled st p f => exact fun hn => hs ((s.scan.fill_eased f).1 ▸ hn)
  | launched f => exact fun hn => hs (s.scan.launch_eased.1 ▸ hn)
  | faulted hst => exact fun _ => hs hst

/-- Every turn keeps the index in step with the count (R37). -/
theorem State.Turn.inStep {s w : State} (h : s.Turn w) (hs : s.timer.inStep) : w.timer.inStep := by
  cases h with
  | reset | started | clearing => rfl
  | stopEnds =>
    show s.stopInAccess.timer.inStep
    rw [s.stopInAccess_timer]
    exact hs
  | boundary => exact CycleTimer.inStep_boundary hs _
  | kept | stopCompleted | accessed | initialized | answered | held | called | finished | cleared | stopIdle | posted
  | filled | launched | faulted => exact hs

/-- Every turn keeps the pending request away from a STOPPED scan (R98). -/
theorem State.Turn.quiet {s w : State} (h : s.Turn w) (hs : s.quiet) : w.quiet := by
  cases h with
  | kept _ _ e he | stopCompleted e _ _ he | accessed _ _ e _ _ _ _ he =>
    exact fun hn => he.request.trans (hs (he.state ▸ hn))
  | reset => exact fun _ => rfl
  | initialized | held | called | finished | cleared | stopIdle | posted | clearing => exact hs
  | answered q _ hq => exact fun hn => (hq.resolve_right (absurd hn)).trans (hs hn)
  | started st e a _ _ he => exact fun hn => absurd hn he
  | stopEnds _ hst => exact fun _ => (congrArg ScanEngine.request s.stopInAccess_scan).trans (hs hst)
  | boundary st e a hr he =>
    intro hn
    rcases he with ⟨h, rfl⟩ | ⟨-, h, -⟩
    · exact hs h
    · exact absurd hn h
  | filled st p f => exact fun hn => (s.scan.fill_eased f).2.trans (hs ((s.scan.fill_eased f).1 ▸ hn))
  | launched f => exact fun hn => s.scan.launch_eased.2.trans (hs (s.scan.launch_eased.1 ▸ hn))
  | faulted => exact fun hn => by cases hn

theorem State.timed_of_core {s t : State} (h : t.core = s.core) (hs : s.timed) : t.timed := by
  obtain ⟨-, -, ⟨h1, -⟩, ht, -⟩ := State.core_eq_iff.1 h
  exact fun hn => ht ▸ hs (h1 ▸ hn)

theorem State.Granted.timed {u v : State} (h : u.Granted v) (hu : u.Timed) : v.Timed := by
  refine ⟨?_, h.keeps_timed hu.timed, ?_⟩
  · cases h <;> exact hu.inStep
  · cases h with
    | plain => exact hu.quiet
    | stops e _ _ _ he => exact fun _ => he.request

theorem State.Turn.timed {s w : State} (h : s.Turn w) (hs : s.Timed) : w.Timed :=
  ⟨h.inStep hs.inStep, h.keeps_timed hs.timed, h.quiet hs.quiet⟩

theorem State.Turns.timed {s t : State} (h : s.Turns t) (hs : s.Timed) : t.Timed := by
  obtain ⟨w, u, v, hw, e1, hg, e2⟩ := h
  exact (hg.timed ((hw.timed hs).of_core e1)).of_core e2

/-- Settles O58: the timer and the pending request are part of the control, and every turn keeps their laws. -/
theorem timerAndRequestStayInStep : Obligations.TimerAndRequestStayInStep := by
  intro s t hi ht hq h
  have all := step_keeps (P := State.Timed) (fun _ _ hs => ⟨hs.inStep, hs.timed, hs.quiet⟩)
    (fun c s t hs h => (exec_turns c s t h).timed hs) h ⟨hi, ht, hq⟩
  exact ⟨all.inStep, all.timed, all.quiet⟩

end Sys2Proof.Machine
end

section
/-! How the host's claim stands with the port, and the scan at rest, under every turn (O59). -/

namespace Sys2Proof.Machine

/-! ### The host's claim (R18, R21, R152) -/

theorem Claim.eq_host_of_rank {c : Claim} (h : c.rank = 5) : c = .host := by
  cases c <;> simp_all [Claim.rank]

/-- The host's claim is outstanding in its access and while it waits. -/
theorem Arbiter.outstanding_host (a : Arbiter) :
    a.outstanding 5 = true ↔ a.inProgress = some .host ∨ .host ∈ a.waiting := by
  rw [a.outstanding_iff]
  constructor
  · rintro ⟨c, hc, hr⟩
    rw [Claim.eq_host_of_rank hr] at hc
    exact hc
  · exact fun h => ⟨.host, h, rfl⟩

theorem Arbiter.host_next {a : Arbiter} (h : a.next.outstanding 5 = true) : .host ∈ a.waiting := by
  obtain ⟨c, hc, hr⟩ := a.outstanding_next 5 h
  rwa [Claim.eq_host_of_rank hr] at hc

theorem Arbiter.host_once_next (a : Arbiter) (h : a.next.inProgress = some .host) : .host ∉ a.next.waiting := by
  intro hm
  rcases a.next_cases with e | ⟨c, -, hi, hw⟩
  · rw [e] at h
    cases h
  · rw [hi] at h
    cases h
    exact (hw _ hm).2 rfl

/-- What the port and the host's claim are to each other depends on these fields alone. -/
theorem State.Hosted.of_core {s t : State} (h : t.core = s.core) (hs : s.Hosted) : t.Hosted := by
  obtain ⟨ha, ⟨h1, h2, h3, h4⟩, -⟩ := State.core_eq_iff.1 h
  exact ⟨by rw [ha, h1, h3, h4]; exact hs.claim, by rw [ha]; exact hs.once, by rw [ha, h1]; exact hs.idle,
    by rw [ha, h1, h2]; exact hs.fresh, by rw [h1, h3]; exact hs.stop⟩

/-- With no host claim outstanding only the port's own law is left. -/
theorem State.Hosted.of_none {w : State} (h : w.arbiter.outstanding 5 = false)
    (hw : w.port.request = some .stopScan → w.port.state = .working) : w.Hosted := by
  have no : ¬ (w.arbiter.inProgress = some .host ∨ .host ∈ w.arbiter.waiting) := by
    rw [← Arbiter.outstanding_host, h]
    simp
  exact ⟨fun ho => (by rw [h] at ho; cases ho), fun hi => absurd (.inl hi) no, fun _ hm => no (.inr hm),
    fun _ _ hi => no (.inl hi), hw⟩

/-- Claims of other accessors leave the host's claim as it was. -/
theorem State.Hosted.adds {s w : State} (hs : s.Hosted) (hp : w.port = s.port) {P : Claim → Prop} (hP : ¬ P .host)
    (ha : s.arbiter.Adds P w.arbiter) : w.Hosted := by
  have inProgress : w.arbiter.inProgress = some .host → s.arbiter.inProgress = some .host := fun h => by
    rcases ha.inProgress with e | ⟨-, c, hc, e⟩
    · exact e ▸ h
    · rw [e] at h
      cases h
      exact absurd hc hP
  have waiting : .host ∈ w.arbiter.waiting → .host ∈ s.arbiter.waiting := fun h => (ha.waiting _ h).resolve_right hP
  refine ⟨fun h => ?_, fun h hm => hs.once (inProgress h) (waiting hm), fun h hm => ?_, fun h1 h2 h => ?_, hp ▸ hs.stop⟩
  · rw [hp]
    exact hs.claim ((s.arbiter.outstanding_host).2 (((w.arbiter.outstanding_host).1 h).imp inProgress waiting))
  · exact hs.idle (hp ▸ h) (waiting hm)
  · exact hs.fresh (hp ▸ h1) (hp ▸ h2) (inProgress h)

/-- An access of another accessor that completes may let the host in (R18). -/
theorem State.Hosted.next {s w : State} (hs : s.Hosted) (hp : w.port = s.port) {P : Claim → Prop} (hP : ¬ P .host)
    {a : Arbiter} (ha : s.arbiter.Adds P a) (hw : w.arbiter = a.next) : w.Hosted := by
  have waits : w.arbiter.outstanding 5 = true → .host ∈ s.arbiter.waiting := fun h =>
    (ha.waiting _ (Arbiter.host_next (hw ▸ h))).resolve_right hP
  have has := w.arbiter.outstanding_host
  refine ⟨fun h => ?_, fun h => ?_, fun h hm => ?_, fun h1 h2 h => ?_, hp ▸ hs.stop⟩
  · rw [hp]
    exact hs.claim ((s.arbiter.outstanding_host).2 (.inr (waits h)))
  · rw [hw] at h ⊢
    exact a.host_once_next h
  · exact hs.idle (hp ▸ h) (waits (has.2 (.inr hm)))
  · exact hs.idle (hp ▸ h1) (waits (has.2 (.inl h)))

/-- No host claim is outstanding once the host's access completes (R18). -/
theorem State.Hosted.next_none {s : State} (hs : s.Hosted) (h : s.arbiter.inProgress = some .host) :
    s.arbiter.next.outstanding 5 = false := by
  rw [Bool.eq_false_iff]
  exact fun ho => hs.once h (Arbiter.host_next ho)

/-- No host claim is outstanding while the port holds a request for dispatch, or none (R152, R155). -/
theorem State.Hosted.none_of_direct {s : State} (hs : s.Hosted)
    (h : s.port.state = .ready ∨ ∃ r, s.port.state = .working ∧ s.port.request = some r ∧ r.direct = true) :
    s.arbiter.outstanding 5 = false := by
  rw [Bool.eq_false_iff]
  intro ho
  obtain ⟨h1, -, r, hr, hd⟩ := hs.claim ho
  rcases h with h | ⟨r', -, hr', hd'⟩
  · exact h1 h
  · rw [hr] at hr'
    cases hr'
    rw [hd] at hd'
    cases hd'

theorem State.Granted.hosted {u v : State} (h : u.Granted v) (hu : u.Hosted) : v.Hosted := by
  cases h with
  | plain => exact hu
  | stops e => exact hu.adds (P := fun _ => False) rfl id (u.arbiter.adds_withdrawLine _)

/-- Every turn keeps the host's claim with the port. -/
theorem State.Turn.hosted {s w : State} (h : s.Turn w) (hs : s.Hosted) : w.Hosted := by
  cases h with
  | kept => exact hs.adds (P := fun _ => False) rfl id (.refl _ _)
  | reset p _ _ hr => exact .of_none rfl fun h => by rw [show (s.resetTo p).port.request = none from hr] at h; cases h
  | initialized hi hc =>
    refine .of_none ?_ fun h => ?_
    · rw [Bool.eq_false_iff]
      exact fun ho => ((s.arbiter.outstanding_host).1 ho).elim (hs.fresh hi hc) (hs.idle hi)
    · rw [hs.stop h] at hi
      cases hi
  | answered q hr => exact .of_none (hs.none_of_direct hr) fun h => by cases h
  | held r hr _ hd =>
    refine .of_none (hs.none_of_direct (.inl hr)) fun _ => rfl
  | called r hr _ hd =>
    have none := hs.none_of_direct (.inl hr)
    have no : ¬ (s.arbiter.inProgress = some .host ∨ .host ∈ s.arbiter.waiting) := by
      rw [← Arbiter.outstanding_host, none]
      simp
    refine ⟨fun _ => ⟨by simp [State.holding], rfl, r, rfl, hd⟩, fun hi hm => ?_, fun h => (by cases h), fun h => (by cases h),
      fun _ => rfl⟩
    change (s.arbiter.place .host).inProgress = _ at hi
    change .host ∈ (s.arbiter.place .host).waiting at hm
    unfold Arbiter.place at hi hm
    split at hi
    next e =>
      rw [e] at hm
      exact no (.inr (List.mem_filter.1 hm).1)
    next x e =>
      have : (s.arbiter.enqueue .host).inProgress = s.arbiter.inProgress := by unfold Arbiter.enqueue; split <;> rfl
      exact no (.inl (this ▸ hi))
  | started st e a hr _ _ _ _ ha =>
    obtain ⟨hw, hq⟩ := (s.heldDirect_eq_some _).1 hr
    refine .of_none ?_ fun h => by cases h
    have none := hs.none_of_direct (.inr ⟨_, hw, hq, rfl⟩)
    rw [Bool.eq_false_iff] at none ⊢
    exact fun h => none (ha.outstanding_of_ne (fun c hc => by have := Claim.ofBoundary_rank hc; omega) h)
  | stopCompleted e hr hd =>
    refine .of_none ?_ fun h => by cases h
    rw [Bool.eq_false_iff]
    intro h
    have := (hs.claim h).2.1
    rw [hd] at this
    cases this
  | finished st b r hr =>
    exact .of_none (hs.next_none ((s.heldAccess_eq_some r).1 hr).2.1) fun h => by cases h
  | clearing hr =>
    obtain ⟨hw, hi, hq⟩ := (s.heldAccess_eq_some _).1 hr
    obtain ⟨-, done, -⟩ := hs.claim ((s.arbiter.outstanding_host).2 (.inl hi))
    exact ⟨fun _ => ⟨by simp [State.startClear], done, .clear, hq, rfl⟩, fun _ => List.not_mem_nil,
      fun _ => List.not_mem_nil, fun _ h => (by cases h), fun h => (by
        rw [show s.startClear.port.request = _ from hq] at h
        cases h)⟩
  | cleared hi =>
    refine .of_none ?_ fun h => by cases h
    rw [Bool.eq_false_iff]
    exact fun h => hs.idle hi (Arbiter.host_next h)
  | stopEnds hr =>
    obtain ⟨hw, hi, -⟩ := (s.heldAccess_eq_some _).1 hr
    refine .of_none ?_ fun _ => hw
    rw [Bool.eq_false_iff]
    exact fun h => hs.once hi ((s.stopInAccess_adds.waiting _ (Arbiter.host_next h)).resolve_right id)
  | stopIdle hr =>
    obtain ⟨hw, hi, -⟩ := (s.heldAccess_eq_some _).1 hr
    exact .of_none (hs.next_none hi) fun _ => hw
  | boundary st e a _ _ ha => exact hs.adds rfl (by simp [Claim.ofBoundary]) ha
  | accessed st b e a c _ _ _ ha => exact hs.next rfl (by simp [Claim.ofLine]) ha rfl
  | filled st p f => exact hs.next (P := fun _ => False) rfl id (.refl _ _) rfl
  | posted a ha => exact hs.adds rfl (by simp [Claim.behind, Claim.rank]) ha
  | launched f a _ ha =>
    rcases ha with rfl | ⟨p, rfl, -⟩
    · exact hs.adds (P := fun _ => False) rfl id (.refl _ _)
    · exact hs.adds rfl (by simp) (s.arbiter.adds_place _)
  | faulted => exact hs.adds (P := fun _ => False) rfl id (s.arbiter.adds_withdrawLine _)

/-! ### The scan at rest (R46, R78, R92, R101) -/

/-- What `AtRest` says of the control. -/
structure State.AtEase (s : State) : Prop where
  access : s.scan.state = .stopped → s.timer.running = true →
    s.arbiter.inProgress = some .host ∧ s.port.request = some .stopScan
  claims : s.scan.state = .stopped → s.timer.running = false →
    s.arbiter.outstanding 2 = false ∧ s.arbiter.outstanding 3 = false

theorem State.AtEase.of_core {s t : State} (h : t.core = s.core) (hs : s.AtEase) : t.AtEase := by
  obtain ⟨ha, ⟨-, -, h3, -⟩, ⟨h1, -⟩, ht, -⟩ := State.core_eq_iff.1 h
  exact ⟨by rw [ha, h1, h3, ht]; exact hs.access, by rw [ha, h1, ht]; exact hs.claims⟩

/-- The boundary's claims stay withdrawn where the claims that stand afterwards stood before, or are of no boundary. -/
theorem State.AtEase.no_claims {s w : State} (hs : s.AtEase) (hst : s.scan.state = .stopped)
    (hr : s.timer.running = false) (h : ∀ r, r = 2 ∨ r = 3 → w.arbiter.outstanding r = true → s.arbiter.outstanding r = true) :
    w.arbiter.outstanding 2 = false ∧ w.arbiter.outstanding 3 = false := by
  obtain ⟨h2, h3⟩ := hs.claims hst hr
  refine ⟨Bool.eq_false_iff.2 fun ho => ?_, Bool.eq_false_iff.2 fun ho => ?_⟩
  · rw [h 2 (.inl rfl) ho] at h2
    cases h2
  · rw [h 3 (.inr rfl) ho] at h3
    cases h3

/-- The access in progress of a STOPPED scan whose timer runs is the host's, and stays so where claims are added. -/
theorem State.AtEase.access_adds {s w : State} (hs : s.AtEase) {P : Claim → Prop} (ha : s.arbiter.Adds P w.arbiter)
    (hq : w.port.request = s.port.request) (hst : s.scan.state = .stopped) (hr : s.timer.running = true) :
    w.arbiter.inProgress = some .host ∧ w.port.request = some .stopScan := by
  obtain ⟨hi, hreq⟩ := hs.access hst hr
  refine ⟨?_, hq.trans hreq⟩
  rcases ha.inProgress with e | ⟨hn, -⟩
  · exact e.trans hi
  · rw [hi] at hn
    cases hn

/-- Claims that are of no boundary keep the scan at rest. -/
theorem State.AtEase.adds {s w : State} (hs : s.AtEase) {P : Claim → Prop} (hP : ∀ c, P c → c.rank ≠ 2 ∧ c.rank ≠ 3)
    (ha : s.arbiter.Adds P w.arbiter) (hq : w.port.request = s.port.request) (he : w.scan.state = s.scan.state)
    (ht : w.timer = s.timer) : w.AtEase := by
  refine ⟨fun h1 h2 => hs.access_adds ha hq (he ▸ h1) (ht ▸ h2), fun h1 h2 => ?_⟩
  refine hs.no_claims (he ▸ h1) (ht ▸ h2) fun r hr => ha.outstanding_of_ne fun c hc hcr => ?_
  have := hP c hc
  omega

/-- While the access of another accessor than the host, or of another request than STOP SCAN, is in progress, the scan is
not STOPPED with its timer running; so it stays where the access completes and claims of no boundary are added. -/
theorem State.AtEase.next {s w : State} (hs : s.AtEase)
    (hne : ¬ (s.arbiter.inProgress = some .host ∧ s.port.request = some .stopScan)) {P : Claim → Prop}
    (hP : ∀ c, P c → c.rank ≠ 2 ∧ c.rank ≠ 3) {a : Arbiter} (ha : s.arbiter.Adds P a) (hw : w.arbiter = a.next)
    (he : w.scan.state = s.scan.state) (ht : w.timer = s.timer) : w.AtEase := by
  refine ⟨fun h1 h2 => absurd (hs.access (he ▸ h1) (ht ▸ h2)) hne, fun h1 h2 => ?_⟩
  refine hs.no_claims (he ▸ h1) (ht ▸ h2) fun r hr ho => ?_
  refine ha.outstanding_of_ne (fun c hc hcr => ?_) (Arbiter.outstanding_of_next (hw ▸ ho))
  have := hP c hc
  omega

theorem State.Granted.atEase {u v : State} (h : u.Granted v) (ht : u.timed) (hu : u.AtEase) : v.AtEase := by
  cases h with
  | plain => exact hu
  | stops e hi hr hs he =>
    refine ⟨fun _ _ => ⟨hi, hr⟩, fun _ hn => ?_⟩
    have := ht hs
    rw [show u.timer.running = false from hn] at this
    cases this

/-- Every turn keeps the scan at rest, as far as the control goes. -/
theorem State.Turn.atEase {s w : State} (h : s.Turn w) (hh : s.Hosted) (hs : s.AtEase) : w.AtEase := by
  -- a request held for dispatch, or none, is not the STOP SCAN whose access is in progress
  have direct (hr : s.port.state = .ready ∨
      ∃ r, s.port.state = .working ∧ s.port.request = some r ∧ r.direct = true) :
      ¬ (s.scan.state = .stopped ∧ s.timer.running = true) := fun ⟨h1, h2⟩ => by
    have := hh.none_of_direct hr
    rw [(s.arbiter.outstanding_host).2 (.inl (hs.access h1 h2).1)] at this
    cases this
  have init (hi : s.port.state = .init) : s.port.request ≠ some .stopScan := fun h => by
    rw [hh.stop h] at hi
    cases hi
  have line : ∀ c : Claim, c.ofLine = true → c.rank ≠ 2 ∧ c.rank ≠ 3 := fun c hc => by
    cases c <;> simp_all [Claim.ofLine, Claim.rank]
  cases h with
  | kept st b e he => exact hs.adds (P := fun _ => False) (by simp) (.refl _ _) rfl he.state rfl
  | reset => exact ⟨fun _ h => (by cases h), fun _ _ => ⟨rfl, rfl⟩⟩
  | initialized hi =>
    exact ⟨fun h1 h2 => absurd (hs.access h1 h2).2 (init hi), hs.claims⟩
  | answered q hr => exact ⟨fun h1 h2 => absurd ⟨h1, h2⟩ (direct hr), hs.claims⟩
  | held r hr => exact ⟨fun h1 h2 => absurd ⟨h1, h2⟩ (direct (.inl hr)), hs.claims⟩
  | called r hr =>
    refine ⟨fun h1 h2 => absurd ⟨h1, h2⟩ (direct (.inl hr)), fun h1 h2 => ?_⟩
    refine hs.no_claims h1 h2 fun r hr ho => (s.arbiter.adds_place .host).outstanding_of_ne (fun c hc hcr => ?_) ho
    rw [hc, show Claim.host.rank = 5 from rfl] at hcr
    omega
  | started st e a _ _ he => exact ⟨fun h => absurd h he, fun h => absurd h he⟩
  | stopCompleted e hr hd he =>
    refine ⟨fun h1 h2 => ?_, fun h1 h2 => hs.claims (he.state ▸ h1) h2⟩
    have := (hh.claim ((s.arbiter.outstanding_host).2 (.inl (hs.access (he.state ▸ h1) h2).1))).2.1
    rw [hd] at this
    cases this
  | finished st b r hr hne =>
    obtain ⟨-, -, hq⟩ := (s.heldAccess_eq_some r).1 hr
    refine hs.next (fun h => ?_) (P := fun _ => False) (by simp) (.refl _ _) rfl rfl rfl
    rw [hq] at h
    exact hne (Option.some.inj h.2)
  | clearing hr =>
    obtain ⟨-, hi, -⟩ := (s.heldAccess_eq_some _).1 hr
    exact ⟨fun _ h => (by cases h), fun _ _ => (by simp [State.startClear, Arbiter.outstanding, hi, Claim.rank])⟩
  | cleared hi =>
    exact hs.next (fun h => init hi h.2) (P := fun _ => False) (by simp) (.refl _ _) rfl rfl rfl
  | stopEnds =>
    have timer : s.stopInAccess.timer.running = false := by rw [s.stopInAccess_timer]
    refine ⟨fun _ h => ?_, fun _ _ => ⟨?_, ?_⟩⟩
    · rw [show s.stopInAccess.timer.running = true from h] at timer
      cases timer
    all_goals
      rw [Bool.eq_false_iff]
      intro ho
      obtain ⟨c, hc, hr⟩ := Arbiter.outstanding_next _ _ ho
      rw [s.stopInAccess_arbiter] at hc
      have hne := (List.mem_filter.1 hc).2
      cases c <;> simp_all [Claim.rank]
  | stopIdle hr hn =>
    refine ⟨fun h1 h2 => absurd ⟨h1, h2⟩ hn, fun h1 h2 => ?_⟩
    exact hs.no_claims h1 h2 fun r _ ho => Arbiter.outstanding_of_next ho
  | boundary st e a hr he ha =>
    have running : (s.timer.boundary false).running = true := CycleTimer.boundary_running (.inr hr)
    refine ⟨fun h1 h2 => ?_, fun _ h2 => ?_⟩
    · rcases he with ⟨hst, -⟩ | ⟨-, h, -⟩
      · exact hs.access_adds ha rfl hst hr
      · exact absurd h1 h
    · rw [show (s.timer.boundary false).running = false from h2] at running
      cases running
  | accessed st b e a c hc hne he ha =>
    exact hs.next (fun h => hne (Option.some.inj (hc.symm.trans h.1))) line ha rfl he.state rfl
  | filled st p f hc =>
    refine hs.next (fun h => ?_) (P := fun _ => False) (by simp) (.refl _ _) rfl (s.scan.fill_eased f).1 rfl
    rw [hc] at h
    cases h.1
  | posted a ha =>
    exact hs.adds (fun c hc => by unfold Claim.behind at hc; omega) ha rfl rfl rfl
  | launched f a _ ha =>
    have state := s.scan.launch_eased.1
    rcases ha with rfl | ⟨p, rfl, -⟩
    · exact hs.adds (P := fun _ => False) (by simp) (.refl _ _) rfl state rfl
    · exact hs.adds (fun c hc => by rw [hc]; simp [Claim.rank]) (s.arbiter.adds_place (.transfer p)) rfl state rfl
  | faulted => exact ⟨fun h => (by cases h), fun h => (by cases h)⟩

/-! ### The table and the batch at rest (R46, R73, R79) -/

/-- What `AtRest` says of the table and the batch. -/
structure State.Emptied (s : State) : Prop where
  batch : s.batch.state ≠ .sealed_
  slots : ∀ i r c n, s.store.slotAt i ≠ .withdrawing r c n
  due : s.store.due = []

/-- While the scan is STOPPED, changes of slots outside the countdown make no slot WITHDRAWING. -/
theorem State.Edits.not_withdrawing {s : State} {b : Bool} {st v : Store} (h : s.Edits b st v)
    (hs : s.scan.state = .stopped) (hp : s.arbiter.inProgress ≠ some .countdown) {i : Nat}
    (hst : ∀ r c n, st.slotAt i ≠ .withdrawing r c n) : ∀ r c n, v.slotAt i ≠ .withdrawing r c n := by
  have changed {u : Store} (hu : ∀ r c n, u.slotAt i ≠ .withdrawing r c n) (j : Nat) {w : Slot}
      (hw : j = i → ∀ r c n, w ≠ .withdrawing r c n) : ∀ r c n, (u.changeSlot j w).slotAt i ≠ .withdrawing r c n := by
    intro r c n
    rw [Store.slotAt_changeSlot]
    split
    next e => exact hw e.symm r c n
    · exact hu r c n
  refine h.keeps (fun u => ∀ r c n, u.slotAt i ≠ .withdrawing r c n) hst (fun u v ha hu r c n => ?_)
    (fun u j w _ hu hm => changed hu j fun hj r c n e => ?_) (fun u j r _ hu hr r' c n => ?_)
    (fun u j r w _ _ hu _ hw => changed hu j fun _ r c n e => ?_)
  · rw [ha.slots]
    exact hu r c n
  · subst e hj
    generalize hv : u.slotAt j = v at hm
    cases hm with
    | expired r m g h => exact hp h
    | retired r m g h => exact h hs
    | counted | noticed => exact hu _ _ _ hv
  · rw [Store.slotAt_write]
    split
    · simp
    · exact hu r' c n
  · rcases hw with rfl | rfl <;> cases e

/-- Outside a boundary's accesses an empty due list stays empty. -/
theorem State.Edits.due_nil {s : State} {b : Bool} {st v : Store} (h : s.Edits b st v)
    (hp : s.arbiter.inProgress ≠ some .countdown ∧ s.arbiter.inProgress ≠ some .application) (hst : st.due = []) :
    v.due = [] := by
  have changed {u : Store} (i : Nat) (w : Slot) (hu : u.due = []) : (u.changeSlot i w).due = [] :=
    List.length_eq_zero_iff.1 (Nat.le_zero.1 ((u.length_due_changeSlot_le i w).trans (by rw [hu]; exact le_rfl)))
  induction h with
  | refl => exact hst
  | move i w _ _ ih => exact changed i w ih
  | restore i r _ _ ih => exact ih
  | settle i r w _ _ _ _ ih => exact changed i w ih
  | fixed i _ h => exact absurd h (not_or.2 hp)
  | ended => rfl
  | marked p _ ih => rw [Store.markTransferred, ih]; rfl
  | stamped p n _ ih => exact ih
  | upset i _ ih => unfold Store.upset; split <;> exact ih

/-- While the scan is STOPPED and no access of a boundary is in progress, every way to change the table keeps it at
rest. -/
theorem State.Tables.emptied {s t : State} (h : s.Tables t) (hst : s.scan.state = .stopped)
    (hp : s.arbiter.inProgress ≠ some .countdown ∧ s.arbiter.inProgress ≠ some .application) (hs : s.Emptied) :
    t.Emptied := by
  have edits {b : Bool} {st v : Store} (he : s.Edits b st v) (hw : ∀ i r c n, st.slotAt i ≠ .withdrawing r c n)
      (hd : st.due = []) : (∀ i r c n, v.slotAt i ≠ .withdrawing r c n) ∧ v.due = [] :=
    ⟨fun i => he.not_withdrawing hst hp.1 (hw i), he.due_nil hp hd⟩
  have entered {a : Allocation} {k : RateClass} {key : Word} {v : Slot} (hv : ∀ r c n, v ≠ .withdrawing r c n) :
      ∀ i r c n, (s.store.enter a k key v).slotAt i ≠ .withdrawing r c n := fun i r c n => by
    rw [Store.slotAt_enter]
    split
    · exact hv r c n
    · exact hs.slots i r c n
  cases h with
  | edited h hb =>
    obtain ⟨hw, hd⟩ := edits h hs.slots hs.due
    exact ⟨hb ▸ hs.batch, hw, hd⟩
  | cleared h hb => exact ⟨by rw [hb]; simp [BatchUnit.initial], fun i r c n hi => (by rw [h] at hi; cases hi), h ▸ rfl⟩
  | inserted args place _ _ _ h hb =>
    exact ⟨hb ▸ hs.batch, h ▸ entered (by simp [Record.asLive]), by rw [h, Store.due_enter]; exact hs.due⟩
  | reserved args place _ _ _ _ _ h hb =>
    exact ⟨hb ▸ hs.batch, h ▸ entered (by simp), by rw [h, Store.due_enter]; exact hs.due⟩
  | staged e _ _ _ h hb =>
    obtain ⟨hw, hd⟩ := edits h hs.slots hs.due
    exact ⟨hb ▸ hs.batch, hw, hd⟩
  | opened _ h hb => exact ⟨by rw [hb]; simp, h ▸ hs.slots, h ▸ hs.due⟩
  | sealed_ _ hn => exact absurd hst hn
  | configured c _ _ _ h hb => exact ⟨hb ▸ hs.batch, h ▸ hs.slots, h ▸ hs.due⟩
  | applied u hu h hb =>
    obtain ⟨hw, hd⟩ := edits ((hu.settling.trans (s.edits_applyEntries u)).trans h.settling) hs.slots hs.due
    exact ⟨by rw [hb]; simp [BatchUnit.initial], hw, hd⟩
  | aborted h hb =>
    obtain ⟨hw, hd⟩ := edits (s.edits_abortBatch s.store) hs.slots hs.due
    exact ⟨by rw [hb]; simp [BatchUnit.initial], h ▸ hw, h ▸ hd⟩

theorem Store.not_withdrawing_of_due {st : Store} {due : List DueEntry}
    (h : ∀ i r c n, st.slotAt i ≠ .withdrawing r c n) :
    ∀ i r c n, Store.slotAt { st with due := due } i ≠ .withdrawing r c n := h

/-- STOP SCAN's access leaves the table and the batch at rest (R46, R92, R101). -/
theorem State.emptied_stopInAccess (s : State) (hs : s.scan.state = .stopped) (ho : s.store.Occupied)
    (hi : s.arbiter.inProgress = some .host) : s.stopInAccess.Emptied := by
  have completed : ∀ i r c n, s.store.completeWithdrawals.slotAt i ≠ .withdrawing r c n := by
    intro i r c n
    by_cases hlt : i < Config.slotCount
    · exact s.store.completeWithdrawals_not_withdrawing i hlt r c n
    · rw [Store.slotAt_completeWithdrawals, if_neg hlt]
      intro hw
      obtain ⟨e, he, rfl⟩ := (ho.exact i).1 (by simp [hw])
      exact hlt (ho.inTable e he)
  have applied := fun i =>
    (s.edits_applyEntries s.store.completeWithdrawals).not_withdrawing hs (by rw [hi]; simp) (completed i)
  unfold State.stopInAccess
  generalize s.store.completeWithdrawals = st at completed applied ⊢
  dsimp only
  split
  next hb =>
    generalize hu : State.applyBatch { s with store := st } = u
    have store : u.store = (applyEntries st s.batch.entries s.scan.state s.port.config.withdrawals).store := by
      rw [← hu]
      rfl
    have batch : u.batch = BatchUnit.initial := by rw [← hu]; rfl
    rw [← store] at applied
    exact ⟨by show u.batch.state ≠ _; rw [batch]; simp [BatchUnit.initial], Store.not_withdrawing_of_due applied, rfl⟩
  next hb => exact ⟨hb, Store.not_withdrawing_of_due completed, rfl⟩

/-- A turn that ends with the scan STOPPED and the timer still begins so, or initializes the table, or is the access of the
STOP SCAN that stopped the scan. -/
theorem State.Turn.rests {s w : State} (h : s.Turn w) (hst : w.scan.state = .stopped) (hr : w.timer.running = false) :
    s.scan.state = .stopped ∧ s.timer.running = false ∨ w.store = Store.initial ∧ w.batch = BatchUnit.initial ∨
      s.scan.state = .stopped ∧ s.arbiter.inProgress = some .host ∧ w.store = s.stopInAccess.store ∧
        w.batch = s.stopInAccess.batch := by
  cases h with
  | kept st b e he | stopCompleted e _ _ he | accessed st b e a c _ _ he => exact .inl ⟨he.state ▸ hst, hr⟩
  | reset | clearing => exact .inr (.inl ⟨rfl, rfl⟩)
  | initialized | answered | held | called | finished | cleared | stopIdle | posted => exact .inl ⟨hst, hr⟩
  | started st e a _ _ he => exact absurd hst he
  | stopEnds hq hs => exact .inr (.inr ⟨hs, ((s.heldAccess_eq_some _).1 hq).2.1, rfl, rfl⟩)
  | boundary st e a hrun =>
    have := CycleTimer.boundary_running (first := false) (.inr hrun)
    rw [show (s.timer.boundary false).running = false from hr] at this
    cases this
  | filled st p f => exact .inl ⟨(s.scan.fill_eased f).1 ▸ hst, hr⟩
  | launched f => exact .inl ⟨s.scan.launch_eased.1 ▸ hst, hr⟩
  | faulted => cases hst

/-- A grant that ends with the scan STOPPED and the timer still has stopped nothing. -/
theorem State.Granted.rests {u v : State} (h : u.Granted v) (ht : u.timed) (hst : v.scan.state = .stopped)
    (hr : v.timer.running = false) :
    u.scan.state = .stopped ∧ u.timer.running = false ∧ v.store = u.store ∧ v.batch = u.batch := by
  cases h with
  | plain => exact ⟨hst, hr, rfl, rfl⟩
  | stops e _ _ hs =>
    have := ht hs
    rw [show u.timer.running = false from hr] at this
    cases this

end Sys2Proof.Machine
end

section
/-! The Node Table under every command (O54, O57). -/

namespace Sys2Proof.Machine

/-- The changes of a node record, with M misses to SILENT (R128, R129, R130, R133, R148). -/
inductive NodeRecord.Moves (m : Nat) (r : NodeRecord) : NodeRecord → Prop
  | replied (result : ReplyResult) : r.Moves m (r.afterReply m result)
  | demanded : r.Moves m (r.afterDemand m)
  | erred : r.Moves m r.erred
  | changed (permitted clearErrors : Bool) : r.Moves m (r.changed permitted clearErrors)
  | reported : r.Moves m { r with reported := r.presence }

/-- The Node Tables that changes of records and of the pointer make of one. -/
inductive NodeTable.Edits (m : Nat) (a : NodeTable) : NodeTable → Prop
  | refl : a.Edits m a
  | pointed {u : NodeTable} (p : Nat) (hu : a.Edits m u) : a.Edits m { u with pointer := p }
  | set {u : NodeTable} (n : Nat) (r : NodeRecord) (hu : a.Edits m u) (h : (u.at n).Moves m r) : a.Edits m (u.set n r)

theorem NodeTable.Edits.trans {m : Nat} {a b c : NodeTable} (h : a.Edits m b) (h' : b.Edits m c) : a.Edits m c := by
  induction h' with
  | refl => exact h
  | pointed p _ ih => exact ih.pointed p
  | set n r _ hm ih => exact ih.set n r hm

/-- The ways in which a command changes the Node Table and the configuration. -/
inductive State.Nodes (s t : State) : Prop
  | edited (h : s.nodes.Edits s.port.config.misses t.nodes) (hc : t.port.config = s.port.config)
  | cleared (h : t.nodes = NodeTable.initial)
    (hc : t.port.config = s.port.config ∨ t.port.config = Configuration.default)
  | configured (c : Configuration) (hr : s.heldAccess = some (.configure c)) (h : t.nodes = s.nodes.clearMisses)
    (hc : t.port.config = c)

theorem State.Nodes.same {s t : State} (h : t.nodes = s.nodes) (hc : t.port.config = s.port.config) : s.Nodes t :=
  .edited (h ▸ .refl) hc

/-! ### The commands -/

theorem NodeTable.edits_invite (m : Nat) (a : NodeTable) : a.Edits m a.invite.2 := by
  unfold NodeTable.invite
  split
  · exact .pointed _ .refl
  · exact .refl

theorem State.edits_scanBoundary (m : Nat) (s : State) (first : Bool) : s.nodes.Edits m (s.scanBoundary first).nodes := by
  unfold State.scanBoundary
  dsimp only
  split
  · exact s.nodes.edits_invite m
  all_goals exact .refl

theorem State.edits_takeBoundary (m : Nat) (s : State) (first : Bool) : s.nodes.Edits m (s.takeBoundary first).nodes := by
  by_cases hs : s.scan.state = .stopped
  · unfold State.takeBoundary
    simp only [if_pos hs]
    split
    · split
      · simpa using NodeTable.Edits.refl
      · rename_i h
        exact absurd (by rw [State.claim_place _ _ (by simp), State.claim_place _ _ (by simp)]; exact hs) h
    · split
      · simpa using NodeTable.Edits.refl
      · rename_i h
        exact absurd (by rw [State.claim_place _ _ (by simp)]; exact hs) h
  · obtain ⟨a, e, -⟩ := s.takeBoundary_eq first hs
    rw [e]
    exact (s.atBoundary first a).edits_scanBoundary m first

theorem takeOne_edits (m : Nat) (acc : State × List Byte) (x : NoticeSource) :
    acc.1.nodes.Edits m (takeOne acc x).1.nodes := by
  cases x with
  | applied => unfold takeOne State.takeApplied; dsimp only; split <;> exact .refl
  | fault => unfold takeOne State.takeFault; dsimp only; split <;> exact .refl
  | node n => exact .set n _ .refl .reported
  | slot i => unfold takeOne State.takeSlot; dsimp only; split <;> exact .refl

theorem foldl_takeOne_edits (m : Nat) (l : List NoticeSource) : ∀ acc : State × List Byte,
    acc.1.nodes.Edits m (l.foldl takeOne acc).1.nodes := by
  induction l with
  | nil => exact fun _ => .refl
  | cons x l ih => exact fun acc => (takeOne_edits m acc x).trans (ih _)

@[simp] theorem State.applyEntries_nodes (s : State) : s.applyBatch.nodes = s.nodes := rfl

@[simp] theorem State.stageWith_nodes (s : State) (st : Store) (e : BatchEntry) (data : List Byte) :
    (s.stageWith st e data).nodes = s.nodes := by simp [State.stageWith]

theorem State.Finishes.nodes {s t : State} (h : s.Finishes t) : s.Nodes t := by
  obtain ⟨st, b, status, data, rfl⟩ := h
  exact .same (by simp) (by simp)

/-- A request that arrives leaves the Node Table and the configuration alone. -/
theorem State.nodes_arrive (s : State) (miso bytes : List Byte) : s.Nodes ((s.returning miso).arrive bytes) := by
  refine .same ?_ ((s.returning miso).arrive_same bytes).2.2
  unfold State.arrive State.takeRequest
  dsimp only
  split
  · split
    · simp
    · split <;> simp
  all_goals rfl

theorem State.nodes_takeDemand (s : State) (key : Word) : s.Nodes (s.takeDemand key) := by
  refine .edited ?_ (by simp)
  unfold State.takeDemand
  dsimp only
  split
  · rw [State.claim_nodes]
    exact .set _ _ .refl .demanded
  · exact .set _ _ .refl .demanded

theorem exec_nodes (c : Instr) (s t : State) (h : exec c s = .next t) : s.Nodes t := by
  cases c
  case powerOn | resetAssert => cases h; exact .cleared rfl (.inr rfl)
  case resetRelease =>
    simp only [exec, execResetRelease] at h
    split at h <;> cases h
    · exact .cleared rfl (.inr rfl)
    · exact .same rfl rfl
  case configure =>
    simp only [exec, execConfigure] at h
    split at h
    next c hr =>
      split at h
      · cases h; exact (s.finishes_finish _ _).nodes
      · split at h
        · cases h; exact (s.finishes_finish _ _).nodes
        · cases h; exact .configured c hr (by simp [State.setConfiguration]) (by simp [State.setConfiguration])
    · cases h; exact .same rfl rfl
  case clear =>
    simp only [exec, execClear] at h
    split at h
    · cases h
      split
      · exact .cleared rfl (.inl rfl)
      · exact .same (by simp) (by simp)
    · cases h; exact .same rfl rfl
  case startScan =>
    simp only [exec, execStartScan] at h
    split at h
    · cases h
      split
      · exact .edited (State.edits_takeBoundary _ { s with scan := { s.scan with state := .run } } true) (by simp)
      · exact .same rfl rfl
    · cases h; exact .same rfl rfl
  case boundary =>
    simp only [exec, execBoundary] at h
    cases h
    split
    · exact .edited (State.edits_takeBoundary _ s false) (by simp)
    · exact .same rfl rfl
  case echoWriteBack =>
    by_cases hp : ∃ x, s.arbiter.inProgress = some (.writeBack x)
    · obtain ⟨x, hp⟩ := hp
      rw [show exec .echoWriteBack s = execEchoWriteBack s from rfl, execEchoWriteBack_eq s x hp] at h
      cases h
      have handled : (s.handled x).nodes = s.nodes.set x.node ((s.nodes.at x.node).afterReply s.port.config.misses x.result) ∧
          (s.handled x).port = s.port := by
        unfold State.handled
        dsimp only
        split <;> exact ⟨rfl, rfl⟩
      refine .edited ?_ (by simp [handled.2])
      simp only [State.release_nodes, State.claimWriteBack_nodes, handled.1]
      exact .set _ _ .refl (.replied x.result)
    · simp only [exec, execEchoWriteBack] at h
      split at h
      next x hi => exact absurd ⟨x, hi⟩ hp
      · cases h; exact .same rfl rfl
  case requestAllowanceEnd =>
    simp only [exec, execRequestAllowanceEnd] at h
    split at h
    · cases h; exact .same (by simp) (by simp)
    · split at h
      · split at h
        next => cases h; exact .same (by simp) (by simp)
        next => cases h; exact .same (by simp) (by simp)
        next => cases h; exact .edited (.set _ _ .refl .erred) (by simp)
        next key _ => cases h; exact s.nodes_takeDemand key
      · cases h; exact .same rfl rfl
  case nodeSet =>
    simp only [exec, execNodeSet] at h
    split at h
    next n p c _ => cases h; exact .edited (.set n _ .refl (.changed p c)) rfl
    · cases h; exact .same rfl rfl
  case takeNotices =>
    simp only [exec, execTakeNotices] at h
    split at h
    · cases h
      refine .edited ?_ ?_
      · rw [State.finish_nodes]
        exact foldl_takeOne_edits _ s.reportable (s, [])
      · rw [State.finish_config, foldl_takeOne_frame s.reportable (s, [])]
    · cases h; exact .same rfl rfl
  case insert =>
    simp only [exec, execInsert] at h
    split at h
    next args _ =>
      split at h
      next => cases h; exact (s.finishes_insertNow args).nodes
      next => cases h; exact (s.finishes_insertStaged args).nodes
      next => cases h; exact (s.finishes_refuseWith _ _).nodes
    · cases h; exact .same rfl rfl
  case amend =>
    simp only [exec, execAmend] at h
    split at h
    next key payload field _ =>
      split at h
      next => cases h; exact (s.finishes_amendNow key payload field).nodes
      next => cases h; exact (s.finishes_amendStaged key payload field).nodes
      next => cases h; exact (s.finishes_refuseWith _ _).nodes
    · cases h; exact .same rfl rfl
  case renew =>
    simp only [exec, execRenew] at h
    split at h
    next key field _ => cases h; exact (s.finishes_renewNow key field).nodes
    · cases h; exact .same rfl rfl
  case retire =>
    simp only [exec, execRetire] at h
    split at h
    next key _ =>
      split at h
      next => cases h; exact (s.finishes_retireNow key).nodes
      next => cases h; exact (s.finishes_retireStaged key).nodes
      next => cases h; exact (s.finishes_refuseWith _ _).nodes
    · cases h; exact .same rfl rfl
  case stopScan =>
    simp only [exec, execStopScan] at h
    have nodes : s.stopInAccess.nodes = s.nodes ∧ s.stopInAccess.port = s.port := by
      unfold State.stopInAccess
      dsimp only
      split <;> exact ⟨rfl, rfl⟩
    split at h
    · cases h
      split
      · exact .same (by simp [nodes.1]) (by simp [nodes.2])
      · exact .same (by simp) (by simp)
    · cases h; exact .same rfl rfl
  case requestArrival =>
    simp only [exec, execRequestArrival] at h
    split at h
    · cases h; exact .same rfl rfl
    · cases h
      split
      · exact .same rfl rfl
      · split
        · exact .same (by simp) (by simp)
        · exact State.nodes_arrive s _ _
  -- every other command leaves the two alone
  all_goals simp only [exec, execInitializationEnd, execEmptyTransaction, execFetch, execIdentify, execStatus,
    execReadConfiguration, execClearInitializationEnd, execStopScanCompletion, execHoldScan, execResumeScan,
    execLookup, execPageQuery, execLoadQuery, execOpenBatch, execCommitBatch, execAbortBatch, execBatchQuery,
    execNodeQuery, execLeaseCountdown, execBatchApplication, execPageTransfer, execFrameStart, execFrameEnd,
    execReplyArrival, execReplySlotExpiry, execDemandWindowOpen, execDemandRequestArrival, execDemandLookup,
    execAnswerAllowanceStart, execDemandWindowEnd, execReadbackMismatch, execStrayLineWord, execStorageUpset,
    execAnswerSent, execCycleMarkEnd] at h
  all_goals repeat' split at h
  all_goals cases h
  all_goals refine .same ?_ ?_
  all_goals simp

/-! ### What the changes keep -/

theorem NodeTable.Edits.canonical {m : Nat} {a b : NodeTable} (h : a.Edits m b)
    (ha : Sparse.wf a.records NodeRecord.initial = true) : Sparse.wf b.records NodeRecord.initial = true := by
  induction h with
  | refl => exact ha
  | pointed p _ ih => exact ih
  | set n r _ _ ih => exact Sparse.wf_put _ _ n r ih

theorem State.Nodes.canonical {s t : State} (h : s.Nodes t) (hs : Sparse.wf s.nodes.records NodeRecord.initial = true) :
    Sparse.wf t.nodes.records NodeRecord.initial = true := by
  cases h with
  | edited h => exact h.canonical hs
  | cleared h => rw [h]; rfl
  | configured c _ h => rw [h]; exact Sparse.wf_mapValues _ _ (fun r => { r with misses := 0 }) hs

/-- A node record within the law of R127: below M misses while PRESENT. -/
def NodeRecord.Below (m : Nat) (r : NodeRecord) : Prop := r.presence = .present → r.misses < m

theorem NodeRecord.Below.missed {m : Nat} {r : NodeRecord} (h : r.Below m) : (r.missed m).Below m := by
  unfold NodeRecord.missed
  split
  · intro hp
    dsimp only at hp ⊢
    split at hp
    · cases hp
    next hne =>
      have := h hp
      omega
  · exact h

theorem NodeRecord.Moves.keeps_below {m : Nat} {r r' : NodeRecord} (hm : 1 ≤ m) (h : r.Moves m r') (hr : r.Below m) :
    r'.Below m := by
  cases h with
  | replied result =>
    cases result with
    | valid => exact fun _ => hm
    | absent => exact hr.missed
    | invalid => exact hr.missed
    | undecided => exact hr
  | demanded =>
    unfold NodeRecord.afterDemand
    split
    next h => exact fun _ => h
    · exact hr
  | erred | changed | reported => exact hr

theorem NodeTable.at_set (t : NodeTable) (n : Nat) (r : NodeRecord) (j : Nat) :
    (t.set n r).at j = if j = n then r else t.at j := Sparse.get_put _ _ _ _ _

theorem NodeTable.Edits.keeps_below {m : Nat} {a b : NodeTable} (hm : 1 ≤ m) (h : a.Edits m b)
    (ha : ∀ n, (a.at n).Below m) : ∀ n, (b.at n).Below m := by
  induction h with
  | refl => exact ha
  | pointed p _ ih => exact ih
  | set n r _ hmv ih =>
    intro j
    rw [NodeTable.at_set]
    split
    · exact hmv.keeps_below hm (ih n)
    · exact ih j

/-- With every miss count 0 no node in PRESENT reaches M (R134). -/
theorem NodeTable.below_clearMisses (t : NodeTable) {m : Nat} (hm : 1 ≤ m) (n : Nat) : (t.clearMisses.at n).Below m := by
  unfold NodeTable.at Sparse.get NodeTable.clearMisses
  split
  next v hv =>
    have mem := Sparse.mem_of_find? _ _ _ hv
    obtain ⟨hmem, -⟩ := List.mem_filter.1 mem
    obtain ⟨e, -, he⟩ := List.mem_map.1 hmem
    intro _
    rw [← (Prod.mk.inj he).2]
    exact hm
  · intro hp
    cases hp

theorem State.Nodes.presence {s t : State} (h : s.Nodes t) (hs : s.Presence) :
    1 ≤ t.port.config.misses ∧ ∀ n, (t.nodes.at n).Below t.port.config.misses := by
  cases h with
  | edited h hc => exact hc ▸ ⟨hs.threshold, h.keeps_below hs.threshold hs.law⟩
  | cleared h hc =>
    refine ⟨?_, fun n => by rw [h]; intro hp; cases hp⟩
    rcases hc with hc | hc <;> rw [hc]
    · exact hs.threshold
    · decide
  | configured c hr h hc =>
    have hm := hs.requested c ((s.heldAccess_eq_some _).1 hr).2.2
    exact hc ▸ h ▸ ⟨hm, fun n => s.nodes.below_clearMisses hm n⟩

end Sys2Proof.Machine
end

section
/-! The laws that every step keeps (O54 to O57, O59), and the laws at reset (O60). -/

namespace Sys2Proof.Machine

/-! ### The request that the port holds -/

/-- Every turn keeps the port's request, drops it, or takes one in range (R155). -/
theorem State.Turns.request {s t : State} (h : s.Turns t) :
    t.port.request = s.port.request ∨ t.port.request = none ∨ ∃ r, t.port.request = some r ∧ r.inRange := by
  obtain ⟨w, u, v, hw, e1, hg, e2⟩ := h
  have hwt : t.port.request = w.port.request := by
    have h1 := (State.core_eq_iff.1 e1).2.1.2.2.1
    have h2 := (State.core_eq_iff.1 e2).2.1.2.2.1
    rw [h2, ← h1]
    cases hg <;> rfl
  rw [hwt]
  cases hw with
  | kept | initialized | clearing | stopIdle | boundary | accessed | filled | posted | launched | faulted | stopEnds =>
    exact .inl rfl
  | reset p _ _ hr => exact .inr (.inl hr)
  | held r _ hr | called r _ hr => exact .inr (.inr ⟨r, rfl, hr⟩)
  | answered | started | stopCompleted | finished | cleared => exact .inr (.inl rfl)

/-- A law of the requests that is within their ranges is kept by every command. -/
theorem exec_request {P : Request → Prop} (hP : ∀ r, r.inRange → P r) {c : Instr} {s t : State}
    (h : exec c s = .next t) (hs : ∀ r, s.port.request = some r → P r) : ∀ r, t.port.request = some r → P r := by
  intro r hr
  rcases (exec_turns c s t h).request with e | e | ⟨r', e, hin⟩
  · exact hs r (e ▸ hr)
  · rw [e] at hr
    cases hr
  · rw [e] at hr
    cases hr
    exact hP _ hin

/-! ### The obligations -/

/-- Settles O54: the table keeps its form under every change of it, the Node Table under every change of a record. -/
theorem tablesStayCanonical : Obligations.TablesStayCanonical := fun _ _ hs h =>
  step_keeps (P := State.canonical) (fun _ _ h => h)
    (fun c s t hs h => ⟨(exec_tables c s t h).canonical hs.1, (exec_nodes c s t h).canonical hs.2⟩) h hs

/-- Settles O57: below M misses while PRESENT, by the changes of a node record. -/
theorem presentNodesStayBelowTheThreshold : Obligations.PresentNodesStayBelowTheThreshold := by
  intro s t hs h
  refine step_keeps (P := State.Presence) (fun _ _ h => ⟨h.threshold, h.requested, h.law⟩) (fun c s t hs h => ?_) h hs
  obtain ⟨threshold, law⟩ := (exec_nodes c s t h).presence hs
  refine ⟨threshold, fun c' hc => ?_, law⟩
  exact exec_request (P := fun r => ∀ c', r = .configure c' → 1 ≤ c'.misses)
    (fun r hr c' e => by subst e; exact hr.2.2.2.2.2.2.1) h (fun r hr c' e => hs.requested c' (e ▸ hr)) _ hc c' rfl

/-- Every command keeps the records lawful (R2, R5, R13, R66). -/
theorem exec_recorded {c : Instr} {s t : State} (h : exec c s = .next t) (ho : s.store.Occupied) (hr : s.Recorded)
    (hg : s.Staged) : t.Recorded := by
  obtain ⟨slots, keys⟩ := (exec_tables c s t h).lawfulTable ho hr hg
  exact ⟨slots, keys, exec_request (fun _ h => h) h hr.request, (exec_tables c s t h).amends hr⟩

/-- Every command keeps the withdrawal counts (R73, R160). -/
theorem exec_counted {c : Instr} {s t : State} (h : exec c s = .next t) (hr : s.AtRest) (hs : s.Counted) : t.Counted := by
  obtain ⟨atLeastOne, counts⟩ := (exec_tables c s t h).counted hr hs
  refine ⟨atLeastOne, fun c' hc => ?_, counts⟩
  exact exec_request (P := fun r => ∀ c', r = .configure c' → 1 ≤ c'.withdrawals)
    (fun r hr c' e => by subst e; exact hr.2.2.2.2.1) h (fun r hr c' e => hs.requested c' (e ▸ hr)) _ hc c' rfl

theorem State.Recorded.queue {s : State} (h : s.Recorded) (q : List Instr) : State.Recorded { s with pending := q } :=
  ⟨h.slots, h.keys, h.request, h.amends⟩

theorem State.Staged.queue {s : State} (h : s.Staged) (q : List Instr) : State.Staged { s with pending := q } :=
  ⟨h.copies, h.reserved, h.count⟩

theorem State.AtRest.queue {s : State} (h : s.AtRest) (q : List Instr) : State.AtRest { s with pending := q } :=
  ⟨h.access, h.claims, h.batch, h.slots, h.due⟩

/-- Settles O55: the Key Directory, the records and the withdrawal counts under every change of the table. -/
theorem directoryStaysExact : Obligations.DirectoryStaysExact := by
  refine ⟨fun s t hs h => ?_, fun s t ho hb hr hg h => ?_, fun s t hr hs h => ?_⟩
  · exact step_keeps (P := fun s => s.store.Occupied) (fun _ _ h => h)
      (fun c s t hs h => (exec_tables c s t h).occupied hs) h hs
  · rcases step_cases h with rfl | ⟨c, rest, -, he⟩
    · exact hr
    · exact exec_recorded he ho (hr.queue rest) (hg.queue rest)
  · rcases step_cases h with rfl | ⟨c, rest, -, he⟩
    · exact hs
    · exact exec_counted he (hr.queue rest) ⟨hs.atLeastOne, hs.requested, hs.counts⟩

/-- Settles O56: the Cycle Plan under every change of the table. -/
theorem loadCountersStayExact : Obligations.LoadCountersStayExact := by
  refine ⟨fun s t hs h => ?_, fun s t hs h => ?_, fun s t hp hr hs h => ?_, fun s t hg hc h => ?_, fun s t hs h => ?_⟩
  · exact step_keeps (P := fun s => s.store.Planned) (fun _ _ h => h)
      (fun c s t hs h => (exec_tables c s t h).planned hs) h hs
  · exact step_keeps (P := fun s => ∀ i, s.store.load i ≤ s.port.config.frames) (fun _ _ h => h)
      (fun c s t hs h => (exec_tables c s t h).loads_le hs) h hs
  · rcases step_cases h with rfl | ⟨c, rest, -, he⟩
    · exact hs
    · exact (exec_tables c _ t he).budgeted hp (hr.queue rest) ⟨hs.loads, hs.due⟩
  · rcases step_cases h with rfl | ⟨c, rest, -, he⟩
    · exact hc
    · exact (exec_tables c _ t he).classed (hg.queue rest) hc
  · exact step_keeps (P := fun s => s.store.Struck) (fun _ _ h => h)
      (fun c s t hs h => (exec_tables c s t h).struck hs) h hs

/-- Every command keeps the host's claim with the port and the scan at rest (R18, R46, R73, R79, R101). -/
theorem exec_atRest {c : Instr} {s t : State} (h : exec c s = .next t) (ho : s.store.Occupied) (ht : s.timed)
    (hh : s.Hosted) (hs : s.AtRest) : t.Hosted ∧ t.AtRest := by
  obtain ⟨w, u, v, hw, e1, hg, e2⟩ := exec_turns c s t h
  have ease : s.AtEase := ⟨hs.access, hs.claims⟩
  have hu : u.timed := State.timed_of_core e1 (hw.keeps_timed ht)
  have easeT : t.AtEase := (hg.atEase hu ((hw.atEase hh ease).of_core e1)).of_core e2
  refine ⟨(hg.hosted ((hw.hosted hh).of_core e1)).of_core e2, ?_⟩
  suffices rest : t.scan.state = .stopped → t.timer.running = false → t.Emptied from
    ⟨easeT.access, easeT.claims, fun h1 h2 => (rest h1 h2).batch, fun h1 h2 => (rest h1 h2).slots,
      fun h1 h2 => (rest h1 h2).due⟩
  intro h1 h2
  obtain ⟨-, -, ⟨c1, -⟩, c2, c3, c4⟩ := State.core_eq_iff.1 e2
  obtain ⟨-, -, ⟨d1, -⟩, d2, d3, d4⟩ := State.core_eq_iff.1 e1
  obtain ⟨g1, g2, g3, g4⟩ := hg.rests hu (c1 ▸ h1) (c2 ▸ h2)
  have store : t.store = w.store := c3.trans (g3.trans d3)
  have batch : t.batch = w.batch := c4.trans (g4.trans d4)
  rcases hw.rests (d1 ▸ g1) (d2 ▸ g2) with ⟨s1, s2⟩ | ⟨s1, s2⟩ | ⟨s1, s2, s3, s4⟩
  · refine (exec_tables c s t h).emptied s1 ⟨fun hi => ?_, fun hi => ?_⟩ ⟨hs.batch s1 s2, hs.slots s1 s2, hs.due s1 s2⟩
    · have := (hs.claims s1 s2).1
      rw [(s.arbiter.outstanding_iff 2).2 ⟨_, .inl hi, rfl⟩] at this
      cases this
    · have := (hs.claims s1 s2).2
      rw [(s.arbiter.outstanding_iff 3).2 ⟨_, .inl hi, rfl⟩] at this
      cases this
  · rw [s1] at store
    rw [s2] at batch
    exact ⟨by rw [batch]; simp [BatchUnit.initial], fun i r c n hi => (by rw [store] at hi; cases hi), store ▸ rfl⟩
  · have := s.emptied_stopInAccess s1 ho s2
    exact ⟨batch ▸ s4 ▸ this.batch, store ▸ s3 ▸ this.slots, store ▸ s3 ▸ this.due⟩

/-- Settles O59: the registers and the host's claim under every turn, the batch and the RESERVED slots under every change of
the table. -/
theorem registersAndBatchStayBounded : Obligations.RegistersAndBatchStayBounded := by
  refine ⟨fun s t hs hb h => ?_, fun s t ho hb hr hg h => ?_, fun s t ho ht hh hs h => ?_⟩
  · exact step_keeps (P := fun s => s.Registers ∧ s.batch.Bounded)
      (fun _ _ h => ⟨⟨h.1.filled, h.1.inFlight, h.1.claimed, h.1.once⟩, h.2⟩)
      (fun c s t hs h => ⟨(exec_turns c s t h).registers hs.1, (exec_tables c s t h).bounded hs.2⟩) h ⟨hs, hb⟩
  · rcases step_cases h with rfl | ⟨c, rest, -, he⟩
    · exact hg
    · exact (exec_tables c _ t he).staged_ ho hb (hr.queue rest) (hg.queue rest)
  · rcases step_cases h with rfl | ⟨c, rest, -, he⟩
    · exact ⟨hh, hs⟩
    · exact exec_atRest he ho ht ⟨hh.claim, hh.once, hh.idle, hh.fresh, hh.stop⟩ (hs.queue rest)

/-! ### The laws at reset -/

/-- Settles O60: at reset every table is empty, no claim stands, and the scan is STOPPED. -/
theorem lawsHoldAtReset : Obligations.LawsHoldAtReset := by
  have empty : ∀ i, State.reset.store.slotAt i = .free := fun _ => rfl
  have none : ∀ i r c n, State.reset.store.slotAt i ≠ .withdrawing r c n := fun i r c n h => by cases h
  have clear : ∀ r, State.reset.arbiter.outstanding r = false := fun _ => rfl
  refine ⟨⟨⟨rfl, rfl, rfl⟩, rfl⟩, Store.occupied_initial, Store.planned_initial,
    ⟨by decide, fun _ h => (by cases h), fun _ h => (by cases h)⟩,
    rfl, fun h => absurd rfl h, fun _ => rfl, .of_free rfl rfl (fun _ h => by cases h), BatchUnit.bounded_empty _,
    ⟨fun _ => trivial, fun _ h => absurd h List.not_mem_nil, fun _ h => (by cases h), fun _ h => absurd h List.not_mem_nil⟩,
    State.staged_of_none (fun _ _ h => by cases h) rfl, ⟨fun i => ?_, Nat.zero_le _⟩,
    .of_none (clear 5) (fun h => by cases h),
    ⟨fun _ h => (by cases h), fun _ _ => ⟨rfl, rfl⟩, fun _ _ h => (by cases h), fun _ _ => none, fun _ _ => rfl⟩,
    ⟨by decide, fun _ h => (by cases h), fun i r c n h => absurd h (none i r c n)⟩,
    fun i r h => (by rw [empty i] at h; cases h),
    Store.struck_initial⟩
  exact (Store.load_initial i).trans_le (Nat.zero_le _)

end Sys2Proof.Machine
end

section
/-! Steps, power and reset, and the transactions of the host port (O1, O3 to O7). -/

namespace Sys2Proof.Machine

/-- Settles O1. -/
theorem stepRunsTheFrontCommand : Obligations.StepRunsTheFrontCommand := by
  refine ⟨fun c rest s h => ?_, fun s h => ?_⟩
  · unfold step
    rw [h]
  · unfold step
    rw [h]

/-! ### Power, reset and initialization -/

/-- A table without a slot taken is CLOSED throughout. -/
theorem Store.pageState_of_free {st : Store} (h : ∀ i, st.slotAt i = .free) (p : Nat) : st.pageState p = .closed := by
  unfold Store.pageState Store.pageSlots
  simp [h, Slot.emittable, Slot.isReserved, Slot.isFree]

/-- No notice is pending where no record, no node and neither device notice has one. -/
theorem State.attn_of_none {s : State} (hs : ∀ i, s.store.slotAt i = .free)
    (hn : ∀ n, s.nodes.at n = NodeRecord.initial) (ha : s.notices = ⟨none, none⟩) : s.attn = false := by
  unfold State.attn State.noticeSources
  simp [hs, hn, ha, Slot.noticePending, NodeRecord.noticePending, NodeRecord.initial]

theorem State.attn_reset (port : HostPort) : State.attn { State.reset with port := port } = false :=
  State.attn_of_none (fun _ => rfl) (fun _ => rfl) rfl

/-- Settles O3: the tables of the reset state are empty, and its other fields are read off. -/
theorem resetState : Obligations.ResetState := by
  have free : ∀ i, State.reset.store.slotAt i = .free := fun _ => rfl
  exact ⟨free, rfl, fun _ => rfl, fun p => Store.pageState_of_free free p, rfl, rfl, rfl, rfl, rfl, rfl, rfl, rfl, rfl,
    fun _ => rfl, rfl, rfl, rfl, rfl, rfl, rfl, rfl, rfl, rfl, rfl, rfl, rfl, rfl, State.attn_reset _, rfl⟩

/-- The summary byte right after the initialization of a reset (Table 11-7). -/
theorem State.summary_reset (port : HostPort) (hs : port.resetSeen = true) (hd : port.requestDiscarded = false) :
    State.summary { State.reset with port := port } = 0x02 := by
  unfold State.summary
  rw [State.attn_reset]
  simp only [hs, hd]
  decide

set_option maxRecDepth 10000 in
theorem crc8_resetDone : crc8 [0x04, 0x02, 0x00] = 0x81 := by decide

/-- Settles O4: each command of power and reset is read off, and the response of the first initialization computed. -/
theorem powerAndResetStartAfresh : Obligations.PowerAndResetStartAfresh := by
  refine ⟨fun s => rfl, fun s h => ?_, fun s => rfl, fun s h1 h2 h3 => ?_, ?_⟩
  · simp only [exec, execResetRelease, h, if_true]
    rfl
  · simp only [exec, execInitializationEnd, if_pos (And.intro h1 (And.intro h2 h3))]
    rfl
  · have summary := State.summary_reset { HostPort.initial with resetSeen := true } rfl rfl
    show Host.Outcome.next State.reset.completeReset = _
    unfold State.completeReset
    dsimp only
    rw [show State.reset.port = HostPort.initial from rfl, summary]
    have bytes : responseBytes .resetDone 0x02 [] = [0x04, 0x02, 0x00, 0x81] := by
      exact congrArg (fun c => [0x04, 0x02, 0x00, c]) crc8_resetDone
    rw [bytes]
    rfl

/-! ### Transactions of the host port -/

theorem execFetch_asserted (count : Nat) (s : State) (h : s.port.resetAsserted = true) :
    exec (.fetch count) s = .next { s with port := { s.port with miso := [] } } := by
  simp only [exec, execFetch, State.fetch, if_pos h]
  rfl

/-- Settles O5: the first byte is filler, and the response that follows is the one of the port state. -/
theorem fetchReturnsTheResponse : Obligations.FetchReturnsTheResponse := by
  refine ⟨fun s => ⟨rfl, rfl⟩, fun rest s => ?_, execFetch_asserted, fun count s _ h => ?_⟩
  · simp only [exec, execRequestArrival, execFetch, if_true, List.length_cons]
    split
    next h => simp [State.fetch, h]
    · rfl
  · cases s with
    | mk port =>
      cases port with
      | mk state =>
        subst h
        cases state <;> rfl

/-- A request transaction while RESET# is asserted leaves no trace (R151). -/
theorem exec_requestArrival_asserted (code : Byte) (rest : List Byte) (s : State) (h : s.port.resetAsserted = true) :
    exec (.requestArrival (code :: rest)) s = .next { s with port := { s.port with miso := [] } } := by
  simp only [exec, execRequestArrival, if_pos h]
  rfl

/-- A request transaction that is taken as one returns filler, and arrives. -/
theorem exec_requestArrival_arrive (code : Byte) (rest : List Byte) (s : State) (hc : code ≠ 0)
    (h : s.port.resetAsserted = false) : exec (.requestArrival (code :: rest)) s =
      .next ((s.returning (List.replicate (rest.length + 1) filler)).arrive (code :: rest)) := by
  simp only [exec, execRequestArrival, h, Bool.false_eq_true, if_false, if_neg hc, List.length_cons]

/-- Settles O6: outside READY a request sets its flag, and while RESET# is asserted not even that. -/
theorem overlappingRequestIsDiscarded : Obligations.OverlappingRequestIsDiscarded := by
  refine ⟨fun code rest s hc h hs => ?_, exec_requestArrival_asserted⟩
  rw [exec_requestArrival_arrive code rest s hc h]
  unfold State.arrive
  split
  next hr => exact absurd hr hs
  all_goals rfl

/-- A request taken: held back by its checks, held for its block, or with the host's claim placed. -/
theorem State.takeRequest_cases (s u : State) (bytes : List Byte)
    (hu : u = { s with
      port := { s.port with
        state := .working, received := bytes.take Config.receiveLimit, receivedCount := bytes.length,
        stopScanDone := false } }) :
    (∀ status, readRequest u.port.received u.port.receivedCount = .error status →
      s.takeRequest bytes = u.complete status []) ∧
    (∀ r, readRequest u.port.received u.port.receivedCount = .ok r → r.direct = true →
      s.takeRequest bytes = { u with port := { u.port with request := some r } }) ∧
    ∀ r, readRequest u.port.received u.port.receivedCount = .ok r → r.direct = false →
      s.takeRequest bytes = State.claim { u with port := { u.port with request := some r } } .host := by
  subst hu
  unfold State.takeRequest
  dsimp only
  split
  next status hs =>
    rw [hs]
    exact ⟨fun x hx => (by cases hx; rfl), fun r hr => (by cases hr), fun r hr => (by cases hr)⟩
  next r hs =>
    rw [hs]
    refine ⟨fun x hx => (by cases hx), fun r hr hd => ?_, fun r hr hd => ?_⟩ <;> cases hr
    · rw [if_pos hd]
    · rw [if_neg (by simp [hd])]

theorem State.arrive_ready (s : State) (bytes : List Byte) (h : s.port.state = .ready) :
    s.arrive bytes = s.takeRequest bytes := by
  unfold State.arrive
  rw [h]

/-- Settles O7: a request taken in READY by the outcome of its checks. -/
theorem requestIsTaken : Obligations.RequestIsTaken := by
  refine ⟨exec_requestArrival_asserted, fun code rest s hc h hs => ⟨_, rfl, ?_⟩⟩
  rw [exec_requestArrival_arrive code rest s hc h,
    State.arrive_ready (s.returning (List.replicate (rest.length + 1) filler)) _ hs]
  obtain ⟨failed, held, called⟩ := State.takeRequest_cases (s.returning (List.replicate (rest.length + 1) filler)) _
    (code :: rest) rfl
  exact ⟨fun status hr => congrArg _ (failed status hr), fun r hr hd => congrArg _ (held r hr hd),
    fun r hr hd => congrArg _ (called r hr hd)⟩

end Sys2Proof.Machine
end

section
/-! The checks of a request in their order, and a request read back from its bytes (O8, O9, O10). -/

namespace Sys2Proof.Machine

/-! ### Framing and length (R155) -/

/-- A request whose frame holds is judged by the length rule of its code, then by its arguments. -/
theorem readRequest_framed (code length : Byte) (args : List Byte) (h : length.toNat = args.length) :
    readRequest (code :: length :: args ++ [crc8 (code :: length :: args)]) (args.length + 3) =
      if lengthCheck code args = true then readArguments code args else .error .badLength := by
  unfold readRequest
  rw [frameCheck_parts, argumentBytes_parts]
  cases hl : lengthCheck code args <;> simp [h, hl]

theorem readFramed_eq (code : Byte) (args : List Byte) (h : args.length < 256) :
    readFramed code args = if lengthCheck code args = true then readArguments code args else .error .badLength :=
  readRequest_framed code _ args (toNat_byteOf _ h)

theorem readRequest_badLength (code length : Byte) (args : List Byte) (h : length.toNat = args.length)
    (hl : lengthCheck code args = false) :
    readRequest (code :: length :: args ++ [crc8 (code :: length :: args)]) (args.length + 3) = .error .badLength := by
  rw [readRequest_framed code length args h, hl]
  rfl

theorem readRequest_badCheck {received : List Byte} {count : Nat} (h : frameCheck received count = false) :
    readRequest received count = .error .badCheck := by
  unfold readRequest
  rw [h]
  rfl

theorem lengthCheck_exact {code : Byte} {n : Nat} (h : lengthRule code = .exact n) (args : List Byte) :
    lengthCheck code args = decide (args.length = n) := by
  unfold lengthCheck
  rw [h]

theorem lengthRule_insert : lengthRule 0x20 = .stated 7 5 6 := by decide

theorem lengthRule_amend : lengthRule 0x21 = .stated 4 2 3 := by decide

/-- Settles O8: frame, length and code, in the order of `readRequest`. -/
theorem framingChecksComeFirst : Obligations.FramingChecksComeFirst := by
  refine ⟨fun received count h => readRequest_badCheck ?_, fun code length crc args count h => readRequest_badCheck ?_,
    fun code length crc args count h => readRequest_badCheck ?_, fun code length args hne hl hc => ?_,
    fun code length args n hl hn hc => ?_, fun code length args hl hc => ?_,
    fun length hi lo node channel cls options n rest args ha hl hn => ?_,
    fun length hi lo options n rest args ha hl hn => ?_, fun code length args hl hc => ?_⟩
  · unfold frameCheck
    split
    · simp; omega
    · rfl
  · rw [frameCheck_parts]
    simp [h]
  · rw [frameCheck_parts]
    simp [h]
  · have rule : ∀ c ∈ ([0x01, 0x02, 0x03, 0x05, 0x10, 0x11, 0x12, 0x13, 0x26, 0x30, 0x31, 0x32, 0x33, 0x50] : List Byte),
        lengthRule c = .exact 0 := by decide
    exact readRequest_badLength _ _ _ hl (by simp [lengthCheck_exact (rule code hc), hne])
  · have rule : ∀ p ∈ ([(0x04, 5), (0x22, 5), (0x23, 2), (0x24, 2), (0x25, 1), (0x40, 1), (0x41, 2)] : List (Byte × Nat)),
        lengthRule p.1 = .exact p.2 := by decide
    exact readRequest_badLength _ _ _ hl (by simp [lengthCheck_exact (rule _ hc), hn])
  · refine readRequest_badLength _ _ _ hl (Bool.eq_false_iff.2 fun h => ?_)
    rcases hc with ⟨rfl, hlt⟩ | ⟨rfl, hlt⟩
    · have := ((lengthCheck_stated lengthRule_insert args).1 h).1
      omega
    · have := ((lengthCheck_stated lengthRule_amend args).1 h).1
      omega
  · refine readRequest_badLength _ _ _ hl (Bool.eq_false_iff.2 fun h => hn ?_)
    have := ((lengthCheck_stated lengthRule_insert args).1 h).2
    subst ha
    simp [argAt] at this ⊢
    omega
  · refine readRequest_badLength _ _ _ hl (Bool.eq_false_iff.2 fun h => hn ?_)
    have := ((lengthCheck_stated lengthRule_amend args).1 h).2
    subst ha
    simp [argAt] at this ⊢
    omega
  · simp only [List.mem_cons, List.not_mem_nil, or_false, not_or] at hc
    have rule : lengthRule code = .unassigned := by simp only [lengthRule, hc, or_self, if_false]
    rw [readRequest_framed code length args hl, if_pos (by unfold lengthCheck; rw [rule])]
    simp only [readArguments, hc, if_false]

/-! ### Arguments (Table 10-3) -/

/-- An answer that is BAD_ARG exactly under a condition, and otherwise a request. -/
structure BadArgIf (x : Except Status Request) (bad : Prop) : Prop where
  refused : bad → x = .error .badArg
  taken : ¬ bad → ∃ r, x = .ok r

theorem BadArgIf.ok (r : Request) : BadArgIf (.ok r) False := ⟨False.elim, fun _ => ⟨r, rfl⟩⟩

theorem BadArgIf.ite {c bad : Prop} [Decidable c] {x : Except Status Request} (h : BadArgIf x bad) :
    BadArgIf (if c then .error .badArg else x) (c ∨ bad) := by
  split
  next hc => exact ⟨fun _ => rfl, fun hn => absurd (.inl hc) hn⟩
  next hc => exact ⟨fun hb => h.refused (hb.resolve_left hc), fun hn => h.taken fun hb => hn (.inr hb)⟩

theorem BadArgIf.congr {bad bad' : Prop} {x : Except Status Request} (h : BadArgIf x bad) (e : bad ↔ bad') :
    BadArgIf x bad' := ⟨fun hb => h.refused (e.2 hb), fun hn => h.taken fun hb => hn (e.1 hb)⟩

/-- The key check stands before the rest: BAD_KEY for a key out of range, else BAD_ARG exactly under the condition. -/
theorem answers_of_badArgIf {key : Word} {bad : Prop} {answer : Except Status Request}
    (hf : keyInRange key = false → answer = .error .badKey) (ht : keyInRange key = true → BadArgIf answer bad) :
    (answer = .error .badKey ↔ key = 0 ∨ key = 0xFFFF) ∧
      (answer = .error .badArg ↔ key ≠ 0 ∧ key ≠ 0xFFFF ∧ bad) ∧
      ∀ status, answer = .error status → status = .badKey ∨ status = .badArg := by
  by_cases hk : key = 0 ∨ key = 0xFFFF
  · have := hf (by rcases hk with rfl | rfl <;> decide)
    subst this
    exact ⟨iff_of_true rfl hk, iff_of_false (by simp) (by tauto), fun status he => (by cases he; exact .inl rfl)⟩
  · obtain ⟨h0, h1⟩ := not_or.1 hk
    have hb := ht ((keyInRange_iff key).2 ⟨h0, h1⟩)
    by_cases bad
    next h =>
      rw [hb.refused h]
      exact ⟨iff_of_false (by simp) hk, iff_of_true rfl ⟨h0, h1, h⟩, fun status he => (by cases he; exact .inr rfl)⟩
    next h =>
      obtain ⟨r, hr⟩ := hb.taken h
      rw [hr]
      exact ⟨iff_of_false (by simp) hk, iff_of_false (by simp) fun he => h he.2.2, fun status he => (by cases he)⟩

theorem payloadInRange_eq_false (n : Byte) : payloadInRange n = false ↔ n = 0 ∨ 8 < n.toNat := by
  rw [← Bool.not_eq_true, payloadInRange_iff, BitVec.toNat_eq]
  simp only [BitVec.ofNat_eq_ofNat, BitVec.toNat_ofNat]
  omega

theorem optionsClear_eq_false (options : Byte) : optionsClear options = false ↔ options &&& 0xF8 ≠ 0 := by
  simp [optionsClear]

theorem toNat_lt_one (n : Byte) : n.toNat < 1 ↔ n = 0 := by
  rw [BitVec.toNat_eq]
  simp

/-- A class code above 4 names no class (R165). -/
theorem RateClass.ofCode_eq_none (b : Byte) : RateClass.ofCode b = none ↔ 4 < b.toNat := by
  unfold RateClass.ofCode
  simp only [ite_eq_iff, reduceCtorEq, and_false, false_or, and_true, BitVec.toNat_eq]
  simp
  omega

/-- A rate code above 2 names no rate (R165). -/
theorem LineRate.ofCode_eq_none (b : Byte) : LineRate.ofCode b = none ↔ 2 < b.toNat := by
  unfold LineRate.ofCode
  simp only [ite_eq_iff, reduceCtorEq, and_false, false_or, and_true, BitVec.toNat_eq]
  simp
  omega

theorem readInsert_badKey {args : List Byte} (hk : keyInRange (keyArg args) = false) :
    readInsert args = .error .badKey := by
  unfold readInsert
  exact if_pos hk

theorem readAmend_badKey {args : List Byte} (hk : keyInRange (keyArg args) = false) :
    readAmend args = .error .badKey := by
  unfold readAmend
  exact if_pos hk

/-- INSERT's argument checks after its key (R49). -/
theorem readInsert_badArgIf {args : List Byte} (hk : keyInRange (keyArg args) = true) :
    BadArgIf (readInsert args)
      (((argAt args 2).toNat < 1 ∨ 63 < (argAt args 2).toNat ∨ 15 < (argAt args 3).toNat) ∨
        RateClass.ofCode (argAt args 4) = none ∨ payloadInRange (argAt args 6) = false ∨
        optionsClear (argAt args 5) = false ∨
        ((argAt args 5).getLsbD 0 = true ∧ (argAt args 2).toNat = Config.allNodes) ∨
        ((argAt args 5).getLsbD 1 = true ∧ (argAt args 5).getLsbD 0 = false) ∨
        (leaseAndPayload ((argAt args 5).getLsbD 2) (args.drop 7)).1 = some 0 ∨ False) := by
  unfold readInsert
  dsimp only
  rw [if_neg (by simp [hk])]
  refine BadArgIf.ite ?_
  cases RateClass.ofCode (argAt args 4) with
  | none => exact ⟨fun _ => rfl, fun hn => absurd (.inl rfl) hn⟩
  | some cls =>
    have rest {bad : Prop} {x : Except Status Request} (h : BadArgIf x bad) :
        BadArgIf x (some cls = none ∨ bad) := h.congr (by simp)
    exact rest (.ite (.ite (.ite (.ite (.ite (.ok _))))))

/-- AMEND's argument checks after its key (R52). -/
theorem readAmend_badArgIf {args : List Byte} (hk : keyInRange (keyArg args) = true) :
    BadArgIf (readAmend args)
      (payloadInRange (argAt args 3) = false ∨ optionsClear (argAt args 2) = false ∨ False) := by
  unfold readAmend
  dsimp only
  rw [if_neg (by simp [hk])]
  exact .ite (.ite (.ok _))

theorem wordOfBytes_eq_zero (hi lo : Byte) : (wordOfBytes hi lo).toNat = 0 ↔ hi = 0 ∧ lo = 0 := by
  simp only [wordOfBytes, BitVec.toNat_append, BitVec.toNat_eq]
  rw [← Nat.shiftLeft_add_eq_or_of_lt lo.isLt, Nat.shiftLeft_eq]
  simp

/-- A lease value of 0 that is present (Table 3-2). -/
theorem leaseAndPayload_zero (present : Bool) (rest : List Byte) (h : present = true → 2 ≤ rest.length) :
    (leaseAndPayload present rest).1 = some 0 ↔ present = true ∧ rest.take 2 = [0, 0] := by
  unfold leaseAndPayload
  cases present with
  | false => simp
  | true =>
    match rest, h rfl with
    | hi :: lo :: rest, _ => simp [argAt, wordOfBytes_eq_zero]

/-- The key check of RENEW, RETIRE and LOOKUP. -/
theorem ite_keyInRange {α : Type} (key : Word) (x y : α) :
    (if keyInRange key = false then x else y) = if key = 0 ∨ key = 0xFFFF then x else y := by
  have range := keyInRange_iff key
  refine if_congr ?_ rfl rfl
  rw [← Bool.not_eq_true, range]
  tauto

theorem nodeInRange_eq_false (n : Byte) : nodeInRange n.toNat = false ↔ n = 0 ∨ 62 < n.toNat := by
  rw [← Bool.not_eq_true, nodeInRange_iff, ← toNat_lt_one]
  omega

theorem ite_nodeInRange {α : Type} (n : Byte) (x y : α) :
    (if nodeInRange n.toNat = true then x else y) = if n = 0 ∨ 62 < n.toNat then y else x := by
  rw [← ite_not]
  exact if_congr (by rw [Bool.not_eq_true, nodeInRange_eq_false]) rfl rfl

/-- CONFIGURE's argument checks: the ranges, then the line budget (R109, R160). -/
theorem readConfigure_answers (args : List Byte) (bad exceeds : Prop) (rate : Option LineRate)
    (hr : rate = LineRate.ofCode (argAt args 0))
    (hb : bad ↔ rate = none ∨ ((argAt args 1).toNat < 1 ∨ 32 < (argAt args 1).toNat) ∨
      ((argAt args 2).toNat < 1 ∨ 16 < (argAt args 2).toNat) ∨ ((argAt args 3).toNat < 1 ∨ 3 < (argAt args 3).toNat) ∨
      ((argAt args 4).toNat < 1 ∨ 15 < (argAt args 4).toNat))
    (ho : ∀ x, rate = some x → (exceeds ↔ (Configuration.mk x (argAt args 1).toNat (argAt args 2).toNat (argAt args 3).toNat
      (argAt args 4).toNat).meetsBudget = false)) :
    (readConfigure args = .error .badArg ↔ bad) ∧
      (readConfigure args = .error .configInvalid ↔ readConfigure args ≠ .error .badArg ∧ exceeds) ∧
      ∀ status, readConfigure args = .error status → status = .badArg ∨ status = .configInvalid := by
  unfold readConfigure
  rw [← hr, hb]
  cases rate with
  | none => simp
  | some x =>
    rw [ho x rfl]
    dsimp only
    split_ifs <;> simp_all

/-- The line budget of a rate by its code (R105, R109). -/
theorem meetsBudget_eq_false {rate : Byte} {x : LineRate} (hr : LineRate.ofCode rate = some x) (steps frames w m : Nat) :
    (Configuration.mk x steps frames w m).meetsBudget = false ↔
      steps * 250 < (frames * 115 + 3 + 18) * 2 ^ (rate.toNat + 1) := by
  have wordTime : x.wordTime = 2 ^ (rate.toNat + 1) := by
    unfold LineRate.ofCode at hr
    split_ifs at hr with h0 h1 h2 <;> cases hr
    · rw [h0]; rfl
    · rw [h1]; rfl
    · rw [h2]; rfl
  simp [Configuration.meetsBudget, Config.frameBudget, Config.markBudget, Config.demandBudget, wordTime]

/-- INSERT's answers by its argument bytes (R49). -/
theorem readFramed_insert (hi lo node channel cls options n : Byte) (rest : List Byte)
    (hr : rest.length = (if options.getLsbD 2 then 2 else 0) + 2 * n.toNat) (hlt : rest.length < 249) :
    readFramed 0x20 ([hi, lo, node, channel, cls, options, n] ++ rest) =
      readInsert ([hi, lo, node, channel, cls, options, n] ++ rest) := by
  have length : lengthCheck 0x20 ([hi, lo, node, channel, cls, options, n] ++ rest) = true := by
    rw [lengthCheck_stated lengthRule_insert]
    simp [argAt, hr]
    omega
  rw [readFramed_eq _ _ (by simp; omega), if_pos length]
  rfl

theorem readFramed_amend (hi lo options n : Byte) (rest : List Byte)
    (hr : rest.length = (if options.getLsbD 2 then 2 else 0) + 2 * n.toNat) (hlt : rest.length < 252) :
    readFramed 0x21 ([hi, lo, options, n] ++ rest) = readAmend ([hi, lo, options, n] ++ rest) := by
  have length : lengthCheck 0x21 ([hi, lo, options, n] ++ rest) = true := by
    rw [lengthCheck_stated lengthRule_amend]
    simp [argAt, hr]
    omega
  rw [readFramed_eq _ _ (by simp; omega), if_pos length]
  rfl

/-- A lease value that the options mark present stands in the first two bytes after the fixed arguments. -/
theorem two_le_of_lease {present : Bool} {k n : Nat} (hr : k = (if present then 2 else 0) + 2 * n)
    (h : present = true) : 2 ≤ k := by
  rw [if_pos h] at hr
  omega

/-- Settles O9: the argument checks of each request with arguments, in the order of its reader. -/
theorem acceptedArgumentsAreInRange : Obligations.AcceptedArgumentsAreInRange := by
  refine ⟨readRequest_inRange, fun hi lo node channel cls options n rest key answer hk hr hlt ha => ?_,
    fun hi lo options n rest key answer hk hr hlt ha => ?_, fun hi lo options high low key hk => ?_,
    fun hi lo key hk => ⟨?_, ?_⟩, fun p => ?_, fun n => ?_, fun n flags => ?_,
    fun rate steps frames w m answer ha => ?_⟩
  · rw [readFramed_insert hi lo node channel cls options n rest hr hlt] at ha
    subst ha hk
    rw [show wordOfBytes hi lo = keyArg ([hi, lo, node, channel, cls, options, n] ++ rest) from rfl]
    refine answers_of_badArgIf readInsert_badKey fun hk => (readInsert_badArgIf hk).congr ?_
    have lease := leaseAndPayload_zero (options.getLsbD 2) rest (two_le_of_lease hr)
    have all : node.toNat = Config.allNodes ↔ node = 63 := by rw [BitVec.toNat_eq]; rfl
    simp only [argAt, List.cons_append, List.nil_append, List.getD_cons_zero, List.getD_cons_succ, List.drop_succ_cons,
      List.drop_zero, lease, payloadInRange_eq_false, optionsClear_eq_false, RateClass.ofCode_eq_none, toNat_lt_one, all,
      or_assoc, or_false]
  · rw [readFramed_amend hi lo options n rest hr hlt] at ha
    subst ha hk
    rw [show wordOfBytes hi lo = keyArg ([hi, lo, options, n] ++ rest) from rfl]
    refine answers_of_badArgIf readAmend_badKey fun hk => (readAmend_badArgIf hk).congr ?_
    simp only [argAt, List.cons_append, List.nil_append, List.getD_cons_zero, List.getD_cons_succ,
      payloadInRange_eq_false, optionsClear_eq_false, or_assoc, or_false]
  · subst hk
    rw [readFramed_eq _ _ (by simp)]
    show readRenew _ = _
    unfold readRenew
    rw [ite_keyInRange]
    refine if_congr Iff.rfl rfl (if_congr ?_ rfl rfl)
    exact optionsClear_eq_false options
  · subst hk
    rw [readFramed_eq _ _ (by simp)]
    exact ite_keyInRange _ _ _
  · subst hk
    rw [readFramed_eq _ _ (by simp)]
    exact ite_keyInRange _ _ _
  · rw [readFramed_eq _ _ (by simp)]
    show (if p.toNat < Config.pageCount then _ else _) = _
    rw [← ite_not]
    exact if_congr (by simp [Config.pageCount]; omega) rfl rfl
  · rw [readFramed_eq _ _ (by simp)]
    exact ite_nodeInRange n _ _
  · rw [readFramed_eq _ _ (by simp)]
    show readNodeSet [n, flags] = _
    exact if_congr (nodeInRange_eq_false n) rfl rfl
  · rw [readFramed_eq _ _ (by simp)] at ha
    change answer = readConfigure _ at ha
    subst ha
    refine readConfigure_answers _ _ _ _ rfl ?_ fun x hx => (meetsBudget_eq_false hx _ _ _ _).symm
    simp only [argAt, List.getD_cons_zero, List.getD_cons_succ, LineRate.ofCode_eq_none, toNat_lt_one, or_assoc]

/-! ### A request read back from its bytes -/

/-- A lease and a payload in range, as they stand after the fixed arguments, read back. -/
theorem leaseAndPayload_bytes (lease : Option Nat) (payload : List Word) (h : leaseInRange lease) :
    leaseAndPayload lease.isSome (leaseBytes lease ++ payload.flatMap bytesOfWord) = (lease, payload) := by
  cases lease with
  | none => simp [leaseAndPayload, leaseBytes, wordsOfBytes_flatMap]
  | some n =>
    simp [leaseAndPayload, leaseBytes, bytesOfNat, bytesOfWord, argAt, wordsOfBytes_flatMap,
      wordOfBytes_ofNat n (h n rfl)]

theorem length_leaseBytes (lease : Option Nat) : (leaseBytes lease).length = if lease.isSome then 2 else 0 := by
  cases lease <;> rfl

theorem readInsert_bytes (a : InsertArgs) (h : (Request.insert a).inRange) :
    readInsert (Request.insert a).arguments = .ok (.insert a) := by
  obtain ⟨k0, k1, n0, n1, ch, p0, p1, reply, notify, l0, l1⟩ := h
  have key : keyArg (Request.insert a).arguments = a.key := wordOfBytes_split a.key
  have node : (argAt (Request.insert a).arguments 2).toNat = a.node := toNat_byteOf a.node (by omega)
  have channel : (argAt (Request.insert a).arguments 3).toNat = a.channel := toNat_byteOf a.channel (by omega)
  have cls : RateClass.ofCode (argAt (Request.insert a).arguments 4) = some a.cls := RateClass.ofCode_code a.cls
  have options : argAt (Request.insert a).arguments 5 = optionsByte a.replyRequested a.notify a.lease.isSome := rfl
  have count : payloadInRange (argAt (Request.insert a).arguments 6) = true := by
    rw [payloadInRange_iff, show argAt (Request.insert a).arguments 6 = byteOf a.payload.length from rfl,
      toNat_byteOf _ (by omega)]
    exact ⟨p0, p1⟩
  have rest : (Request.insert a).arguments.drop 7 = leaseBytes a.lease ++ a.payload.flatMap bytesOfWord := rfl
  obtain ⟨b0, b1, b2, clear⟩ := optionsByte_bits a.replyRequested a.notify a.lease.isSome
  unfold readInsert
  dsimp only
  rw [key, node, channel, cls, options, count, rest, b0, b1, b2, clear, leaseAndPayload_bytes _ _ l1,
    if_neg (by simp [(keyInRange_iff _).2 ⟨k0, k1⟩]), if_neg (by omega)]
  dsimp only
  rw [if_neg (by simp), if_neg (by simp), if_neg (fun hr => reply hr.1 hr.2),
    if_neg (fun hn => by rw [notify hn.1] at hn; simp at hn), if_neg l0]

theorem readAmend_bytes (key : Word) (payload : List Word) (lease : Option Nat)
    (h : (Request.amend key payload lease).inRange) :
    readAmend (Request.amend key payload lease).arguments = .ok (.amend key payload lease) := by
  obtain ⟨k0, k1, p0, p1, l1⟩ := h
  have hkey : keyArg (Request.amend key payload lease).arguments = key := wordOfBytes_split key
  have options : argAt (Request.amend key payload lease).arguments 2 = optionsByte false false lease.isSome := rfl
  have count : payloadInRange (argAt (Request.amend key payload lease).arguments 3) = true := by
    rw [payloadInRange_iff, show argAt (Request.amend key payload lease).arguments 3 = byteOf payload.length from rfl,
      toNat_byteOf _ (by omega)]
    exact ⟨p0, p1⟩
  have rest : (Request.amend key payload lease).arguments.drop 4 = leaseBytes lease ++ payload.flatMap bytesOfWord := rfl
  obtain ⟨-, -, b2, clear⟩ := optionsByte_bits false false lease.isSome
  unfold readAmend
  dsimp only
  rw [hkey, options, count, rest, b2, clear, leaseAndPayload_bytes _ _ l1, if_neg (by simp [(keyInRange_iff _).2 ⟨k0, k1⟩]),
    if_neg (by simp), if_neg (by simp)]

theorem readRenew_bytes (key : Word) (lease : Option Nat) (h : (Request.renew key lease).inRange) :
    readRenew (Request.renew key lease).arguments = .ok (.renew key lease) := by
  obtain ⟨k0, k1, l1⟩ := h
  have hkey : keyArg (Request.renew key lease).arguments = key := wordOfBytes_split key
  have options : argAt (Request.renew key lease).arguments 2 = optionsByte false false lease.isSome := rfl
  obtain ⟨-, -, b2, clear⟩ := optionsByte_bits false false lease.isSome
  unfold readRenew
  dsimp only
  rw [hkey, options, b2, clear, if_neg (by simp [(keyInRange_iff _).2 ⟨k0, k1⟩]), if_neg (by simp)]
  cases lease with
  | none => rfl
  | some n =>
    exact congrArg (fun n => Except.ok (Request.renew key (some n))) (wordOfBytes_ofNat n (l1 n rfl))

theorem readKey_bytes (key : Word) (request : Word → Request) (h : key ≠ 0 ∧ key ≠ 0xFFFF) :
    readKey (bytesOfWord key) request = .ok (request key) := by
  have hkey : keyArg (bytesOfWord key) = key := wordOfBytes_split key
  unfold readKey
  rw [hkey, if_neg (by simp [(keyInRange_iff _).2 h])]

theorem readConfigure_bytes (c : Configuration) (h : (Request.configure c).inRange) :
    readConfigure (Request.configure c).arguments = .ok (.configure c) := by
  obtain ⟨s0, s1, f0, f1, w0, w1, m0, m1, budget⟩ := h
  have rate : LineRate.ofCode (argAt (Request.configure c).arguments 0) = some c.rate := LineRate.ofCode_code c.rate
  have steps : (argAt (Request.configure c).arguments 1).toNat = c.steps := toNat_byteOf _ (by omega)
  have frames : (argAt (Request.configure c).arguments 2).toNat = c.frames := toNat_byteOf _ (by omega)
  have w : (argAt (Request.configure c).arguments 3).toNat = c.withdrawals := toNat_byteOf _ (by omega)
  have m : (argAt (Request.configure c).arguments 4).toNat = c.misses := toNat_byteOf _ (by omega)
  unfold readConfigure
  rw [rate, steps, frames, w, m]
  dsimp only
  rw [if_neg (by omega), if_neg (by omega), if_neg (by omega), if_neg (by omega), if_neg]
  simpa [Configuration.meetsBudget, Config.frameBudget, Config.markBudget, Config.demandBudget] using budget

theorem readNodeSet_bytes (n : Nat) (permitted clearErrors : Bool) (h : 1 ≤ n ∧ n ≤ 62) :
    readNodeSet (Request.nodeSet n permitted clearErrors).arguments = .ok (.nodeSet n permitted clearErrors) := by
  have node : (argAt (Request.nodeSet n permitted clearErrors).arguments 0).toNat = n := toNat_byteOf n (by omega)
  have bits : ∀ p c : Bool, (bitAt 0 p ||| bitAt 1 c) &&& 0xFC = 0 ∧ (bitAt 0 p ||| bitAt 1 c).getLsbD 0 = p ∧
      (bitAt 0 p ||| bitAt 1 c).getLsbD 1 = c := by decide
  obtain ⟨clear, b0, b1⟩ := bits permitted clearErrors
  have flags : argAt (Request.nodeSet n permitted clearErrors).arguments 1 = bitAt 0 permitted ||| bitAt 1 clearErrors := rfl
  unfold readNodeSet
  dsimp only
  rw [node, flags, clear, b0, b1, if_neg (by simp [nodeInRange, h, Config.nodeCount]), if_neg (by simp)]

/-- The length of the arguments of a request in range is the one that its code allows (Table 11-5). -/
theorem Request.lengthCheck_arguments (r : Request) (h : r.inRange) :
    r.arguments.length < 256 ∧ lengthCheck r.code r.arguments = true := by
  cases r with
  | insert a =>
    obtain ⟨-, -, -, -, -, p0, p1, -⟩ := h
    obtain ⟨-, -, b2, -⟩ := optionsByte_bits a.replyRequested a.notify a.lease.isSome
    have length : (Request.insert a).arguments.length =
        7 + (if a.lease.isSome then 2 else 0) + 2 * a.payload.length := by
      simp [Request.arguments, bytesOfWord, length_leaseBytes]
      omega
    have two : (if a.lease.isSome then 2 else 0) ≤ 2 := by split <;> omega
    refine ⟨by omega, (lengthCheck_stated lengthRule_insert _).2 ⟨by omega, ?_⟩⟩
    rw [show argAt (Request.insert a).arguments 6 = byteOf a.payload.length from rfl, toNat_byteOf _ (by omega),
      show argAt (Request.insert a).arguments 5 = optionsByte a.replyRequested a.notify a.lease.isSome from rfl, b2, length]
  | amend key payload lease =>
    obtain ⟨-, -, p0, p1, -⟩ := h
    obtain ⟨-, -, b2, -⟩ := optionsByte_bits false false lease.isSome
    have length : (Request.amend key payload lease).arguments.length =
        4 + (if lease.isSome then 2 else 0) + 2 * payload.length := by
      simp [Request.arguments, bytesOfWord, length_leaseBytes]
      omega
    have two : (if lease.isSome then 2 else 0) ≤ 2 := by split <;> omega
    refine ⟨by omega, (lengthCheck_stated lengthRule_amend _).2 ⟨by omega, ?_⟩⟩
    rw [show argAt (Request.amend key payload lease).arguments 3 = byteOf payload.length from rfl, toNat_byteOf _ (by omega),
      show argAt (Request.amend key payload lease).arguments 2 = optionsByte false false lease.isSome from rfl, b2, length]
  | configure | renew | retire | lookup | pageQuery | nodeQuery | nodeSet =>
    exact ⟨by simp [Request.arguments, bytesOfWord, bytesOfNat], rfl⟩
  | identify | status | readConfiguration | clear | startScan | stopScan | holdScan | resumeScan | loadQuery | openBatch
  | commitBatch | abortBatch | batchQuery | takeNotices => exact ⟨by decide, rfl⟩

/-- The arguments of a request in range are read as that request (Table 11-5). -/
theorem Request.readArguments_arguments (r : Request) (h : r.inRange) : readArguments r.code r.arguments = .ok r := by
  cases r with
  | insert a => exact readInsert_bytes a h
  | amend key payload lease => exact readAmend_bytes key payload lease h
  | renew key lease => exact readRenew_bytes key lease h
  | retire key => exact readKey_bytes key .retire h
  | lookup key => exact readKey_bytes key .lookup h
  | configure c => exact readConfigure_bytes c h
  | nodeSet n permitted clearErrors => exact readNodeSet_bytes n permitted clearErrors h
  | pageQuery p =>
    have hp : p < 128 := h
    have page : (argAt (Request.pageQuery p).arguments 0).toNat = p := toNat_byteOf p (by omega)
    show (if (argAt (Request.pageQuery p).arguments 0).toNat < Config.pageCount then _ else _) = _
    rw [page, if_pos hp]
  | nodeQuery n =>
    have hn : 1 ≤ n ∧ n ≤ 62 := h
    have node : (argAt (Request.nodeQuery n).arguments 0).toNat = n := toNat_byteOf n (by omega)
    show (if nodeInRange (argAt (Request.nodeQuery n).arguments 0).toNat = true then _ else _) = _
    rw [node, if_pos ((nodeInRange_iff n).2 hn)]
  | identify | status | readConfiguration | clear | startScan | stopScan | holdScan | resumeScan | loadQuery | openBatch
  | commitBatch | abortBatch | batchQuery | takeNotices => rfl

/-! ### CRC-8 (R164) -/

/-- One bit of a CRC register of any width, with its generator (R163, R164). -/
def crcShift {w : Nat} (g reg : BitVec w) : BitVec w := if reg.msb then (reg <<< 1) ^^^ g else reg <<< 1

/-- One bit of a CRC register with the data bit beside it, most significant bit first. -/
def crcStep {w : Nat} (g b reg : BitVec w) (k : Nat) : BitVec w :=
  if reg.msb != b.getLsbD (w - 1 - k) then (reg <<< 1) ^^^ g else reg <<< 1

theorem crcShift_xor {w : Nat} (g b reg : BitVec w) (k : Nat) (hk : k < w) :
    crcShift g (reg ^^^ (b <<< k)) = crcStep g b reg k ^^^ (b <<< (k + 1)) := by
  have msb : (reg ^^^ (b <<< k)).msb = (reg.msb != b.getLsbD (w - 1 - k)) := by
    rw [BitVec.msb_xor, BitVec.msb_eq_getLsbD_last (b <<< k), BitVec.getLsbD_shiftLeft]
    simp [show ¬ w - 1 < k by omega, show w - 1 < w by omega, Bool.bne_eq_xor]
  have shift : (reg ^^^ (b <<< k)) <<< 1 = reg <<< 1 ^^^ b <<< (k + 1) := by
    rw [BitVec.shiftLeft_xor_distrib, ← BitVec.shiftLeft_add]
  unfold crcShift crcStep
  rw [msb, shift]
  split
  · rw [BitVec.xor_assoc, BitVec.xor_assoc, BitVec.xor_comm (b <<< (k + 1))]
  · rfl

theorem crcShift_iterate_xor {w : Nat} (g b : BitVec w) (n : Nat) : ∀ (reg : BitVec w) (k : Nat), k + n ≤ w →
    (crcShift g)^[n] (reg ^^^ (b <<< k)) = (List.range' k n).foldl (crcStep g b) reg ^^^ (b <<< (k + n)) := by
  induction n with
  | zero => exact fun _ _ _ => rfl
  | succ n ih =>
    intro reg k hk
    rw [Function.iterate_succ_apply, crcShift_xor g b reg k (by omega), ih _ _ (by omega), List.range'_succ,
      List.foldl_cons, Nat.add_right_comm, Nat.add_assoc]

/-- A value taken into a CRC register at once, and bit by bit. -/
theorem crcShift_value {w : Nat} (g b reg : BitVec w) :
    (crcShift g)^[w] (reg ^^^ b) = (List.range w).foldl (crcStep g b) reg := by
  have h := crcShift_iterate_xor g b w reg 0 (by omega)
  rwa [BitVec.shiftLeft_zero, BitVec.shiftLeft_eq_zero (by omega), BitVec.xor_zero, ← List.range_eq_range'] at h

theorem crc8Bits_eq (n : Nat) : ∀ reg : Byte, crc8Bits n reg = (crcShift 0x07#8)^[n] reg := by
  induction n with
  | zero => exact fun _ => rfl
  | succ n ih => exact fun reg => ih (crc8Bit reg)

/-- A byte taken into the CRC-8 register, bit by bit. -/
theorem crc8_append (bytes : List Byte) (b : Byte) :
    crc8 (bytes ++ [b]) = (List.range 8).foldl (crcStep 0x07#8 b) (crc8 bytes) := by
  unfold crc8
  rw [List.foldl_append]
  exact (crc8Bits_eq 8 _).trans (crcShift_value 0x07#8 b _)

set_option maxRecDepth 100000 in
theorem crc8_check : crc8 [0x31, 0x32, 0x33, 0x34, 0x35, 0x36, 0x37, 0x38, 0x39] = 0xF4 := by decide

/-- Settles O10: the arguments read back request by request, and the CRC-8 bit by bit. -/
theorem requestBytesReadBack : Obligations.RequestBytesReadBack := by
  refine ⟨fun r hr => ?_, rfl, crc8_append, crc8_check⟩
  obtain ⟨short, length⟩ := r.lengthCheck_arguments hr
  rw [readRequest_bytes r short length, r.readArguments_arguments hr]

end Sys2Proof.Machine
end

section
/-! Completions and claims, the requests of the port itself, and the scan requests (O11 to O18). -/

namespace Sys2Proof.Machine

/-! ### Completions and claims (R18, R152) -/

/-- The access in progress after a completion waited before. -/
theorem Arbiter.next_inProgress_mem (a : Arbiter) (c : Claim) (h : a.next.inProgress = some c) : c ∈ a.waiting := by
  rcases a.next_cases with e | ⟨d, hd, hi, -⟩
  · rw [e] at h
    cases h
  · rw [hi] at h
    cases h
    exact hd

theorem State.release_eq (s : State) (h : s.port.request ≠ some .stopScan ∨ Claim.host ∉ s.arbiter.waiting) :
    s.release = { s with arbiter := s.arbiter.next } := by
  unfold State.release
  rcases h with h | h
  · exact State.afterGrant_of_request_ne _ h
  · exact State.afterGrant_of_inProgress_ne _ fun hi => h (s.arbiter.next_inProgress_mem _ hi)

theorem Arbiter.next_of_empty (a : Arbiter) (h : a.waiting = []) : a.next = ⟨none, []⟩ := by
  unfold Arbiter.next
  rw [(Arbiter.first_eq_none a).2 h, ← h]

/-- Where a claim waits, the first in the grant order is granted (R18). -/
theorem Arbiter.next_of_waiting (a : Arbiter) (h : a.waiting ≠ []) : ∃ c ∈ a.waiting, a.next.inProgress = some c ∧
    (∀ d ∈ a.waiting, c.rank ≤ d.rank) ∧ a.next.waiting = a.waiting.filter fun d => decide (d.rank ≠ c.rank) := by
  cases hf : a.first with
  | none => exact absurd ((Arbiter.first_eq_none a).1 hf) h
  | some c =>
    have next : a.next = a.grantTo c := by
      unfold Arbiter.next
      rw [hf]
    exact ⟨c, a.first_mem c hf, by rw [next]; rfl, a.first_le c hf, by rw [next]; rfl⟩

/-- Settles O11: a completion, a claim and a grant, by the case of the arbiter. -/
theorem completionAnswersAndGrantsOn : Obligations.CompletionAnswersAndGrantsOn := by
  refine ⟨fun s status data => s.finish_eq status data, fun s c h => ⟨fun hi => s.claim_idle c hi h, fun hi hw => ?_,
    fun hi hw => ?_⟩, fun s h => s.release_eq h, Arbiter.next_of_empty, fun page item key => rfl, Arbiter.next_of_waiting⟩
  all_goals
    obtain ⟨d, hd⟩ := Option.ne_none_iff_exists'.1 hi
    rw [s.claim_busy c d hd]
    unfold Arbiter.enqueue
  · rw [if_neg (by simpa using hw)]
  · rw [if_pos (by simpa using hw)]

/-! ### The requests of the port itself (chapter 10) -/

theorem exec_identify (s : State) (h : s.heldDirect = some .identify) :
    exec .identify s = .next (s.complete .ok identifyData) := by
  simp only [exec, execIdentify, h]

theorem exec_status (s : State) (h : s.heldDirect = some .status) : exec .status s = .next (s.complete .ok []) := by
  simp only [exec, execStatus, h]

theorem exec_readConfiguration (s : State) (h : s.heldDirect = some .readConfiguration) :
    exec .readConfiguration s = .next (s.complete .ok s.port.config.data) := by
  simp only [exec, execReadConfiguration, h]

/-- The parts of a summary byte (Table 11-7). -/
def summaryByte (scan batch : Nat) (attn seen discarded : Bool) : Byte :=
  byteOf (scan * 32 + batch * 8 + attn.toNat * 4 + seen.toNat * 2 + discarded.toNat)

theorem State.summary_eq (s : State) : s.summary = summaryByte (scanCode s.scan.state s.scan.request)
    s.batch.state.code.toNat s.attn s.port.resetSeen s.port.requestDiscarded := rfl

/-- The fields of a summary byte read back. -/
theorem summaryByte_fields : ∀ scan < 8, ∀ batch < 3, ∀ attn seen discarded : Bool,
    (summaryByte scan batch attn seen discarded).extractLsb' 5 3 = BitVec.ofNat 3 scan ∧
      (summaryByte scan batch attn seen discarded).extractLsb' 3 2 = BitVec.ofNat 2 batch ∧
      (summaryByte scan batch attn seen discarded).getLsbD 2 = attn ∧
      (summaryByte scan batch attn seen discarded).getLsbD 1 = seen ∧
      (summaryByte scan batch attn seen discarded).getLsbD 0 = discarded := by decide

theorem scanCode_lt (state : ScanState) (request : ScanRequest) : scanCode state request < 8 := by
  cases state <;> cases request <;> decide

theorem BatchState.code_lt (b : BatchState) : b.code.toNat < 3 := by cases b <;> decide

/-- Settles O12: the data of each request, and the fields of the summary byte. -/
theorem portRequestsAnswer : Obligations.PortRequestsAnswer := by
  refine ⟨exec_identify, exec_status, fun s h => ?_, fun s => ?_⟩
  · rw [exec_readConfiguration s h]
    unfold Configuration.data
    cases s.port.config.rate <;> rfl
  · obtain ⟨scan, batch, attn, seen, discarded⟩ := summaryByte_fields _ (scanCode_lt s.scan.state s.scan.request) _
      s.batch.state.code_lt s.attn s.port.resetSeen s.port.requestDiscarded
    rw [s.summary_eq, scan, batch]
    refine ⟨?_, ?_, ?_, ?_, ?_, ?_, ?_, ?_, fun h => by rw [h]; rfl, fun h => by rw [h]; rfl, fun h => by rw [h]; rfl, attn,
      seen, discarded⟩
    all_goals
      intro h1 h2
      rw [h1, h2]
      rfl

/-- The largest load counter lies within a bound exactly when every counter does. -/
theorem Store.maxLoad_le (st : Store) (n : Nat) : st.maxLoad ≤ n ↔ ∀ x ∈ st.loads, x ≤ n := by
  refine ⟨fun h x hx => ((le_foldl_max id st.loads 0).2 x hx).trans h, fun h => ?_⟩
  exact List.foldlRecOn st.loads max (motive := (· ≤ n)) (Nat.zero_le n) fun m hm x hx => Nat.max_le.2 ⟨hm, h x hx⟩

/-- Settles O13: CONFIGURE by its two checks. -/
theorem configureStoresTheFiveValues : Obligations.ConfigureStoresTheFiveValues := by
  intro c s hc h
  refine ⟨fun hs => ?_, fun hs ⟨n, hn, hlt⟩ => ?_, fun hs hl => ?_⟩
  · simp only [exec, execConfigure, h, if_pos hs]
  · have high : c.frames < s.store.maxLoad := by
      by_contra hc
      have := (s.store.maxLoad_le c.frames).1 (Nat.not_lt.1 hc) n hn
      omega
    simp only [exec, execConfigure, h, hs, ne_eq, not_true_eq_false, if_false, if_pos high]
  · have low : ¬ c.frames < s.store.maxLoad := Nat.not_lt.2 ((s.store.maxLoad_le c.frames).2 hl)
    have rising : Sparse.rising s.nodes.records = true := (Bool.and_eq_true_iff.1 hc.2).1
    refine ⟨s.setConfiguration c, ?_, rfl, rfl, fun n => ?_⟩
    · simp only [exec, execConfigure, h, hs, ne_eq, not_true_eq_false, if_false, if_neg low]
    · exact Sparse.get_mapValues _ NodeRecord.initial (fun r => { r with misses := 0 }) rfl rising n

/-- Settles O14: CLEAR in its access, and the end of its initialization. -/
theorem clearStartsAfresh : Obligations.ClearStartsAfresh := by
  refine ⟨fun s h hs => ?_, fun s h hs => ?_, fun s h1 h2 => ?_⟩
  · simp only [exec, execClear, h, if_neg hs]
  · simp only [exec, execClear, h, if_pos hs]
    rfl
  · simp only [exec, execClearInitializationEnd, if_pos (And.intro h1 h2)]

/-! ### Scan requests (6.2) -/

/-- The boundary at the Scan Engine in RUN: the invitation and the mark (R104, R135). -/
theorem State.scanBoundary_run (u : State) (first : Bool) (h : u.scan.taken = .run) : u.scanBoundary first = { u with
    scan := { u.scan with
      state := .run, request := .none, line := .mark,
      sent := markWords false first u.nodes.invite.1 u.timer.index u.timer.count },
    nodes := u.nodes.invite.2, demand := { DemandServer.initial with invited := u.nodes.invite.1 } } := by
  unfold State.scanBoundary
  rw [h]

/-- The boundary at the Scan Engine in HOLD: the mark with the hold flag (R104). -/
theorem State.scanBoundary_hold (u : State) (first : Bool) (h : u.scan.taken = .hold) : u.scanBoundary first = { u with
    scan := { u.scan with
      state := .hold, request := .none, line := .mark, sent := markWords true first 0 u.timer.index u.timer.count } } := by
  unfold State.scanBoundary
  rw [h]

/-- The boundary at the Scan Engine in FAULT: nothing on the line (R104). -/
theorem State.scanBoundary_fault (u : State) (first : Bool) (h : u.scan.taken = .fault) :
    u.scanBoundary first = { u with scan := { u.scan with state := .fault, request := .none } } := by
  unfold State.scanBoundary
  rw [h]

/-- Settles O15: START SCAN takes the first boundary in RUN. -/
theorem startScanTakesTheFirstBoundary : Obligations.StartScanTakesTheFirstBoundary := by
  refine ⟨fun s h hs => by simp only [exec, execStartScan, h, if_neg hs], fun s h hs hq => ?_⟩
  obtain ⟨a, e, o2, -, -⟩ :=
    State.takeBoundary_eq { s with scan := { s.scan with state := .run } } true (by simp)
  refine ⟨s.startScan, by simp only [exec, execStartScan, h, if_pos hs], ?_⟩
  have taken : (State.atBoundary { s with scan := { s.scan with state := .run } } true a).scan.taken = .run :=
    ScanEngine.taken_of_none { s.scan with state := .run, regA := .free, regB := .free, line := .idle } hq
  rw [show s.startScan = _ from e, State.scanBoundary_run _ true taken]
  exact ⟨rfl, rfl, rfl, rfl, rfl, rfl, rfl, rfl, o2, rfl, rfl, rfl, rfl⟩

/-! ### The grant of STOP SCAN (R100) -/

/-- A grant while the scan is STOPPED does nothing beside the arbiter. -/
theorem State.afterGrant_of_stopped (s : State) (h : s.scan.state = .stopped) : s.afterGrant = s := by
  unfold State.afterGrant
  split
  · exact s.stopAtGrant_of_stopped h
  · rfl

/-- A completion while the scan is STOPPED. -/
theorem State.release_of_stopped (s : State) (h : s.scan.state = .stopped) :
    s.release = { s with arbiter := s.arbiter.next } := State.afterGrant_of_stopped _ h

theorem FrameRegister.isFilled_discarded (r : FrameRegister) : r.discarded.isFilled = false := by
  cases r <;> rfl

/-- The state in which the grant of a STOP SCAN has stopped the scan, before the abort word (R19, R98, R118). -/
def State.halted (s : State) : State :=
  { s with
    scan := { s.scan with
      state := .stopped, request := .none, regA := s.scan.regA.discarded, regB := s.scan.regB.discarded },
    reply := ReplyUnit.initial, arbiter := s.arbiter.withdrawLine }

/-- The grant of a STOP SCAN by what is owed to the line. -/
theorem State.stopAtGrant_eq (s : State) (h : s.scan.state ≠ .stopped) : s.stopAtGrant =
    match s.abortDue with
    | .none => s.halted.endQuietly
    | .sent => s.halted.sendAbort
    | .afterWord => { s.halted with scan := { s.halted.scan with abort := .afterWord } }
    | .afterSlot => { s.halted with scan := { s.halted.scan with abort := .afterSlot } }
    | .afterAllowance => { s.halted with scan := { s.halted.scan with abort := .afterAllowance } } := by
  unfold State.stopAtGrant
  rw [if_neg h]
  cases s.abortDue <;> rfl

/-- What is owed to the line, by what is on it (R100, R142). -/
theorem State.abortDue_cases (s : State) :
    ((s.scan.line = .idle ∨ s.scan.line = .between) → s.abortDue = .none) ∧
    ((s.scan.line = .mark ∨ s.scan.line = .frame) → s.abortDue = .afterWord) ∧
    (s.scan.line = .replyWindow → s.abortDue = .afterSlot) ∧
    (s.scan.line = .demandWindow → s.demand.state = .listening → s.abortDue = .afterAllowance) ∧
    (s.scan.line = .demandWindow → s.demand.state = .answering → s.abortDue = .afterWord) ∧
    (s.scan.line = .demandWindow → s.demand.state ≠ .listening → s.demand.state ≠ .answering → s.abortDue = .sent) := by
  unfold State.abortDue
  cases s.scan.line <;> simp
  cases s.demand.state <;> simp

/-- The grant of STOP SCAN leaves what `Halts` says. -/
theorem State.halts_stopAtGrant (s : State) (port : HostPort) (hs : s.scan.state ≠ .stopped) :
    s.Halts (State.stopAtGrant { s with
      port := port, arbiter := ⟨some .host, s.arbiter.waiting.filter fun d => decide (d.rank ≠ Claim.host.rank)⟩ }) := by
  generalize hu : ({ s with port := port, arbiter := _ } : State) = u
  have scan : u.scan = s.scan := by rw [← hu]
  have demand : u.demand = s.demand := by rw [← hu]
  have claims : u.arbiter.withdrawLine =
      ⟨some .host, s.arbiter.waiting.filter fun c => decide (c = .countdown ∨ c = .application)⟩ := by
    subst hu
    unfold Arbiter.withdrawLine
    dsimp only
    rw [List.filter_filter]
    congr 1
    refine List.filter_congr fun c _ => ?_
    cases c <;> simp [Claim.ofLine, Claim.rank]
  have kept : u.halted.store = s.store ∧ u.halted.timer = s.timer ∧ u.halted.batch = s.batch ∧
      u.halted.nodes = s.nodes ∧ u.halted.notices = s.notices := by subst hu; exact ⟨rfl, rfl, rfl, rfl, rfl⟩
  have whole := u.stopAtGrant_eq (scan ▸ hs)
  obtain ⟨d1, d2, d3, d4, d5, d6⟩ := u.abortDue_cases
  simp only [scan, demand] at d1 d2 d3 d4 d5 d6
  have fields : u.stopAtGrant.scan.request = .none ∧ u.stopAtGrant.reply = ⟨[], []⟩ ∧
      u.stopAtGrant.arbiter = u.arbiter.withdrawLine ∧ u.stopAtGrant.scan.regA.isFilled = false ∧
      u.stopAtGrant.scan.regB.isFilled = false := by
    rw [whole]
    have hA := u.scan.regA.isFilled_discarded
    have hB := u.scan.regB.isFilled_discarded
    cases u.abortDue with
    | none | sent => exact ⟨rfl, rfl, rfl, rfl, rfl⟩
    | afterWord | afterSlot | afterAllowance => exact ⟨rfl, rfl, rfl, hA, hB⟩
  obtain ⟨f1, f2, f3, f4⟩ := fields
  refine ⟨⟨by simp, f1⟩, f2, f3.trans claims, f4, ?_, fun h => ?_, fun h => ?_, fun h => ?_, fun h h' => ?_, fun h h' => ?_,
    fun h h' h'' => ?_⟩
  · rw [State.stopAtGrant_store, State.stopAtGrant_timer, State.stopAtGrant_batch, State.stopAtGrant_nodes,
      State.stopAtGrant_notices]
    exact kept
  · rw [whole, d1 h, ← scan]
    exact ⟨rfl, rfl, rfl, rfl, rfl⟩
  · rw [whole, d2 h]
  · rw [whole, d3 h]
  · rw [whole, d4 h h']
  · rw [whole, d5 h h']
  · rw [whole, d6 h h' h'']
    exact ⟨rfl, rfl, rfl, rfl⟩

/-- The host's claim alone is left: its grant, when an access completes, stops the scan. -/
theorem State.release_stopScan (s : State) (hq : s.port.request = some .stopScan) (hw : .host ∈ s.arbiter.waiting)
    (ho : ∀ c ∈ s.arbiter.waiting, c = .host) : s.release = State.stopAtGrant { s with
      arbiter := ⟨some .host, s.arbiter.waiting.filter fun d => decide (d.rank ≠ Claim.host.rank)⟩ } := by
  obtain ⟨c, hc, hi, -, hl⟩ := s.arbiter.next_of_waiting (List.ne_nil_of_mem hw)
  have next : s.arbiter.next =
      ⟨some .host, s.arbiter.waiting.filter fun d => decide (d.rank ≠ Claim.host.rank)⟩ := by
    rw [ho c hc] at hi hl
    rw [← hi, ← hl]
  unfold State.release State.afterGrant
  rw [next]
  exact if_pos ⟨rfl, hq⟩

theorem State.halts_release (s : State) (hq : s.port.request = some .stopScan) (hw : .host ∈ s.arbiter.waiting)
    (ho : ∀ c ∈ s.arbiter.waiting, c = .host) (hs : s.scan.state ≠ .stopped) : s.Halts s.release := by
  rw [s.release_stopScan hq hw ho]
  exact s.halts_stopAtGrant s.port hs

/-- The host's claim on an idle table: its grant stops the scan. -/
theorem State.halts_claim_host (s : State) (port : HostPort) (hi : s.arbiter.inProgress = none)
    (hq : port.request = some .stopScan) (hs : s.scan.state ≠ .stopped) :
    s.Halts (State.claim { s with port := port } .host) := by
  have claimed : State.claim { s with port := port } .host = State.stopAtGrant { s with
      port := port, arbiter := ⟨some .host, s.arbiter.waiting.filter fun d => decide (d.rank ≠ Claim.host.rank)⟩ } := by
    unfold State.claim State.afterGrant
    dsimp only
    rw [hi]
    exact if_pos ⟨rfl, hq⟩
  rw [claimed]
  exact s.halts_stopAtGrant port hs

/-- A STOP SCAN that arrives on an idle table is granted at once (R18, R100). -/
theorem State.halts_arrival (s : State) (hr : s.port.state = .ready) (ha : s.port.resetAsserted = false)
    (hi : s.arbiter.inProgress = none) (hs : s.scan.state ≠ .stopped) :
    ∃ t : State, exec (.requestArrival Request.stopScan.bytes) s = .next t ∧ s.Halts t ∧
      t.port.state = .working ∧ t.port.request = some .stopScan := by
  have read : readRequest (Request.stopScan.bytes.take Config.receiveLimit) Request.stopScan.bytes.length =
      .ok .stopScan := readRequest_bytes .stopScan (by decide) rfl
  obtain ⟨-, -, called⟩ := State.takeRequest_cases (s.returning (List.replicate 3 filler)) _ Request.stopScan.bytes rfl
  have granted := called .stopScan read rfl
  have arrives : exec (.requestArrival Request.stopScan.bytes) s =
      .next ((s.returning (List.replicate 3 filler)).arrive Request.stopScan.bytes) :=
    exec_requestArrival_arrive 0x11 (Request.stopScan.bytes.drop 1) s (by decide) ha
  rw [State.arrive_ready (s.returning (List.replicate 3 filler)) _ hr, granted] at arrives
  refine ⟨_, arrives, ?_⟩
  have halted (port : HostPort) (hq : port.request = some .stopScan) (hw : port.state = .working) :
      s.Halts (State.claim { s with port := port } .host) ∧
        (State.claim { s with port := port } .host).port.state = .working ∧
        (State.claim { s with port := port } .host).port.request = some .stopScan := by
    rw [State.claim_port]
    exact ⟨s.halts_claim_host port hi hq hs, hw, hq⟩
  exact halted _ rfl rfl

/-- A write-back claim is not placed where the next slot is not judged yet. -/
theorem State.claimWriteBack_of_undecided (s : State)
    (h : ∀ x, s.reply.slots.head? = some x → x.result = .undecided) : s.claimWriteBack = s := by
  unfold State.claimWriteBack
  split
  · rfl
  next x l hl => exact if_pos (h x (by rw [hl]; rfl))

/-- What the handling of a slot result leaves as it was. -/
theorem State.handled_spec (s : State) (item : ReplySlot) : (s.handled item).port = s.port ∧
    (s.handled item).arbiter = s.arbiter ∧ (s.handled item).store = s.store.writeEcho item ∧
    (s.handled item).nodes = s.nodes.set item.node ((s.nodes.at item.node).afterReply s.port.config.misses item.result) ∧
    (s.handled item).reply.slots = s.reply.slots.drop 1 ∧ (s.handled item).timer = s.timer ∧
    (s.handled item).batch = s.batch ∧ (s.handled item).notices = s.notices ∧ (s.handled item).demand = s.demand ∧
    (s.handled item).scan.state = s.scan.state ∧ (s.handled item).scan.line = s.scan.line ∧
    (s.handled item).scan.abort = s.scan.abort ∧ (s.handled item).scan.sent = s.scan.sent := by
  unfold State.handled
  dsimp only
  split <;> exact ⟨rfl, rfl, rfl, rfl, rfl, rfl, rfl, rfl, rfl, rfl, rfl, rfl, rfl⟩

/-- The abort word at once: a demand window neither listening nor answering (R100, R142). -/
theorem State.release_abort_sent (s : State) (hq : s.port.request = some .stopScan) (hw : .host ∈ s.arbiter.waiting)
    (ho : ∀ c ∈ s.arbiter.waiting, c = .host) (hs : s.scan.state ≠ .stopped) (hl : s.scan.line = .demandWindow)
    (hd : s.demand.state = .looking) : s.release.demand = ⟨.closed, 0, none, [], none⟩ ∧
      s.release.scan.sent = [abortWord] ∧ s.release.scan.abort = .sent := by
  rw [s.release_stopScan hq hw ho]
  generalize hu : ({ s with arbiter := _ } : State) = u
  have parts : u.scan = s.scan ∧ u.demand = s.demand := by
    subst hu
    exact ⟨rfl, rfl⟩
  obtain ⟨scan, demand⟩ := parts
  rw [u.stopAtGrant_eq (scan ▸ hs), u.abortDue_cases.2.2.2.2.2 (scan ▸ hl) (by simp [demand, hd]) (by simp [demand, hd])]
  exact ⟨rfl, rfl, rfl⟩

theorem exec_demandLookup_looking (s : State) (key : Word) (hi : s.arbiter.inProgress = some (.lookup key))
    (hd : s.demand.state = .looking) : exec .demandLookup s = .next (State.release { s with
      store := (s.store.demandLookup s.batch.entries key).1
      demand := { s.demand with answer := some (s.store.demandLookup s.batch.entries key).2 } }) := by
  simp only [exec, execDemandLookup, hi, if_pos hd]

/-- Settles O16: the grant at an arrival, at a completion, after a write-back and after a lookup. -/
theorem stopScanGrantStopsTheScan : Obligations.StopScanGrantStopsTheScan := by
  refine ⟨State.halts_arrival, fun s hq hw ho hs => ⟨s.halts_release hq hw ho hs, s.release_port⟩,
    fun item s hi hq hw ho hs hx => ?_, fun key s hi hq hw ho hs hl hd => ?_⟩
  · obtain ⟨port, arbiter, store, nodes, slots, timer, batch, notices, demand, state, line, abort, sent⟩ :=
      s.handled_spec item
    refine ⟨s.handled item, _, execEchoWriteBack_eq s item hi, ?_⟩
    rw [State.claimWriteBack_of_undecided _ (slots ▸ hx), State.release_port]
    refine ⟨State.halts_release _ (port ▸ hq) (arbiter ▸ hw) (arbiter ▸ ho) (state ▸ hs), port, store, ?_, ?_, ?_, timer,
      batch, notices, demand, line, abort, sent⟩
    · rw [nodes, NodeTable.at_set, if_pos rfl]
    · intro n hn
      rw [nodes, NodeTable.at_set, if_neg hn]
    · rw [nodes]
      rfl
  · refine ⟨_, exec_demandLookup_looking s key hi hd, ?_, State.release_port _, ?_⟩
    · generalize (s.store.demandLookup s.batch.entries key).1 = st
      obtain ⟨scan, reply, claims, unfilled, kept, idle, sending, replySlot, allowance, answer, window⟩ :=
        State.halts_release { s with
          store := st
          demand := { s.demand with answer := some (s.store.demandLookup s.batch.entries key).2 } } hq hw ho hs
      exact ⟨scan, reply, claims, unfilled, kept, idle, sending, replySlot, allowance, answer, window⟩
    · exact State.release_abort_sent _ hq hw ho hs hl hd

/-! ### STOP SCAN's access and its completion (R23, R100, R101) -/

/-- A withdrawal that verifies is completed by its cause. -/
theorem Cell.completed_of_found {c : Cell} {r : Record} {cause : Cause} {n : Nat} (h : c.found = .withdrawing r cause n) :
    c.completed = cause.completed r := by
  obtain ⟨slot, upset⟩ := c
  cases slot <;> cases upset <;> cases h
  rfl

/-- A WITHDRAWING record that fails its check is not completed. -/
theorem Cell.completed_of_damaged {c : Cell} {r : Record} {cause : Cause} {n : Nat} (hs : c.slot = .withdrawing r cause n)
    (h : c.found = .damaged false) : c.completed = .damaged false := by
  unfold Cell.completed
  rw [h, hs]

theorem Cell.completed_of_other {c : Cell} (h : ∀ r cause n, c.slot ≠ .withdrawing r cause n) : c.completed = c.slot := by
  obtain ⟨slot, upset⟩ := c
  cases slot with
  | withdrawing r cause n => exact absurd rfl (h r cause n)
  | free | reserved | live | lapsed | damaged => rfl

/-- STOP SCAN's access, and the grant after it, which stops nothing more. -/
theorem exec_stopScan_held (s : State) (h : s.heldAccess = some .stopScan) (hs : s.scan.state = .stopped) :
    exec .stopScan s = .next (if s.timer.running = true then
      { s.stopInAccess with
        port := { s.port with stopScanDone := true }, arbiter := s.stopInAccess.arbiter.next }
      else { s with port := { s.port with stopScanDone := true }, arbiter := s.arbiter.next }) := by
  have port : s.stopInAccess.port = s.port := by
    unfold State.stopInAccess
    dsimp only
    split <;> rfl
  have scan : s.stopInAccess.scan.state = .stopped := by rw [s.stopInAccess_scan, hs]
  simp only [exec, execStopScan, h, hs, true_and]
  generalize s.stopInAccess = u at port scan ⊢
  split
  · rw [State.release_of_stopped { u with port := { u.port with stopScanDone := true } } scan, port]
  · exact congrArg _ (State.release_of_stopped { s with port := { s.port with stopScanDone := true } } hs)

/-- STOP SCAN's access leaves no slot of the table WITHDRAWING. -/
theorem State.stopInAccess_not_withdrawing (s : State) (hs : s.scan.state = .stopped)
    (hi : s.arbiter.inProgress = some .host) (i : Nat) (h : i < Config.slotCount) (r : Record) (c : Cause) (n : Nat) :
    s.stopInAccess.store.slotAt i ≠ .withdrawing r c n := by
  have completed := s.store.completeWithdrawals_not_withdrawing i h
  have applied := (s.edits_applyEntries s.store.completeWithdrawals).not_withdrawing hs (by rw [hi]; simp) completed
  have slotAt_due (u : Store) : Store.slotAt { u with due := [] } i = u.slotAt i := rfl
  unfold State.stopInAccess
  generalize s.store.completeWithdrawals = st at completed applied ⊢
  dsimp only
  split
  · generalize hu : State.applyBatch { s with store := st } = u
    have store : u.store = (applyEntries st s.batch.entries s.scan.state s.port.config.withdrawals).store := by
      rw [← hu]
      rfl
    rw [← store] at applied
    exact (slotAt_due u.store).symm ▸ applied r c n
  · exact (slotAt_due st).symm ▸ completed r c n

/-- Settles O17: the access by the timer, and each slot by what its verifying read finds. -/
theorem stopScanAccessEndsTheWork : Obligations.StopScanAccessEndsTheWork := by
  refine ⟨fun s h hs hr => ?_, fun s h hs hr => ?_, fun st => ⟨st.sameTransfers_completeWithdrawals, fun i hi => ?_,
    st.mem_directory_completeWithdrawals⟩⟩
  · obtain ⟨-, hi, -⟩ := (s.heldAccess_eq_some _).1 h
    refine ⟨{ s.stopInAccess with port := { s.port with stopScanDone := true } }, ?_, fun hb => ?_, fun hb a ha => ?_,
      s.stopInAccess_not_withdrawing hs hi⟩
    · rw [exec_stopScan_held s h hs, if_pos hr]
    · simp only [State.stopInAccess, if_neg hb]
    · subst ha
      simp only [State.stopInAccess, if_pos hb, State.applyBatch, State.application, hs]
      rfl
  · rw [exec_stopScan_held s h hs, if_neg (by simp [hr])]
  · rw [st.slotAt_completeWithdrawals, if_pos hi]
    exact ⟨fun r n => Cell.completed_of_found, fun r n => Cell.completed_of_found,
      fun r c n => Cell.completed_of_damaged, Cell.completed_of_other⟩

/-- Settles O18: the two ends at which a waiting abort word is sent, and the completion by the abort word owed. -/
theorem stopScanCompletesAfterTheAbortWord : Obligations.StopScanCompletesAfterTheAbortWord := by
  refine ⟨fun s h => ?_, fun s h => ?_, fun s h hd ha => ?_, fun s h hd ha => ?_⟩
  · simp only [exec, execReplySlotExpiry, if_pos h]
    rfl
  · simp only [exec, execRequestAllowanceEnd, if_pos h]
    rfl
  · simp only [exec, execStopScanCompletion, h, hd, ha, Abort.waits, and_self, if_true]
    rfl
  · have settled : s.scan.abort.waits = false ∧ s.scan.abort ≠ .afterWord := by
      rcases ha with ha | ha <;> rw [ha] <;> exact ⟨rfl, by simp⟩
    simp only [exec, execStopScanCompletion, h, hd, settled, and_self, if_true, if_false]

end Sys2Proof.Machine
end

section
/-! INSERT and its allocation (O21 to O25). -/

namespace Sys2Proof.Machine

/-! ### Where an INSERT is placed (R31 to R34) -/

/-- The outcomes of an allocation: the first page to join, the first page to open, or one of the two refusals. -/
inductive Store.Allocates (st : Store) (frames : Nat) (k : RateClass) : Except Status Allocation → Prop
  | joins (p n : Nat) (hp : p < 128) (hj : st.joinable k p = true) (hl : ∀ q, q < p → st.joinable k q = false)
      (hn : st.freeSlotOf p = some n) : Allocates st frames k (.ok ⟨p, n, none⟩)
  | opens (p n : Nat) (hj : ∀ q, q < 128 → st.joinable k q = false) (hp : p < 128) (ho : st.openable p = true)
      (hl : ∀ q, q < p → st.openable q = false) (hn : st.freeSlotOf p = some n)
      (hw : st.worstLoad k.period (st.choosePhase k) < frames) : Allocates st frames k (.ok ⟨p, n, some (st.choosePhase k)⟩)
  | noCapacity (p : Nat) (hj : ∀ q, q < 128 → st.joinable k q = false) (hp : p < 128) (ho : st.openable p = true)
      (hw : frames ≤ st.worstLoad k.period (st.choosePhase k)) : Allocates st frames k (.error .noCapacity)
  | full (hj : ∀ q, q < 128 → st.joinable k q = false) (ho : ∀ q, q < 128 → st.openable q = false) :
      Allocates st frames k (.error .tableFull)

theorem find?_range_first {n : Nat} {f : Nat → Bool} {k : Nat} (h : (List.range n).find? f = some k) :
    ∀ j, j < k → f j = false := by
  intro j hj
  simpa using (List.find?_range_eq_some.1 h).2.2 j hj

theorem find?_range_none {n : Nat} {f : Nat → Bool} (h : (List.range n).find? f = none) : ∀ j, j < n → f j = false :=
  fun j hj => by simpa using List.find?_eq_none.1 h j (List.mem_range.2 hj)

/-- A page that can be joined or opened has a lowest FREE slot. -/
theorem Store.freeSlotOf_of_free {st : Store} {p : Nat} (h : ∃ n, n < 8 ∧ st.slotAt (p * 8 + n) = .free) :
    ∃ n, st.freeSlotOf p = some n := Option.isSome_iff_exists.1 ((st.isSome_freeSlotOf p).2 h)

theorem Store.allocates (st : Store) (frames : Nat) (k : RateClass) : st.Allocates frames k (st.allocate frames k) := by
  unfold Store.allocate
  split
  next p hf =>
    obtain ⟨hp, hj⟩ := find?_range_some hf
    obtain ⟨-, -, free⟩ := (st.joinable_iff k p).1 hj
    obtain ⟨n, hn⟩ := Store.freeSlotOf_of_free free
    rw [hn]
    exact .joins p n hp hj (find?_range_first hf) hn
  next hf =>
    split
    next ho => exact .full (find?_range_none hf) (find?_range_none ho)
    next p ho =>
      obtain ⟨hp, hj⟩ := find?_range_some ho
      obtain ⟨-, free⟩ := (st.openable_iff p).1 hj
      obtain ⟨n, hn⟩ := Store.freeSlotOf_of_free free
      rw [hn]
      dsimp only
      split
      next hw => exact .noCapacity p (find?_range_none hf) hp hj hw
      next hw => exact .opens p n (find?_range_none hf) hp hj (find?_range_first ho) hn (Nat.not_le.1 hw)

/-- The slot that a page gives is its lowest FREE one. -/
theorem Store.freeSlotOf_spec {st : Store} {p n : Nat} (h : st.freeSlotOf p = some n) :
    n < 8 ∧ st.slotAt (p * 8 + n) = .free ∧ ∀ m, m < n → st.slotAt (p * 8 + m) ≠ .free := by
  obtain ⟨hn, hf⟩ := find?_range_some h
  refine ⟨hn, (Slot.isFree_iff _).1 hf, fun m hm e => ?_⟩
  have := find?_range_first h m hm
  rw [slotIndex, Config.slotsPerPage, e] at this
  cases this

/-- Settles O22: each clause by the outcome of the allocation. -/
theorem allocationTakesTheLowestPage : Obligations.AllocationTakesTheLowestPage := by
  intro st frames k
  refine ⟨st.joinable_iff k, st.openable_iff, ?_⟩
  generalize ho : st.allocate frames k = outcome
  have outcomes := st.allocates frames k
  rw [ho] at outcomes
  cases outcomes with
  | joins p n hp hj hl hn =>
    obtain ⟨lt, free, lowest⟩ := Store.freeSlotOf_spec hn
    refine ⟨fun place hplace => ?_, ⟨fun h => (by cases h), fun h => ?_⟩, fun _ h => (by cases h)⟩
    · cases hplace
      exact ⟨hp, lt, rfl, free, lowest, fun _ => ⟨hj, hl⟩, fun h => absurd rfl h⟩
    · rw [(h p hp).1] at hj
      cases hj
  | opens p n hj hp hq hl hn hw =>
    obtain ⟨lt, free, lowest⟩ := Store.freeSlotOf_spec hn
    refine ⟨fun place hplace => ?_, ⟨fun h => (by cases h), fun h => ?_⟩, fun _ h => (by cases h)⟩
    · cases hplace
      exact ⟨hp, lt, rfl, free, lowest, fun h => (by cases h), fun _ => ⟨hj, hq, hl⟩⟩
    · rw [(h p hp).2] at hq
      cases hq
  | noCapacity p hj hp hq hw =>
    refine ⟨fun _ h => (by cases h), ⟨fun h => (by cases h), fun h => ?_⟩, fun status h => (by cases h; exact .inr rfl)⟩
    rw [(h p hp).2] at hq
    cases hq
  | full hj hq =>
    exact ⟨fun _ h => (by cases h), ⟨fun _ p hp => ⟨hj p hp, hq p hp⟩, fun _ => rfl⟩,
      fun status h => (by cases h; exact .inl rfl)⟩

/-! ### The phase of a page that is opened (R33) -/

/-- The first of the candidates `0` to `n` at which a measure is least. -/
theorem foldl_least (w : Nat → Nat) (best : Nat → Nat → Nat) (hb : ∀ b c, best b c = if w c < w b then c else b) (n : Nat) :
    (List.range (n + 1)).foldl best 0 < n + 1 ∧ ∀ c, c < n + 1 →
      w ((List.range (n + 1)).foldl best 0) ≤ w c ∧
        (c < (List.range (n + 1)).foldl best 0 → w ((List.range (n + 1)).foldl best 0) < w c) := by
  induction n with
  | zero =>
    have : (List.range 1).foldl best 0 = 0 := by
      show best 0 0 = 0
      rw [hb, if_neg (lt_irrefl _)]
    rw [this]
    refine ⟨Nat.one_pos, fun c hc => ?_⟩
    obtain rfl : c = 0 := by omega
    exact ⟨le_rfl, fun h => absurd h (lt_irrefl _)⟩
  | succ n ih =>
    rw [List.range_succ, List.foldl_append]
    generalize (List.range (n + 1)).foldl best 0 = b at ih ⊢
    obtain ⟨hlt, least⟩ := ih
    show best b (n + 1) < _ ∧ ∀ c, c < _ → w (best b (n + 1)) ≤ w c ∧ (c < best b (n + 1) → w (best b (n + 1)) < w c)
    rw [hb]
    split
    next hw =>
      refine ⟨by omega, fun c hc => ?_⟩
      rcases Nat.lt_succ_iff_lt_or_eq.1 hc with h | rfl
      · have := (least c h).1
        omega
      · exact ⟨le_rfl, fun h => absurd h (lt_irrefl _)⟩
    next hw =>
      refine ⟨by omega, fun c hc => ?_⟩
      rcases Nat.lt_succ_iff_lt_or_eq.1 hc with h | rfl
      · exact least c h
      · omega

theorem RateClass.period_pos (k : RateClass) : 0 < k.period := by cases k <;> decide

/-- Admission takes the lowest phase whose largest load counter is least. -/
theorem Store.choosePhase_spec (st : Store) (k : RateClass) : st.choosePhase k < k.period ∧
    ∀ other, other < k.period → st.worstLoad k.period (st.choosePhase k) ≤ st.worstLoad k.period other ∧
      (other < st.choosePhase k → st.worstLoad k.period (st.choosePhase k) < st.worstLoad k.period other) := by
  have least := foldl_least (st.worstLoad k.period) (st.betterPhase k.period) (fun _ _ => rfl) (k.period - 1)
  rw [Nat.sub_add_cancel k.period_pos] at least
  exact least

/-- A maximum over a list is the bound it starts with, or is reached. -/
theorem foldl_max_reached (f : Nat → Nat) (l : List Nat) : ∀ a, l.foldl (fun m x => max m (f x)) a = a ∨
    ∃ x ∈ l, f x = l.foldl (fun m x => max m (f x)) a := by
  induction l with
  | nil => exact fun a => .inl rfl
  | cons y l ih =>
    intro a
    rw [List.foldl_cons]
    rcases ih (max a (f y)) with h | ⟨x, hx, h⟩
    · rw [h]
      rcases max_choice a (f y) with e | e
      · exact .inl e
      · exact .inr ⟨y, List.mem_cons_self, e.symm⟩
    · exact .inr ⟨x, List.mem_cons_of_mem _ hx, h⟩

/-- The largest load counter of a phase, where it is not 0, is one of the phase's counters. -/
theorem Store.worstLoad_reached (st : Store) {period phase : Nat} (h : 0 < st.worstLoad period phase) :
    ∃ i, i < 16 ∧ i % period = phase ∧ st.load i = st.worstLoad period phase := by
  rcases foldl_max_reached st.load (cycleIndices.filter fun i => decide (i % period = phase)) 0 with e | ⟨i, hi, e⟩
  · exact absurd e (Nat.ne_of_gt h)
  · obtain ⟨h16, hm⟩ := List.mem_filter.1 hi
    exact ⟨i, List.mem_range.1 h16, by simpa using hm, e⟩

/-- A page that cannot be joined has no FREE slot where its state and class would let it be joined. -/
theorem Store.joinable_eq_false (st : Store) (k : RateClass) (p : Nat) : st.joinable k p = false ↔
    ((st.pageState p = .opening ∨ st.pageState p = .open_) → (∃ sc, (st.pageAt p).schedule = some sc ∧ sc.cls = k) →
      ∀ n, n < 8 → st.slotAt (p * 8 + n) ≠ .free) := by
  rw [← Bool.not_eq_true, st.joinable_iff]
  exact ⟨fun h hs hk n hn hf => h ⟨hs, hk, n, hn, hf⟩, fun h ⟨hs, hk, n, hn, hf⟩ => h hs hk n hn hf⟩

/-- NO_CAPACITY exactly where a page can be opened, none can be joined, and no phase has room. -/
theorem Store.allocate_noCapacity_iff (st : Store) (frames : Nat) (k : RateClass) :
    st.allocate frames k = .error .noCapacity ↔
      (∃ p, p < 128 ∧ st.openable p = true) ∧ (∀ p, p < 128 → st.joinable k p = false) ∧
        ∀ phase, phase < k.period → frames ≤ st.worstLoad k.period phase := by
  generalize ho : st.allocate frames k = outcome
  have outcomes := st.allocates frames k
  rw [ho] at outcomes
  obtain ⟨chosen, least⟩ := st.choosePhase_spec k
  cases outcomes with
  | joins p n hp hj hl hn =>
    refine ⟨fun h => (by cases h), fun ⟨_, h, _⟩ => ?_⟩
    rw [h p hp] at hj
    cases hj
  | opens p n hj hp hq hl hn hw =>
    refine ⟨fun h => (by cases h), fun ⟨_, _, h⟩ => ?_⟩
    exact absurd (h _ chosen) (Nat.not_le.2 hw)
  | noCapacity p hj hp hq hw =>
    exact ⟨fun _ => ⟨⟨p, hp, hq⟩, hj, fun phase h => hw.trans (least phase h).1⟩, fun _ => rfl⟩
  | full hj hq =>
    refine ⟨fun h => (by cases h), fun ⟨⟨p, hp, h⟩, _, _⟩ => ?_⟩
    rw [hq p hp] at h
    cases h

/-- Settles O23: the phase chosen, the refusal, and what the largest counter of a phase is. -/
theorem admissionChoosesThePhase : Obligations.AdmissionChoosesThePhase := by
  intro st frames k
  refine ⟨fun place phase ha ho => ?_, ?_,
    fun period phase _ => ⟨fun i => st.load_le_worstLoad period phase i, st.worstLoad_reached⟩⟩
  · obtain ⟨rfl, room⟩ := Store.worstLoad_lt_of_opened ha ho
    obtain ⟨chosen, least⟩ := st.choosePhase_spec k
    exact ⟨chosen, fun i hi hm => (st.load_le_worstLoad _ _ i hi hm).trans_lt room, least⟩
  · simp only [← Store.joinable_eq_false, ← Store.openable_iff]
    exact st.allocate_noCapacity_iff frames k

/-! ### A record entered (R7, R8, R27, R30) -/

/-- The table after a record is entered under a key where its allocation places it. -/
structure Store.Entered (st u : Store) (place : Allocation) (k : RateClass) (key : Word) (v : Slot) : Prop where
  own : u.slotAt place.slot = v
  others : ∀ j, j ≠ place.slot → u.slotAt j = st.slotAt j
  mapped : u.slotOfKey key = some place.slot
  keys : ∀ other, other ≠ key → u.slotOfKey other = st.slotOfKey other
  due : u.due = st.due
  pages : ∀ p, p ≠ place.page → u.pageAt p = st.pageAt p
  joined : place.opened = none → u.pages = st.pages ∧ u.loads = st.loads
  opened : ∀ phase, place.opened = some phase → u.pageAt place.page = ⟨some ⟨k, phase⟩, none⟩ ∧
    ∀ i, i < 16 → u.load i = st.load i + (if i % k.period = phase then 1 else 0)

theorem Store.enter_entered (st : Store) (place : Allocation) (k : RateClass) (key : Word) (v : Slot) :
    st.Entered (st.enter place k key v) place k key v where
  own := by rw [Store.slotAt_enter, if_pos rfl]
  others j hj := by rw [Store.slotAt_enter, if_neg hj]
  mapped := by rw [Store.slotOfKey, Store.directory_enter, Sparse.find?_insert, if_pos rfl]
  keys other ho := by
    rw [Store.slotOfKey, Store.directory_enter, Sparse.find?_insert, if_neg fun e => ho (BitVec.eq_of_toNat_eq e)]
    rfl
  due := st.due_enter place k key v
  pages p hp := by
    rw [Store.pageAt_enter]
    split
    · exact if_neg hp
    · rfl
  joined ho := by
    unfold Store.enter
    rw [ho]
    exact ⟨rfl, rfl⟩
  opened phase ho := by
    refine ⟨by rw [Store.pageAt_enter, ho]; exact if_pos rfl, fun i hi => ?_⟩
    rw [Store.load_enter _ _ _ _ _ i hi, ho]
    unfold Schedule.dueAt
    by_cases h : i % k.period = phase <;> simp [h]

/-- A LIVE record entered opens its page. -/
theorem Store.open_of_entered {st u : Store} {frames : Nat} {k : RateClass} {place : Allocation} {key : Word} {v : Slot}
    (h : st.Entered u place k key v) (ha : st.allocate frames k = .ok place) (hv : v.emittable = true) :
    u.pageState place.page = .open_ := by
  obtain ⟨page, -⟩ := Store.allocate_page ha
  rw [← page]
  exact u.pageState_of_emittable place.slot (by rw [h.own, hv])

/-- A page after a RESERVED record is entered is OPEN exactly where it was OPEN before. -/
theorem Store.open_entered_iff {st u : Store} {k : RateClass} {place : Allocation} {key : Word} {v : Slot}
    (h : st.Entered u place k key v) (hf : st.slotAt place.slot = .free) (hv : v.emittable = false) (p : Nat) :
    u.pageState p = .open_ ↔ st.pageState p = .open_ := by
  have emits : ∀ i, (u.slotAt i).emittable = (st.slotAt i).emittable := by
    intro i
    by_cases hi : i = place.slot
    · rw [hi, h.own, hf, hv]
      rfl
    · rw [h.others i hi]
  simp only [Store.open_iff, emits]

/-- A page that a RESERVED record is entered into is OPENING or OPEN. -/
theorem Store.scheduled_of_entered {st u : Store} {frames : Nat} {k : RateClass} {place : Allocation} {key : Word} {v : Slot}
    (h : st.Entered u place k key v) (ha : st.allocate frames k = .ok place) (hv : v.isReserved = true) :
    u.pageState place.page = .opening ∨ u.pageState place.page = .open_ := by
  obtain ⟨page, -⟩ := Store.allocate_page ha
  have place_eq : slotIndex place.page (place.slot % Config.slotsPerPage) = place.slot := by
    rw [← page]
    exact Nat.div_add_mod' _ _
  have scheduled : u.scheduled place.page = true := (u.scheduled_iff _).2
    ⟨place.slot % Config.slotsPerPage, Nat.mod_lt _ (by decide), .inr (by rw [place_eq, h.own, hv])⟩
  simpa [Store.scheduled] using scheduled

/-! ### INSERT in its access (R50, R51, R82, R83) -/

theorem exec_insert_now (a : InsertArgs) (s : State) (h : s.heldAccess = some (.insert a)) (hb : s.batch.state = .none) :
    exec .insert s = .next (s.insertNow a) := by
  simp only [exec, execInsert, h, hb]

theorem exec_insert_staged (a : InsertArgs) (s : State) (h : s.heldAccess = some (.insert a))
    (hb : s.batch.state = .open_) : exec .insert s = .next (s.insertStaged a) := by
  simp only [exec, execInsert, h, hb]

/-- Settles O21: an immediate INSERT by its two checks and its allocation. -/
theorem insertMakesALiveRecord : Obligations.InsertMakesALiveRecord := by
  intro a s h hb
  rw [exec_insert_now a s h hb]
  refine ⟨fun ⟨i, hi⟩ => ?_, fun status hk ha => ?_, fun place hk ha => ?_⟩
  · simp only [State.insertNow, hi, Option.isSome_some, if_true]
    rfl
  · simp only [State.insertNow, hk, ha, Option.isSome_none, Bool.false_eq_true, if_false]
    rfl
  · have entered := s.store.enter_entered place a.cls a.key a.record.asLive
    refine ⟨{ s with store := s.store.enter place a.cls a.key a.record.asLive }, ?_, rfl, entered.own, entered.others,
      entered.mapped, entered.keys, Store.open_of_entered entered ha rfl, entered.due, entered.pages, entered.joined,
      entered.opened⟩
    simp only [State.insertNow, hk, ha, Option.isSome_none, Bool.false_eq_true, if_false]
    obtain ⟨page, position, opened⟩ := place
    cases opened <;> rfl

/-- The checks of staging, passed. -/
theorem BatchUnit.stagingRefusal_none {b : BatchUnit} {key : Word} (hk : ∀ e ∈ b.entries, e.key ≠ key)
    (hl : b.entries.length < 32) : b.stagingRefusal key = none := by
  unfold BatchUnit.stagingRefusal
  rw [if_neg (by simpa using hk), if_neg (Nat.not_le.2 hl)]

theorem BatchUnit.stagingRefusal_conflict {b : BatchUnit} {key : Word} (hk : ∃ e ∈ b.entries, e.key = key) :
    b.stagingRefusal key = some .conflict := if_pos (by simpa using hk)

theorem BatchUnit.stagingRefusal_full {b : BatchUnit} {key : Word} (hk : ∀ e ∈ b.entries, e.key ≠ key)
    (hl : 32 ≤ b.entries.length) : b.stagingRefusal key = some .batchFull := by
  unfold BatchUnit.stagingRefusal
  rw [if_neg (by simpa using hk), if_pos hl]

/-- Settles O24: a staged INSERT by its checks and its allocation. -/
theorem stagedInsertReservesASlot : Obligations.StagedInsertReservesASlot := by
  intro a s h hb hkey hlen
  have passed := BatchUnit.stagingRefusal_none hkey hlen
  rw [exec_insert_staged a s h hb]
  refine ⟨fun ⟨i, hi⟩ => ?_, fun status hk ha => ?_, fun place hk ha => ?_⟩
  · simp only [State.insertStaged, passed, hi, Option.isSome_some, if_true]
    rfl
  · simp only [State.insertStaged, passed, hk, ha, Option.isSome_none, Bool.false_eq_true, if_false]
    rfl
  · have entered := s.store.enter_entered place a.cls a.key (.reserved a.record)
    obtain ⟨free, -⟩ := Store.allocate_free ha
    obtain ⟨-, -, unscheduled⟩ := Store.allocate_page ha
    have openIff := Store.open_entered_iff entered free rfl place.page
    have scheduled := Store.scheduled_of_entered entered ha rfl
    refine ⟨{ s with
        store := s.store.enter place a.cls a.key (.reserved a.record)
        batch := ⟨.open_, s.batch.entries ++ [⟨.insert a.record, a.key, place.slot⟩]⟩ }, ?_, rfl, entered.own, rfl,
      entered.others, entered.mapped, entered.keys, scheduled, fun ho => scheduled.resolve_right fun e => ?_, openIff.2,
      entered.due, entered.pages, entered.joined, entered.opened⟩
    · simp only [State.insertStaged, passed, hk, ha, Option.isSome_none, Bool.false_eq_true, if_false, State.stageWith,
        BatchUnit.stage, hb]
      obtain ⟨page, position, opened⟩ := place
      cases opened <;> rfl
    · have := unscheduled ho
      simp [Store.scheduled, openIff.1 e] at this

/-- Settles O25: the refusals of a sealed batch, of a key named and of a full list, for each of the three requests. -/
theorem stagingRefusalsComeFirst : Obligations.StagingRefusalsComeFirst := by
  intro s key
  refine ⟨fun ⟨a, hk, h⟩ => ?_, fun ⟨payload, lease, h⟩ => ?_, fun h => ?_⟩
  · subst hk
    refine ⟨fun hb => ?_, fun hb hc => ?_, fun hb hk hl => ?_⟩
    · simp only [exec, execInsert, h, hb]
      rfl
    · simp only [exec, execInsert, h, hb, State.insertStaged, BatchUnit.stagingRefusal_conflict hc]
      rfl
    · simp only [exec, execInsert, h, hb, State.insertStaged, BatchUnit.stagingRefusal_full hk hl]
      rfl
  · refine ⟨fun hb => ?_, fun hb hc => ?_, fun hb hk hl => ?_⟩
    · simp only [exec, execAmend, h, hb]
      rfl
    · simp only [exec, execAmend, h, hb, State.amendStaged, BatchUnit.stagingRefusal_conflict hc]
      rfl
    · simp only [exec, execAmend, h, hb, State.amendStaged, BatchUnit.stagingRefusal_full hk hl]
      rfl
  · refine ⟨fun hb => ?_, fun hb hc => ?_, fun hb hk hl => ?_⟩
    · simp only [exec, execRetire, h, hb]
      rfl
    · simp only [exec, execRetire, h, hb, State.retireStaged, BatchUnit.stagingRefusal_conflict hc]
      rfl
    · simp only [exec, execRetire, h, hb, State.retireStaged, BatchUnit.stagingRefusal_full hk hl]
      rfl

end Sys2Proof.Machine
end

section
/-! AMEND, RENEW and RETIRE (O26 to O29). -/

namespace Sys2Proof.Machine

/-! ### A slot changed in place, and a slot made FREE -/

/-- The table after one slot is rewritten and nothing else. -/
structure Store.Rewritten (st u : Store) (i : Nat) (v : Slot) : Prop where
  own : u.slotAt i = v
  others : ∀ j, j ≠ i → u.slotAt j = st.slotAt j
  directory : u.directory = st.directory
  pages : u.pages = st.pages
  loads : u.loads = st.loads
  due : u.due = st.due

/-- A slot changed to LIVE or WITHDRAWING leaves its page OPEN, so nothing else changes (R26). -/
theorem Store.rewritten_changeSlot (st : Store) (i : Nat) (v : Slot) (h : v.emittable = true) :
    st.Rewritten (st.changeSlot i v) i v := by
  rw [Store.changeSlot_of_emittable _ _ _ h]
  exact ⟨by rw [Store.slotAt_write, if_pos rfl], fun j hj => by rw [Store.slotAt_write, if_neg hj], rfl, rfl, rfl, rfl⟩

theorem Store.slotAt_verify_own (st : Store) (i : Nat) : (st.verify i).slotAt i = st.found i := by
  rw [Store.slotAt_verify, if_pos rfl]

/-- A slot found LIVE is read without a change. -/
theorem Store.read_of_live {st : Store} {i : Nat} {r : Record} {m : Option Nat} {g : Bool}
    (h : st.found i = .live r m g) : st.verify i = st ∧ st.slotAt i = .live r m g :=
  ⟨st.verify_eq_self i (by simp [h]), (st.found_eq_slotAt i (by simp [h])).trans h⟩

/-- Two changes of one slot, the second of which leaves the state of the page, do to the Cycle Plan what one does. -/
theorem Store.Replanned.trans_same {a b c : Store} {p : Nat} (h : a.Replanned b p) (h' : b.Replanned c p)
    (hc : c.pageState p = .open_ ↔ b.pageState p = .open_) (hs : c.scheduled p = b.scheduled p) : a.Replanned c p := by
  have scheduled : (c.pageState p = .opening ∨ c.pageState p = .open_) ↔
      (b.pageState p = .opening ∨ b.pageState p = .open_) := by
    unfold Store.scheduled at hs
    exact decide_eq_decide.1 hs
  refine ⟨fun q => (h'.lastTransfers q).trans (h.lastTransfers q), fun q hq => (h'.others q hq).trans (h.others q hq),
    fun ho => (h'.stays ho).trans (h.stays (hc.1 ho)), fun ho => ?_, fun ho => ?_, fun ho => ?_⟩
  · rw [h'.struck ho, h.struck fun e => ho (hc.2 e), List.filter_filter]
    simp only [Bool.and_self]
  · obtain ⟨sched', loads'⟩ := h'.keeps ho
    obtain ⟨sched, loads⟩ := h.keeps (scheduled.1 ho.symm).symm
    exact ⟨sched'.trans sched, loads'.trans loads⟩
  · have left : b.pageState p = .closed ∨ b.pageState p = .dormant := by
      have : ¬ (b.pageState p = .opening ∨ b.pageState p = .open_) := fun e => by
        rcases scheduled.2 e with e | e <;> simp [e] at ho
      revert this
      cases b.pageState p <;> simp
    obtain ⟨sched', loads', -⟩ := h'.closes ho
    obtain ⟨sched, none, some⟩ := h.closes left
    have same : c.loads = b.loads := loads' sched
    refine ⟨sched', fun hn => same.trans (none hn), fun sc hsc i hi => ?_⟩
    rw [← some sc hsc i hi]
    unfold Store.load
    rw [same]

/-- A slot that is neither sent nor RESERVED made FREE leaves the state of its page as far as the Cycle Plan goes. -/
theorem Store.scheduled_free {st : Store} {i : Nat} (he : (st.slotAt i).emittable = false)
    (hr : (st.slotAt i).isReserved = false) (p : Nat) :
    ((st.changeSlot i .free).pageState p = .open_ ↔ st.pageState p = .open_) ∧
      (st.changeSlot i .free).scheduled p = st.scheduled p := by
  have emits : ∀ j, ((st.changeSlot i .free).slotAt j).emittable = (st.slotAt j).emittable ∧
      ((st.changeSlot i .free).slotAt j).isReserved = (st.slotAt j).isReserved := by
    intro j
    rw [Store.slotAt_changeSlot]
    split
    next e => rw [e, he, hr]; exact ⟨rfl, rfl⟩
    · exact ⟨rfl, rfl⟩
  refine ⟨by simp only [Store.open_iff, fun j => (emits j).1], Bool.eq_iff_iff.2 ?_⟩
  simp only [Store.scheduled_iff, fun j => (emits j).1, fun j => (emits j).2]

/-- A slot read and then made FREE, whatever the read found. -/
theorem Store.replanned_free (st : Store) (i : Nat) : st.Replanned ((st.verify i).changeSlot i .free) (i / 8) := by
  rcases st.verify_cases i with e | ⟨e, -⟩
  · rw [e]
    exact st.replanned_changeSlot i .free
  · rw [e]
    have damaged : (st.changeSlot i (.damaged false)).slotAt i = .damaged false := by
      rw [Store.slotAt_changeSlot, if_pos rfl]
    obtain ⟨opened, scheduled⟩ := Store.scheduled_free (st := st.changeSlot i (.damaged false)) (i := i)
      (by rw [damaged]; rfl) (by rw [damaged]; rfl) (i / 8)
    exact (st.replanned_changeSlot i _).trans_same (Store.replanned_changeSlot _ i .free) opened scheduled

/-- A key whose slot leaves the directory maps nothing. -/
theorem Sparse.find?_filter_ne {t : List (Nat × Nat)} {key i : Nat} (ht : Sparse.rising t = true)
    (h : Sparse.find? t key = some i) : Sparse.find? (t.filter fun e => decide (e.2 ≠ i)) key = none := by
  cases hf : Sparse.find? (t.filter fun e => decide (e.2 ≠ i)) key with
  | none => rfl
  | some j =>
    obtain ⟨mem, hj⟩ := List.mem_filter.1 (Sparse.mem_of_find? _ _ _ hf)
    have := Sparse.find?_of_mem t key j ht mem
    rw [h] at this
    cases this
    simp at hj

/-- The table after the slot of a key is read and made FREE. -/
structure Store.Freed (st u : Store) (key : Word) (i : Nat) : Prop where
  own : u.slotAt i = .free
  others : ∀ j, j ≠ i → u.slotAt j = st.slotAt j
  unmapped : u.slotOfKey key = none
  directory : u.directory = st.directory.filter fun e => decide (e.2 ≠ i)
  replanned : st.Replanned u (i / 8)

theorem Store.freed_changeSlot {st : Store} (hc : st.canonical) {key : Word} {i : Nat} (h : st.slotOfKey key = some i) :
    st.Freed ((st.verify i).changeSlot i .free) key i := by
  have directory : ((st.verify i).changeSlot i .free).directory = st.directory.filter fun e => decide (e.2 ≠ i) := by
    rw [Store.directory_changeSlot, Store.directory_verify]
    rfl
  refine ⟨by rw [Store.slotAt_changeSlot, if_pos rfl], fun j hj => ?_, ?_, directory, st.replanned_free i⟩
  · rw [Store.slotAt_changeSlot, if_neg hj, st.slotAt_verify_ne i j hj]
  · rw [Store.slotOfKey, directory]
    exact Sparse.find?_filter_ne hc.2.1 h

/-! ### The lease field (Table 3-3) -/

theorem leaseAfter_spec (field standing : Option Nat) : (field = none → leaseAfter field standing = standing) ∧
    (field = some 0 → leaseAfter field standing = none) ∧
    ∀ n, field = some (n + 1) → leaseAfter field standing = some (n + 1) := by
  refine ⟨fun h => ?_, fun h => ?_, fun n h => ?_⟩ <;> rw [h] <;> rfl

/-! ### AMEND -/

theorem exec_amend_now {key : Word} {payload : List Word} {field : Option Nat} {s : State}
    (h : s.heldAccess = some (.amend key payload field)) (hb : s.batch.state = .none) :
    exec .amend s = .next (s.amendNow key payload field) := by
  simp only [exec, execAmend, h, hb]

/-- Settles O26: an immediate AMEND by the key and by what the read of the record finds. -/
theorem amendReplacesThePayload : Obligations.AmendReplacesThePayload := by
  intro key payload field s h hb
  rw [exec_amend_now h hb]
  refine ⟨fun hk => ?_, fun i hk hl => ?_, fun i r m g hk hl => ?_⟩
  · simp only [State.amendNow, hk]
    rfl
  · simp only [State.amendNow, hk, Store.slotAt_verify_own]
    cases hf : s.store.found i with
    | live r m g => exact absurd hf (hl r m g)
    | free | reserved | withdrawing | lapsed | damaged => rfl
  · obtain ⟨same, standing⟩ := Store.read_of_live hl
    obtain ⟨absent, removed, set⟩ := leaseAfter_spec field r.leaseLength
    obtain ⟨own, others, directory, pages, loads, due⟩ :=
      s.store.rewritten_changeSlot i (r.amended payload field).asLive rfl
    refine ⟨{ s with store := s.store.changeSlot i (r.amended payload field).asLive }, leaseAfter field r.leaseLength,
      absent, removed, set, ?_, rfl, own, others, directory, pages, loads, due⟩
    simp only [State.amendNow, hk, same, standing]
    rfl

theorem exec_amend_staged {key : Word} {payload : List Word} {field : Option Nat} {s : State}
    (h : s.heldAccess = some (.amend key payload field)) (hb : s.batch.state = .open_) :
    exec .amend s = .next (s.amendStaged key payload field) := by
  simp only [exec, execAmend, h, hb]

theorem exec_retire_staged {key : Word} {s : State} (h : s.heldAccess = some (.retire key))
    (hb : s.batch.state = .open_) : exec .retire s = .next (s.retireStaged key) := by
  simp only [exec, execRetire, h, hb]

/-- Settles O27: a staged AMEND and a staged RETIRE by the key and by what the read of the record finds. -/
theorem stagedAmendAndRetireWait : Obligations.StagedAmendAndRetireWait := by
  intro s key hb hkey hlen
  have passed := BatchUnit.stagingRefusal_none hkey hlen
  refine ⟨fun payload field h => ?_, fun h => ?_⟩
  · rw [exec_amend_staged h hb]
    refine ⟨fun hk => ?_, fun i hk hl => ?_, fun i r m g hk hl => ?_⟩
    · simp only [State.amendStaged, passed, hk]
      rfl
    · simp only [State.amendStaged, passed, hk, Store.slotAt_verify_own]
      cases hf : s.store.found i with
      | live r m g => exact absurd hf (hl r m g)
      | free | reserved | withdrawing | lapsed | damaged => rfl
    · obtain ⟨same, standing⟩ := Store.read_of_live hl
      obtain ⟨own, others, directory, pages, loads, due⟩ := s.store.rewritten_changeSlot i (.live r m true) rfl
      refine ⟨{ s with
          store := s.store.changeSlot i (.live r m true)
          batch := ⟨.open_, s.batch.entries ++ [⟨.amend payload field, key, i⟩]⟩ }, ?_, rfl, own, others, directory, pages,
        loads, due⟩
      simp only [State.amendStaged, passed, hk, same, standing, State.stageWith,
        BatchUnit.stage, hb]
      rfl
  · rw [exec_retire_staged h hb]
    refine ⟨fun hk => ?_, fun i hk hl hd => ?_, fun i hk hf => ?_⟩
    · simp only [State.retireStaged, passed, hk]
      rfl
    · simp only [State.retireStaged, passed, hk, Store.slotAt_verify_own]
      cases hf : s.store.found i with
      | live r m g => exact absurd hf (hl r m g)
      | damaged b => exact absurd hf (hd b)
      | free | reserved | withdrawing | lapsed => rfl
    · simp only [State.retireStaged, passed, hk, Store.slotAt_verify_own, State.stageWith, BatchUnit.stage, hb]
      rcases hf with ⟨r, m, g, hf⟩ | ⟨b, hf⟩ <;> rw [hf] <;> rfl

/-! ### RENEW -/

theorem exec_renew {key : Word} {field : Option Nat} {s : State} (h : s.heldAccess = some (.renew key field)) :
    exec .renew s = .next (s.renewNow key field) := by
  simp only [exec, execRenew, h]

/-- Settles O28: a RENEW by the key, by what the read of the record finds, and by its lease field. -/
theorem renewRestartsTheLease : Obligations.RenewRestartsTheLease := by
  intro key field s h
  rw [exec_renew h]
  refine ⟨fun hk => ?_, fun i hk hl => ?_, fun i r m g hk hl hn hr => ?_, fun i r m g hk hl hr => ?_⟩
  · simp only [State.renewNow, hk]
    rfl
  · simp only [State.renewNow, hk, Store.slotAt_verify_own]
    cases hf : s.store.found i with
    | live r m g => exact absurd hf (hl r m g)
    | free | reserved | withdrawing | lapsed | damaged => rfl
  · obtain ⟨same, standing⟩ := Store.read_of_live hl
    simp only [State.renewNow, hk, same, standing, if_pos (And.intro hn hr)]
    rfl
  · obtain ⟨same, standing⟩ := Store.read_of_live hl
    obtain ⟨absent, removed, set⟩ := leaseAfter_spec field r.leaseLength
    have offered : ¬ (field = none ∧ r.leaseLength = none) := fun e => hr.elim (· e.1) (· e.2)
    generalize hv : Slot.live { r with leaseLength := leaseAfter field r.leaseLength } (leaseAfter field r.leaseLength) g = v
    obtain ⟨own, others, directory, pages, loads, due⟩ := s.store.rewritten_changeSlot i v (by rw [← hv]; rfl)
    refine ⟨{ s with store := s.store.changeSlot i v }, leaseAfter field r.leaseLength, absent, removed, set, ?_, rfl,
      own.trans hv.symm, others, directory, pages, loads, due⟩
    simp only [State.renewNow, hk, same, standing, if_neg offered, hv]
    rfl

/-! ### RETIRE -/

theorem exec_retire_now {key : Word} {s : State} (h : s.heldAccess = some (.retire key)) (hb : s.batch.state = .none) :
    exec .retire s = .next (s.retireNow key) := by
  simp only [exec, execRetire, h, hb]

/-- A LIVE record retired while the scan is STOPPED, and a LAPSED or DAMAGED one, are made FREE in the access. -/
theorem State.retireNow_free {s : State} {key : Word} {i : Nat} (hk : s.store.slotOfKey key = some i)
    (h : (∃ r m g, s.store.found i = .live r m g) ∧ s.scan.state = .stopped ∨
      (∃ r, s.store.found i = .lapsed r) ∨ ∃ b, s.store.found i = .damaged b) :
    s.retireNow key = State.finish { s with store := (s.store.verify i).changeSlot i .free } .ok [0, 0] := by
  simp only [State.retireNow, hk, Store.slotAt_verify_own]
  rcases h with ⟨⟨r, m, g, hf⟩, hs⟩ | ⟨r, hf⟩ | ⟨b, hf⟩
  · simp only [hf, Store.retireLive, if_pos hs]
    rfl
  all_goals
    rw [hf]
    rfl

/-- Settles O29: an immediate RETIRE by the key, by what the read of the record finds, and by the scan state. -/
theorem retireWithdrawsOrFrees : Obligations.RetireWithdrawsOrFrees := by
  intro key s hc h hb
  rw [exec_retire_now h hb]
  refine ⟨fun hk => ?_, fun i hk hf => ?_, fun i r m g hk hl hs => ?_, fun i hk hf => ?_⟩
  · simp only [State.retireNow, hk]
    rfl
  · simp only [State.retireNow, hk, Store.slotAt_verify_own]
    rcases hf with hf | ⟨r, hf⟩ | ⟨r, c, n, hf⟩ <;> rw [hf] <;> rfl
  · obtain ⟨same, standing⟩ := Store.read_of_live hl
    generalize hv : Slot.withdrawing r .retired s.port.config.withdrawals = v
    obtain ⟨own, others, directory, pages, loads, due⟩ := s.store.rewritten_changeSlot i v (by rw [← hv]; rfl)
    refine ⟨{ s with store := s.store.changeSlot i v }, ?_, rfl, own, others, directory, pages, loads, due⟩
    simp only [State.retireNow, hk, same, standing, Store.retireLive, if_neg hs, hv]
    rfl
  · obtain ⟨own, others, unmapped, directory, replanned⟩ := Store.freed_changeSlot hc.1 hk
    exact ⟨{ s with store := (s.store.verify i).changeSlot i .free }, congrArg _ (State.retireNow_free hk hf), rfl, own,
      others, unmapped, directory, replanned⟩

end Sys2Proof.Machine
end

section
/-! The queries, the batch requests, batch application, and the node requests (O30 to O36). -/

namespace Sys2Proof.Machine

/-! ### The data of LOOKUP and PAGE QUERY (Tables 3-4, 11-8 and 11-9) -/

theorem lookupData_damaged (key : Word) (i : Nat) (b : Bool) :
    lookupData key i (.damaged b) = bytesOfWord key ++ [byteOf (i / 8), byteOf (i % 8)] ++ [5] := rfl

/-- The data of a record without lease, echo and flags: the fixed fields and the payload. -/
theorem lookupData_plain (key : Word) (i : Nat) (r : Record) (he : r.echo = none) (hc : r.echoChanged = none)
    (hl : r.leaseLength = none) : lookupData key i (.live r none false) =
      bytesOfWord key ++ [byteOf (i / 8), byteOf (i % 8)] ++
        [2, byteOf r.node, byteOf r.channel, r.cls.code, bitAt 0 r.replyRequested + bitAt 1 r.notify, 0, r.revision,
          byteOf r.payload.length] ++ r.payload.flatMap bytesOfWord := by
  obtain ⟨key', node, channel, cls, payload, revision, reply, notify, lease, echo, changed⟩ := r
  dsimp only at he hc hl
  subst he hc hl
  simp [lookupData, recordData, Record.echoHeld, Config.slotsPerPage, Slot.code, bitAt]

/-- The bits of the flags byte of a record. -/
theorem flagsByte_bits : ∀ a b c d e f g h : Bool, ∀ x : Byte,
    x = bitAt 0 a + bitAt 1 b + bitAt 2 c + bitAt 3 d + bitAt 4 e + bitAt 5 f + bitAt 6 g + bitAt 7 h →
    x.getLsbD 0 = a ∧ x.getLsbD 1 = b ∧ x.getLsbD 2 = c ∧ x.getLsbD 3 = d ∧ x.getLsbD 4 = e ∧ x.getLsbD 5 = f ∧
      x.getLsbD 6 = g ∧ x.getLsbD 7 = h := by
  intro a b c d e f g h x hx
  subst hx
  revert a b c d e f g h
  decide

/-- A flags byte is the sum of its bits. -/
theorem flagsByte_eq (flags : Byte) {a b c d e f g h : Bool} (h0 : flags.getLsbD 0 = a) (h1 : flags.getLsbD 1 = b)
    (h2 : flags.getLsbD 2 = c) (h3 : flags.getLsbD 3 = d) (h4 : flags.getLsbD 4 = e) (h5 : flags.getLsbD 5 = f)
    (h6 : flags.getLsbD 6 = g) (h7 : flags.getLsbD 7 = h) :
    bitAt 0 a + bitAt 1 b + bitAt 2 c + bitAt 3 d + bitAt 4 e + bitAt 5 f + bitAt 6 g + bitAt 7 h = flags := by
  obtain ⟨b0, b1, b2, b3, b4, b5, b6, b7⟩ := flagsByte_bits a b c d e f g h _ rfl
  refine BitVec.eq_of_getLsbD_eq fun i hi => ?_
  interval_cases i
  · rw [b0, h0]
  · rw [b1, h1]
  · rw [b2, h2]
  · rw [b3, h3]
  · rw [b4, h4]
  · rw [b5, h5]
  · rw [b6, h6]
  · rw [b7, h7]

theorem beq_some_true (changed : Option Bool) : (changed == some true) = changed.getD false := by
  cases changed with
  | none => rfl
  | some b => cases b <;> rfl

theorem exec_lookup_none {s : State} {key : Word} (h : s.heldAccess = some (.lookup key))
    (hk : s.store.slotOfKey key = none) : exec .lookup s = .next (s.finish .noKey []) := by
  simp only [exec, execLookup, h, hk]
  rfl

theorem exec_lookup_some {s : State} {key : Word} {i : Nat} (h : s.heldAccess = some (.lookup key))
    (hk : s.store.slotOfKey key = some i) :
    exec .lookup s = .next (State.finish { s with store := s.store.verifyAny s.batch.entries i } .ok
      (lookupData key i ((s.store.verifyAny s.batch.entries i).slotAt i))) := by
  simp only [exec, execLookup, h, hk]
  rfl

/-- The bytes of one slot in a PAGE QUERY response. -/
theorem Store.slotData_eq (st : Store) (i : Nat) : st.slotData i =
    if st.slotAt i = .free then [0] else (st.slotAt i).code :: bytesOfWord ((st.keyAt i).getD 0) := by
  unfold Store.slotData
  split
  next h =>
    rw [(Slot.isFree_iff _).1 h]
    rfl
  next h => rw [if_neg fun e => h ((Slot.isFree_iff _).2 e)]

/-- A page of FREE slots without class and last transfer. -/
theorem Store.pageData_empty (st : Store) (p : Nat) (hp : st.pageAt p = ⟨none, none⟩)
    (hs : ∀ k, k < 8 → st.slotAt (p * 8 + k) = .free) : st.pageData p = [0, 0, 0, 0, 0, 0, 0, 0, 0, 0] := by
  have slots : st.pageSlots p = List.replicate 8 .free :=
    List.eq_replicate_iff.2 ⟨by simp [Store.pageSlots, Config.slotsPerPage], fun v hv => by
      obtain ⟨k, hk, rfl⟩ := List.mem_map.1 hv
      exact hs k (List.mem_range.1 hk)⟩
  have closed : st.pageState p = .closed := by
    unfold Store.pageState
    rw [slots]
    rfl
  have data : (pageSlotIndices p).flatMap st.slotData = List.replicate 8 0 := by
    have each : (pageSlotIndices p).flatMap st.slotData = (pageSlotIndices p).flatMap fun _ => [0] := by
      unfold List.flatMap
      refine congrArg _ (List.map_congr_left fun i hi => ?_)
      obtain ⟨k, hk, rfl⟩ := List.mem_map.1 hi
      rw [Store.slotData_eq]
      exact if_pos (hs k (List.mem_range.1 hk))
    rw [each]
    rfl
  unfold Store.pageData
  rw [closed, hp, data]
  rfl

/-- Settles O30: LOOKUP by the key, and the data of the three queries field by field. -/
theorem queriesReportTheTable : Obligations.QueriesReportTheTable := by
  refine ⟨fun key s h => ⟨exec_lookup_none h, fun i hk => exec_lookup_some h hk⟩, fun key i place hp => ?_,
    fun r remaining withdrawal staged changed flags h0 h1 h2 h3 h4 h5 h6 h7 => ?_,
    fun p s h => ⟨?_, s.store.pageData_empty p⟩, fun st p => ?_, ⟨by decide, by decide, by decide, by decide, ?_⟩,
    fun s h => ?_⟩
  · subst hp
    refine ⟨lookupData_damaged key i, lookupData_plain key i, fun r => ?_, fun r m g => ?_, fun r c n => ?_, fun r => ?_⟩
    all_goals simp [lookupData, Config.slotsPerPage, Slot.code]
  · unfold recordData
    rw [beq_some_true, flagsByte_eq flags h0 h1 h2 h3 h4 h5 h6 h7]
    refine congrArg₂ (· ++ ·) (congrArg₂ (· ++ ·) (congrArg₂ (· ++ ·) (congrArg _ ?_) ?_) ?_) ?_
    · cases r.leaseLength <;> rfl
    · cases remaining <;> rfl
    · rcases r.echo with _ | ⟨state, _ | held⟩ <;> rfl
    · cases withdrawal <;> rfl
  · simp only [exec, execPageQuery, h]
  · unfold Store.pageData
    refine congrArg₂ (· ++ ·) (congrArg₂ (· ++ ·) (congrArg _ ?_) ?_) ?_
    · cases (st.pageAt p).schedule <;> rfl
    · cases (st.pageAt p).lastTransfer <;> rfl
    · rw [pageSlotIndices, List.flatMap_map]
      exact congrArg (List.flatMap · _) (funext fun k => st.slotData_eq _)
  · exact fun r m g c n b => rfl
  · simp only [exec, execLoadQuery, h]

/-! ### The batch requests (R81, R87, R94, R96) -/

/-- Settles O31: OPEN BATCH by the batch state, and the data of BATCH QUERY. -/
theorem openBatchAndBatchQuery : Obligations.OpenBatchAndBatchQuery := by
  refine ⟨fun s h => ⟨fun hb => ?_, fun hb => ?_, fun hb => ?_⟩, fun s h => ?_⟩
  · simp only [exec, execOpenBatch, h, hb]
  · simp only [exec, execOpenBatch, h, hb]
  · simp only [exec, execOpenBatch, h, hb]
  · simp only [exec, execBatchQuery, h]
    refine congrArg (fun data => Host.Outcome.next (s.finish .ok data)) (congrArg₂ _ (congrArg (· :: _) ?_) ?_)
    · cases s.batch.state <;> rfl
    · refine congrArg (List.flatMap · _) (funext fun e => congrArg (· :: _) ?_)
      cases e.op <;> rfl

/-- Settles O32: COMMIT BATCH by the batch state and the scan state. -/
theorem commitBatchSealsOrApplies : Obligations.CommitBatchSealsOrApplies := by
  intro s h
  refine ⟨fun hb => ?_, fun hb => ?_, fun hb hs => ?_, fun hb hs => ⟨_, rfl, ?_⟩⟩
  · simp only [exec, execCommitBatch, h, hb]
  · simp only [exec, execCommitBatch, h, hb]
  · simp only [exec, execCommitBatch, h, hb, if_neg hs]
  · simp only [exec, execCommitBatch, h, hb, State.applyBatch, State.application, hs]
    rfl

/-- The abort keeps the key of every slot that is not RESERVED (R94). -/
theorem Store.keyAt_freeReserved (entries : List BatchEntry) (i : Nat) (l : List Nat) : ∀ st : Store,
    (st.slotAt i).isReserved = false → (l.foldl (Store.freeReserved entries) st).keyAt i = st.keyAt i := by
  induction l with
  | nil => exact fun _ _ => rfl
  | cons j l ih =>
    intro st h
    have key : (st.freeReserved entries j).keyAt i = st.keyAt i ∧ (st.freeReserved entries j).slotAt i = st.slotAt i := by
      unfold Store.freeReserved
      split
      next hr =>
        have hij : i ≠ j := fun e => by rw [e, hr] at h; cases h
        rw [Store.keyAt_changeSlot, if_neg (fun e => hij e.2), Store.keyAt_eq (st.directory_verifyAny entries j)]
        refine ⟨rfl, ?_⟩
        have := Store.freeReserved_other entries st j i hij
        unfold Store.freeReserved at this
        rw [if_pos hr] at this
        exact congrArg Cell.slot this
      · exact ⟨rfl, rfl⟩
    rw [List.foldl_cons, ih _ (key.2 ▸ h), key.1]

theorem Cell.unstaged_of_not_live {c : Cell} (h : ∀ r m g, c.slot ≠ .live r m g) : c.unstaged = c.slot := by
  obtain ⟨slot, upset⟩ := c
  cases slot with
  | live r m g => exact absurd rfl (h r m g)
  | free | reserved | withdrawing | lapsed | damaged => rfl

/-- A LIVE record that verifies loses its amend staged flag, and one that does not is DAMAGED. -/
theorem Cell.unstaged_of_live {c : Cell} {r : Record} {m : Option Nat} {g : Bool} :
    (c.found = .live r m g → c.unstaged = .live r m false) ∧
      (c.slot = .live r m g → c.found = .damaged false → c.unstaged = .damaged false) := by
  refine ⟨fun h => ?_, fun hs h => ?_⟩
  · obtain ⟨slot, upset⟩ := c
    cases slot <;> cases upset <;> cases h
    rfl
  · unfold Cell.unstaged
    rw [hs, h]

theorem Store.slotAt_def (st : Store) (i : Nat) : st.slotAt i = (st.cellAt i).slot := rfl

/-- A slot after the table work of ABORT BATCH (R94). -/
theorem Store.slotAt_abortBatch (st : Store) (entries : List BatchEntry) (i : Nat) :
    (∀ r, i < Config.slotCount → st.slotAt i = .reserved r → (st.abortBatch entries).slotAt i = .free) ∧
      ((st.slotAt i).isReserved = false →
        ((∃ e ∈ entries, e.names st i) → (st.abortBatch entries).slotAt i = (st.cellAt i).unstaged) ∧
        ((∀ e ∈ entries, ¬ e.names st i) → (st.abortBatch entries).slotAt i = st.slotAt i)) := by
  obtain ⟨slots, cells, -⟩ := st.freeReserved_slots entries
  obtain ⟨named, unnamed, -⟩ :=
    Store.clearStaged_entries entries (slotIndices.foldl (Store.freeReserved entries) st) i
  have key := Store.keyAt_freeReserved entries i slotIndices st
  unfold Store.abortBatch
  generalize slotIndices.foldl (Store.freeReserved entries) st = v at slots cells named unnamed key ⊢
  refine ⟨fun r hi hr => ?_, fun hr => ?_⟩
  · have free : (v.cellAt i).slot = .free := by
      rw [← Store.slotAt_def, slots, if_pos ⟨hi, by rw [hr]; rfl⟩]
    by_cases h : ∃ e ∈ entries, e.names v i
    · rw [named h, Cell.unstaged_of_not_live fun r m g => by rw [free]; simp, free]
    · rw [Store.slotAt_def, unnamed fun e he hn => h ⟨e, he, hn⟩, free]
  · have names : ∀ e : BatchEntry, e.names v i ↔ e.names st i := fun e => by
      unfold BatchEntry.names
      rw [key hr]
    simp only [names, cells i hr] at named unnamed
    exact ⟨named, fun h => congrArg Cell.slot (unnamed h)⟩

/-- Settles O33: ABORT BATCH by the batch state, and each slot and key after it. -/
theorem abortBatchDiscardsTheBatch : Obligations.AbortBatchDiscardsTheBatch := by
  refine ⟨fun s h => ⟨fun hb => ?_, fun hb => ?_, fun hb => ?_⟩,
    fun st entries => ⟨st.sameTransfers_abortBatch entries, fun i hi => ?_, fun e => ?_⟩⟩
  · simp only [exec, execAbortBatch, h, hb]
  · simp only [exec, execAbortBatch, h, hb]
  · simp only [exec, execAbortBatch, h, hb]
    rfl
  · obtain ⟨reserved, kept⟩ := st.slotAt_abortBatch entries i
    have not_reserved : (∀ r, st.slotAt i ≠ .reserved r) → (st.slotAt i).isReserved = false := fun h => by
      rw [Bool.eq_false_iff, Ne, Slot.isReserved_iff]
      exact fun ⟨r, hr⟩ => h r hr
    refine ⟨fun r hr => reserved r hi hr, fun hn => ⟨fun r m g hl => ?_, fun r m g hl hd => ?_⟩, fun hn hr => ?_,
      fun hl hr => ?_⟩
    · obtain ⟨-, standing⟩ := Store.read_of_live hl
      rw [(kept (by rw [standing]; rfl)).1 hn]
      exact Cell.unstaged_of_live.1 hl
    · rw [(kept (by rw [hl]; rfl)).1 hn]
      exact Cell.unstaged_of_live.2 hl hd
    · exact (kept (not_reserved hr)).2 fun e he ⟨ha, hs, hk⟩ => hn e he ha hs hk
    · by_cases hn : ∃ e ∈ entries, e.names st i
      · rw [(kept (not_reserved hr)).1 hn]
        exact Cell.unstaged_of_not_live hl
      · exact (kept (not_reserved hr)).2 fun e he hne => hn ⟨e, he, hne⟩
  · obtain ⟨-, -, directory⟩ := st.freeReserved_slots entries
    obtain ⟨-, -, same⟩ := Store.clearStaged_entries entries (slotIndices.foldl (Store.freeReserved entries) st) 0
    unfold Store.abortBatch
    rw [same, directory, Slot.isReserved_iff]

/-! ### Batch application (R89, R90, R144) -/

/-- An entry is applied or lapses. -/
theorem applyEntry_cases (all : List BatchEntry) (scan : ScanState) (w : Nat) (a : Application) (e : BatchEntry) :
    ∃ x, applyEntry all scan w a e = a.apply x ∨ applyEntry all scan w a e = a.lapse x := by
  unfold applyEntry
  dsimp only
  split
  · split
    · exact ⟨_, .inl rfl⟩
    · exact ⟨_, .inl rfl⟩
    · exact ⟨_, .inl rfl⟩
    · exact ⟨_, .inl rfl⟩
    · exact ⟨_, .inr rfl⟩
  · exact ⟨_, .inr rfl⟩

theorem foldl_applyEntry_count (all : List BatchEntry) (scan : ScanState) (w : Nat) (entries : List BatchEntry) :
    ∀ a : Application, (entries.foldl (applyEntry all scan w) a).applied +
      (entries.foldl (applyEntry all scan w) a).lapsed = a.applied + a.lapsed + entries.length := by
  induction entries with
  | nil => exact fun _ => rfl
  | cons e entries ih =>
    intro a
    rw [List.foldl_cons, ih, List.length_cons]
    obtain ⟨x, h | h⟩ := applyEntry_cases all scan w a e <;> rw [h]
    · show a.applied + 1 + a.lapsed + _ = _
      omega
    · show a.applied + (a.lapsed + 1) + _ = _
      omega

/-- Settles O34: the application at a boundary, the counts by induction over the entries, and the notice. -/
theorem batchApplicationAppliesTheEntries : Obligations.BatchApplicationAppliesTheEntries := by
  refine ⟨fun s h => ⟨_, rfl, ?_⟩, fun st entries scan w => ⟨rfl, ?_⟩, fun n applied lapsed => ⟨fun h => ?_, fun old h => ?_⟩⟩
  · simp only [exec, execBatchApplication, h]
    rfl
  · unfold applyEntries
    rw [foldl_applyEntry_count]
    exact Nat.zero_add _
  · simp only [NoticeUnit.batchApplied, h]
  · simp only [NoticeUnit.batchApplied, h]

/-- Settles O35: an entry by the key of its slot, its operation, and what the read finds. -/
theorem entryOutcomesAtApplication : Obligations.EntryOutcomesAtApplication := by
  intro all scan w a e st hst
  refine ⟨fun x => ⟨rfl, rfl⟩, fun hk => ?_, fun hk => ?_⟩
  · unfold applyEntry
    dsimp only
    rw [← hst, if_neg hk]
  · unfold applyEntry
    dsimp only
    rw [← hst, if_pos hk]
    refine ⟨fun copy r ho hs => ?_, fun payload field r m g ho hs => ?_, fun payload field ho hs => ?_,
      fun r m g ho hs hn => ?_, fun r m g ho hs hn => ?_, fun b ho hs => ?_, fun ho hl hd => ?_⟩
    · rw [ho, hs]
      rfl
    · rw [ho, hs]
      rfl
    · rw [ho]
      cases hv : st.slotAt e.slot with
      | live r m g => exact absurd hv (hs r m g)
      | free | reserved | withdrawing | lapsed | damaged => rfl
    · rw [ho, hs]
      exact congrArg (fun v => a.apply (st.changeSlot e.slot v)) (if_neg hn)
    · rw [ho, hs]
      exact congrArg (fun v => a.apply (st.changeSlot e.slot v)) (if_pos hn)
    · rw [ho, hs]
    · rw [ho]
      cases hv : st.slotAt e.slot with
      | live r m g => exact absurd hv (hl r m g)
      | damaged b => exact absurd hv (hd b)
      | free | reserved | withdrawing | lapsed => rfl

/-! ### NODE QUERY and NODE SET (R132, R133) -/

/-- Settles O36: the data of a node record, and the record after NODE SET. -/
theorem nodeRequestsReadAndSet : Obligations.NodeRequestsReadAndSet := by
  refine ⟨fun n s h => ?_, fun n permitted clearErrors s h => ?_⟩
  · simp only [exec, execNodeQuery, h]
    rfl
  · have own : (s.nodes.set n ((s.nodes.at n).changed permitted clearErrors)).at n =
        (s.nodes.at n).changed permitted clearErrors := by rw [NodeTable.at_set, if_pos rfl]
    refine ⟨{ s with nodes := s.nodes.set n ((s.nodes.at n).changed permitted clearErrors) }, ?_, rfl, rfl, own,
      fun m hm => ?_⟩
    · dsimp only
      rw [own]
      simp only [exec, execNodeSet, h]
      rfl
    · rw [NodeTable.at_set, if_neg hm]

end Sys2Proof.Machine
end

section
/-! TAKE NOTICES, and the lines RDY, ATTN and LTXEN (O37, O38). -/

namespace Sys2Proof.Machine

/-! ### The lines (R143, R146, R152) -/

theorem State.applied_mem_noticeSources (s : State) :
    NoticeSource.applied ∈ s.noticeSources ↔ s.notices.applied.isSome = true := by
  unfold State.noticeSources
  cases s.notices.applied <;> cases s.notices.fault <;> simp

theorem State.fault_mem_noticeSources (s : State) :
    NoticeSource.fault ∈ s.noticeSources ↔ s.notices.fault.isSome = true := by
  unfold State.noticeSources
  cases s.notices.applied <;> cases s.notices.fault <;> simp

/-- A node is among the notice sources exactly while its presence differs from its reported presence (R131). -/
theorem State.node_mem_noticeSources (s : State) (n : Nat) : NoticeSource.node n ∈ s.noticeSources ↔
    1 ≤ n ∧ n ≤ 62 ∧ (s.nodes.at n).presence ≠ (s.nodes.at n).reported := by
  have listed : NoticeSource.node n ∈ s.noticeSources ↔
      (∃ k, k < Config.nodeCount ∧ k + 1 = n) ∧ (s.nodes.at n).noticePending = true := by
    unfold State.noticeSources
    cases s.notices.applied <;> cases s.notices.fault <;> simp
  have range : (∃ k, k < Config.nodeCount ∧ k + 1 = n) ↔ 1 ≤ n ∧ n ≤ 62 := by
    unfold Config.nodeCount
    exact ⟨fun ⟨k, hk, e⟩ => by omega, fun h => ⟨n - 1, by omega, by omega⟩⟩
  rw [listed, range, NodeRecord.noticePending, decide_eq_true_iff, and_assoc]

/-- The slots with a record notice pending (Table 9-1). -/
theorem Slot.noticePending_iff (v : Slot) : v.noticePending = true ↔
    (∃ r m g, v = .live r m g ∧ r.echoChanged = some true) ∨
      (∃ r c n, v = .withdrawing r c n ∧ r.echoChanged = some true) ∨ (∃ r, v = .lapsed r) ∨ v = .damaged false := by
  cases v <;> simp [Slot.noticePending]

theorem State.attn_iff (s : State) : s.attn = true ↔ ∃ x, x ∈ s.noticeSources := by
  unfold State.attn
  rw [Bool.not_eq_true', ← Bool.not_eq_true, List.isEmpty_iff]
  exact ⟨List.exists_mem_of_ne_nil _, fun ⟨x, hx⟩ => List.ne_nil_of_mem hx⟩

theorem State.comparing_iff (s : State) : s.comparing = true ↔
    (s.scan.state = .run ∨ s.scan.state = .hold) ∧
      (s.scan.line = .mark ∨ s.scan.line = .frame ∨ s.scan.line = .demandWindow ∧ s.demand.state = .answering) := by
  unfold State.comparing
  rw [Bool.and_eq_true, decide_eq_true_iff]
  cases s.scan.line <;> simp

/-- Settles O38: the three lines by what drives them. -/
theorem attnFollowsTheNotices : Obligations.AttnFollowsTheNotices := by
  refine ⟨fun s => decide_eq_true_iff, fun s => ?_, fun s => ?_⟩
  · unfold State.ltxen
    rw [Bool.or_eq_true, s.comparing_iff, decide_eq_true_iff]
  · rw [s.attn_iff]
    constructor
    · rintro ⟨x, hx⟩
      cases x with
      | applied => exact .inl (s.applied_mem_noticeSources.1 hx)
      | fault => exact .inr (.inl (s.fault_mem_noticeSources.1 hx))
      | node n => exact .inr (.inr (.inl ⟨n, (s.node_mem_noticeSources n).1 hx⟩))
      | slot i =>
        obtain ⟨hi, hp⟩ := (s.slot_mem_noticeSources i).1 hx
        exact .inr (.inr (.inr ⟨i, hi, (Slot.noticePending_iff _).1 hp⟩))
    · rintro (h | h | ⟨n, h⟩ | ⟨i, hi, h⟩)
      · exact ⟨_, s.applied_mem_noticeSources.2 h⟩
      · exact ⟨_, s.fault_mem_noticeSources.2 h⟩
      · exact ⟨_, (s.node_mem_noticeSources n).2 h⟩
      · exact ⟨_, (s.slot_mem_noticeSources i).2 ⟨hi, (Slot.noticePending_iff _).2 h⟩⟩

/-! ### One notice taken -/

/-- The 6 bytes of a notice, read off the state in which it is pending. -/
def State.noticeBytes (s : State) (x : NoticeSource) : List Byte := (takeOne (s, []) x).2

/-- Two states in which one source gives the same notice. -/
def State.SameSource (s u : State) : NoticeSource → Prop
  | .applied => u.notices.applied = s.notices.applied
  | .fault => u.notices.fault = s.notices.fault
  | .node n => u.nodes.at n = s.nodes.at n
  | .slot i => u.store.cellAt i = s.store.cellAt i ∧ u.store.keyAt i = s.store.keyAt i

theorem State.sameSource_refl (s : State) (x : NoticeSource) : s.SameSource s x := by
  cases x with
  | applied | fault | node => exact rfl
  | slot i => exact ⟨rfl, rfl⟩

/-- What a take finds in a slot: the record of the notice. -/
theorem State.takeSlot_bytes (s u : State) (i : Nat) (h : s.SameSource u (.slot i)) :
    (u.takeSlot i).2 = (s.takeSlot i).2 := by
  obtain ⟨cell, key⟩ := h
  have found : u.store.found i = s.store.found i := congrArg Cell.found cell
  unfold State.takeSlot
  dsimp only
  rw [Store.slotAt_verify_own, Store.slotAt_verify_own, found, key]
  cases s.store.found i <;> rfl

theorem takeOne_bytes (s : State) (acc : State × List Byte) (x : NoticeSource) (h : s.SameSource acc.1 x) :
    (takeOne acc x).2 = acc.2 ++ s.noticeBytes x := by
  cases x with
  | applied =>
    have h : acc.1.notices.applied = s.notices.applied := h
    unfold State.noticeBytes takeOne State.takeApplied
    dsimp only
    rw [h]
    cases s.notices.applied <;> rfl
  | fault =>
    have h : acc.1.notices.fault = s.notices.fault := h
    unfold State.noticeBytes takeOne State.takeFault
    dsimp only
    rw [h]
    cases s.notices.fault <;> rfl
  | node n =>
    have h : acc.1.nodes.at n = s.nodes.at n := h
    unfold State.noticeBytes takeOne State.takeNode
    dsimp only
    rw [h]
    rfl
  | slot i => exact congrArg (acc.2 ++ ·) (State.takeSlot_bytes s acc.1 i h)

theorem State.takeSlot_keyAt_ne (s : State) {i j : Nat} (h : j ≠ i) :
    (s.takeSlot i).1.store.keyAt j = s.store.keyAt j := by
  have verified := Store.keyAt_eq (s.store.directory_verify i) j
  unfold State.takeSlot
  dsimp only
  cases hv : (s.store.verify i).slotAt i with
  | lapsed | live | withdrawing | damaged =>
    dsimp only
    rw [Store.keyAt_changeSlot, if_neg fun e => h e.2, verified]
  | free | reserved => exact verified

/-- A slot's notice taken releases the key of a LAPSED slot, and no other. -/
theorem State.takeSlot_directory (s : State) (i : Nat) (e : Nat × Nat) : e ∈ (s.takeSlot i).1.store.directory ↔
    e ∈ s.store.directory ∧ ¬ (e.2 = i ∧ ∃ r, s.store.found i = .lapsed r) := by
  unfold State.takeSlot
  dsimp only
  rw [Store.slotAt_verify_own]
  cases hf : s.store.found i with
  | lapsed | live | withdrawing | damaged =>
    dsimp only
    rw [Store.mem_directory_changeSlot, Store.directory_verify]
    simp
  | free | reserved =>
    dsimp only
    rw [Store.directory_verify]
    simp

/-- The device notices, the nodes and the keys after one notice is taken. -/
theorem takeOne_spec (acc : State × List Byte) (x : NoticeSource) :
    (takeOne acc x).1.notices.applied = (if x = .applied then none else acc.1.notices.applied) ∧
      (takeOne acc x).1.notices.fault = (if x = .fault then none else acc.1.notices.fault) ∧
      (takeOne acc x).1.nodes.pointer = acc.1.nodes.pointer ∧
      (∀ n, (takeOne acc x).1.nodes.at n =
        if x = .node n then { acc.1.nodes.at n with reported := (acc.1.nodes.at n).presence } else acc.1.nodes.at n) ∧
      (∀ j, x ≠ .slot j → (takeOne acc x).1.store.keyAt j = acc.1.store.keyAt j) ∧
      ∀ e, e ∈ (takeOne acc x).1.store.directory ↔
        e ∈ acc.1.store.directory ∧ ¬ (x = .slot e.2 ∧ ∃ r, acc.1.store.found e.2 = .lapsed r) := by
  cases x with
  | applied =>
    have store := takeOne_store_of_ne acc .applied (by simp)
    unfold takeOne State.takeApplied at store ⊢
    dsimp only at store ⊢
    split <;> simp_all
  | fault =>
    have store := takeOne_store_of_ne acc .fault (by simp)
    unfold takeOne State.takeFault at store ⊢
    dsimp only at store ⊢
    split <;> simp_all
  | node m =>
    refine ⟨rfl, rfl, rfl, fun n => ?_, fun _ _ => rfl, fun e => ?_⟩
    · have same : (NoticeSource.node m = .node n) = (n = m) := by
        rw [NoticeSource.node.injEq]
        exact propext eq_comm
      simp only [same]
      exact (NodeTable.at_set _ _ _ _).trans (by split <;> simp_all)
    · simp [takeOne_store_of_ne acc (.node m) (by simp)]
  | slot i =>
    obtain ⟨-, frame⟩ := acc.1.takeSlot_other i
    have others : (acc.1.takeSlot i).1.notices = acc.1.notices ∧ (acc.1.takeSlot i).1.nodes = acc.1.nodes := by
      rw [frame]
      exact ⟨rfl, rfl⟩
    obtain ⟨notices, nodes⟩ := others
    refine ⟨congrArg NoticeUnit.applied notices, congrArg NoticeUnit.fault notices, congrArg NodeTable.pointer nodes,
      fun n => congrArg (NodeTable.at · n) nodes, fun j hj => acc.1.takeSlot_keyAt_ne fun e => hj (by rw [e]), fun e => ?_⟩
    refine (acc.1.takeSlot_directory i e).trans ?_
    simp only [NoticeSource.slot.injEq]
    constructor
    · rintro ⟨hd, hn⟩
      exact ⟨hd, fun ⟨hi, hl⟩ => hn ⟨hi.symm, hi ▸ hl⟩⟩
    · rintro ⟨hd, hn⟩
      exact ⟨hd, fun ⟨hi, hl⟩ => hn ⟨hi.symm, hi ▸ hl⟩⟩

/-- A notice taken leaves every other source as it was. -/
theorem takeOne_sameSource {s : State} {acc : State × List Byte} {x y : NoticeSource} (h : s.SameSource acc.1 y)
    (hne : x ≠ y) : s.SameSource (takeOne acc x).1 y := by
  obtain ⟨applied, fault, -, nodes, keys, -⟩ := takeOne_spec acc x
  cases y with
  | applied => exact (applied.trans (if_neg hne)).trans h
  | fault => exact (fault.trans (if_neg hne)).trans h
  | node n => exact ((nodes n).trans (if_neg hne)).trans h
  | slot i => exact ⟨(takeOne_cellAt_ne acc x i hne).trans h.1, (keys i hne).trans h.2⟩

/-! ### The notices of one take -/

/-- Notices taken each once are reported as they stood before the take. -/
theorem foldl_takeOne_bytes (s : State) (l : List NoticeSource) (hl : l.Nodup) : ∀ acc : State × List Byte,
    (∀ x ∈ l, s.SameSource acc.1 x) → (l.foldl takeOne acc).2 = acc.2 ++ l.flatMap s.noticeBytes := by
  induction l with
  | nil => exact fun acc _ => (List.append_nil acc.2).symm
  | cons x l ih =>
    intro acc h
    obtain ⟨hx, hl'⟩ := List.nodup_cons.1 hl
    have rest : ∀ y ∈ l, s.SameSource (takeOne acc x).1 y := fun y hy =>
      takeOne_sameSource (h y (List.mem_cons_of_mem _ hy)) (ne_of_mem_of_not_mem hy hx).symm
    rw [List.foldl_cons, ih hl' _ rest,
      takeOne_bytes s acc x (h x List.mem_cons_self), List.flatMap_cons, List.append_assoc]

theorem foldl_takeOne_notices (l : List NoticeSource) : ∀ acc : State × List Byte,
    (l.foldl takeOne acc).1.notices.applied = (if .applied ∈ l then none else acc.1.notices.applied) ∧
      (l.foldl takeOne acc).1.notices.fault = (if .fault ∈ l then none else acc.1.notices.fault) ∧
      (l.foldl takeOne acc).1.nodes.pointer = acc.1.nodes.pointer := by
  induction l with
  | nil => exact fun _ => ⟨rfl, rfl, rfl⟩
  | cons x l ih =>
    intro acc
    obtain ⟨applied, fault, pointer, -⟩ := takeOne_spec acc x
    obtain ⟨applied', fault', pointer'⟩ := ih (takeOne acc x)
    rw [List.foldl_cons, applied', fault', pointer', applied, fault, pointer]
    simp only [List.mem_cons, eq_comm (b := x)]
    refine ⟨?_, ?_, trivial⟩
    · by_cases h : x = .applied <;> simp [h]
    · by_cases h : x = .fault <;> simp [h]

/-- The nodes after a take: the reported presence of each node reported becomes its presence (R148). -/
theorem foldl_takeOne_nodes (n : Nat) (l : List NoticeSource) : ∀ acc : State × List Byte,
    (l.foldl takeOne acc).1.nodes.at n =
      if .node n ∈ l then { acc.1.nodes.at n with reported := (acc.1.nodes.at n).presence } else acc.1.nodes.at n := by
  induction l with
  | nil => exact fun _ => rfl
  | cons x l ih =>
    intro acc
    obtain ⟨-, -, -, nodes, -⟩ := takeOne_spec acc x
    rw [List.foldl_cons, ih, nodes]
    simp only [List.mem_cons, eq_comm (b := x)]
    by_cases h : x = .node n <;> simp [h]

theorem foldl_takeOne_cellAt (i : Nat) (l : List NoticeSource) : ∀ acc : State × List Byte, .slot i ∉ l →
    (l.foldl takeOne acc).1.store.cellAt i = acc.1.store.cellAt i := by
  induction l with
  | nil => exact fun _ _ => rfl
  | cons x l ih =>
    intro acc h
    rw [List.mem_cons, not_or] at h
    obtain ⟨hx, hl⟩ := h
    rw [List.foldl_cons, ih _ hl, takeOne_cellAt_ne acc x i (Ne.symm hx)]

/-- The slots after a take: each slot whose pending notice is reported is left as its notice says (R148). -/
theorem foldl_takeOne_slotAt (i : Nat) (l : List NoticeSource) (hl : l.Nodup) : ∀ acc : State × List Byte,
    (acc.1.store.slotAt i).noticePending = true → .slot i ∈ l →
    (l.foldl takeOne acc).1.store.slotAt i = (acc.1.store.cellAt i).taken := by
  induction l with
  | nil => exact fun _ _ h => absurd h List.not_mem_nil
  | cons x l ih =>
    intro acc hp h
    obtain ⟨hx, hl'⟩ := List.nodup_cons.1 hl
    rw [List.foldl_cons]
    by_cases e : x = .slot i
    · subst e
      rw [Store.slotAt_def, foldl_takeOne_cellAt i l _ hx, ← Store.slotAt_def]
      exact (acc.1.takeSlot_own i hp).1
    · have cell := takeOne_cellAt_ne acc x i e
      rw [ih hl' _ (by rw [Store.slotAt_def, cell]; exact hp) ((List.mem_cons.1 h).resolve_left (Ne.symm e)), cell]

/-- The keys after a take: those of the LAPSED slots reported are released (R148). -/
theorem foldl_takeOne_directory (e : Nat × Nat) (l : List NoticeSource) (hl : l.Nodup) : ∀ acc : State × List Byte,
    e ∈ (l.foldl takeOne acc).1.store.directory ↔
      e ∈ acc.1.store.directory ∧ ¬ (.slot e.2 ∈ l ∧ ∃ r, acc.1.store.found e.2 = .lapsed r) := by
  induction l with
  | nil => simp
  | cons x l ih =>
    intro acc
    obtain ⟨hx, hl'⟩ := List.nodup_cons.1 hl
    obtain ⟨-, -, -, -, -, directory⟩ := takeOne_spec acc x
    rw [List.foldl_cons, ih hl', directory, List.mem_cons]
    by_cases h : x = .slot e.2
    · rw [← h]
      simp [hx]
    · have found : (takeOne acc x).1.store.found e.2 = acc.1.store.found e.2 :=
        congrArg Cell.found (takeOne_cellAt_ne acc x e.2 h)
      rw [found]
      simp [h, Ne.symm h]

/-! ### The bytes of each kind of notice (Table 11-10) -/

theorem State.noticeBytes_applied {s : State} {n : AppliedNotice} (h : s.notices.applied = some n) :
    s.noticeBytes .applied = [1, if n.merged then 1 else 0, byteOf n.applied, byteOf n.lapsed, 0, 0] := by
  unfold State.noticeBytes takeOne State.takeApplied
  dsimp only
  rw [h]
  rfl

theorem State.noticeBytes_fault {s : State} {n : FaultNotice} (h : s.notices.fault = some n) :
    s.noticeBytes .fault = [2, if n.repeated then 1 else 0] ++ bytesOfWord n.cycle ++ [0, 0] := by
  unfold State.noticeBytes takeOne State.takeFault
  dsimp only
  rw [h]
  rfl

theorem Record.echoHeld_eq (r : Record) : r.echo.bind Echo.held = r.echoHeld := by
  unfold Record.echoHeld
  cases r.echo <;> rfl

/-- The bytes of a slot's notice, by what the verifying read finds. -/
theorem State.noticeBytes_slot (s : State) (i : Nat) (key : List Byte)
    (hk : key = bytesOfWord ((s.store.keyAt i).getD 0)) :
    (∀ r h, s.store.found i = .lapsed r → r.echoHeld = some h →
        s.noticeBytes (.slot i) = [4, 1] ++ key ++ bytesOfWord h.value) ∧
      (∀ r, s.store.found i = .lapsed r → r.echoHeld = none → s.noticeBytes (.slot i) = [4, 0] ++ key ++ [0, 0]) ∧
      (∀ r h, (∃ m g, s.store.found i = .live r m g) ∨ (∃ c n, s.store.found i = .withdrawing r c n) →
        r.echoHeld = some h → s.noticeBytes (.slot i) = [5, 0] ++ key ++ bytesOfWord h.value) ∧
      ∀ b, s.store.found i = .damaged b → s.noticeBytes (.slot i) = [6, 0] ++ key ++ [0, 0] := by
  subst hk
  have bytes : s.noticeBytes (.slot i) = (s.takeSlot i).2 := rfl
  rw [bytes]
  unfold State.takeSlot
  dsimp only
  rw [Store.slotAt_verify_own]
  refine ⟨fun r h hf he => ?_, fun r hf he => ?_, fun r h hf he => ?_, fun b hf => ?_⟩
  · simp only [hf, Record.echoHeld_eq, he]
    rfl
  · simp only [hf, Record.echoHeld_eq, he]
    rfl
  · rcases hf with ⟨m, g, hf⟩ | ⟨c, n, hf⟩
    · simp only [hf, Record.echoHeld_eq, he]
      rfl
    · simp only [hf, Record.echoHeld_eq, he]
      rfl
  · simp only [hf]
    rfl

/-- The device notices come first, so every take reports them. -/
theorem State.device_mem_take (s : State) :
    (s.notices.applied.isSome = true → .applied ∈ s.noticeSources.take 12) ∧
      (s.notices.fault.isSome = true → .fault ∈ s.noticeSources.take 12) := by
  unfold State.noticeSources
  cases s.notices.applied <;> cases s.notices.fault <;> simp

/-- A take ends both device notices. -/
theorem State.takeNotices_notices (s : State) : ((s.noticeSources.take 12).foldl takeOne (s, [])).1.notices = ⟨none, none⟩ := by
  obtain ⟨applied, fault, -⟩ := foldl_takeOne_notices (s.noticeSources.take 12) (s, [])
  obtain ⟨listed, listed'⟩ := s.device_mem_take
  have none_of {α : Type} {o : Option α} {p : Prop} [Decidable p] (h : o.isSome = true → p) :
      (if p then none else o) = none := by
    cases o with
    | none => simp
    | some x => rw [if_pos (h rfl)]
  generalize ((s.noticeSources.take 12).foldl takeOne (s, [])).1.notices = n at applied fault ⊢
  obtain ⟨a, f⟩ := n
  exact congrArg₂ NoticeUnit.mk (applied.trans (none_of listed)) (fault.trans (none_of listed'))

theorem exec_takeNotices (s : State) (h : s.heldAccess = some .takeNotices) : exec .takeNotices s =
    .next (((s.noticeSources.take 12).foldl takeOne (s, [])).1.finish .ok
      (byteOf (s.noticeSources.take 12).length ::
        bytesOfNat ((s.noticeSources.take 12).foldl takeOne (s, [])).1.noticeSources.length ++
          ((s.noticeSources.take 12).foldl takeOne (s, [])).2)) := by
  simp only [exec, execTakeNotices, h]
  rfl

/-- Settles O37: the fold over the notices reported, and the bytes of each kind. -/
theorem takeNoticesReportsTwelve : Obligations.TakeNoticesReportsTwelve := by
  intro s h
  have nodup := s.nodup_noticeSources.sublist (List.take_sublist 12 _)
  obtain ⟨-, -, pointer⟩ := foldl_takeOne_notices (s.noticeSources.take 12) (s, [])
  have frame := foldl_takeOne_frame (s.noticeSources.take 12) (s, [])
  have bytes := foldl_takeOne_bytes s _ nodup (s, []) fun x _ => s.sameSource_refl x
  rw [s.takeNotices_notices] at frame
  refine ⟨_, s.noticeBytes, ?_, fun n => State.noticeBytes_applied, fun n => State.noticeBytes_fault, fun n => rfl,
    fun i => ⟨_, rfl, s.noticeBytes_slot i _ rfl⟩, rfl, frame, pointer, fun n => foldl_takeOne_nodes n _ _, fun i => ?_,
    fun e => foldl_takeOne_directory e _ nodup _⟩
  · rw [exec_takeNotices s h, bytes, List.length_take]
    rfl
  · split
    next hi =>
      exact foldl_takeOne_slotAt i _ nodup _ ((s.slot_mem_noticeSources i).1 (List.mem_of_mem_take hi)).2 hi
    next hi => rw [Store.slotAt_def, foldl_takeOne_cellAt i _ _ hi, ← Store.slotAt_def]

end Sys2Proof.Machine
end

section
/-! The boundary, the invitation, the lease countdown and the due list (O39 to O42). -/

namespace Sys2Proof.Machine

/-! ### The boundary (R37 to R39, R104) -/

/-- A boundary while the scan is not STOPPED: the Scan Engine acts in the state `atBoundary`. -/
theorem exec_boundary_scanning {s : State} (hr : s.timer.running = true) (hs : s.scan.state ≠ .stopped) :
    ∃ a : Arbiter, exec .boundary s = .next ((s.atBoundary false a).scanBoundary false) ∧ a.outstanding 2 = true ∧
      (s.batch.state = .sealed_ → a.outstanding 3 = true) ∧
      (s.batch.state ≠ .sealed_ → a.outstanding 3 = s.arbiter.outstanding 3) := by
  obtain ⟨a, e, o2, sealed_, unsealed⟩ := s.takeBoundary_eq false hs
  refine ⟨a, ?_, o2, sealed_, unsealed⟩
  rw [← e]
  simp only [exec, execBoundary, hr, if_true]

/-- What a boundary sends and invites, by the scan state it takes. -/
theorem State.atBoundary_mark (s : State) (a : Arbiter) {t : State} (e : t = (s.atBoundary false a).scanBoundary false) :
    (s.scan.taken = .run → t.nodes = s.nodes.invite.2 ∧ t.demand.invited = s.nodes.invite.1 ∧ t.demand.state = .closed ∧
      t.scan.line = .mark ∧
      t.scan.sent = markWords false false s.nodes.invite.1 (s.timer.index + 1) (s.timer.count + 1)) ∧
    (s.scan.taken = .hold → t.nodes = s.nodes ∧ t.demand.invited = 0 ∧ t.demand.state = .closed ∧ t.scan.line = .mark ∧
      t.scan.sent = markWords true false 0 (s.timer.index + 1) (s.timer.count + 1)) ∧
    (s.scan.taken = .fault → t.nodes = s.nodes ∧ t.demand.invited = 0 ∧ t.demand.state = .closed ∧ t.scan.line = .idle ∧
      t.scan.sent = s.scan.sent) := by
  refine ⟨fun ht => ?_, fun ht => ?_, fun ht => ?_⟩
  · rw [e, State.scanBoundary_run (s.atBoundary false a) false ht]
    exact ⟨rfl, rfl, rfl, rfl, rfl⟩
  · rw [e, State.scanBoundary_hold (s.atBoundary false a) false ht]
    exact ⟨rfl, rfl, rfl, rfl, rfl⟩
  · rw [e, State.scanBoundary_fault (s.atBoundary false a) false ht]
    exact ⟨rfl, rfl, rfl, rfl, rfl⟩

theorem Arbiter.place_inProgress {a : Arbiter} {d : Claim} (h : a.inProgress = some d) (c : Claim) :
    (a.place c).inProgress = some d := by
  unfold Arbiter.place Arbiter.enqueue
  rw [h]
  dsimp only
  split
  · exact h
  · rfl

/-- A claim of the boundary is outstanding once placed, and leaves the claims of every other accessor. -/
theorem Arbiter.outstanding_place (a : Arbiter) (c : Claim) (h : c ≠ .host) :
    (a.place c).outstanding c.rank = true ∧ ∀ r, r ≠ c.rank → (a.place c).outstanding r = a.outstanding r := by
  have placed : (State.claim { State.reset with arbiter := a } c).arbiter = a.place c := by
    rw [State.claim_place _ _ h]
  have own := State.outstanding_claim { State.reset with arbiter := a } c h
  have others := State.outstanding_claim_ne { State.reset with arbiter := a } c h
  rw [placed] at own others
  exact ⟨own, others⟩

/-- The claims that a boundary places: the countdown's, and the application's while the batch is SEALED (R67, R88). -/
def Arbiter.placeBoundary (a : Arbiter) (sealed : Bool) : Arbiter :=
  if sealed then (a.place .countdown).place .application else a.place .countdown

theorem Arbiter.placeBoundary_spec (a : Arbiter) (sealed : Bool) :
    (∀ c, a.inProgress = some c → (a.placeBoundary sealed).inProgress = some c) ∧
      (a.placeBoundary sealed).outstanding 2 = true ∧
      (sealed = true → (a.placeBoundary sealed).outstanding 3 = true) ∧
      ∀ k, k ≠ 2 → (k ≠ 3 ∨ sealed = false) → (a.placeBoundary sealed).outstanding k = a.outstanding k := by
  obtain ⟨own, others⟩ := a.outstanding_place .countdown (by simp)
  obtain ⟨own', others'⟩ := (a.place .countdown).outstanding_place .application (by simp)
  cases sealed with
  | true =>
    refine ⟨fun c hc => Arbiter.place_inProgress (Arbiter.place_inProgress hc _) _, (others' 2 (by decide)).trans own,
      fun _ => own', fun k h2 h3 => ?_⟩
    have h3 : k ≠ 3 := h3.resolve_right (by simp)
    exact (others' k h3).trans (others k h2)
  | false =>
    exact ⟨fun c hc => Arbiter.place_inProgress hc _, own, fun h => (by cases h), fun k h2 _ => others k h2⟩

/-- A boundary while STOP SCAN has made the scan STOPPED: the timer moves, the due list ends, the claims are placed. -/
theorem exec_boundary_stopped {s : State} (hr : s.timer.running = true) (hs : s.scan.state = .stopped) :
    exec .boundary s = .next { s with
      timer := { s.timer with index := s.timer.index + 1, count := s.timer.count + 1 }
      store := { s.store with due := [] }
      arbiter := s.arbiter.placeBoundary (decide (s.batch.state = .sealed_)) } := by
  have halted : s.takeBoundary false =
      (let v := State.claim { s with timer := s.timer.boundary false, store := { s.store with due := [] } } .countdown
       let w := if v.batch.state = .sealed_ then v.claim .application else v
       if w.scan.state = .stopped then w else w.scanBoundary false) := by
    simp only [State.takeBoundary, if_pos hs]
  have taken : exec .boundary s = .next (s.takeBoundary false) := by simp only [exec, execBoundary, hr, if_true]
  rw [taken, halted]
  simp only [State.claim_place _ _ (show Claim.countdown ≠ .host by simp),
    State.claim_place _ _ (show Claim.application ≠ .host by simp), Arbiter.placeBoundary]
  by_cases hb : s.batch.state = .sealed_
  · simp only [hb, if_true, hs, decide_true]
    rfl
  · simp only [hb, if_false, hs, if_true, decide_false, Bool.false_eq_true]
    rfl

/-- Settles O39: the boundary of a scan that goes on, by the state it takes, and of one that is stopped. -/
theorem boundaryBeginsACycle : Obligations.BoundaryBeginsACycle := by
  refine ⟨fun s hr hs => ?_, fun s hr hs => ?_⟩
  · obtain ⟨a, e, o2, sealed_, unsealed⟩ := exec_boundary_scanning hr hs
    generalize ht : (s.atBoundary false a).scanBoundary false = t at e
    obtain ⟨run, hold, fault⟩ := s.atBoundary_mark a ht.symm
    obtain ⟨state, request⟩ : t.scan.state = s.scan.taken ∧ t.scan.request = .none := by
      rw [← ht]
      exact State.scanBoundary_takes_request (s.atBoundary false a) false hs
    have kept : t.timer = { s.timer with index := s.timer.index + 1, count := s.timer.count + 1 } ∧
        t.store = { s.store with due := [] } ∧ t.batch = s.batch ∧ t.notices = s.notices ∧ t.port = s.port ∧
        t.arbiter = a := by
      rw [← ht, State.scanBoundary_timer, State.scanBoundary_store, State.scanBoundary_batch, State.scanBoundary_notices,
        State.scanBoundary_port, State.scanBoundary_arbiter]
      exact ⟨rfl, rfl, rfl, rfl, rfl, rfl⟩
    obtain ⟨timer, store, batch, notices, port, arbiter⟩ := kept
    refine ⟨t, e, timer, store, batch, notices, port, request, arbiter ▸ o2, arbiter ▸ sealed_, arbiter ▸ unsealed,
      fun h => state.trans (ScanEngine.taken_of_hold _ h), fun h => state.trans (ScanEngine.taken_of_resume _ h),
      fun h => state.trans (ScanEngine.taken_of_none _ h), fun h => run (state.symm.trans h), fun h => ?_, fun h => ?_⟩
    · obtain ⟨nodes, -, rest⟩ := hold (state.symm.trans h)
      exact ⟨nodes, rest⟩
    · obtain ⟨nodes, -, rest⟩ := fault (state.symm.trans h)
      exact ⟨nodes, rest⟩
  · obtain ⟨progress, own, sealed_, others⟩ := s.arbiter.placeBoundary_spec (decide (s.batch.state = .sealed_))
    exact ⟨_, exec_boundary_stopped hr hs, rfl, progress, own, fun h => sealed_ (decide_eq_true h),
      fun k h2 h3 => others k h2 (h3.imp_right decide_eq_false)⟩

/-! ### The invitation (R135) -/

/-- The first node address that satisfies a test. -/
theorem find?_addresses (q : Nat → Bool) (n : Nat) :
    ((List.range Config.nodeCount).map (· + 1)).find? q = some n ↔
      1 ≤ n ∧ n ≤ 62 ∧ q n = true ∧ ∀ m, 1 ≤ m → m < n → q m = false := by
  rw [List.find?_map, Option.map_eq_some_iff]
  constructor
  · rintro ⟨k, hk, rfl⟩
    obtain ⟨lt, hq⟩ := find?_range_some hk
    have lt : k < 62 := lt
    refine ⟨by omega, by omega, hq, fun m h1 h2 => ?_⟩
    obtain ⟨j, rfl⟩ : ∃ j, m = j + 1 := ⟨m - 1, by omega⟩
    exact find?_range_first hk j (by omega)
  · rintro ⟨h1, h2, hq, first⟩
    obtain ⟨k, rfl⟩ : ∃ k, n = k + 1 := ⟨n - 1, by omega⟩
    refine ⟨k, List.find?_range_eq_some.2 ⟨hq, List.mem_range.2 (show k < 62 by omega), fun j hj => ?_⟩, rfl⟩
    have : q (j + 1) = false := first (j + 1) (by omega) (by omega)
    simp [this]

theorem find?_addresses_none (q : Nat → Bool) (h : ∀ m, 1 ≤ m → m ≤ 62 → q m = false) :
    ((List.range Config.nodeCount).map (· + 1)).find? q = none := by
  refine List.find?_eq_none.2 fun x hx => ?_
  obtain ⟨k, hk, rfl⟩ := List.mem_map.1 hx
  have lt : k < 62 := List.mem_range.1 hk
  simp [h (k + 1) (by omega) (by omega)]

/-- The search of the invitation: above the pointer first, then from 1 up to it. -/
theorem NodeTable.order_find? (t : NodeTable) : (t.order.find? fun n => (t.at n).permitted) =
    (((List.range Config.nodeCount).map (· + 1)).find? fun n => decide (t.pointer < n) && (t.at n).permitted).or
      (((List.range Config.nodeCount).map (· + 1)).find? fun n => decide (n ≤ t.pointer) && (t.at n).permitted) := by
  unfold NodeTable.order
  rw [List.find?_append, List.find?_filter, List.find?_filter]
  simp only [decide_eq_true_eq, Bool.decide_and, Bool.decide_eq_true]

theorem NodeTable.invite_of_find? {t : NodeTable} {n : Nat}
    (h : (t.order.find? fun n => (t.at n).permitted) = some n) : t.invite = (n, { t with pointer := n }) := by
  unfold NodeTable.invite
  rw [h]

/-- The choice of the invited node, by where the first permitted address stands. -/
theorem NodeTable.invite_spec (t : NodeTable) :
    ((∀ n, 1 ≤ n → n ≤ 62 → (t.at n).permitted = false) → t.invite = (0, t)) ∧
      ∀ n, 1 ≤ n → n ≤ 62 → (t.at n).permitted = true →
        (t.pointer < n → (∀ m, t.pointer < m → m < n → (t.at m).permitted = false) →
          t.invite = (n, { t with pointer := n })) ∧
        (n ≤ t.pointer → (∀ m, t.pointer < m → m ≤ 62 → (t.at m).permitted = false) →
          (∀ m, 1 ≤ m → m < n → (t.at m).permitted = false) → t.invite = (n, { t with pointer := n })) := by
  refine ⟨fun h => ?_, fun n h1 h2 hp => ⟨fun above first => ?_, fun below none first => ?_⟩⟩
  · have search : (t.order.find? fun n => (t.at n).permitted) = none := by
      rw [t.order_find?, find?_addresses_none _ fun m h1 h2 => by simp [h m h1 h2],
        find?_addresses_none _ fun m h1 h2 => by simp [h m h1 h2]]
      rfl
    unfold NodeTable.invite
    rw [search]
  · refine NodeTable.invite_of_find? ?_
    rw [t.order_find?, (find?_addresses _ n).2 ⟨h1, h2, by simp [above, hp], fun m _ hm => ?_⟩]
    · rfl
    · by_cases hm' : t.pointer < m
      · simp [first m hm' hm]
      · simp [hm']
  · refine NodeTable.invite_of_find? ?_
    rw [t.order_find?, find?_addresses_none _ fun m _ h62 => ?_,
      (find?_addresses _ n).2 ⟨h1, h2, by simp [below, hp], fun m h1 hm => by simp [first m h1 hm]⟩]
    · rfl
    · by_cases hm : t.pointer < m
      · simp [none m hm h62]
      · simp [hm]

theorem State.stopInAccess_nodes (s : State) : s.stopInAccess.nodes = s.nodes := by
  unfold State.stopInAccess
  dsimp only
  split <;> rfl

/-- Settles O40: the choice, the boundaries that make it and those that do not, and the two scan requests. -/
theorem invitationGoesRound : Obligations.InvitationGoesRound := by
  refine ⟨NodeTable.invite_spec, fun s hr h => ?_, fun s hr hs h => ?_, State.stopAtGrant_nodes, fun s h hs => ?_,
    fun s h hs hq => ?_⟩
  · have running : s.scan.state ≠ .stopped ∧ s.scan.taken = .run := by
      rcases h with ⟨hs, hq⟩ | ⟨hs, hq⟩
      · exact ⟨hs, ScanEngine.taken_of_resume _ hq⟩
      · exact ⟨by simp [hs], (ScanEngine.taken_of_none _ hq).trans hs⟩
    obtain ⟨hs, ht⟩ := running
    obtain ⟨a, e, -⟩ := exec_boundary_scanning hr hs
    obtain ⟨state, -⟩ := State.scanBoundary_takes_request (s.atBoundary false a) false hs
    obtain ⟨run, -, -⟩ := s.atBoundary_mark a rfl
    obtain ⟨nodes, invited, -, -, sent⟩ := run ht
    exact ⟨_, e, state.trans ht, nodes, sent, invited⟩
  · obtain ⟨a, e, -⟩ := exec_boundary_scanning hr hs
    obtain ⟨-, hold, fault⟩ := s.atBoundary_mark a rfl
    have taken : s.scan.taken = .hold ∨ s.scan.taken = .fault := by
      rcases h with hq | ⟨hq, hn⟩
      · exact .inl (ScanEngine.taken_of_hold _ hq)
      · rw [ScanEngine.taken_of_none _ hq]
        cases hst : s.scan.state with
        | stopped => exact absurd hst hs
        | run => exact absurd hst hn
        | hold => exact .inl rfl
        | fault => exact .inr rfl
    rcases taken with ht | ht
    · obtain ⟨nodes, invited, -⟩ := hold ht
      exact ⟨_, e, nodes, invited⟩
    · obtain ⟨nodes, invited, -⟩ := fault ht
      exact ⟨_, e, nodes, invited⟩
  · refine ⟨_, exec_stopScan_held s h hs, ?_⟩
    split
    · exact s.stopInAccess_nodes
    · rfl
  · obtain ⟨-, started⟩ := startScanTakesTheFirstBoundary
    obtain ⟨u, e, -, -, -, -, -, nodes, -, invited, -⟩ := started s h hs hq
    exact ⟨_, e, (u.complete_nodes .ok []).trans nodes, (congrArg DemandServer.invited (u.complete_demand .ok [])).trans invited⟩

/-! ### The lease countdown (R67, R68) -/

/-- Settles O41: the countdown's access, and each slot after it. -/
theorem countdownReducesEveryLease : Obligations.CountdownReducesEveryLease := by
  intro s h
  have directory := s.store.directory_countdown s.port.config.withdrawals
  have transfers := s.store.sameTransfers_countdown s.port.config.withdrawals
  have slots := s.store.slotAt_countdown s.port.config.withdrawals
  simp only [exec, execLeaseCountdown, h]
  generalize s.store.countdown s.port.config.withdrawals = st at directory transfers slots ⊢
  exact ⟨{ s with store := st }, rfl, rfl, directory, transfers, fun i hi => (slots i).trans (if_pos hi),
    fun i hi => (slots i).trans (if_neg (Nat.not_lt.2 hi))⟩

/-! ### The due list (R40, R41) -/

theorem Store.carriedAt_iff (st : Store) (i : Nat) (k : RateClass) (p : Nat) : st.carriedAt i k p = true ↔
    st.pageState p = .open_ ∧ ∃ sc, (st.pageAt p).schedule = some sc ∧ sc.cls = k ∧ i % sc.cls.period = sc.phase := by
  unfold Store.carriedAt
  cases (st.pageAt p).schedule with
  | none => simp
  | some sc => simp [Schedule.dueAt, and_comm, and_left_comm]

/-- The entries of one class on a due list that is fixed. -/
theorem Store.mem_fixDue (st : Store) (i : Nat) (e : DueEntry) : e ∈ (st.fixDue i).due ↔
    ∃ p, e = ⟨p, false⟩ ∧ p < 128 ∧ st.pageState p = .open_ ∧
      ∃ sc, (st.pageAt p).schedule = some sc ∧ i % sc.cls.period = sc.phase := by
  have listed : ∀ k : RateClass, k ∈ [RateClass.p1, .p2, .p4, .p8, .p16] := fun k => by cases k <;> decide
  unfold Store.fixDue
  dsimp only
  rw [List.mem_flatMap]
  constructor
  · rintro ⟨k, -, he⟩
    obtain ⟨p, hp, rfl⟩ := List.mem_map.1 he
    obtain ⟨lt, carried⟩ := List.mem_filter.1 hp
    obtain ⟨opened, sc, hsc, -, due⟩ := (st.carriedAt_iff i k p).1 carried
    exact ⟨p, rfl, List.mem_range.1 lt, opened, sc, hsc, due⟩
  · rintro ⟨p, rfl, lt, opened, sc, hsc, due⟩
    exact ⟨sc.cls, listed _, List.mem_map.2 ⟨p, List.mem_filter.2
      ⟨List.mem_range.2 lt, (st.carriedAt_iff i _ p).2 ⟨opened, sc, hsc, rfl, due⟩⟩, rfl⟩⟩

/-- The order of the due list: ascending period, then ascending page. -/
def Store.DueBefore (st : Store) (x y : DueEntry) : Prop :=
  ∀ a b, (st.pageAt x.page).schedule = some a → (st.pageAt y.page).schedule = some b →
    a.cls.period < b.cls.period ∨ (a.cls.period = b.cls.period ∧ x.page < y.page)

theorem Store.pairwise_fixDue (st : Store) (i : Nat) : (st.fixDue i).due.Pairwise st.DueBefore := by
  have cls : ∀ k e, e ∈ (pageIndices.filter (st.carriedAt i k)).map (fun p => (⟨p, false⟩ : DueEntry)) →
      ∀ a, (st.pageAt e.page).schedule = some a → a.cls = k := by
    intro k e he a ha
    obtain ⟨p, hp, rfl⟩ := List.mem_map.1 he
    obtain ⟨-, sc, hsc, hk, -⟩ := (st.carriedAt_iff i k p).1 (List.mem_filter.1 hp).2
    rw [hsc] at ha
    cases ha
    exact hk
  have ascending : [RateClass.p1, .p2, .p4, .p8, .p16].Pairwise fun k k' => k.period < k'.period := by decide
  refine List.pairwise_flatMap.2 ⟨fun k _ => ?_, ascending.imp fun {k k'} lt x hx y hy a b ha hb => .inl ?_⟩
  · have pages : (pageIndices.filter (st.carriedAt i k)).Pairwise (· < ·) := List.pairwise_lt_range.filter _
    have entries : ((pageIndices.filter (st.carriedAt i k)).map fun p => (⟨p, false⟩ : DueEntry)).Pairwise
        fun x y => x.page < y.page := List.pairwise_map.2 pages
    refine entries.imp_of_mem fun {x y} hx hy lt a b ha hb => .inr ⟨?_, lt⟩
    rw [cls k x hx a ha, cls k y hy b hb]
  · rw [cls k x hx a ha, cls k' y hy b hb]
    exact lt

/-- Settles O42: the members of the list, and its order. -/
theorem dueListHoldsTheOpenDuePages : Obligations.DueListHoldsTheOpenDuePages := by
  intro st i
  refine ⟨fun p => ⟨fun ⟨e, he, hp⟩ => ?_, fun h => ⟨⟨p, false⟩, (st.mem_fixDue i _).2 ⟨p, rfl, h⟩, rfl⟩⟩,
    fun e he => ?_, rfl, st.pairwise_fixDue i⟩
  · obtain ⟨q, rfl, h⟩ := (st.mem_fixDue i e).1 he
    exact hp ▸ h
  · obtain ⟨q, rfl, -⟩ := (st.mem_fixDue i e).1 he
    rfl

end Sys2Proof.Machine
end

section
/-! The page transfer (O43). -/

namespace Sys2Proof.Machine

/-! ### The visit of one slot (R73, R74, R112) -/

/-- What the transfer's visit to a slot does to the table. -/
inductive Store.Visited (st : Store) (i : Nat) : Store → Prop
  | kept (hf : ∀ r c n, st.found i ≠ .withdrawing r c n) : Visited st i st
  | damaged (hf : st.found i = .damaged false) : Visited st i (st.changeSlot i (.damaged false))
  | counted (r : Record) (c : Cause) (n : Nat) (hf : st.found i = .withdrawing r c n)
      (hs : st.slotAt i = .withdrawing r c n) :
      Visited st i (st.changeSlot i (if n ≤ 1 then c.completed r else .withdrawing r c (n - 1)))

theorem Store.verify_of_damaged {st : Store} {i : Nat} (h : st.found i = .damaged false) :
    st.Visited i (st.verify i) := by
  rcases st.verify_cases i with e | ⟨e, -⟩
  · rw [e]
    exact .kept fun r c n => by rw [h]; simp
  · rw [e]
    exact .damaged h

theorem Store.transferSlot_visited (acc : Store × List Entry) (i : Nat) :
    acc.1.Visited i (Store.transferSlot acc i).1 := by
  unfold Store.transferSlot
  dsimp only
  by_cases he : (acc.1.slotAt i).emittable = true
  · rw [if_pos he, Store.slotAt_verify_own]
    cases hf : acc.1.found i with
    | live r m g =>
      rw [(Store.read_of_live hf).1]
      exact .kept fun r c n => by rw [hf]; simp
    | withdrawing r c n =>
      have sound : acc.1.found i ≠ .damaged false := by simp [hf]
      rw [acc.1.verify_eq_self i sound]
      exact .counted r c n hf ((acc.1.found_eq_slotAt i sound).trans hf)
    | damaged b =>
      by_cases hb : acc.1.found i = .damaged false
      · exact Store.verify_of_damaged hb
      · rw [acc.1.verify_eq_self i hb]
        exact .kept fun r c n => by rw [hf]; simp
    | free | reserved | lapsed =>
      rw [acc.1.verify_eq_self i (by simp [hf])]
      exact .kept fun r c n => by rw [hf]; simp
  · have unread : ∀ r c n, acc.1.found i ≠ .withdrawing r c n := fun r c n hf => by
      rw [acc.1.found_eq_slotAt i (by simp [hf]), hf] at he
      exact he rfl
    rw [if_neg he]
    cases hs : acc.1.slotAt i with
    | live r m g => exact absurd (by rw [hs]; rfl) he
    | withdrawing r c n => exact absurd (by rw [hs]; rfl) he
    | free | reserved | lapsed | damaged => exact .kept unread

/-- A withdrawal that is counted down is made FREE exactly where it completes with cause RETIRED (R74). -/
theorem Cause.counted_eq_free (c : Cause) (r : Record) (n : Nat) :
    (if n ≤ 1 then c.completed r else .withdrawing r c (n - 1)) = Slot.free ↔ c = .retired ∧ n ≤ 1 := by
  by_cases hn : n ≤ 1 <;> cases c <;> simp [hn, Cause.completed]

/-- The visit releases the key of a RETIRED record whose withdrawal completes, and no other. -/
theorem Store.Visited.directory {st u : Store} {i : Nat} (h : st.Visited i u) (e : Nat × Nat) :
    e ∈ u.directory ↔ e ∈ st.directory ∧ ¬ (e.2 = i ∧ ∃ r n, st.found i = .withdrawing r .retired n ∧ n ≤ 1) := by
  cases h with
  | kept hf => simp [hf]
  | damaged hf => simp [Store.mem_directory_changeSlot, hf]
  | counted r c n hf hs =>
    rw [Store.mem_directory_changeSlot, Cause.counted_eq_free]
    have same : (∃ r' n', st.found i = .withdrawing r' .retired n' ∧ n' ≤ 1) ↔ c = .retired ∧ n ≤ 1 := by
      rw [hf]
      constructor
      · rintro ⟨r', n', e, hn⟩
        cases e
        exact ⟨rfl, hn⟩
      · rintro ⟨rfl, hn⟩
        exact ⟨r, n, rfl, hn⟩
    rw [same]

/-! ### The Cycle Plan through a transfer (R29, R30, R43) -/

/-- What the transfer of a page keeps, and what it takes from a page that was OPEN and closes. -/
structure Store.Copied (st u : Store) (p : Nat) : Prop where
  others : ∀ q, q ≠ p → u.pageAt q = st.pageAt q
  due : u.due = st.due
  keeps : st.scheduled p = true → u.scheduled p = true →
    (u.pageAt p).schedule = (st.pageAt p).schedule ∧ u.loads = st.loads
  closes : st.scheduled p = true → u.scheduled p = false → (u.pageAt p).schedule = none ∧
    ∀ sc, (st.pageAt p).schedule = some sc → ∀ i, i < 16 →
      u.load i = st.load i - (if i % sc.cls.period = sc.phase then 1 else 0)

theorem Store.copied_refl (st : Store) (p : Nat) : st.Copied st p :=
  ⟨fun _ _ => rfl, rfl, fun _ _ => ⟨rfl, rfl⟩, fun h h' => by rw [h] at h'; cases h'⟩

theorem Store.scheduled_eq_true (st : Store) (p : Nat) :
    st.scheduled p = true ↔ st.pageState p = .open_ ∨ st.pageState p = .opening := by
  unfold Store.scheduled
  rw [decide_eq_true_iff, or_comm]

theorem Store.scheduled_eq_false (st : Store) (p : Nat) :
    st.scheduled p = false ↔ st.pageState p = .closed ∨ st.pageState p = .dormant := by
  rw [← Bool.not_eq_true, st.scheduled_eq_true]
  cases st.pageState p <;> simp

/-- A slot change that makes no slot sent or RESERVED opens no page. -/
theorem Store.scheduled_of_changeSlot {st : Store} {i : Nat} {v : Slot}
    (he : v.emittable = true → (st.slotAt i).emittable = true) (hr : v.isReserved = false) (p : Nat)
    (h : (st.changeSlot i v).scheduled p = true) : st.scheduled p = true := by
  rw [Store.scheduled_iff] at h ⊢
  obtain ⟨k, hk, h⟩ := h
  refine ⟨k, hk, ?_⟩
  rw [Store.slotAt_changeSlot] at h
  split at h
  next e =>
    rw [e]
    rcases h with h | h
    · exact .inl (he h)
    · rw [hr] at h
      cases h
  · exact h

/-- A page whose due entry is marked as transferred is not struck (R43). -/
theorem filter_transferred {due : List DueEntry} {p : Nat} (h : ∀ e ∈ due, e.page = p → e.transferred = true) :
    (due.filter fun e => e.transferred || decide (e.page ≠ p)) = due := by
  refine List.filter_eq_self.2 fun e he => ?_
  by_cases hp : e.page = p
  · simp [h e he hp]
  · simp [hp]

/-- One more slot of the page changed. -/
theorem Store.Copied.changeSlot {st u : Store} {p : Nat} (h : st.Copied u p)
    (hd : ∀ e ∈ st.due, e.page = p → e.transferred = true) {i : Nat} (hi : i / 8 = p) {v : Slot}
    (he : v.emittable = true → (u.slotAt i).emittable = true) (hr : v.isReserved = false) :
    st.Copied (u.changeSlot i v) p := by
  have planned : u.Replanned (u.changeSlot i v) p := hi ▸ u.replanned_changeSlot i v
  have before := Store.scheduled_of_changeSlot he hr p
  refine ⟨fun q hq => (planned.others q hq).trans (h.others q hq), ?_, fun hs ho => ?_, fun hs hc => ?_⟩
  · by_cases ho : (u.changeSlot i v).pageState p = .open_
    · exact (planned.stays ho).trans h.due
    · rw [planned.struck ho, h.due, filter_transferred hd]
  · obtain ⟨schedule, loads⟩ := planned.keeps ((Store.scheduled_eq_true _ p).1 ho)
    obtain ⟨schedule', loads'⟩ := h.keeps hs (before ho)
    exact ⟨schedule.trans schedule', loads.trans loads'⟩
  · obtain ⟨schedule, none, some⟩ := planned.closes ((Store.scheduled_eq_false _ p).1 hc)
    refine ⟨schedule, fun sc hsc n hn => ?_⟩
    cases hu : u.scheduled p with
    | true =>
      obtain ⟨schedule', loads'⟩ := h.keeps hs hu
      rw [some sc (schedule'.trans hsc) n hn]
      unfold Store.load
      rw [loads']
    | false =>
      obtain ⟨schedule', loads'⟩ := h.closes hs hu
      rw [← loads' sc hsc n hn]
      unfold Store.load
      rw [none schedule']

theorem Store.Copied.visited {st u w : Store} {p : Nat} (h : st.Copied u p)
    (hd : ∀ e ∈ st.due, e.page = p → e.transferred = true) {i : Nat} (hi : i / 8 = p) (hv : u.Visited i w) :
    st.Copied w p := by
  cases hv with
  | kept => exact h
  | damaged hf => exact h.changeSlot hd hi (fun he => by cases he) rfl
  | counted r c n hf hs =>
    refine h.changeSlot hd hi (fun _ => by rw [hs]; rfl) ?_
    split
    · cases c <;> rfl
    · rfl

/-! ### The copy of a page (R112) -/

theorem mem_pageSlotIndices (p i : Nat) : i ∈ pageSlotIndices p ↔ i / 8 = p := by
  unfold pageSlotIndices slotIndex Config.slotsPerPage
  rw [List.mem_map]
  constructor
  · rintro ⟨k, hk, rfl⟩
    have := List.mem_range.1 hk
    omega
  · intro h
    exact ⟨i % 8, List.mem_range.2 (Nat.mod_lt _ (by decide)), by omega⟩

theorem nodup_pageSlotIndices (p : Nat) : (pageSlotIndices p).Nodup :=
  List.nodup_range.map fun a b h => by unfold slotIndex at h; omega

/-- The table through the visits of a list of slots of the page. -/
theorem foldl_transferSlot_copied {st : Store} {p : Nat} (hd : ∀ e ∈ st.due, e.page = p → e.transferred = true)
    (l : List Nat) : ∀ acc : Store × List Entry, (∀ i ∈ l, i / 8 = p) → st.Copied acc.1 p →
      st.Copied (l.foldl Store.transferSlot acc).1 p := by
  induction l with
  | nil => exact fun _ _ h => h
  | cons i l ih =>
    exact fun acc hl h => ih _ (fun j hj => hl j (List.mem_cons_of_mem _ hj))
      (h.visited hd (hl i List.mem_cons_self) (Store.transferSlot_visited acc i))

/-- The keys after the visits of a list of slots, each once. -/
theorem foldl_transferSlot_directory (e : Nat × Nat) (l : List Nat) (hl : l.Nodup) : ∀ acc : Store × List Entry,
    e ∈ (l.foldl Store.transferSlot acc).1.directory ↔ e ∈ acc.1.directory ∧
      ¬ (e.2 ∈ l ∧ ∃ r n, acc.1.found e.2 = .withdrawing r .retired n ∧ n ≤ 1) := by
  induction l with
  | nil => simp
  | cons i l ih =>
    intro acc
    obtain ⟨hi, hl'⟩ := List.nodup_cons.1 hl
    rw [List.foldl_cons, ih hl', (Store.transferSlot_visited acc i).directory, List.mem_cons]
    by_cases he : e.2 = i
    · rw [he]
      simp [hi]
    · have found : (Store.transferSlot acc i).1.found e.2 = acc.1.found e.2 :=
        congrArg Cell.found (Store.transferSlot_other acc i e.2 he)
      rw [found]
      simp [he]

/-- Everything the copy of a page does. -/
theorem Store.copyPage_spec (st : Store) (p : Nat) (count : Word) :
    (st.copyPage p count).2.page = p ∧
      (st.copyPage p count).2.entries = (pageSlotIndices p).filterMap (fun i => (st.cellAt i).entry i) ∧
      (∀ j, (st.copyPage p count).1.slotAt j = if j / 8 = p then (st.cellAt j).transferred else st.slotAt j) ∧
      (∀ e, e ∈ (st.copyPage p count).1.directory ↔ e ∈ st.directory ∧
        ¬ (e.2 / 8 = p ∧ ∃ r n, st.found e.2 = .withdrawing r .retired n ∧ n ≤ 1)) ∧
      ((st.copyPage p count).1.pageAt p).lastTransfer = some count ∧
      (∀ q, q ≠ p → (st.copyPage p count).1.pageAt q = st.pageAt q) ∧
      (st.pageState p = .open_ → (st.copyPage p count).1.scheduled p = true →
        ((st.copyPage p count).1.pageAt p).schedule = (st.pageAt p).schedule ∧ (st.copyPage p count).1.loads = st.loads) ∧
      (st.pageState p = .open_ → (st.copyPage p count).1.scheduled p = false →
        ((st.copyPage p count).1.pageAt p).schedule = none ∧
          ∀ sc, (st.pageAt p).schedule = some sc → ∀ i, i < 16 → (st.copyPage p count).1.load i =
            st.load i - (if i % sc.cls.period = sc.phase then 1 else 0)) ∧
      (st.copyPage p count).1.due =
        st.due.map (fun e => if e.page = p then { e with transferred := true } else e) := by
  have marked : ∀ e ∈ (st.markTransferred p).due, e.page = p → e.transferred = true := by
    intro e he hp
    obtain ⟨x, -, rfl⟩ := List.mem_map.1 he
    by_cases hx : x.page = p
    · rw [if_pos hx]
    · rw [if_neg hx] at hp
      exact absurd hp hx
  have copied := foldl_transferSlot_copied marked (pageSlotIndices p) (st.markTransferred p, [])
    (fun i hi => (mem_pageSlotIndices p i).1 hi) (Store.copied_refl _ p)
  obtain ⟨slots, entries⟩ := Store.transferSlots (pageSlotIndices p) (nodup_pageSlotIndices p) (st.markTransferred p, [])
  have directory := fun e =>
    foldl_transferSlot_directory e (pageSlotIndices p) (nodup_pageSlotIndices p) (st.markTransferred p, [])
  unfold Store.copyPage
  generalize (pageSlotIndices p).foldl Store.transferSlot (st.markTransferred p, []) = v at copied slots entries directory ⊢
  obtain ⟨others, due, keeps, closes⟩ := copied
  have scheduled : st.pageState p = .open_ → (st.markTransferred p).scheduled p = true := fun h =>
    (Store.scheduled_eq_true _ p).2 (.inl h)
  simp only [mem_pageSlotIndices] at slots directory
  refine ⟨rfl, entries, slots, directory, ?_, fun q hq => ?_, fun ho hs => ?_, fun ho hs => ?_, due⟩
  · rw [Store.pageAt_setLastTransfer, if_pos rfl]
  · rw [Store.pageAt_setLastTransfer, if_neg hq]
    exact others q hq
  · rw [Store.pageAt_setLastTransfer, if_pos rfl]
    exact keeps (scheduled ho) hs
  · rw [Store.pageAt_setLastTransfer, if_pos rfl]
    exact closes (scheduled ho) hs

theorem exec_pageTransfer_due {s : State} {p : Nat} (h : s.arbiter.inProgress = some (.transfer p))
    (hd : s.store.isDue p = true) : exec .pageTransfer s = .next (State.release { s with
      store := (s.store.copyPage p s.timer.count).1
      scan := if s.scan.state = .run then s.scan.fill (s.store.copyPage p s.timer.count).2 else s.scan }) := by
  simp only [exec, execPageTransfer, h, if_pos hd]
  split <;> rfl

/-- Settles O43: a struck page, the copy of a due one, and the register that takes it. -/
theorem transferCopiesThePage : Obligations.TransferCopiesThePage := by
  refine ⟨fun p s h => ⟨fun hd => ?_, fun hd => ?_⟩, fun e f => ⟨fun hA => ?_, fun hA hB => ?_, fun hA hB => ?_⟩⟩
  · simp only [exec, execPageTransfer, h, hd, Bool.false_eq_true, if_false]
  · obtain ⟨page, entries, slots, directory, lastTransfer, pages, keeps, closes, due⟩ :=
      s.store.copyPage_spec p s.timer.count
    refine ⟨_, _, exec_pageTransfer_due h hd, page, entries, fun k hk => ?_, fun j hj => ?_, directory, lastTransfer, pages,
      fun ho => ⟨fun hs => ?_, fun hs => ?_⟩, due⟩
    · rw [slots, if_pos (by omega)]
    · rw [slots, if_neg hj]
    · exact keeps ho ((Store.scheduled_eq_true _ p).2 hs)
    · exact closes ho ((Store.scheduled_eq_false _ p).2 hs)
  · unfold ScanEngine.fill
    rw [if_pos hA]
  · unfold ScanEngine.fill
    rw [if_neg hA, if_pos hB]
  · unfold ScanEngine.fill
    rw [if_neg hA, if_neg hB]

end Sys2Proof.Machine
end

section
/-! The frames, the words on the line and their reception (O44, O45). -/

namespace Sys2Proof.Machine

/-! ### The fields of the lead words (R161, R162, Table 11-3) -/

theorem toNat_append_add {n m : Nat} (x : BitVec n) (y : BitVec m) : (x ++ y).toNat = x.toNat * 2 ^ m + y.toNat := by
  rw [BitVec.toNat_append, ← Nat.shiftLeft_add_eq_or_of_lt y.isLt, Nat.shiftLeft_eq]

theorem toNat_ofBool (b : Bool) : (BitVec.ofBool b).toNat = b.toNat := by cases b <;> rfl

theorem markLead_fields (hold start : Bool) (invited : Nat) (index : BitVec 4) (h : invited ≤ 62) :
    leadData 1 (hold.toNat * 2048 + start.toNat * 1024 + invited * 16 + index.toNat) =
      1#4 ++ BitVec.ofBool hold ++ BitVec.ofBool start ++ BitVec.ofNat 6 invited ++ index := by
  refine BitVec.eq_of_toNat_eq ?_
  have hh := hold.toNat_lt
  have hs := start.toNat_lt
  have hi := index.isLt
  have fits : invited % 2 ^ 6 = invited := Nat.mod_eq_of_lt (by omega)
  unfold leadData
  simp only [toNat_append_add, toNat_ofBool, BitVec.toNat_ofNat, fits]
  omega

theorem entryLead_fields (node channel : Nat) (withdraw reply : Bool) (hn : node ≤ 63) (hc : channel ≤ 15) :
    leadData 3 (node * 64 + channel * 4 + withdraw.toNat * 2 + reply.toNat) =
      3#4 ++ BitVec.ofNat 6 node ++ BitVec.ofNat 4 channel ++ BitVec.ofBool withdraw ++ BitVec.ofBool reply := by
  refine BitVec.eq_of_toNat_eq ?_
  have hw := withdraw.toNat_lt
  have hr := reply.toNat_lt
  have fitsNode : node % 2 ^ 6 = node := Nat.mod_eq_of_lt (by omega)
  have fitsChannel : channel % 2 ^ 4 = channel := Nat.mod_eq_of_lt (by omega)
  unfold leadData
  simp only [toNat_append_add, toNat_ofBool, BitVec.toNat_ofNat, fitsNode, fitsChannel]
  omega

theorem lengthWord_fields (length : Nat) (revision : Byte) (h : length ≤ 8) :
    BitVec.ofNat 16 (length * 256 + revision.toNat) = 0#4 ++ BitVec.ofNat 4 length ++ revision := by
  refine BitVec.eq_of_toNat_eq ?_
  have hr := revision.isLt
  have fits : length % 2 ^ 4 = length := Nat.mod_eq_of_lt (by omega)
  simp only [toNat_append_add, BitVec.toNat_ofNat, fits]
  omega

theorem frameLead_fields (page length : Nat) (hp : page < 128) (hl : length ≤ 8) :
    leadData 2 (page * 32 + length * 2) = 2#4 ++ BitVec.ofNat 7 page ++ BitVec.ofNat 4 length ++ 0#1 := by
  refine BitVec.eq_of_toNat_eq ?_
  have fitsPage : page % 2 ^ 7 = page := Nat.mod_eq_of_lt (by omega)
  have fitsLength : length % 2 ^ 4 = length := Nat.mod_eq_of_lt (by omega)
  unfold leadData
  simp only [toNat_append_add, BitVec.toNat_ofNat, fitsPage, fitsLength]
  omega

theorem markWords_fields (hold start : Bool) (invited : Nat) (index : BitVec 4) (count : Word) (h : invited ≤ 62) :
    markWords hold start invited index count = closeItem
      [(true, 1#4 ++ BitVec.ofBool hold ++ BitVec.ofBool start ++ BitVec.ofNat 6 invited ++ index), (false, count)] := by
  unfold markWords
  rw [markLead_fields hold start invited index h]

theorem entryWords_fields (e : Entry) (hn : e.node ≤ 63) (hc : e.channel ≤ 15) (hl : e.payload.length ≤ 8) :
    entryWords e =
      [(true, 3#4 ++ BitVec.ofNat 6 e.node ++ BitVec.ofNat 4 e.channel ++ BitVec.ofBool e.withdraw ++
          BitVec.ofBool e.reply),
        (false, e.key), (false, 0#4 ++ BitVec.ofNat 4 e.payload.length ++ e.revision)] ++
        e.payload.map fun w => (false, w) := by
  unfold entryWords
  rw [entryLead_fields e.node e.channel e.withdraw e.reply hn hc, lengthWord_fields _ _ hl]

theorem frameWords_fields (f : Frame) (count : Word) (hp : f.page < 128) (hl : f.entries.length ≤ 8) :
    frameWords f count = closeItem
      ([(true, 2#4 ++ BitVec.ofNat 7 f.page ++ BitVec.ofNat 4 f.entries.length ++ 0#1), (false, count)] ++
        f.entries.flatMap entryWords) := by
  unfold frameWords
  rw [frameLead_fields _ _ hp hl]

end Sys2Proof.Machine

namespace Sys2Proof

/-! ### Parity and the bit times (R161) -/

/-- The parity recursion is the parity of the number of ones. -/
theorem oddOnes_toNat (n : Nat) (w : Word) :
    (oddOnes n w).toNat = ((List.range n).countP fun k => w.getLsbD k) % 2 := by
  induction n with
  | zero => rfl
  | succ n ih =>
    rw [List.range_succ, List.countP_append, List.countP_singleton, Nat.add_mod, ← ih]
    show (xor (w.getLsbD n) (oddOnes n w)).toNat = _
    cases w.getLsbD n <;> cases oddOnes n w <;> rfl

/-- The parity bit makes the number of ones even. -/
theorem parityOf_even (lead : Bool) (data : Word) :
    (lead.toNat + (parityOf lead data).toNat + (List.range 16).countP fun k => data.getLsbD k) % 2 = 0 := by
  have ones := oddOnes_toNat 16 data
  unfold parityOf
  rw [Nat.add_mod, ← ones]
  cases lead <;> cases oddOnes 16 data <;> rfl

/-- A parity bit that makes the number of ones even is the parity. -/
theorem parity_eq_iff (lead parity : Bool) (data : Word) : parity = parityOf lead data ↔
    (lead.toNat + ((List.range 16).countP fun k => data.getLsbD k) + parity.toNat) % 2 = 0 := by
  have ones := oddOnes_toNat 16 data
  unfold parityOf
  rw [Nat.add_right_comm, Nat.add_mod, ← ones]
  cases lead <;> cases parity <;> cases oddOnes 16 data <;> simp

/-- The ones among type, data and parity, on the line. -/
theorem LineWord.count_bits (w : LineWord) : ((w.bits.drop 1).take 18).count true =
    w.lead.toNat + ((List.range 16).countP fun k => w.data.getLsbD k) + w.parity.toNat := by
  have order : (List.range 16).map (fun k => 15 - k) = (List.range 16).reverse := by decide
  have data : ((List.range 16).map fun k => w.data.getLsbD (15 - k)).count true =
      (List.range 16).countP fun k => w.data.getLsbD k := by
    have composed : ((List.range 16).map fun k => w.data.getLsbD (15 - k)) =
        (List.range 16).reverse.map fun k => w.data.getLsbD k := by
      rw [← order, List.map_map]
      rfl
    rw [composed, List.map_reverse, List.count_reverse, List.count, List.countP_map]
    exact List.countP_congr fun k _ => by simp
  have bits : (w.bits.drop 1).take 18 =
      w.lead :: ((List.range 16).map fun k => w.data.getLsbD (15 - k)) ++ [w.parity] := rfl
  rw [bits, List.count_append, List.count_cons, data, List.count_singleton]
  cases w.lead <;> cases w.parity <;> simp <;> omega

theorem LineWord.sound_iff (w : LineWord) :
    w.sound = true ↔ ((w.bits.drop 1).take 18).count true % 2 = 0 ∧ w.stop = true := by
  unfold LineWord.sound
  rw [w.count_bits, ← parity_eq_iff, Bool.and_eq_true, beq_iff_eq]

end Sys2Proof

namespace Sys2Proof.Machine

/-! ### The words of an item and the CRC-16 (R161, R163) -/

/-- The words of an item: its data words with their type bits, and the CRC-16 over them. -/
theorem closeItem_data (words : List (Bool × Word)) :
    (closeItem words).map (fun w => (w.lead, w.data)) = words ++ [(false, crc16 (words.map Prod.snd))] := by
  unfold closeItem
  rw [List.map_append, List.map_map]
  exact congrArg (· ++ _) (List.map_id' words)

/-- Every word of an item is sent with even parity and its stop bit. -/
theorem closeItem_sent (words : List (Bool × Word)) (w : LineWord) (h : w ∈ closeItem words) : w.stop = true ∧
    (w.lead.toNat + w.parity.toNat + (List.range 16).countP fun k => w.data.getLsbD k) % 2 = 0 := by
  obtain ⟨lead, data, rfl⟩ : ∃ lead data, w = LineWord.make lead data := by
    rcases List.mem_append.1 h with h | h
    · obtain ⟨x, -, rfl⟩ := List.mem_map.1 h
      exact ⟨_, _, rfl⟩
    · exact ⟨_, _, List.mem_singleton.1 h⟩
  exact ⟨rfl, parityOf_even lead data⟩

theorem crc16Bits_eq (n : Nat) : ∀ reg : Word, crc16Bits n reg = (crcShift 0x1021#16)^[n] reg := by
  induction n with
  | zero => exact fun _ => rfl
  | succ n ih => exact fun reg => ih (crc16Bit reg)

/-- A value taken into the CRC-16 register, bit by bit. -/
theorem crc16_append (values : List Word) (v : Word) :
    crc16 (values ++ [v]) = (List.range 16).foldl (crcStep 0x1021#16 v) (crc16 values) := by
  unfold crc16
  rw [List.foldl_append]
  exact (crc16Bits_eq 16 _).trans (crcShift_value 0x1021#16 v _)

/-! ### The frame of a cycle (R107, R108, R111, R113, R117) -/

theorem exec_frameStart_waiting {s : State} {f : Frame} (hr : s.scan.state = .run)
    (hl : s.scan.line = .mark ∨ s.scan.line = .between) (hf : s.scan.waitingFrame = some f) :
    exec .frameStart s = .next (State.claimTransfer
      { s with scan := { s.scan.launch with line := .frame, sent := frameWords f s.timer.count } }) := by
  have start : s.atItemStart = true := decide_eq_true ⟨hr, hl⟩
  simp only [exec, execFrameStart, hf, if_pos start]

theorem FrameRegister.filled?_of_not_filled {r : FrameRegister} (h : r.isFilled = false) : r.filled? = none := by
  cases r with
  | filled f => cases h
  | free | inFlight => rfl

/-- FRAME_START by the register that is FILLED. -/
theorem frameStart_spec (f : Frame) (s : State) (hr : s.scan.state = .run)
    (hl : s.scan.line = .mark ∨ s.scan.line = .between) :
    (s.scan.regA = .filled f → exec .frameStart s = .next (State.claimTransfer { s with
      scan := { s.scan with
        line := .frame, sent := frameWords f s.timer.count, regA := .inFlight f, regB := s.scan.regB.landed } })) ∧
    (s.scan.regA.isFilled = false → s.scan.regB = .filled f → exec .frameStart s = .next (State.claimTransfer { s with
      scan := { s.scan with
        line := .frame, sent := frameWords f s.timer.count, regA := s.scan.regA.landed, regB := .inFlight f } })) := by
  refine ⟨fun hA => ?_, fun hA hB => ?_⟩
  · have frameA : s.scan.regA.filled? = some f := by
      rw [hA]
      rfl
    rw [exec_frameStart_waiting hr hl (f := f) (by unfold ScanEngine.waitingFrame; rw [frameA]; rfl)]
    unfold ScanEngine.launch
    rw [frameA]
  · have frameA := FrameRegister.filled?_of_not_filled hA
    have frameB : s.scan.regB.filled? = some f := by
      rw [hB]
      rfl
    rw [exec_frameStart_waiting hr hl (f := f) (by unfold ScanEngine.waitingFrame; rw [frameA, frameB]; rfl)]
    unfold ScanEngine.launch
    rw [frameA, frameB]

/-- FRAME_END by the reply slots of the frame. -/
theorem frameEnd_spec (f : Frame) (slots : List ReplySlot) (s : State) (hr : s.scan.state = .run)
    (hl : s.scan.line = .frame) (hf : s.scan.frameInFlight = some f) (hs : slots = f.replySlots) :
    (slots = [] → exec .frameEnd s = .next { s with
      scan := { s.scan with line := .between, regA := s.scan.regA.landed, regB := s.scan.regB.landed } }) ∧
    (slots ≠ [] → exec .frameEnd s = .next { s with
      scan := { s.scan with line := .replyWindow }, reply := ⟨s.reply.slots ++ slots, []⟩ }) := by
  subst hs
  refine ⟨fun h => ?_, fun h => ?_⟩
  · simp only [exec, execFrameEnd, hf, if_pos (And.intro hr hl), if_pos h]
    rfl
  · simp only [exec, execFrameEnd, hf, if_pos (And.intro hr hl), if_neg h]

theorem ScanEngine.canFill_iff (e : ScanEngine) : e.canFill = true ↔
    (e.regA = .free ∨ e.regB = .free) ∧ e.regA.isFilled = false ∧ e.regB.isFilled = false := by
  unfold ScanEngine.canFill
  rw [Bool.and_eq_true, Bool.and_eq_true, decide_eq_true_iff, Bool.not_eq_true', Bool.not_eq_true', and_assoc]

/-- The claim for the next entry of the due list, placed or not. -/
theorem State.claimTransfer_spec (s : State) :
    (s.scan.state = .run → s.scan.regA = .free ∧ s.scan.regB.isFilled = false ∨
        s.scan.regB = .free ∧ s.scan.regA.isFilled = false →
      ∀ p, s.store.nextDue = some p → s.claimTransfer = s.claim (.transfer p)) ∧
    (s.scan.state ≠ .run ∨ s.scan.regA.isFilled = true ∨ s.scan.regB.isFilled = true ∨
        s.scan.regA ≠ .free ∧ s.scan.regB ≠ .free ∨ s.store.nextDue = none →
      s.claimTransfer = s) := by
  unfold State.claimTransfer
  refine ⟨fun hr hf p hp => ?_, fun h => ?_⟩
  · have room : (s.scan.regA = .free ∨ s.scan.regB = .free) ∧ s.scan.regA.isFilled = false ∧
        s.scan.regB.isFilled = false := by
      rcases hf with ⟨hA, hB⟩ | ⟨hB, hA⟩
      · exact ⟨.inl hA, by rw [hA]; rfl, hB⟩
      · exact ⟨.inr hB, hA, by rw [hB]; rfl⟩
    rw [if_pos ⟨hr, s.scan.canFill_iff.2 room⟩, hp]
  · split
    next room =>
      obtain ⟨hr, fill⟩ := room
      obtain ⟨free, hA, hB⟩ := s.scan.canFill_iff.1 fill
      have none : s.store.nextDue = none := by
        rcases h with h | h | h | ⟨h, h'⟩ | h
        · exact absurd hr h
        · rw [hA] at h; cases h
        · rw [hB] at h; cases h
        · exact (free.elim h h').elim
        · exact h
      rw [none]
    · rfl

theorem exec_cycleMarkEnd_hold {s : State} (hl : s.scan.line = .mark) (hs : s.scan.state = .hold) :
    exec .cycleMarkEnd s = .next { s with scan := { s.scan with line := .idle } } := by
  simp only [exec, execCycleMarkEnd, if_pos (And.intro hl hs)]

theorem exec_cycleMarkEnd_run {s : State} (hl : s.scan.line = .mark) (hs : s.scan.state = .run) :
    exec .cycleMarkEnd s = .next { s with scan := { s.scan with line := .between } } := by
  have running : ¬ (s.scan.line = .mark ∧ s.scan.state = .hold) := fun h => by
    rw [hs] at h
    cases h.2
  simp only [exec, execCycleMarkEnd, if_neg running, if_pos (And.intro hl hs)]

/-- Settles O44: the commands of a frame, the fields of its words, and the words as bit times. -/
theorem frameTraffic : Obligations.FrameTraffic := by
  refine ⟨frameStart_spec, fun f slots s hr hl hf hs => frameEnd_spec f slots s hr hl hf hs, State.claimTransfer_spec,
    fun s hl => ⟨exec_cycleMarkEnd_hold hl, exec_cycleMarkEnd_run hl⟩, markWords_fields, entryWords_fields,
    frameWords_fields, fun w => ?_, fun s => rfl, hear_items, fun rate => by cases rate <;> rfl, rfl,
    fun words => ⟨closeItem_data words, closeItem_sent words⟩, rfl, crc16_append⟩
  exact ⟨w.length_bits, rfl, rfl, w.bits_data, w.bits_parity, w.bits_stop,
    fun bits => ⟨LineWord.bits_of_ofBits, fun h => h ▸ w.ofBits_bits⟩, w.sound_iff⟩

/-! ### Words received (R121, R137) -/

/-- The reception of words by the window that is open. -/
theorem State.receive_spec (s : State) (words : List LineWord) :
    (s.scan.state = .run → s.scan.line = .replyWindow →
      s.receive words = { s with reply := { s.reply with words := s.reply.words ++ words } }) ∧
    (s.scan.state = .run → s.scan.line = .demandWindow → s.demand.state = .listening →
      s.receive words = { s with demand := { s.demand with words := s.demand.words ++ words } }) ∧
    (¬ (s.scan.state = .run ∧ s.scan.line = .replyWindow) →
      ¬ (s.scan.state = .run ∧ s.scan.line = .demandWindow ∧ s.demand.state = .listening) → s.receive words = s) := by
  unfold State.receive
  refine ⟨fun hr hl => if_pos ⟨hr, hl⟩, fun hr hl hd => ?_, fun hn hn' => ?_⟩
  · rw [if_neg (by simp [hl]), if_pos ⟨hr, hl, hd⟩]
  · rw [if_neg hn, if_neg hn']

/-- Settles O45: the three commands that bring words, by the window. -/
theorem wordsAreTakenByTheOpenWindow : Obligations.WordsAreTakenByTheOpenWindow := by
  intro c words s hc
  have received : exec c s = .next (s.receive words) := by
    rcases hc with rfl | rfl | ⟨w, rfl, rfl⟩ <;> rfl
  obtain ⟨reply, demand, ignored⟩ := s.receive_spec words
  rw [received]
  exact ⟨fun hr hl => congrArg _ (reply hr hl), fun hr hl hd => congrArg _ (demand hr hl hd),
    fun hn hn' => congrArg _ (ignored hn hn')⟩

end Sys2Proof.Machine
end

section
/-! The replies: the expiry of a slot, the echo write-back and the report to the Node Table (O46 to O48). -/

namespace Sys2Proof.Machine

/-! ### The judgement of a slot (Table 7-2, R120 to R122) -/

/-- What makes two words a VALID reply for a key. -/
def ValidReply (key : Word) (value check : LineWord) : Prop :=
  value.sound = true ∧ check.sound = true ∧ value.lead = false ∧ check.lead = false ∧ check.data = crc16 [key, value.data]

theorem judgeReply_valid {key : Word} {value check : LineWord} (h : ValidReply key value check) :
    judgeReply key [value, check] = .valid value.data := if_pos h

theorem judgeReply_invalid {key : Word} {words : List LineWord} (hw : words ≠ [])
    (h : ∀ value check, words = [value, check] → ¬ ValidReply key value check) : judgeReply key words = .invalid := by
  match words with
  | [] => exact absurd rfl hw
  | [_] => rfl
  | [value, check] => exact if_neg (h value check rfl)
  | _ :: _ :: _ :: _ => rfl

/-- A slot that is judged is no longer UNDECIDED. -/
theorem judgeReply_ne_undecided (key : Word) (words : List LineWord) : judgeReply key words ≠ .undecided := by
  unfold judgeReply
  split
  · simp
  · split <;> simp
  · simp

/-- The slot judged is the first UNDECIDED one (R120). -/
theorem judgeFirst_append (words : List LineWord) (handled : List ReplySlot) (x : ReplySlot) (rest : List ReplySlot)
    (hh : ∀ y ∈ handled, y.result ≠ .undecided) (hx : x.result = .undecided) :
    judgeFirst words (handled ++ x :: rest) = handled ++ { x with result := judgeReply x.key words } :: rest := by
  induction handled with
  | nil => exact if_pos hx
  | cons y handled ih =>
    have rest_eq := ih fun z hz => hh z (List.mem_cons_of_mem _ hz)
    show (if y.result = .undecided then _ else y :: judgeFirst words (handled ++ x :: rest)) = _
    rw [if_neg (hh y List.mem_cons_self), rest_eq]
    rfl

theorem any_undecided_append (handled : List ReplySlot) (x : ReplySlot) (rest : List ReplySlot)
    (hh : ∀ y ∈ handled, y.result ≠ .undecided) (hx : x.result ≠ .undecided) :
    ((handled ++ x :: rest).any fun y => decide (y.result = .undecided)) =
      rest.any fun y => decide (y.result = .undecided) := by
  have none : (handled.any fun y => decide (y.result = .undecided)) = false := by
    rw [List.any_eq_false]
    exact fun y hy => by simpa using hh y hy
  rw [List.any_append, List.any_cons, none, decide_eq_false hx, Bool.false_or, Bool.false_or]

/-- The state after the slot in progress is judged. -/
theorem State.judged_eq {s : State} {handled rest : List ReplySlot} {x : ReplySlot}
    (hl : s.scan.line = .replyWindow) (hs : s.reply.slots = handled ++ x :: rest)
    (hh : ∀ y ∈ handled, y.result ≠ .undecided) (hx : x.result = .undecided) : s.judged = { s with
      reply := ⟨handled ++ { x with result := judgeReply x.key s.reply.words } :: rest, []⟩
      scan := { s.scan with
        line := if rest.any (fun y => decide (y.result = .undecided)) then .replyWindow else .between } } := by
  have judge : s.reply.judge = ⟨handled ++ { x with result := judgeReply x.key s.reply.words } :: rest, []⟩ := by
    unfold ReplyUnit.judge
    rw [hs, judgeFirst_append _ _ _ _ hh hx]
  unfold State.judged
  dsimp only
  rw [judge, ReplyUnit.windowOpen, any_undecided_append _ _ _ hh (judgeReply_ne_undecided _ _)]
  split
  · rw [← hl]
  · rfl

theorem exec_replySlotExpiry {s : State} (ha : s.scan.abort ≠ .afterSlot) (hr : s.scan.state = .run)
    (hl : s.scan.line = .replyWindow) : exec .replySlotExpiry s =
      .next (if s.judged.arbiter.outstanding 1 then s.judged else s.judged.claimWriteBack) := by
  simp only [exec, execReplySlotExpiry, if_neg ha, if_pos (And.intro hr hl)]
  rfl

/-- The write-back claim, by the slot at the front of the list (R122). -/
theorem State.claimWriteBack_spec (s : State) :
    (∀ x rest, s.reply.slots = x :: rest → x.result ≠ .undecided → s.claimWriteBack = s.claim (.writeBack x)) ∧
      (∀ x rest, s.reply.slots = x :: rest → x.result = .undecided → s.claimWriteBack = s) ∧
      (s.reply.slots = [] → s.claimWriteBack = s) := by
  unfold State.claimWriteBack
  refine ⟨fun x rest h hx => ?_, fun x rest h hx => ?_, fun h => ?_⟩
  · rw [h]
    exact if_neg hx
  · rw [h]
    exact if_pos hx
  · rw [h]

/-- Settles O46: the slot judged, the line, and the claim for the first slot of the list, which is judged. -/
theorem slotExpiryJudgesTheReply : Obligations.SlotExpiryJudgesTheReply := by
  intro handled rest x s ha hr hl hs hh hx
  have judged := State.judged_eq hl hs hh hx
  have decided : ∀ y ∈ handled ++ [{ x with result := judgeReply x.key s.reply.words }], y.result ≠ .undecided := by
    intro y hy
    rcases List.mem_append.1 hy with hy | hy
    · exact hh y hy
    · rw [List.mem_singleton.1 hy]
      exact judgeReply_ne_undecided _ _
  obtain ⟨front, tail, hfront⟩ : ∃ front tail,
      handled ++ [{ x with result := judgeReply x.key s.reply.words }] = front :: tail :=
    List.exists_cons_of_ne_nil (by simp)
  have slots : s.judged.reply.slots = front :: (tail ++ rest) := by
    rw [judged, ← List.cons_append, ← hfront, List.append_assoc]
    rfl
  obtain ⟨claims, -, -⟩ := s.judged.claimWriteBack_spec
  have claimed := claims front _ slots (decided front (by rw [hfront]; exact List.mem_cons_self))
  refine ⟨judgeReply x.key s.reply.words, front, s.judged, fun hw => by rw [hw]; rfl,
    fun value check hw h1 h2 h3 h4 h5 => by rw [hw]; exact judgeReply_valid ⟨h1, h2, h3, h4, h5⟩,
    fun hw h => judgeReply_invalid hw h, judged, by rw [slots]; rfl, ?_⟩
  rw [exec_replySlotExpiry ha hr hl, claimed]

/-! ### The echo write-back (R123 to R125, Table 7-3) -/

theorem Store.writeEcho_not_live {st : Store} {item : ReplySlot} (h : ∀ r m g, st.found item.slot ≠ .live r m g) :
    st.writeEcho item = st.verify item.slot := by
  unfold Store.writeEcho
  dsimp only
  rw [Store.slotAt_verify_own]
  cases hf : st.found item.slot with
  | live r m g => exact absurd hf (h r m g)
  | free | reserved | withdrawing | lapsed | damaged => rfl

theorem Store.writeEcho_live {st : Store} {item : ReplySlot} {r : Record} {m : Option Nat} {g : Bool}
    (h : st.found item.slot = .live r m g) : st.writeEcho item =
      if st.keyAt item.slot = some item.key ∧ r.replyRequested = true then
        st.changeSlot item.slot (.live (r.echoed item.result item.revision) m g)
      else st := by
  obtain ⟨same, standing⟩ := Store.read_of_live h
  unfold Store.writeEcho
  dsimp only
  rw [same, standing]

theorem Store.writeEcho_dropped {st : Store} {item : ReplySlot} {r : Record} {m : Option Nat} {g : Bool}
    (h : st.found item.slot = .live r m g) (hk : st.keyAt item.slot ≠ some item.key ∨ r.replyRequested = false) :
    st.writeEcho item = st := by
  rw [Store.writeEcho_live h, if_neg]
  rintro ⟨hkey, hreply⟩
  rcases hk with hk | hk
  · exact hk hkey
  · rw [hreply] at hk
    cases hk

/-- A write-back changes no slot but its own, and no key. -/
theorem Store.writeEcho_frame (st : Store) (item : ReplySlot) :
    (∀ j, j ≠ item.slot → (st.writeEcho item).slotAt j = st.slotAt j) ∧
      (st.writeEcho item).directory = st.directory := by
  by_cases hl : ∃ r m g, st.found item.slot = .live r m g
  · obtain ⟨r, m, g, hl⟩ := hl
    rw [Store.writeEcho_live hl]
    split
    · obtain ⟨-, others, directory, -⟩ :=
        st.rewritten_changeSlot item.slot (.live (r.echoed item.result item.revision) m g) rfl
      exact ⟨others, directory⟩
    · exact ⟨fun _ _ => rfl, rfl⟩
  · rw [Store.writeEcho_not_live fun r m g h => hl ⟨r, m, g, h⟩]
    exact ⟨fun j hj => st.slotAt_verify_ne _ j hj, st.directory_verify _⟩

theorem Record.echoed_valid {r : Record} {e : Echo} (h : r.echo = some e) (v : Word) (revision : Byte) :
    r.echoed (.valid v) revision = { r with
      echo := some ⟨.fresh, some ⟨v, revision⟩⟩
      echoChanged :=
        if e.held.map EchoHeld.value = some v then r.echoChanged else r.echoChanged.map fun _ => true } := by
  have changed : e.changedBy (.valid v) = true ↔ ¬ e.held.map EchoHeld.value = some v := by
    unfold Echo.changedBy
    cases e.held with
    | none => simp
    | some held =>
      rw [Option.map_some, Option.some.injEq, decide_eq_true_iff]
      exact ne_comm
  unfold Record.echoed
  rw [h]
  dsimp only
  by_cases hc : e.changedBy (.valid v) = true
  · rw [if_pos hc, if_neg (changed.1 hc)]
    rfl
  · rw [if_neg hc, if_pos (not_not.1 fun h => hc (changed.2 h))]
    rfl

theorem Record.echoed_missed {r : Record} {e : Echo} (h : r.echo = some e) {result : ReplyResult}
    (hr : result = .absent ∨ result = .invalid) (revision : Byte) :
    r.echoed result revision = { r with echo := some { e with state := .stale } } := by
  have kept : e.changedBy result = false ∧ e.after result revision = { e with state := .stale } := by
    obtain ⟨state, held⟩ := e
    rcases hr with rfl | rfl <;> cases held <;> exact ⟨rfl, rfl⟩
  unfold Record.echoed
  rw [h]
  dsimp only
  rw [kept.1, kept.2]
  rfl

/-- Settles O47: a write-back by what the read of the slot finds, and by the result. -/
theorem echoIsWrittenToTheNamedLiveRecord : Obligations.EchoIsWrittenToTheNamedLiveRecord := by
  intro item st
  obtain ⟨others, directory⟩ := st.writeEcho_frame item
  refine ⟨others, directory, fun h => ?_, fun r m g h hk => Store.writeEcho_dropped h hk, fun r m g e h he =>
    ⟨Store.writeEcho_dropped h, fun hk hreply => ⟨fun v hv => ?_, fun hv => ?_⟩⟩⟩
  · rw [Store.writeEcho_not_live h, Store.slotAt_verify_own]
  · rw [Store.writeEcho_live h, if_pos ⟨hk, hreply⟩, Store.slotAt_changeSlot, if_pos rfl, hv, Record.echoed_valid he]
  · rw [Store.writeEcho_live h, if_pos ⟨hk, hreply⟩, Store.slotAt_changeSlot, if_pos rfl, Record.echoed_missed he hv]

/-! ### The report to the Node Table (R128, R129, Table 7-5) -/

theorem NodeRecord.erred_eq (r : NodeRecord) :
    r.erred = { r with errors := if r.errors < 255 then r.errors + 1 else 255 } := by
  have bounded : min 255 (r.errors + 1) = if r.errors < 255 then r.errors + 1 else 255 := by
    split <;> omega
  unfold NodeRecord.erred
  rw [bounded]

theorem NodeRecord.missed_errors (r : NodeRecord) (m : Nat) : (r.missed m).errors = r.errors := by
  unfold NodeRecord.missed
  split <;> rfl

/-- A node record after the report of a slot result. -/
theorem NodeRecord.afterReply_spec (r : NodeRecord) (m : Nat) :
    (∀ v, r.afterReply m (.valid v) = { r with presence := .present, misses := 0 }) ∧
      (r.misses < 15 → r.misses + 1 = m →
        r.afterReply m .absent = { r with presence := .silent, misses := r.misses + 1 }) ∧
      (r.misses < 15 → r.misses + 1 ≠ m → r.afterReply m .absent = { r with misses := r.misses + 1 }) ∧
      (15 ≤ r.misses → r.afterReply m .absent = r) ∧
      r.afterReply m .invalid =
        { r.afterReply m .absent with errors := if r.errors < 255 then r.errors + 1 else 255 } := by
  have absent : r.afterReply m .absent = r.missed m := rfl
  refine ⟨fun v => rfl, fun h hm => ?_, fun h hm => ?_, fun h => ?_, ?_⟩
  · rw [absent, NodeRecord.missed, if_pos h, if_pos hm]
  · rw [absent, NodeRecord.missed, if_pos h, if_neg hm]
  · rw [absent, NodeRecord.missed, if_neg (Nat.not_lt.2 h)]
  · show (r.missed m).erred = _
    rw [absent, NodeRecord.erred_eq, NodeRecord.missed_errors]

/-- The register in flight after the handling of a slot result (R113). -/
theorem State.handled_scan (s : State) (item : ReplySlot) :
    ((s.handled item).reply.slots = [] → s.scan.line = .between → (s.handled item).scan = s.scan.landFrame) ∧
      ((s.handled item).reply.slots ≠ [] ∨ s.scan.line ≠ .between → (s.handled item).scan = s.scan) := by
  have slots : (s.handled item).reply.slots = s.reply.slots.drop 1 := by
    unfold State.handled
    dsimp only
    split <;> rfl
  rw [slots]
  unfold State.handled
  dsimp only
  refine ⟨fun h hl => by rw [if_pos ⟨h, hl⟩], fun h => ?_⟩
  rw [if_neg]
  rintro ⟨hs, hl⟩
  exact h.elim (fun h => h hs) fun h => h hl

/-- Settles O48: the write-back access, the claim for the next slot, and the node record by the result. -/
theorem writeBackReportsTheNode : Obligations.WriteBackReportsTheNode := by
  refine ⟨fun item s h => ?_, State.claimWriteBack_spec, NodeRecord.afterReply_spec⟩
  obtain ⟨port, arbiter, store, nodes, slots, timer, batch, notices, demand, -⟩ := s.handled_spec item
  obtain ⟨ended, open_⟩ := s.handled_scan item
  refine ⟨s.handled item, execEchoWriteBack_eq s item h, store, slots, ?_, fun n hn => ?_, ?_, ended, open_, demand, arbiter,
    port, timer, batch, notices⟩
  · rw [nodes, NodeTable.at_set, if_pos rfl]
  · rw [nodes, NodeTable.at_set, if_neg hn]
  · rw [nodes]
    rfl

end Sys2Proof.Machine
end

section
/-! The demand window, the line fault and the storage upset (O49 to O53). -/

namespace Sys2Proof.Machine

/-! ### The demand window (R107, R137, R138, R140) -/

/-- The frames of a cycle are done once its due list is worked through and no frame waits. -/
theorem State.framesDone_of {s : State} (h0 : s.arbiter.outstanding 0 = false) (h2 : s.arbiter.outstanding 2 = false)
    (h3 : s.arbiter.outstanding 3 = false) (hd : ∀ e ∈ s.store.due, e.transferred = true)
    (hA : s.scan.regA.isFilled = false) (hB : s.scan.regB.isFilled = false) : s.framesDone = true := by
  have worked : s.store.nextDue = none := by
    unfold Store.nextDue
    rw [List.find?_eq_none.2 fun e he => by simp [hd e he]]
  have unsent : s.scan.waitingFrame = none := by
    unfold ScanEngine.waitingFrame
    rw [FrameRegister.filled?_of_not_filled hA, FrameRegister.filled?_of_not_filled hB]
    rfl
  unfold State.framesDone
  rw [h0, h2, h3, worked, unsent]
  rfl

theorem exec_demandWindowOpen_done {s : State} (hr : s.scan.state = .run)
    (hl : s.scan.line = .mark ∨ s.scan.line = .between) (hd : s.framesDone = true) :
    exec .demandWindowOpen s = .next { s with
      scan := { s.scan with line := .demandWindow, regA := s.scan.regA.landed, regB := s.scan.regB.landed }
      demand := ⟨if s.demand.invited = 0 then .silentWindow else .listening, s.demand.invited, none, [], none⟩ } := by
  have start : s.atItemStart = true := decide_eq_true ⟨hr, hl⟩
  simp only [exec, execDemandWindowOpen, if_pos (And.intro start hd)]
  rfl

theorem exec_answerAllowanceStart_ready {s : State} {a : Answer} (hr : s.scan.state = .run)
    (hl : s.demand.state = .looking) (ha : s.demand.ready = some a) : exec .answerAllowanceStart s = .next { s with
      demand := { s.demand with state := .answering, answer := some a }
      scan := { s.scan with sent := answerWords a s.demand.invited s.timer.index } } := by
  simp only [exec, execAnswerAllowanceStart, ha, if_pos (And.intro hr hl)]

/-- The opening word of an answer carries its kind, the invited node and the cycle index. -/
theorem answerLead_fields (kind : BitVec 2) (invited : Nat) (index : BitVec 4) (h : invited ≤ 62) :
    answerLead kind.toNat invited index = (true, 5#4 ++ kind ++ BitVec.ofNat 6 invited ++ index) := by
  have hk := kind.isLt
  have hi := index.isLt
  have fits : invited % 2 ^ 6 = invited := Nat.mod_eq_of_lt (by omega)
  refine congrArg (Prod.mk true) (BitVec.eq_of_toNat_eq ?_)
  unfold leadData
  simp only [toNat_append_add, BitVec.toNat_ofNat, fits]
  omega

/-- The words of each answer, by its kind. -/
theorem answerWords_kinds (invited : Nat) (index : BitVec 4) (kind : BitVec 2 → Word) (h : invited ≤ 62)
    (hk : kind = fun k => 5#4 ++ k ++ BitVec.ofNat 6 invited ++ index) :
    (∀ e, answerWords (.entry e) invited index = closeItem ((true, kind 0) :: entryWords e)) ∧
      (∀ e, answerWords (.withdrawal e) invited index = closeItem ((true, kind 1) :: entryWords e)) ∧
      ∀ key, answerWords (.notFound key) invited index = closeItem [(true, kind 2), (false, key)] := by
  have lead : ∀ k, answerLead (BitVec.toNat k) invited index = (true, kind k) := fun k => by
    rw [hk]
    exact answerLead_fields k invited index h
  refine ⟨fun e => ?_, fun e => ?_, fun key => ?_⟩
  · exact congrArg (fun w => closeItem (w :: entryWords e)) (lead 0)
  · exact congrArg (fun w => closeItem (w :: entryWords e)) (lead 1)
  · exact congrArg (fun w => closeItem [w, (false, key)]) (lead 2)

/-- Settles O49: the opening of the window, its answer, its end, and the words of an answer. -/
theorem demandWindowOpensAnswersAndEnds : Obligations.DemandWindowOpensAnswersAndEnds := by
  refine ⟨fun s hr hl h0 h2 h3 hd hA hB => exec_demandWindowOpen_done hr hl (State.framesDone_of h0 h2 h3 hd hA hB),
    fun a s hr hl ha => ?_, fun key s hr hl ha hk hn => ?_, fun s hr hl => ?_, fun s hr hl hd => ?_, answerWords_kinds, ?_⟩
  · have ready : s.demand.ready = some a := by
      unfold DemandServer.ready
      rw [ha]
    rw [exec_answerAllowanceStart_ready hr hl ready, ← ha]
  · have named : keyInRange key = false := by
      rw [← Bool.not_eq_true, keyInRange_iff]
      rcases hn with rfl | rfl <;> simp
    have ready : s.demand.ready = some (.notFound key) := by
      unfold DemandServer.ready
      rw [ha, hk]
      simp [named]
    exact exec_answerAllowanceStart_ready hr hl ready
  · simp only [exec, execAnswerSent, if_pos (And.intro hr hl)]
  · simp only [exec, execDemandWindowEnd, if_pos (And.intro hr (And.intro hl hd))]
    rfl
  · rw [List.map_take]
    exact (congrArg (List.take 6)
      (closeItem_data (answerLead 0 20 1 :: entryWords ⟨16, 300, 9, 3, 4, false, true, [0x0010, 0x0220]⟩))).trans rfl

/-! ### The judgement of a demand request (Table 8-2, R130, R138) -/

theorem LineWord.fromInvited_iff (w : LineWord) (invited : Nat) : w.fromInvited invited = true ↔
    w.sound = true ∧ w.lead = true ∧ w.code = 4 ∧ w.requester.toNat = invited := by
  unfold LineWord.fromInvited
  rw [Bool.and_eq_true, Bool.and_eq_true, Bool.and_eq_true, decide_eq_true_iff, decide_eq_true_iff, and_assoc, and_assoc]

theorem judgeRequest_foreign {invited : Nat} {first : LineWord} {rest : List LineWord}
    (h : ¬ (first.sound = true ∧ first.lead = true ∧ first.code = 4 ∧ first.requester.toNat = invited)) :
    judgeRequest invited (first :: rest) = .foreign :=
  if_pos (Bool.eq_false_iff.2 fun e => h ((LineWord.fromInvited_iff first invited).1 e))

/-- What makes two words behind a trusted first word a VALID request. -/
def ValidRequest (first key check : LineWord) : Prop :=
  key.sound = true ∧ check.sound = true ∧ key.lead = false ∧ check.lead = false ∧
    check.data = crc16 [first.data, key.data]

theorem judgeRequest_valid {invited : Nat} {first key check : LineWord} (hf : first.fromInvited invited = true)
    (h : ValidRequest first key check) : judgeRequest invited [first, key, check] = .valid key.data := by
  unfold judgeRequest
  dsimp only
  rw [if_neg (by simp [hf])]
  exact if_pos h

theorem judgeRequest_bad {invited : Nat} {first : LineWord} {rest : List LineWord} (hf : first.fromInvited invited = true)
    (h : ∀ key check, rest = [key, check] → ¬ ValidRequest first key check) :
    judgeRequest invited (first :: rest) = .bad := by
  unfold judgeRequest
  dsimp only
  rw [if_neg (by simp [hf])]
  match rest with
  | [] => rfl
  | [_] => rfl
  | [key, check] => exact if_neg (h key check rfl)
  | _ :: _ :: _ :: _ => rfl

/-- The end of the request allowance, by the judgement of its words. -/
theorem exec_requestAllowanceEnd {s : State} (ha : s.scan.abort ≠ .afterAllowance) (hr : s.scan.state = .run)
    (hl : s.demand.state = .listening) :
    (judgeRequest s.demand.invited s.demand.words = .noRequest → exec .requestAllowanceEnd s = .next s.silenceWindow) ∧
      (judgeRequest s.demand.invited s.demand.words = .foreign → exec .requestAllowanceEnd s = .next s.silenceWindow) ∧
      (judgeRequest s.demand.invited s.demand.words = .bad →
        exec .requestAllowanceEnd s = .next s.chargeDemand.silenceWindow) ∧
      ∀ key, judgeRequest s.demand.invited s.demand.words = .valid key →
        exec .requestAllowanceEnd s = .next (s.takeDemand key) := by
  refine ⟨fun h => ?_, fun h => ?_, fun h => ?_, fun key h => ?_⟩ <;>
    simp only [exec, execRequestAllowanceEnd, if_neg ha, if_pos (And.intro hr hl), h]

/-- The node records after one of them is replaced. -/
theorem NodeTable.at_set_spec (t : NodeTable) (n : Nat) (r : NodeRecord) :
    (t.set n r).at n = r ∧ (∀ m, m ≠ n → (t.set n r).at m = t.at m) ∧ (t.set n r).pointer = t.pointer :=
  ⟨by rw [NodeTable.at_set, if_pos rfl], fun m hm => by rw [NodeTable.at_set, if_neg hm], rfl⟩

/-- Settles O50: the four judgements of the words received in the request allowance. -/
theorem allowanceEndJudgesTheRequest : Obligations.AllowanceEndJudgesTheRequest := by
  intro s ha hr hl
  obtain ⟨noRequest, foreign, bad, valid⟩ := exec_requestAllowanceEnd ha hr hl
  refine ⟨fun hw => noRequest (by rw [hw]; rfl), fun first rest hw => ⟨fun hf => ?_, fun h1 h2 h3 h4 => ?_⟩⟩
  · exact foreign (by rw [hw]; exact judgeRequest_foreign hf)
  have trusted := (LineWord.fromInvited_iff first s.demand.invited).2 ⟨h1, h2, h3, h4⟩
  refine ⟨fun key check hrest k1 k2 k3 k4 k5 => ?_, fun hn => ?_⟩
  · have judged := valid key.data (by rw [hw, hrest]; exact judgeRequest_valid trusted ⟨k1, k2, k3, k4, k5⟩)
    obtain ⟨own, others, pointer⟩ := s.nodes.at_set_spec s.demand.invited
      ((s.nodes.at s.demand.invited).afterDemand s.port.config.misses)
    refine ⟨{ s with
        nodes := s.nodes.set s.demand.invited ((s.nodes.at s.demand.invited).afterDemand s.port.config.misses)
        demand := { s.demand with state := .looking, key := some key.data, words := [] } }, rfl, own, others, pointer, ?_⟩
    rw [judged]
    unfold State.takeDemand
    dsimp only
    by_cases hk : key.data ≠ 0 ∧ key.data ≠ 0xFFFF
    · rw [if_pos ((keyInRange_iff _).2 hk), if_pos hk]
    · rw [if_neg fun e => hk ((keyInRange_iff _).1 e), if_neg hk]
  · have judged := bad (by rw [hw]; exact judgeRequest_bad trusted hn)
    obtain ⟨own, others, pointer⟩ := s.nodes.at_set_spec s.demand.invited (s.nodes.at s.demand.invited).erred
    exact ⟨s.chargeDemand.silenceWindow, judged, rfl, own.trans (NodeRecord.erred_eq _), pointer, others⟩

/-! ### The demand lookup (R139, Table 8-3) -/

theorem Store.demandLookup_none {st : Store} {key : Word} (entries : List BatchEntry) (h : st.slotOfKey key = none) :
    st.demandLookup entries key = (st, .notFound key) := by
  unfold Store.demandLookup
  rw [h]

theorem Store.demandLookup_some {st : Store} {key : Word} {i : Nat} (entries : List BatchEntry)
    (h : st.slotOfKey key = some i) : st.demandLookup entries key =
      (st.verifyAny entries i, answerFor key i ((st.verifyAny entries i).slotAt i)) := by
  unfold Store.demandLookup
  rw [h]

theorem exec_demandLookup_dropped {s : State} {key : Word} (hi : s.arbiter.inProgress = some (.lookup key))
    (hd : s.demand.state ≠ .looking) : exec .demandLookup s =
      .next (State.release { s with store := (s.store.demandLookup s.batch.entries key).1 }) := by
  simp only [exec, execDemandLookup, hi, if_neg hd]

/-- Settles O51: a lookup by the key and by the state that its read finds, and one whose window has ended. -/
theorem lookupChoosesTheAnswer : Obligations.LookupChoosesTheAnswer := by
  refine ⟨fun key s hi hd => ⟨fun hk => ?_, fun i hk => ?_⟩, fun key s hi hd => ⟨fun hk => ?_, fun i hk => ?_⟩⟩
  · rw [exec_demandLookup_looking s key hi hd, Store.demandLookup_none _ hk]
  · refine ⟨_, answerFor key i ((s.store.verifyAny s.batch.entries i).slotAt i), rfl, ?_, fun r m g hs => ?_,
      fun r c n hs => ?_, fun hl hw => ?_⟩
    · rw [exec_demandLookup_looking s key hi hd, Store.demandLookup_some _ hk]
    · rw [hs]
      rfl
    · rw [hs]
      rfl
    · cases hs : (s.store.verifyAny s.batch.entries i).slotAt i with
      | live r m g => exact absurd hs (hl r m g)
      | withdrawing r c n => exact absurd hs (hw r c n)
      | free | reserved | lapsed | damaged => rfl
  · rw [exec_demandLookup_dropped hi hd, Store.demandLookup_none _ hk]
  · rw [exec_demandLookup_dropped hi hd, Store.demandLookup_some _ hk]

/-! ### The line fault (R115, R118, R145) -/

/-- Settles O52: a mismatch where the part sends a word that is read back, and where it does not. -/
theorem mismatchStopsTheLine : Obligations.MismatchStopsTheLine := by
  intro s
  refine ⟨fun h => ?_, fun h => ?_⟩
  · simp only [exec, execReadbackMismatch, if_pos (s.comparing_iff.2 h), NoticeUnit.lineFault]
    cases s.notices.fault <;> rfl
  · have unread : ¬ s.comparing = true := fun e => by
      rcases (s.comparing_iff.1 e).1 with e | e <;> rw [e] at h <;> simp at h
    simp only [exec, execReadbackMismatch, if_neg unread]

/-! ### The storage upset (R15, R16) -/

/-- An upset leaves all that the table records, and fails the check of the slot's record. -/
theorem Store.upset_spec (st : Store) (i : Nat) :
    (∀ j, j ≠ i → (st.upset i).cellAt j = st.cellAt j) ∧ (st.upset i).directory = st.directory ∧
      (st.upset i).pages = st.pages ∧ (st.upset i).loads = st.loads ∧ (st.upset i).due = st.due ∧
      ((st.slotAt i).record?.isSome = true → ((st.upset i).cellAt i).upset = true) := by
  have cell : ∀ j, Store.cellAt { st with cells := Sparse.put st.cells Cell.empty i ⟨st.slotAt i, true⟩ } j =
      if j = i then ⟨st.slotAt i, true⟩ else st.cellAt j := fun j => Sparse.get_put _ _ _ _ _
  unfold Store.upset
  split
  next hs => exact ⟨fun _ _ => rfl, rfl, rfl, rfl, rfl, fun h => (by rw [hs] at h; cases h)⟩
  next hs => exact ⟨fun _ _ => rfl, rfl, rfl, rfl, rfl, fun h => (by rw [hs] at h; cases h)⟩
  all_goals
    refine ⟨fun j hj => by rw [cell, if_neg hj], rfl, rfl, rfl, rfl, fun _ => ?_⟩
    rw [cell, if_pos rfl]

theorem Store.directory_changeSlot_spec (st : Store) (i : Nat) (v : Slot) :
    (v = .free → (st.changeSlot i v).directory = st.directory.filter fun e => decide (e.2 ≠ i)) ∧
      (v ≠ .free → (st.changeSlot i v).directory = st.directory) := by
  rw [Store.directory_changeSlot]
  exact ⟨fun h => if_pos ((Slot.isFree_iff v).2 h), fun h => if_neg fun e => h ((Slot.isFree_iff v).1 e)⟩

/-- A read that may restore a RESERVED slot is the plain verifying read of every other slot. -/
theorem Store.verifyAny_of_not_reserved {st : Store} (entries : List BatchEntry) {i : Nat}
    (h : ∀ r, st.slotAt i ≠ .reserved r) : st.verifyAny entries i = st.verify i := by
  unfold Store.verifyAny
  cases hs : st.slotAt i with
  | reserved r => exact absurd hs (h r)
  | free | live | withdrawing | lapsed | damaged => rfl

theorem Store.verifyAny_of_reserved {st : Store} (entries : List BatchEntry) {i : Nat} {r : Record}
    (h : st.slotAt i = .reserved r) : st.verifyAny entries i =
      if (st.cellAt i).upset then st.write i (.reserved (stagedCopy entries i r)) else st := by
  unfold Store.verifyAny
  rw [h]

/-- A RESERVED slot is found as it stands. -/
theorem Store.found_of_reserved {st : Store} {i : Nat} {r : Record} (h : st.slotAt i = .reserved r) :
    st.found i = .reserved r := by
  unfold Store.found Cell.found
  rw [← Store.slotAt_def, h]

/-- What the read of an upset slot makes of it (R16). -/
theorem Store.verifyAny_upset {st : Store} {i : Nat} (entries : List BatchEntry) (hu : (st.cellAt i).upset = true) :
    (∀ r m g, st.slotAt i = .live r m g → (st.verifyAny entries i).slotAt i = .damaged false) ∧
      (∀ r c n, st.slotAt i = .withdrawing r c n → (st.verifyAny entries i).slotAt i = .damaged false) ∧
      (∀ r, st.slotAt i = .lapsed r → (st.verifyAny entries i).slotAt i = .damaged false) ∧
      ∀ r, st.slotAt i = .reserved r →
        (st.verifyAny entries i).slotAt i = .reserved (stagedCopy entries i r) ∧
          (st.verifyAny entries i).pages = st.pages ∧ (st.verifyAny entries i).loads = st.loads ∧
          (st.verifyAny entries i).due = st.due := by
  have read (h : ∀ r, st.slotAt i ≠ .reserved r) : (st.verifyAny entries i).slotAt i = st.found i := by
    rw [Store.verifyAny_of_not_reserved entries h, Store.slotAt_verify_own]
  have found : st.found i = (match st.slotAt i with
      | .live _ _ _ | .withdrawing _ _ _ | .lapsed _ => .damaged false
      | v => v) := by
    unfold Store.found Cell.found
    rw [← Store.slotAt_def, hu]
    cases st.slotAt i <;> rfl
  refine ⟨fun r m g h => ?_, fun r c n h => ?_, fun r h => ?_, fun r h => ?_⟩
  · rw [read (by simp [h]), found, h]
  · rw [read (by simp [h]), found, h]
  · rw [read (by simp [h]), found, h]
  · rw [Store.verifyAny_of_reserved entries h, if_pos hu]
    exact ⟨by rw [Store.slotAt_write, if_pos rfl], rfl, rfl, rfl⟩

/-- What any verifying read leaves as it was (R16). -/
theorem Store.verifyAny_spec (st : Store) (entries : List BatchEntry) (i : Nat) :
    (∀ j, j ≠ i → (st.verifyAny entries i).slotAt j = st.slotAt j) ∧
      (st.found i ≠ st.slotAt i → st.Replanned (st.verifyAny entries i) (i / 8)) ∧
      ((st.cellAt i).upset = false → st.verifyAny entries i = st) ∧
      ∀ r, st.slotAt i = .reserved r → st.verify i = st := by
  by_cases h : ∃ r, st.slotAt i = .reserved r
  · obtain ⟨r, hr⟩ := h
    have found := Store.found_of_reserved hr
    rw [Store.verifyAny_of_reserved entries hr]
    refine ⟨fun j hj => ?_, fun hf => absurd (found.trans hr.symm) hf, fun hu => by rw [hu]; rfl,
      fun _ _ => st.verify_eq_self i (by rw [found]; simp)⟩
    split
    · rw [Store.slotAt_write, if_neg hj]
    · rfl
  · have plain := Store.verifyAny_of_not_reserved entries (st := st) (i := i) fun r hr => h ⟨r, hr⟩
    rw [plain]
    exact ⟨fun j hj => st.slotAt_verify_ne i j hj, st.replanned_verify i, st.verify_sound i, fun r hr => absurd ⟨r, hr⟩ h⟩

/-- Settles O53: the upset, the change of a slot, and the next verifying read of the slot. -/
theorem upsetIsFoundAtTheNextRead : Obligations.UpsetIsFoundAtTheNextRead := by
  refine ⟨fun i s => ?_, fun st i v => ?_, fun st i entries => ?_⟩
  · obtain ⟨cells, rest⟩ := s.store.upset_spec i
    exact ⟨s.store.upset i, rfl, s.store.slotAt_upset i, cells, rest⟩
  · obtain ⟨freed, kept⟩ := st.directory_changeSlot_spec i v
    exact ⟨st.slotAt_changeSlot i v, freed, kept, st.replanned_changeSlot i v⟩
  · obtain ⟨others, replanned, sound, reserved⟩ := st.verifyAny_spec entries i
    exact ⟨others, st.directory_verifyAny entries i, Store.verifyAny_upset entries, replanned, sound,
      fun h => (Store.verifyAny_of_not_reserved entries h).symm, reserved⟩

end Sys2Proof.Machine
end
